-- ==== Sys2Proof/Word.lean ====
section
/-! DEFINITION. The plain types every file shares: bytes, addresses, fingerprints, and the sparse tables in
which the part's numbered structures are held. -/

namespace Sys2Proof

/-- One byte of a frame or of a stream. -/
abbrev Byte := BitVec 8

/-- A 48-bit Ethernet address (R2, R186, R190). -/
abbrev Mac := BitVec 48

/-- A chunk's fingerprint F (R58). -/
abbrev Fingerprint := BitVec 128

/-- A 32-bit word: the rolling value H (R44), a gear table entry (R185), a check word C (R59). -/
abbrev Word32 := BitVec 32

/-- A set of up to 16 numbered things carried as a mask: hold sets (bit t for tag t, R206) and status flags
(bit i - 1 for the i-th flag of R194, R203). -/
abbrev Mask16 := BitVec 16

/-- A numbered structure held sparsely: (number, value) pairs with the numbers strictly rising. What an
unlisted number reads as is said where each table is declared. -/
abbrev Tab (α : Type) := List (Nat × α)

/-- The largest value of a 48-bit counter (00_scope, Conventions). -/
def max48 : Nat := 2 ^ 48 - 1

end Sys2Proof
end

