-- ==== Sys2Proof/Syntax.lean ====
section
/-! DEFINITION. The commands: one constructor of `Instr` for each row of spec/opcode_table.json, with the fields
of frames (R202 to R205) and of management requests (R189, R202, R203) that they carry. -/

namespace Sys2Proof

/-- The two Ethernet ports: the I-port faces the branches, the S-port the backup store. -/
inductive Port where
  | i
  | s
  deriving DecidableEq, Repr

/-- The verdict of a STORE ANSWER (R151). -/
inductive Verdict where
  | accept
  | busy
  | fail
  deriving DecidableEq, Repr

/-- A policy entry (R178). -/
structure PolicyEntry where
  k : Nat := 12
  min : Nat := 2048
  max : Nat := 16384
  gear : Nat := 0
  confirm : Bool := true
  retention : Nat := 30
  cls : Nat := 0
  warmUp : Nat := 4
  linger : Nat := 4
  deriving DecidableEq, Repr

/-- A branch entry (R179). -/
structure BranchEntry where
  enabled : Bool := false
  policy : Nat := 0
  holdTag : Nat := 0
  streamLimit : Nat := 2
  quota : Nat := 64
  impliedOpen : Bool := false
  verifyAllowed : Bool := false
  deriving DecidableEq, Repr

/-- The values a LOAD TABLE gives for a policy entry (R180), which may lie outside the stored ranges. `confirm` is the
code given for it, 1 for on and 2 for off (R203). -/
structure PolicyRow where
  k : Nat
  min : Nat
  max : Nat
  gear : Nat
  confirm : Nat
  retention : Nat
  cls : Nat
  warmUp : Nat
  linger : Nat
  deriving DecidableEq, Repr

/-- The values a LOAD TABLE gives for a branch entry (R180), which may lie outside the stored ranges. The three on-off
fields are the codes given for them, 1 for on and 2 for off (R203). -/
structure BranchRow where
  enabled : Nat
  policy : Nat
  holdTag : Nat
  streamLimit : Nat
  quota : Nat
  impliedOpen : Nat
  verifyAllowed : Nat
  deriving DecidableEq, Repr

/-- The arguments of LOAD TABLE (R180): a first entry and the values of the entries from there on. `unknown` is a
table kind the part does not know. -/
inductive TableLoad where
  | policy (first : Nat) (rows : List PolicyRow)
  | branch (first : Nat) (rows : List BranchRow)
  | gear (table first : Nat) (values : List Word32)
  | unknown (kind : Nat)
  deriving DecidableEq, Repr

/-- The arguments of READ TABLE (R182). A bank is carried as its code, 1 for A and 2 for B (R203). -/
inductive TableRead where
  | policy (bank first count : Nat)
  | branch (bank first count : Nat)
  | gear (table first count : Nat)
  | unknown (kind : Nat)
  deriving DecidableEq, Repr

/-- One named field of a SET SETTINGS with the value given for it (R187). `unknown` is a field name the part does
not know. -/
inductive SettingWrite where
  | etherType (value : Nat)
  | storeAddr (value : Mac)
  | gapSteps (value : Nat)
  | retryLimit (value : Nat)
  | retryAction (code : Nat)
  | fence (value : Nat)
  | rotation (value : Nat)
  | promotion (steps : Nat)
  | paceMargin (value : Nat)
  | alertMask (value : Mask16)
  | unknown (name : Nat)
  deriving DecidableEq, Repr

/-- One item of a RESTORE ENTRIES (R80). -/
structure RestoreEntry where
  fp : Fingerprint
  check : Word32
  container : Nat
  offset : Nat
  length : Nat
  count : Nat
  untilDay : Nat
  holds : Mask16
  deriving DecidableEq, Repr

/-- A management request with its arguments (R189, the kinds of R202). The option of READ COUNTERS is carried as its
code, 1 for set and 2 for clear (R196, R203). -/
inductive Request where
  | identify
  | readStatus
  | clearFlags (mask : Mask16)
  | readCounters (option : Nat)
  | setSettings (writes : List SettingWrite)
  | setGeometry (m : Nat)
  | mapGroup (group page : Nat)
  | unmapGroup (group : Nat)
  | setExclusion (range first last : Nat) (active : Bool)
  | loadTable (load : TableLoad)
  | readTable (read : TableRead)
  | swapBanks
  | setDate (year month day seconds dayNumber : Nat)
  | nudge (amount : Int)
  | setHold (tag : Nat) (active : Bool)
  | retire (items : List (Fingerprint × Nat))
  | sweepNow
  | setContainerBase (base : Nat)
  | sealContainers
  | setMode (code : Nat)
  | restoreEntries (items : List RestoreEntry)
  | readEntry (fp : Fingerprint)
  | readStream (slot : Nat)
  | forceEnd (slot : Nat)
  | setManagementSources (sources : List Mac)
  | warmReset
  | unknown (code : Nat)
  deriving DecidableEq, Repr

/-- The commands, in the order of spec/opcode_table.json. A frame's command carries the port it arrives at and
its fields; a request's command carries the port whose head request the Management Responder takes (R191); an
internal event carries what it concerns. -/
inductive Instr where
  | coldReset
  | reservedPageClearingComplete
  | sPortCarrierDown
  | sPortCarrierUp
  | lossTimerExpiry
  | iPortCarrierDown
  | iPortCarrierUp
  | openParcel (port : Port) (source : Mac) (branch stream mode endMode expected : Nat)
  | dataParcel (port : Port) (source : Mac) (branch stream seq : Nat) (payload : List Byte)
  | closeParcel (port : Port) (source : Mac) (branch stream final total : Nat)
  | abortParcel (port : Port) (source : Mac) (branch stream : Nat)
  | mgmtParcel (port : Port) (source : Mac) (number : Nat) (request : Request)
  | storeAnswer (port : Port) (tag serial : Nat) (verdict : Verdict)
  | passThroughFrame (port : Port) (frame : List Byte)
  | fcsErrorFrame (port : Port)
  | malformedFrame (port : Port)
  | wrongDirectionFrame (port : Port)
  | identify (port : Port)
  | readStatus (port : Port)
  | clearFlags (port : Port)
  | readCounters (port : Port)
  | setSettings (port : Port)
  | setGeometry (port : Port)
  | mapGroup (port : Port)
  | unmapGroup (port : Port)
  | setExclusion (port : Port)
  | loadTable (port : Port)
  | readTable (port : Port)
  | swapBanks (port : Port)
  | setDate (port : Port)
  | nudge (port : Port)
  | setHold (port : Port)
  | retire (port : Port)
  | retireItem (port : Port) (index : Nat)
  | sweepNow (port : Port)
  | setContainerBase (port : Port)
  | sealContainers (port : Port)
  | setMode (port : Port)
  | restoreEntries (port : Port)
  | restoreItem (port : Port) (index : Nat)
  | readEntry (port : Port)
  | readStream (port : Port)
  | forceEnd (port : Port)
  | setManagementSources (port : Port)
  | warmReset (port : Port)
  | warmResetComplete
  | warmUpExpiry (slot : Nat)
  | hotListLoadComplete (branch : Nat)
  | hotListRewriteComplete (branch : Nat)
  | lingerExpiry (slot : Nat)
  | gapTick
  | secondsTick
  | takeByte (slot : Nat)
  | digestComplete (slot : Nat)
  | lookup (slot ordinal : Nat)
  | placementRequest (slot ordinal : Nat)
  | lookupResult (slot ordinal : Nat)
  | refBatchTimerExpiry
  | tagGrant
  | sPortTransmitDone
  | iPortTransmitDone
  | answerTimerExpiry (tag : Nat)
  | resendDue (tag : Nat)
  | chunkAcceptAtBucket (slot : Nat)
  | chunkFailAtBucket (slot : Nat)
  | releaseOutcomeAtBucket (address : Nat)
  | sweeperVisit
  | groupInitialisationComplete (group : Nat)
  | bankCopyComplete
  deriving DecidableEq, Repr

end Sys2Proof
end

