-- ==== Sys2Proof/Decode.lean ====
section
/-! DEFINITION. The wire formats of what the part takes (chapter 12): a frame's bytes read as the command it is, and the
frames of those commands written out. The table of commands gives no row any bits, so a word spells no command. -/

namespace Sys2Proof

/-- The command a word spells by the bits of the command table: the table gives no row any bits. -/
def decodeTableWord (_nbits _w : Nat) : Option Instr := none

namespace Wire

/-! ## Numbers, big-endian (R202) -/

/-- A number as n bytes, most significant first. -/
def num : Nat → Nat → List Byte
  | 0, _ => []
  | n + 1, v => num n (v / 256) ++ [BitVec.ofNat 8 (v % 256)]

/-- The number some bytes stand for, most significant first. -/
def value (bytes : List Byte) : Nat := bytes.foldl (fun v b => 256 * v + b.toNat) 0

/-- A flag as a byte: 1 for set, 0 for clear (log 30). -/
def flag (b : Bool) : List Byte := [if b then 1 else 0]

/-- A signed number as 4 bytes, in two's complement (R202). -/
def signed (v : Int) : List Byte := num 4 (v % 4294967296).toNat

/-- The signed number 4 bytes stand for. -/
def signedValue (v : Nat) : Int := if v < 2147483648 then (v : Int) else (v : Int) - 4294967296

/-! ## Readers: what is read from the front of some bytes, and the rest -/

/-- A number of n bytes. -/
def readNum (n : Nat) (bytes : List Byte) : Option (Nat × List Byte) :=
  if n ≤ bytes.length then some (value (bytes.take n), bytes.drop n) else none

/-- A flag: any value but 0 is set (log 30). -/
def readFlag (bytes : List Byte) : Option (Bool × List Byte) :=
  match bytes with
  | b :: rest => some (b ≠ 0, rest)
  | [] => none

/-- n values, one after another. -/
def readMany {α : Type} (read : List Byte → Option (α × List Byte)) : Nat → List Byte → Option (List α × List Byte)
  | 0, bytes => some ([], bytes)
  | n + 1, bytes =>
    match read bytes with
    | some (a, rest) =>
      match readMany read n rest with
      | some (l, rest) => some (a :: l, rest)
      | none => none
    | none => none

/-- A list with its one-byte count (R202). -/
def readList {α : Type} (read : List Byte → Option (α × List Byte)) (bytes : List Byte) :
    Option (List α × List Byte) :=
  match bytes with
  | n :: rest => readMany read n.toNat rest
  | [] => none

/-- What has been read, if nothing is left (R207: the arguments match their length). -/
def whole {α : Type} (r : Option (α × List Byte)) : Option α :=
  match r with
  | some (a, []) => some a
  | _ => none

/-! ## Arguments of the requests (R202, R203) -/

/-- A fingerprint. -/
def readFp (bytes : List Byte) : Option (Fingerprint × List Byte) :=
  (readNum 16 bytes).map fun r => (BitVec.ofNat 128 r.1, r.2)

/-- A 32-bit word. -/
def readWord (bytes : List Byte) : Option (Word32 × List Byte) :=
  (readNum 4 bytes).map fun r => (BitVec.ofNat 32 r.1, r.2)

/-- A mask of 16 bits. -/
def readMask (bytes : List Byte) : Option (Mask16 × List Byte) :=
  (readNum 2 bytes).map fun r => (BitVec.ofNat 16 r.1, r.2)

/-- An Ethernet address. -/
def readMac (bytes : List Byte) : Option (Mac × List Byte) :=
  (readNum 6 bytes).map fun r => (BitVec.ofNat 48 r.1, r.2)

/-- An item of a RETIRE: fingerprint and count (R112). -/
def readRetire (bytes : List Byte) : Option ((Fingerprint × Nat) × List Byte) := do
  let (f, bytes) ← readFp bytes
  let (c, bytes) ← readNum 1 bytes
  some ((f, c), bytes)

/-- An item of a RESTORE ENTRIES (R80). -/
def readRestore (bytes : List Byte) : Option (RestoreEntry × List Byte) := do
  let (f, bytes) ← readFp bytes
  let (k, bytes) ← readWord bytes
  let (container, bytes) ← readNum 4 bytes
  let (offset, bytes) ← readNum 4 bytes
  let (length, bytes) ← readNum 4 bytes
  let (count, bytes) ← readNum 4 bytes
  let (untilDay, bytes) ← readNum 4 bytes
  let (holds, bytes) ← readMask bytes
  some (⟨f, k, container, offset, length, count, untilDay, holds⟩, bytes)

/-- The values of a policy entry (R178), 4 bytes each (R203). -/
def readPolicy (bytes : List Byte) : Option (PolicyRow × List Byte) := do
  let (k, bytes) ← readNum 4 bytes
  let (min, bytes) ← readNum 4 bytes
  let (max, bytes) ← readNum 4 bytes
  let (gear, bytes) ← readNum 4 bytes
  let (confirm, bytes) ← readNum 4 bytes
  let (retention, bytes) ← readNum 4 bytes
  let (cls, bytes) ← readNum 4 bytes
  let (warmUp, bytes) ← readNum 4 bytes
  let (linger, bytes) ← readNum 4 bytes
  some (⟨k, min, max, gear, confirm, retention, cls, warmUp, linger⟩, bytes)

/-- The values of a branch entry (R179), 4 bytes each (R203). -/
def readBranch (bytes : List Byte) : Option (BranchRow × List Byte) := do
  let (enabled, bytes) ← readNum 4 bytes
  let (policy, bytes) ← readNum 4 bytes
  let (holdTag, bytes) ← readNum 4 bytes
  let (streamLimit, bytes) ← readNum 4 bytes
  let (quota, bytes) ← readNum 4 bytes
  let (impliedOpen, bytes) ← readNum 4 bytes
  let (verifyAllowed, bytes) ← readNum 4 bytes
  some (⟨enabled, policy, holdTag, streamLimit, quota, impliedOpen, verifyAllowed⟩, bytes)

/-- LOAD TABLE: kind, (gear table,) first entry, count, values (R180, R185). What follows an unknown kind cannot be
read and is left (log 30). -/
def readLoad (bytes : List Byte) : Option (TableLoad × List Byte) := do
  let (kind, bytes) ← readNum 1 bytes
  if kind = 1 then
    let (first, bytes) ← readNum 4 bytes
    let (count, bytes) ← readNum 4 bytes
    if bytes.length < count then none
    else
      let (rows, bytes) ← readMany readPolicy count bytes
      some (.policy first rows, bytes)
  else if kind = 2 then
    let (first, bytes) ← readNum 4 bytes
    let (count, bytes) ← readNum 4 bytes
    if bytes.length < count then none
    else
      let (rows, bytes) ← readMany readBranch count bytes
      some (.branch first rows, bytes)
  else if kind = 3 then
    let (table, bytes) ← readNum 4 bytes
    let (first, bytes) ← readNum 4 bytes
    let (count, bytes) ← readNum 4 bytes
    if bytes.length < count then none
    else
      let (values, bytes) ← readMany readWord count bytes
      some (.gear table first values, bytes)
  else some (.unknown kind, [])

/-- READ TABLE: kind, (gear table,) first entry, count, (bank) (R182). -/
def readRead (bytes : List Byte) : Option (TableRead × List Byte) := do
  let (kind, bytes) ← readNum 1 bytes
  if kind = 1 then
    let (first, bytes) ← readNum 4 bytes
    let (count, bytes) ← readNum 4 bytes
    let (bank, bytes) ← readNum 1 bytes
    some (.policy bank first count, bytes)
  else if kind = 2 then
    let (first, bytes) ← readNum 4 bytes
    let (count, bytes) ← readNum 4 bytes
    let (bank, bytes) ← readNum 1 bytes
    some (.branch bank first count, bytes)
  else if kind = 3 then
    let (table, bytes) ← readNum 4 bytes
    let (first, bytes) ← readNum 4 bytes
    let (count, bytes) ← readNum 4 bytes
    some (.gear table first count, bytes)
  else some (.unknown kind, [])

/-- A field of a SET SETTINGS: its row in the table of R186, and its value (R203). -/
def readSetting (bytes : List Byte) : Option (SettingWrite × List Byte) := do
  let (name, bytes) ← readNum 1 bytes
  match name with
  | 1 => let (v, bytes) ← readNum 4 bytes; some (.etherType v, bytes)
  | 2 => let (a, bytes) ← readMac bytes; some (.storeAddr a, bytes)
  | 3 => let (v, bytes) ← readNum 4 bytes; some (.gapSteps v, bytes)
  | 4 => let (v, bytes) ← readNum 4 bytes; some (.retryLimit v, bytes)
  | 5 => let (v, bytes) ← readNum 1 bytes; some (.retryAction v, bytes)
  | 6 => let (v, bytes) ← readNum 4 bytes; some (.fence v, bytes)
  | 7 => let (v, bytes) ← readNum 4 bytes; some (.rotation v, bytes)
  | 8 => let (v, bytes) ← readNum 4 bytes; some (.promotion v, bytes)
  | 9 => let (v, bytes) ← readNum 4 bytes; some (.paceMargin v, bytes)
  | 10 => let (m, bytes) ← readMask bytes; some (.alertMask m, bytes)
  | _ => none

/-- The fields of a SET SETTINGS, n of them. What follows an unknown name cannot be read and is left (log 30). -/
def readSettings : Nat → List Byte → Option (List SettingWrite × List Byte)
  | 0, bytes => some ([], bytes)
  | n + 1, bytes =>
    match bytes with
    | [] => none
    | name :: _ =>
      if name = 0 ∨ 10 < name.toNat then some ([.unknown name.toNat], [])
      else
        match readSetting bytes with
        | some (w, rest) =>
          match readSettings n rest with
          | some (l, rest) => some (w :: l, rest)
          | none => none
        | none => none

/-- SET SETTINGS: a count of the fields, and then each field's name directly followed by its value (log 30). -/
def readSettingList (bytes : List Byte) : Option (List SettingWrite × List Byte) :=
  match bytes with
  | n :: rest => readSettings n.toNat rest
  | [] => none

/-- The arguments of a request by its code; none where they do not match their length (R202, R207). -/
def readRequest (code : Nat) (args : List Byte) : Option Request :=
  match code with
  | 0x01 => whole (some (.identify, args))
  | 0x02 => whole (some (.readStatus, args))
  | 0x03 => whole ((readMask args).map fun r => (.clearFlags r.1, r.2))
  | 0x04 => whole ((readNum 1 args).map fun r => (.readCounters r.1, r.2))
  | 0x05 => whole ((readSettingList args).map fun r => (.setSettings r.1, r.2))
  | 0x06 => whole ((readNum 4 args).map fun r => (.setGeometry r.1, r.2))
  | 0x07 => whole do
      let (group, rest) ← readNum 4 args
      let (page, rest) ← readNum 4 rest
      some (.mapGroup group page, rest)
  | 0x08 => whole ((readNum 4 args).map fun r => (.unmapGroup r.1, r.2))
  | 0x09 => whole do
      let (range, rest) ← readNum 4 args
      let (first, rest) ← readNum 4 rest
      let (last, rest) ← readNum 4 rest
      let (active, rest) ← readFlag rest
      some (.setExclusion range first last active, rest)
  | 0x0A => whole ((readLoad args).map fun r => (.loadTable r.1, r.2))
  | 0x0B => whole ((readRead args).map fun r => (.readTable r.1, r.2))
  | 0x0D => whole (some (.swapBanks, args))
  | 0x0E => whole do
      let (year, rest) ← readNum 4 args
      let (month, rest) ← readNum 4 rest
      let (day, rest) ← readNum 4 rest
      let (seconds, rest) ← readNum 4 rest
      let (dayNumber, rest) ← readNum 2 rest
      some (.setDate year month day seconds dayNumber, rest)
  | 0x0F => whole ((readNum 4 args).map fun r => (.nudge (signedValue r.1), r.2))
  | 0x10 => whole do
      let (tag, rest) ← readNum 4 args
      let (active, rest) ← readFlag rest
      some (.setHold tag active, rest)
  | 0x11 => whole ((readList readRetire args).map fun r => (.retire r.1, r.2))
  | 0x12 => whole (some (.sweepNow, args))
  | 0x13 => whole ((readNum 4 args).map fun r => (.setContainerBase r.1, r.2))
  | 0x14 => whole (some (.sealContainers, args))
  | 0x15 => whole ((readNum 1 args).map fun r => (.setMode r.1, r.2))
  | 0x16 => whole ((readList readRestore args).map fun r => (.restoreEntries r.1, r.2))
  | 0x17 => whole ((readFp args).map fun r => (.readEntry r.1, r.2))
  | 0x18 => whole ((readNum 4 args).map fun r => (.readStream r.1, r.2))
  | 0x19 => whole ((readNum 4 args).map fun r => (.forceEnd r.1, r.2))
  | 0x1A => whole ((readList readMac args).map fun r => (.setManagementSources r.1, r.2))
  | 0x1B => whole (some (.warmReset, args))
  | code => some (.unknown code)

/-! ## Frames taken (R175, R202, R204, R205, R207) -/

/-- The longest frame the ports take, from the destination address to the last byte before the FCS (R202). -/
def longest : Nat := 9216 - 4

/-- The body length each kind that only the part makes has (R204), for the check that it fits. A MGMT REPLY, whose results
vary, is checked only for the 6 bytes before them, which is the model's (DESIGN CHOICE, log 35). -/
def noticeFits (kind length : Nat) : Bool :=
  match kind with
  | 0x41 => length == 4
  | 0x42 => length == 4
  | 0x43 => length == 90
  | 0x44 => length == 2
  | _ => decide (6 ≤ length)

/-- The length of the descriptor in piece 0 of a store message (R205). -/
def descriptorLength (kind : Nat) : Nat :=
  match kind with
  | 0x81 => 44
  | 0x83 => 16
  | _ => 4

/-- A piece of a store message reaching the part (R205, R207): its payload runs past the end of the frame, or it only
comes the wrong way. -/
def classifyPiece (port : Port) (kind : Nat) (b : List Byte) : Instr :=
  let descriptor := if (b.getD 4 0) = 0 then descriptorLength kind else 0
  if b.length < 8 + descriptor + value ((b.drop 6).take 2) then .malformedFrame port else .wrongDirectionFrame port

/-- A STORE ANSWER (R205). -/
def classifyAnswer (port : Port) (b : List Byte) : Instr :=
  let tag := (b.getD 2 0).toNat
  let serial := (b.getD 3 0).toNat
  match (b.getD 4 0).toNat with
  | 1 => .storeAnswer port tag serial .accept
  | 2 => .storeAnswer port tag serial .busy
  | 3 => .storeAnswer port tag serial .fail
  | _ => .malformedFrame port

/-- A parcel by its kind, header fields and body, the body length fitting the frame (R202, R204, R207). A notice of a kind
that only the part makes, whose body length does not fit its kind, meets two cases of R207: that it counts as malformed and
not as a wrong-direction frame is the model's (DESIGN CHOICE, log 35). -/
def classifyBody (port : Port) (source : Mac) (kind branch stream : Nat) (body : List Byte) : Instr :=
  match kind with
  | 0x01 =>
    if body.length = 8 then
      .openParcel port source branch stream (value (body.take 1)) (value ((body.drop 1).take 1))
        (value ((body.drop 2).take 3))
    else .malformedFrame port
  | 0x02 =>
    if 5 ≤ body.length ∧ body.length ≤ 8196 then
      .dataParcel port source branch stream (value (body.take 4)) (body.drop 4)
    else .malformedFrame port
  | 0x03 =>
    if body.length = 10 then
      .closeParcel port source branch stream (value (body.take 4)) (value (body.drop 4))
    else .malformedFrame port
  | 0x04 => if body.length = 0 then .abortParcel port source branch stream else .malformedFrame port
  | 0x05 =>
    if branch = 0 ∧ 4 ≤ body.length then
      match readRequest (value ((body.drop 2).take 1)) (body.drop 4) with
      | some r => .mgmtParcel port source (value (body.take 2)) r
      | none => .malformedFrame port
    else .malformedFrame port
  | kind => if noticeFits kind body.length then .wrongDirectionFrame port else .malformedFrame port

/-- A frame of the Lavrow EtherType, from the first byte after its type field (R202, R207). -/
def classifyLavrow (port : Port) (source : Mac) (b : List Byte) : Instr :=
  if b.length < 8 then .malformedFrame port
  else if b.getD 1 0 ≠ 1 then .malformedFrame port
  else
    let kind := (b.getD 0 0).toNat
    if kind = 0x88 then classifyAnswer port b
    else if 0x81 ≤ kind ∧ kind ≤ 0x84 then classifyPiece port kind b
    else if (1 ≤ kind ∧ kind ≤ 5) ∨ (0x41 ≤ kind ∧ kind ≤ 0x45) then
      let length := value ((b.drop 6).take 2)
      if b.length < 8 + length then .malformedFrame port
      else
        classifyBody port source kind (value ((b.drop 2).take 2) % 4096) (b.getD 4 0).toNat ((b.drop 8).take length)
    else .malformedFrame port

/-- A frame that has passed its port's FCS check, from its destination address to the last byte before its FCS, as the
command it is, under the EtherType in force (R175, R202, R207). A frame too short to hold a type field is malformed
(log 34). -/
def classifyFrame (etherType : Nat) (port : Port) (frame : List Byte) : Instr :=
  if longest < frame.length then .malformedFrame port
  else if frame.length < 14 then .malformedFrame port
  else if value ((frame.drop 12).take 2) = etherType then
    classifyLavrow port (BitVec.ofNat 48 (value ((frame.drop 6).take 6))) (frame.drop 14)
  else .passThroughFrame port frame

/-! ## The frames of the commands, written out -/

/-- A frame: addresses, type field, content, and zero bytes up to 60, the FCS making 64 (R202). -/
def frame (dest source : Mac) (etherType : Nat) (content : List Byte) : List Byte :=
  let f := num 6 dest.toNat ++ num 6 source.toNat ++ num 2 etherType ++ content
  f ++ List.replicate (60 - f.length) 0

/-- A parcel: header and body (R202). -/
def parcel (kind branch stream : Nat) (body : List Byte) : List Byte :=
  [BitVec.ofNat 8 kind, 1] ++ num 2 branch ++ num 1 stream ++ [0] ++ num 2 body.length ++ body

/-- A list with its one-byte count. -/
def list {α : Type} (write : α → List Byte) (l : List α) : List Byte := num 1 l.length ++ l.flatMap write

/-- An item of a RETIRE. -/
def retireItem (i : Fingerprint × Nat) : List Byte := num 16 i.1.toNat ++ num 1 i.2

/-- An item of a RESTORE ENTRIES. -/
def restoreItem (i : RestoreEntry) : List Byte :=
  num 16 i.fp.toNat ++ (num 4 i.check.toNat ++ (num 4 i.container ++ (num 4 i.offset ++ (num 4 i.length ++
    (num 4 i.count ++ (num 4 i.untilDay ++ num 2 i.holds.toNat))))))

/-- The values of a policy entry (R178, R203). -/
def policyRow (e : PolicyRow) : List Byte :=
  num 4 e.k ++ (num 4 e.min ++ (num 4 e.max ++ (num 4 e.gear ++ (num 4 e.confirm ++ (num 4 e.retention ++
    (num 4 e.cls ++ (num 4 e.warmUp ++ num 4 e.linger)))))))

/-- The values of a branch entry (R179, R203). -/
def branchRow (e : BranchRow) : List Byte :=
  num 4 e.enabled ++ (num 4 e.policy ++ (num 4 e.holdTag ++ (num 4 e.streamLimit ++ (num 4 e.quota ++
    (num 4 e.impliedOpen ++ num 4 e.verifyAllowed)))))

/-- The arguments of a LOAD TABLE. -/
def loadArgs : TableLoad → List Byte
  | .policy first rows => num 1 1 ++ (num 4 first ++ (num 4 rows.length ++ rows.flatMap policyRow))
  | .branch first rows => num 1 2 ++ (num 4 first ++ (num 4 rows.length ++ rows.flatMap branchRow))
  | .gear table first values =>
    num 1 3 ++ (num 4 table ++ (num 4 first ++ (num 4 values.length ++ values.flatMap fun v => num 4 v.toNat)))
  | .unknown kind => num 1 kind

/-- The arguments of a READ TABLE. -/
def readArgs : TableRead → List Byte
  | .policy bank first count => num 1 1 ++ (num 4 first ++ (num 4 count ++ num 1 bank))
  | .branch bank first count => num 1 2 ++ (num 4 first ++ (num 4 count ++ num 1 bank))
  | .gear table first count => num 1 3 ++ (num 4 table ++ (num 4 first ++ num 4 count))
  | .unknown kind => num 1 kind

/-- A field of a SET SETTINGS. -/
def settingArgs : SettingWrite → List Byte
  | .etherType v => num 1 1 ++ num 4 v
  | .storeAddr a => num 1 2 ++ num 6 a.toNat
  | .gapSteps v => num 1 3 ++ num 4 v
  | .retryLimit v => num 1 4 ++ num 4 v
  | .retryAction v => num 1 5 ++ num 1 v
  | .fence v => num 1 6 ++ num 4 v
  | .rotation v => num 1 7 ++ num 4 v
  | .promotion v => num 1 8 ++ num 4 v
  | .paceMargin v => num 1 9 ++ num 4 v
  | .alertMask m => num 1 10 ++ num 2 m.toNat
  | .unknown name => num 1 name

/-- The code and the arguments of a request (R202). -/
def requestArgs : Request → Nat × List Byte
  | .identify => (0x01, [])
  | .readStatus => (0x02, [])
  | .clearFlags mask => (0x03, num 2 mask.toNat)
  | .readCounters option => (0x04, num 1 option)
  | .setSettings writes => (0x05, list settingArgs writes)
  | .setGeometry m => (0x06, num 4 m)
  | .mapGroup group page => (0x07, num 4 group ++ num 4 page)
  | .unmapGroup group => (0x08, num 4 group)
  | .setExclusion range first last active => (0x09, num 4 range ++ (num 4 first ++ (num 4 last ++ flag active)))
  | .loadTable l => (0x0A, loadArgs l)
  | .readTable q => (0x0B, readArgs q)
  | .swapBanks => (0x0D, [])
  | .setDate year month day seconds dayNumber =>
    (0x0E, num 4 year ++ (num 4 month ++ (num 4 day ++ (num 4 seconds ++ num 2 dayNumber))))
  | .nudge amount => (0x0F, signed amount)
  | .setHold tag active => (0x10, num 4 tag ++ flag active)
  | .retire items => (0x11, list retireItem items)
  | .sweepNow => (0x12, [])
  | .setContainerBase base => (0x13, num 4 base)
  | .sealContainers => (0x14, [])
  | .setMode code => (0x15, num 1 code)
  | .restoreEntries items => (0x16, list restoreItem items)
  | .readEntry f => (0x17, num 16 f.toNat)
  | .readStream slot => (0x18, num 4 slot)
  | .forceEnd slot => (0x19, num 4 slot)
  | .setManagementSources l => (0x1A, list (fun a => num 6 a.toNat) l)
  | .warmReset => (0x1B, [])
  | .unknown code => (code, [])

/-- The code of a verdict (R205). -/
def verdictCode : Verdict → Nat
  | .accept => 1
  | .busy => 2
  | .fail => 3

/-- The source address and the content of the frame of a command, for the commands that are Lavrow frames the part
takes. A STORE ANSWER's source address is not checked (R205). -/
def content : Instr → Option (Mac × List Byte)
  | .openParcel _ source branch stream mode endMode expected =>
    some (source, parcel 0x01 branch stream (num 1 mode ++ (num 1 endMode ++ (num 3 expected ++ [0, 0, 0]))))
  | .dataParcel _ source branch stream seq payload => some (source, parcel 0x02 branch stream (num 4 seq ++ payload))
  | .closeParcel _ source branch stream final total =>
    some (source, parcel 0x03 branch stream (num 4 final ++ num 6 total))
  | .abortParcel _ source branch stream => some (source, parcel 0x04 branch stream [])
  | .mgmtParcel _ source number request =>
    some (source, parcel 0x05 0 0 (num 2 number ++ (num 1 (requestArgs request).1 ++ ([0] ++ (requestArgs request).2))))
  | .storeAnswer _ tag serial verdict =>
    some (0, [0x88, 1] ++ num 1 tag ++ num 1 serial ++ num 1 (verdictCode verdict) ++ [0, 0, 0])
  | _ => none

/-- The frame of a command that is a Lavrow frame, to a destination, under an EtherType. -/
def wireFrame (dest : Mac) (etherType : Nat) (i : Instr) : Option (List Byte) :=
  (content i).map fun c => frame dest c.1 etherType c.2

end Wire

end Sys2Proof
end

