-- ==== Sys2Proof/Machine/State.lean ====
section
/-! DEFINITION. The state of the part: every register, table, queue, FIFO, timer, mode and pin the manual names,
as plain data, and `State.reset`, the state in which a cold reset leaves it (each field's default). -/

namespace Sys2Proof.Machine

open Sys2Proof

/-! ## Control: clock, mode, holds, calendar and loaded tables -/

/-- The device mode (R192). -/
inductive Mode where
  | cold
  | restoring
  | serving
  deriving DecidableEq, Repr

/-- The Retention Calendar's fields (R126). -/
structure Calendar where
  year : Nat := 0
  month : Nat := 1
  day : Nat := 1
  seconds : Nat := 0
  dayNumber : Nat := 0
  isSet : Bool := false
  deriving DecidableEq, Repr

/-- The action at the retry limit (R154). -/
inductive RetryAction where
  | persist
  | giveUp
  deriving DecidableEq, Repr

/-- The device settings record (R186). The gap tick interval is held in steps of 10 ms and the promotion in steps
of 100 µs, 0 meaning off (R203). -/
structure Settings where
  etherType : Nat := 0xB7A5
  storeAddr : Option Mac := none
  gapSteps : Nat := 50
  retryLimit : Nat := 4
  retryAction : RetryAction := .giveUp
  fence : Nat := 16
  rotation : Nat := 2
  promotion : Nat := 0
  paceMargin : Nat := 8
  alertMask : Mask16 := 0
  deriving DecidableEq, Repr

/-- One of the two banks (R177). An unlisted policy or branch entry holds its cold default. -/
structure Bank where
  policies : Tab PolicyEntry := []
  branches : Tab BranchEntry := []
  deriving DecidableEq, Repr

/-- The names of the two banks (R177). -/
inductive BankId where
  | a
  | b
  deriving DecidableEq, Repr

/-- The Table Banks (R177, R185, R186). Gear table g's entry i is listed under 256 g + i; an unlisted entry is 0. -/
structure Tables where
  bankA : Bank := {}
  bankB : Bank := {}
  active : BankId := .a
  copying : Bool := false
  gear : Tab Word32 := []
  settings : Settings := {}
  deriving DecidableEq, Repr

/-- What the data path reads and never writes: the clock (REFCLK periods of 40 ns since RESET was released), the
mode, the management sources (R190), the hold table (R110), the calendar with its divider (R127), the gap timer
(R29) and the tables. -/
structure Control where
  now : Nat := 0
  mode : Mode := .cold
  sources : List Mac := []
  holds : Mask16 := 0
  calendar : Calendar := {}
  divider : Nat := 25000000
  gapTimer : Nat := 12500000
  tables : Tables := {}
  deriving DecidableEq, Repr

/-! ## The fingerprint index and stacked DRAM -/

/-- The states of an index entry other than FREE (R72). A FREE entry is an unlisted address. -/
inductive EntryState where
  | pending
  | live
  | releasing
  deriving DecidableEq, Repr

/-- An index entry that is not FREE (R72). -/
structure Entry where
  fp : Fingerprint
  check : Word32
  state : EntryState
  container : Nat
  offset : Nat
  length : Nat
  count : Nat
  untilDay : Nat
  holds : Mask16
  firstBranch : Nat
  collided : Bool
  restored : Bool
  deriving DecidableEq, Repr

/-- The states of a valid group (R66). An UNMAPPED group is unlisted in the translation table. -/
inductive GroupState where
  | initialising
  | ready
  deriving DecidableEq, Repr

/-- A valid translation entry (R66). -/
structure Group where
  state : GroupState
  page : Nat
  occupancy : Nat := 0
  marked : Nat := 0
  deriving DecidableEq, Repr

/-- An excluded range (R71). -/
structure Exclusion where
  first : Nat := 0
  last : Nat := 0
  active : Bool := false
  deriving DecidableEq, Repr

/-- The Index Controller and the stacked DRAM (R62 to R77, R104). `dram` lists the entries that are not FREE under
their entry addresses; `marks` lists the buckets whose spilled mark is set; `hot` lists the full hot-list slots under their
addresses in units of 32 bytes (`hotSlot`). -/
structure Index where
  clearing : Bool := true
  geometry : Nat := 20
  groups : Tab Group := []
  exclusions : List Exclusion := [{}, {}, {}, {}]
  marks : Tab Unit := []
  dram : Tab Entry := []
  hot : Tab (Fingerprint × Nat) := []
  deriving DecidableEq, Repr

/-! ## Stream contexts -/

/-- The mode of a stream (R2). -/
inductive StreamMode where
  | store
  | verify
  deriving DecidableEq, Repr

/-- The verify end mode (R2). -/
inductive EndMode where
  | count
  | marker
  deriving DecidableEq, Repr

/-- The states of a context other than FREE. A FREE slot is unlisted. -/
inductive CtxState where
  | opening
  | active
  | draining
  | quiescing
  | linger
  deriving DecidableEq, Repr

/-- The chunker status (R45). -/
inductive ChunkerStatus where
  | notStarted
  | running
  | starved
  | held
  | complete
  | stopped
  deriving DecidableEq, Repr

/-- The chunker state (R44). -/
structure Chunker where
  status : ChunkerStatus := .notStarted
  h : Word32 := 0
  n : Nat := 0
  start : Nat := 0
  nextOrdinal : Nat := 0
  ended : Bool := false
  deriving DecidableEq, Repr

/-- The six outcomes of a chunk (R85). -/
inductive ChunkOutcome where
  | duplicate
  | new
  | newUnindexed
  | found
  | missing
  | unplaced
  deriving DecidableEq, Repr

/-- The waiter mark of an outcome item (R85, R97 to R99). -/
inductive WaiterMark where
  | none
  | joined
  | live
  | lost
  deriving DecidableEq, Repr

/-- Where an entry lies and what it names in its container (R85). -/
structure Location where
  address : Nat
  container : Nat
  offset : Nat
  length : Nat
  deriving DecidableEq, Repr

/-- An item of an outcome queue (R85). -/
structure Item where
  ordinal : Nat
  offset : Nat
  length : Nat
  fp : Option Fingerprint := none
  check : Option Word32 := none
  issued : Bool := false
  outcome : Option ChunkOutcome := none
  location : Option Location := none
  pet : Option Nat := none
  placement : Option (Nat × Nat) := none
  mark : WaiterMark := .none
  deriving DecidableEq, Repr

/-- A cut chunk that ends above the release point, and whether it is settled (R38). -/
structure Span where
  ordinal : Nat
  stop : Nat
  settled : Bool
  deriving DecidableEq, Repr

/-- An entry of a reorder list (R27). -/
structure Early where
  seq : Nat
  payload : List Byte
  deriving DecidableEq, Repr

/-- The pace state (R40). -/
inductive Pace where
  | stop
  | go
  deriving DecidableEq, Repr

/-- The termination class (R13). -/
inductive EndClass where
  | normal
  | abnormal
  | aborted
  deriving DecidableEq, Repr

/-- The cause of an ABNORMAL end (R13). -/
inductive Cause where
  | gap
  | lengthMismatch
  | storeLost
  | noContainer
  | forced
  | short
  | overlength
  deriving DecidableEq, Repr

/-- The summary counters (R21). -/
structure Summary where
  chunks : Nat := 0
  newChunks : Nat := 0
  newBytes : Nat := 0
  dupChunks : Nat := 0
  dupBytes : Nat := 0
  unindexedChunks : Nat := 0
  unindexedBytes : Nat := 0
  found : Nat := 0
  missing : Nat := 0
  firstMissing : Option Nat := none
  deriving DecidableEq, Repr

/-- A context that is not FREE (R2). `window` holds the staged bytes from the release point up to the staged end
(R33); `warmUp` and `linger` hold, while the timer runs, the time it runs out; `completed` is set once the Chunker
has become COMPLETE (R12), which STOPPED would hide. -/
structure Context where
  branch : Nat
  stream : Nat
  source : Mac
  mode : StreamMode
  endMode : Option EndMode
  expected : Option Nat
  state : CtxState := .opening
  policy : PolicyEntry
  holdTag : Nat
  quota : Nat
  expectedSeq : Nat := 0
  final : Option Nat := none
  total : Option Nat := none
  inOrder : Nat := 0
  reorder : List Early := []
  gapCount : Nat := 0
  dupCount : Nat := 0
  overflowCount : Nat := 0
  overrunCount : Nat := 0
  pace : Pace := .go
  lastStop : Option Nat := none
  window : List Byte := []
  chunker : Chunker := {}
  completed : Bool := false
  queue : List Item := []
  chunks : List Span := []
  releasePoint : Nat := 0
  unanswered : Nat := 0
  closePending : Bool := false
  summary : Summary := {}
  endClass : Option EndClass := none
  cause : Option Cause := none
  failPoint : Option (Nat × Nat) := none
  warmUp : Option Nat := none
  linger : Option Nat := none
  sight : List (Fingerprint × Nat) := []
  deriving DecidableEq, Repr

/-! ## Lookup Engine -/

/-- A waiter of a PET slot (R96). -/
structure Waiter where
  slot : Nat
  ordinal : Nat
  offset : Nat
  held : Bool := false
  deriving DecidableEq, Repr

/-- A PET slot in use (R96). A free slot is unlisted. -/
structure PetSlot where
  address : Nat
  fp : Fingerprint
  waiters : List Waiter := []
  deriving DecidableEq, Repr

/-- A hot-list load or rewrite asked for (R104). A load names the context that asked while that context keeps its
slot (R105). -/
inductive HotOp where
  | load (branch : Nat) (slot : Option Nat)
  | rewrite (branch : Nat) (sights : List (Fingerprint × Nat))
  deriving DecidableEq, Repr

/-- A lookup that has been issued and waits for its bucket, with what it carries (R86, R88). -/
structure LookupOp where
  slot : Nat
  ordinal : Nat
  offset : Nat
  length : Nat
  fp : Fingerprint
  check : Word32
  mode : StreamMode
  confirm : Bool
  retention : Nat
  cls : Nat
  holdTag : Nat
  branch : Nat
  candidate : Option Nat
  deriving DecidableEq, Repr

/-- A lookup's result on its way back (R90 to R95). `stale` is set when its candidate was stale (R88). -/
structure LookupResult where
  slot : Nat
  ordinal : Nat
  fp : Fingerprint
  outcome : ChunkOutcome
  location : Option Location
  pet : Option Nat
  stale : Bool
  deriving DecidableEq, Repr

/-- A placement request of a NEW-UNINDEXED result (R93, R140). -/
structure PlaceReq where
  slot : Nat
  ordinal : Nat
  cls : Nat
  length : Nat
  deriving DecidableEq, Repr

/-- The outcome of a NEW chunk's CHUNK message on its way to the entry's bucket (R98, R99). -/
structure ChunkOp where
  accepted : Bool
  pet : Nat
  address : Nat
  fp : Fingerprint
  deriving DecidableEq, Repr

/-- An item of the RELEASE queue (R121). -/
structure RelItem where
  fp : Fingerprint
  container : Nat
  offset : Nat
  length : Nat
  address : Nat
  deriving DecidableEq, Repr

/-- The outcome of one item of a RELEASE batch on its way to its bucket (R123, R124). -/
structure ReleaseOp where
  accepted : Bool
  item : RelItem
  deriving DecidableEq, Repr

/-! ## Expiry Sweeper -/

/-- The pass state (R117). -/
inductive PassState where
  | idle
  | running
  | waiting
  deriving DecidableEq, Repr

/-- Phase and position of a pass (R117). -/
inductive SweepPos where
  | buckets (bucket entry : Nat)
  | bins (bin bucket entry : Nat)
  deriving DecidableEq, Repr

/-- The visit outstanding at the Index Controller: its bucket and the RELEASE queue places reserved for it (R116). -/
structure Visit where
  bucket : Nat
  reserved : Nat
  deriving DecidableEq, Repr

/-- The Expiry Sweeper and the RELEASE queue (R117, R121). Phase and position carry meaning while the pass is not IDLE;
while it is, the model holds bucket 0, entry 0 (log 42). -/
structure Sweeper where
  pass : PassState := .idle
  pos : SweepPos := .buckets 0 0
  restart : Bool := false
  visit : Option Visit := none
  unbatched : List RelItem := []
  batches : List (List RelItem) := []
  deriving DecidableEq, Repr

/-! ## Container Allocator -/

/-- A container record (R138). -/
structure Container where
  id : Nat
  fill : Nat := 0
  chunks : Nat := 0
  holes : Nat := 0
  pending : Nat := 0
  sealIssued : Bool := false
  deriving DecidableEq, Repr

/-- A slot that is OPEN or SEALING (R138). An EMPTY slot is unlisted. -/
structure Slot where
  sealing : Bool
  box : Container
  deriving DecidableEq, Repr

/-- The next container id (R139). -/
inductive NextId where
  | unset
  | id (value : Nat)
  | exhausted
  deriving DecidableEq, Repr

/-- The Container Allocator (R138, R139). -/
structure Alloc where
  slots : Tab Slot := []
  sealing : List Container := []
  nextId : NextId := .unset
  deriving DecidableEq, Repr

/-! ## Store Link Controller -/

/-- What a CHUNK message carries and what its answer acts on (R101, R148). `entry` is the entry address and PET
slot of a NEW chunk; it is absent for a chunk sent unindexed. -/
structure ChunkRec where
  slot : Nat
  ordinal : Nat
  streamOffset : Nat
  length : Nat
  fp : Fingerprint
  check : Word32
  container : Nat
  offset : Nat
  branch : Nat
  entry : Option (Nat × Nat)
  deriving DecidableEq, Repr

/-- A REF item (R101, R170). -/
structure RefItem where
  slot : Nat
  ordinal : Nat
  streamOffset : Nat
  fp : Fingerprint
  container : Nat
  offset : Nat
  length : Nat
  branch : Nat
  deriving DecidableEq, Repr

/-- What a SEAL message carries (R145). -/
structure SealRec where
  container : Nat
  fill : Nat
  holes : Nat
  chunks : Nat
  deriving DecidableEq, Repr

/-- The content record of a store message, by its kind (R148). -/
inductive Content where
  | chunk (c : ChunkRec)
  | refs (items : List RefItem)
  | seal (c : SealRec)
  | release (items : List RelItem)
  deriving DecidableEq, Repr

/-- A request waiting for a tag (R149). A RELEASE batch stays in the RELEASE queue while it waits, so its request
names only the queue's oldest batch. -/
inductive TagRequest where
  | message (c : Content)
  | oldestRelease
  deriving DecidableEq, Repr

/-- The phase of a message, with the due time of RETRY WAIT and the time at which the answer timer of AWAITING runs
out (R148, R150). -/
inductive Phase where
  | sending
  | awaiting (timer : Nat)
  | retryWait (due : Nat)
  | suspended
  deriving DecidableEq, Repr

/-- A message of the in-flight list (R148). -/
structure Message where
  tag : Nat
  serial : Nat
  phase : Phase
  attempts : Nat
  firstIssue : Nat
  content : Content
  deriving DecidableEq, Repr

/-- The link state (R159). -/
inductive LinkState where
  | up
  | down
  | lost
  deriving DecidableEq, Repr

/-- The Store Link Controller (R148, R149, R159). The in-flight list is in order of first issue; an unlisted serial
counter is 0. -/
structure Link where
  inflight : List Message := []
  waiting : List TagRequest := []
  serials : Tab Nat := []
  state : LinkState := .up
  lossTimer : Option Nat := none
  deriving DecidableEq, Repr

/-! ## Notices, replies and the transmitters -/

/-- The reasons of an OPEN REPLY (R204). -/
inductive OpenReason where
  | accepted
  | wrongMode
  | badValue
  | branchDisabled
  | branchLimit
  | tableFull
  | duplicateStream
  | verifyNotAllowed
  deriving DecidableEq, Repr

/-- A CLOSE SUMMARY (R21). -/
structure CloseSummary where
  slot : Nat
  branch : Nat
  stream : Nat
  mode : StreamMode
  endClass : EndClass
  cause : Option Cause
  bytesIn : Nat
  counts : Summary
  failPoint : Option (Nat × Nat)
  calendar : Calendar
  deriving DecidableEq, Repr

/-- The parcel kinds that can come too late (R23). -/
inductive LateKind where
  | data
  | close
  | abort
  deriving DecidableEq, Repr

/-- A stream notice other than PACE (R1, R204), with its destination address. -/
inductive Notice where
  | openReply (dest : Mac) (branch stream : Nat) (reason : OpenReason) (slot : Nat)
  | summary (dest : Mac) (body : CloseSummary)
  | late (dest : Mac) (branch stream : Nat) (kind : LateKind)
  deriving DecidableEq, Repr

/-- A PACE notice (R43). `etherType` is the one it was made under, once the settings have another (R202, log 15). -/
structure PaceNotice where
  slot : Nat
  branch : Nat
  stream : Nat
  dest : Mac
  pace : Pace
  etherType : Option Nat := none
  deriving DecidableEq, Repr

/-- The status of a MGMT REPLY (R189). -/
inductive Status where
  | done
  | doneAdjusted
  | notTaken
  | refused
  deriving DecidableEq, Repr

/-- The reason of a REFUSED reply (R189). -/
inductive Reason where
  | badValue
  | wrongMode
  | inUse
  | busy
  | notFound
  | conflict
  | excluded
  | tooMany
  deriving DecidableEq, Repr

/-- The answer of a RETIRE item (R113). -/
inductive RetireAnswer where
  | notFound
  | busy
  | pinned
  | done
  | underflow
  deriving DecidableEq, Repr

/-- The answer of a RESTORE ENTRIES item (R81). -/
inductive RestoreAnswer where
  | unmapped
  | duplicate
  | full
  | inserted
  deriving DecidableEq, Repr

/-- The result of a SWEEP NOW (R118). -/
inductive SweepResult where
  | started
  | marked
  | alreadyMarked
  deriving DecidableEq, Repr

/-- The entries a LOAD TABLE or READ TABLE reply carries (R180, R182). -/
inductive TableRows where
  | policies (rows : List PolicyEntry)
  | branches (rows : List BranchEntry)
  | gears (values : List Word32)
  deriving DecidableEq, Repr

/-- The snapshot of a READ STATUS reply, in the order of R198's table. -/
structure StatusReport where
  mode : Mode
  flags : Mask16
  sources : List Mac
  iDepth : Nat
  sDepth : Nat
  calendar : Calendar
  freeBlocks : Nat
  petInUse : Nat
  contexts : List Nat
  geometry : Nat
  initialising : Nat
  ready : Nat
  pass : PassState
  pos : SweepPos
  restart : Bool
  releaseItems : Nat
  slots : List (Option (Bool × Nat))
  sealing : Nat
  nextId : NextId
  inflight : Nat
  link : LinkState
  active : BankId
  copying : Bool
  settings : Settings
  deriving DecidableEq, Repr

/-- The snapshot of a READ ENTRY reply (R83, R206). -/
structure EntryReport where
  entry : Entry
  address : Nat
  inBin : Bool
  mark : Bool
  pet : Option Nat
  deriving DecidableEq, Repr

/-- The outcome-queue figures of R85 that READ STREAM reports. -/
structure QueueFigures where
  held : Nat
  head : Option Nat
  issued : Nat
  resolved : Nat
  deriving DecidableEq, Repr

/-- The results of a MGMT REPLY, by the rule that owns the request. -/
inductive Result where
  | none
  | identity
  | status (r : StatusReport)
  | flags (mask : Mask16)
  | counters (values : List Nat)
  | settings (r : Settings)
  | geometry (m : Nat)
  | group (state : GroupState) (page : Nat)
  | groupNumber (group : Nat)
  | rows (r : TableRows)
  | bankRows (active : BankId) (r : TableRows)
  | bank (active : BankId)
  | calendar (c : Calendar)
  | nudged (amount : Int) (c : Calendar)
  | holds (mask : Mask16)
  | retired (answers : List (RetireAnswer × Option Nat))
  | sweep (r : SweepResult)
  | nextId (id : NextId)
  | containers (ids : List Nat)
  | mode (m : Mode)
  | missing (conditions : Mask16) (m : Mode)
  | restored (answers : List RestoreAnswer)
  | entry (r : EntryReport)
  | stream (slot : Nat) (c : Context) (figures : QueueFigures)
  | sources (addresses : List Mac)
  deriving DecidableEq, Repr

/-- A MGMT REPLY (R189). `answers` names the port whose head request it answers; it is absent in the BUSY answer
to a request that found its queue full (R191). `kind` is the request's code (R202). `etherType` is the one it was made
under, once the settings have another (R202, log 15). -/
structure Reply where
  answers : Option Port
  dest : Mac
  number : Nat
  kind : Nat
  status : Status
  reason : Option Reason
  result : Result
  etherType : Option Nat := none
  deriving DecidableEq, Repr

/-- An item of the S-port: a store message by tag and serial, a reply, or a forwarded frame (R163). `part` stands in the
transmitter only: a store message of which some frames are fixed, those begun before it left SENDING, which are then all
(`rest` absent), or before the settings that its frames carry changed, its tag and serial giving the others. -/
inductive SItem where
  | message (tag serial : Nat)
  | part (made : List (List Byte)) (rest : Option (Nat × Nat))
  | reply (r : Reply)
  | frame (bytes : List Byte)
  deriving DecidableEq, Repr

/-- An item of the I-port (R173). A notice's `etherType` is the one it was made under, once the settings have another
(R202, log 15). -/
inductive IItem where
  | pace (n : PaceNotice)
  | notice (n : Notice) (etherType : Option Nat)
  | reply (r : Reply)
  | frame (bytes : List Byte)
  deriving DecidableEq, Repr

/-- What the alternation mark names (R165). -/
inductive DataMark where
  | chunk
  | ref
  deriving DecidableEq, Repr

/-- The S-port transmitter (R163 to R169). `resend`, `chunkQ` and `refQ` hold tags; `fifo` is the SIDE FIFO, each
item with the time it joined. -/
structure SPort where
  carrier : Bool := true
  tx : Option SItem := none
  resend : List Nat := []
  chunkQ : List Nat := []
  refQ : List Nat := []
  mark : DataMark := .chunk
  fifo : List (Nat × SItem) := []
  hold : List SItem := []
  rotation : Nat := 0
  deriving DecidableEq, Repr

/-- The I-port transmitter (R173, R174). -/
structure IPort where
  carrier : Bool := true
  tx : Option IItem := none
  pace : List PaceNotice := []
  fifo : List IItem := []
  hold : List IItem := []
  deriving DecidableEq, Repr

/-- The open REF batch (R170, R171). -/
structure RefBatch where
  items : List RefItem := []
  timer : Option Nat := none
  deriving DecidableEq, Repr

/-! ## Management Responder -/

/-- A request in a queue (R189, R191). -/
structure Req where
  number : Nat
  source : Mac
  request : Request
  deriving DecidableEq, Repr

/-- What is happening to the request at a queue's head (R191): it waits to be taken; the items of its RETIRE or
RESTORE ENTRIES are being answered; its reply waits in a hold list, or will be made when the warm reset it asked
for completes; or a warm reset has discarded its items or its reply and it only waits to leave (R201). -/
inductive HeadState where
  | waiting
  | retiring (answers : List (Option (RetireAnswer × Option Nat)))
  | restoring (answers : List (Option RestoreAnswer))
  | replying
  | discarded
  deriving DecidableEq, Repr

/-- A port's request queue (R191). -/
structure PortQueue where
  reqs : List Req := []
  head : HeadState := .waiting
  deriving DecidableEq, Repr

/-- A warm reset under way: the port it was asked at and the container ids its reply lists (R162, R200). -/
structure WarmReset where
  port : Port
  containers : List Nat
  deriving DecidableEq, Repr

/-! ## The whole state -/

/-- The data path and the responder: everything the data path writes, apart from the index itself. An unlisted
counter is 0, an unlisted context FREE, an unlisted PET slot free, an unlisted Locator Cache set empty. -/
structure Path where
  counters : Tab Nat := []
  flags : Mask16 := 0x0080
  contexts : Tab Context := []
  pet : Tab PetSlot := []
  cache : Tab (List (Fingerprint × Nat)) := []
  hotOps : List HotOp := []
  lookups : List LookupOp := []
  results : List LookupResult := []
  placements : List PlaceReq := []
  chunkOps : List ChunkOp := []
  releaseOps : List ReleaseOp := []
  sweeper : Sweeper := {}
  alloc : Alloc := {}
  link : Link := {}
  sPort : SPort := {}
  iPort : IPort := {}
  batch : RefBatch := {}
  eor : List Nat := []
  iQueue : PortQueue := {}
  sQueue : PortQueue := {}
  warm : Option WarmReset := none
  deriving DecidableEq, Repr

/-- The state of the part, and the queue of commands waiting to be taken (the model's own field). -/
structure State where
  pending : List Instr := []
  ctl : Control := {}
  idx : Index := {}
  path : Path := {}
  deriving DecidableEq, Repr

/-- The state right after a cold reset (R63, R64, R126, R177, R186, R192 and the reset tables of each chapter): the
RESET pin has just been released, the reserved pages are being cleared, both carriers are up (log 4). -/
def State.reset : State := {}

/-- A step that stops the machine. The BD-40 stops at nothing: errors are replies, flags, counters and stream
ends, so there is no such reason. -/
inductive Fault where
  deriving DecidableEq, Repr

/-- A command without a meaning. -/
inductive Refusal where
  /-- Raised by a dispatch arm whose command has no meaning yet: safe, the model stops where the part goes on. No
  arm raises it: every command has its meaning. -/
  | notModelled (mnemonic : String)
  deriving DecidableEq, Repr

end Sys2Proof.Machine
end

