-- ==== Sys2Proof/Machine/Ops.lean ====
section
/-! DEFINITION. The operations every block shares: sparse tables, the clock, and the read views of the state that
the manual derives from other state. -/

namespace Sys2Proof.Machine

open Sys2Proof

/-! ## Sparse tables -/

/-- The value listed under a number. -/
def tabGet {α : Type} : Tab α → Nat → Option α
  | [], _ => none
  | (k, v) :: t, i => if i = k then some v else tabGet t i

/-- The table with a value listed under a number, the numbers staying in rising order. -/
def tabSet {α : Type} : Tab α → Nat → α → Tab α
  | [], i, a => [(i, a)]
  | (k, v) :: t, i, a =>
    if i < k then (i, a) :: (k, v) :: t else if i = k then (i, a) :: t else (k, v) :: tabSet t i a

/-- The table with nothing listed under a number. -/
def tabErase {α : Type} : Tab α → Nat → Tab α
  | [], _ => []
  | (k, v) :: t, i => if i = k then t else (k, v) :: tabErase t i

/-- The table with a listed value changed; an unlisted number stays unlisted. -/
def tabUpdate {α : Type} (t : Tab α) (i : Nat) (f : α → α) : Tab α :=
  match tabGet t i with
  | none => t
  | some a => tabSet t i (f a)

/-- The value a number reads as, `d` where it is unlisted. -/
def tabGetD {α : Type} (t : Tab α) (i : Nat) (d : α) : α := (tabGet t i).getD d

/-- Writes a number whose unlisted value is `d`: writing `d` removes the entry, so equal tables are equal data. -/
def tabPut {α : Type} [DecidableEq α] (d : α) (t : Tab α) (i : Nat) (a : α) : Tab α :=
  if a = d then tabErase t i else tabSet t i a

/-- The lowest of the `n` numbers from `lo` on that is unlisted. -/
def tabLowestFree {α : Type} (t : Tab α) : Nat → Nat → Option Nat
  | _, 0 => none
  | lo, n + 1 => if (tabGet t lo).isNone then some lo else tabLowestFree t (lo + 1) n

/-- The canonical form of a sparse table: its numbers strictly rise. -/
def tabWf {α : Type} : Tab α → Bool
  | [] => true
  | [_] => true
  | (a, _) :: (b, v) :: t => decide (a < b) && tabWf ((b, v) :: t)

/-- The canonical form of the stacked DRAM's entries (R62, R72): addresses strictly rise; a FREE entry has no form in
which it could be listed. -/
def Memory.wf (m : Tab Entry) : Bool := tabWf m

/-! ## The clock: REFCLK periods of 40 ns (R127; 00 Pins: "every timer in this manual are derived from REFCLK") -/

/-- Microseconds in REFCLK periods. -/
def usec (n : Nat) : Nat := 25 * n

/-- Milliseconds in REFCLK periods. -/
def msec (n : Nat) : Nat := 25000 * n

/-- Seconds in REFCLK periods. -/
def sec (n : Nat) : Nat := 25000000 * n

/-- An event whose time is `t` has come: the clock stands at `t` or later (log 3). -/
def Control.reach (c : Control) (t : Nat) : Control := { c with now := max c.now t }

/-! ## Banks -/

/-- A bank by its name. -/
def Tables.bank (t : Tables) : BankId → Bank
  | .a => t.bankA
  | .b => t.bankB

/-- The other bank's name. -/
def BankId.other : BankId → BankId
  | .a => .b
  | .b => .a

/-- The active bank (R177). -/
def Tables.activeBank (t : Tables) : Bank := t.bank t.active

/-- The standby bank (R177). -/
def Tables.standbyBank (t : Tables) : Bank := t.bank t.active.other

/-- Writes the bank of a name. -/
def Tables.setBank (t : Tables) (i : BankId) (b : Bank) : Tables :=
  match i with
  | .a => { t with bankA := b }
  | .b => { t with bankB := b }

/-- A policy entry of a bank; unlisted entries hold the cold defaults (R178). -/
def Bank.policy (b : Bank) (i : Nat) : PolicyEntry := tabGetD b.policies i {}

/-- A branch entry of a bank; unlisted entries hold the cold defaults (R179). -/
def Bank.branch (b : Bank) (i : Nat) : BranchEntry := tabGetD b.branches i {}

/-- Entry i of gear table g (R185). -/
def Tables.gearWord (t : Tables) (g i : Nat) : Word32 := tabGetD t.gear (256 * g + i) 0

/-! ## Queues of a port -/

/-- A port's request queue (R191). -/
def Path.queue (p : Path) : Port → PortQueue
  | .i => p.iQueue
  | .s => p.sQueue

/-- Writes a port's request queue. -/
def Path.setQueue (p : Path) (port : Port) (q : PortQueue) : Path :=
  match port with
  | .i => { p with iQueue := q }
  | .s => { p with sQueue := q }

/-- The other port. -/
def Port.other : Port → Port
  | .i => .s
  | .s => .i

/-! ## Contexts -/

/-- Changes the context in a slot; a FREE slot stays FREE. -/
def Path.modCtx (p : Path) (slot : Nat) (f : Context → Context) : Path :=
  { p with contexts := tabUpdate p.contexts slot f }

/-- The slot and context of an identity, if a context exists for it (R1). -/
def Path.findCtx (p : Path) (branch stream : Nat) : Option (Nat × Context) :=
  p.contexts.find? fun sc => sc.2.branch == branch && sc.2.stream == stream

/-- OPENING, ACTIVE, DRAINING and QUIESCING: the states that count against the branch's stream limit (R3) and hold
a gear table in use (R185). -/
def CtxState.open? : CtxState → Bool
  | .linger => false
  | _ => true

/-- The states in which a context takes parcels: OPENING, ACTIVE and DRAINING. -/
def CtxState.taking : CtxState → Bool
  | .opening | .active | .draining => true
  | _ => false

/-- ACTIVE and DRAINING: the Chunker reads and a fall of the held blocks is tested (R10, R42). -/
def CtxState.reading : CtxState → Bool
  | .active | .draining => true
  | _ => false

end Sys2Proof.Machine
end

