-- ==== Sys2Proof/Machine/Operands.lean ====
section
/-! DEFINITION. The arithmetic of the manual: index positions, staging blocks, boundary masks, the rolling value,
the check word, and the calendar's month lengths. -/

namespace Sys2Proof.Machine

open Sys2Proof

/-! ## Numbers taken from a fingerprint (R58, R60) -/

/-- F0, bits 127 to 96 of F (R58). -/
def word0 (f : Fingerprint) : Nat := f.toNat / 2 ^ 96

/-- F1, bits 95 to 64 of F (R58). -/
def word1 (f : Fingerprint) : Nat := f.toNat / 2 ^ 64 % 2 ^ 32

/-- The bucket number, F0 mod 2^m (R60). -/
def bucketOf (m : Nat) (f : Fingerprint) : Nat := word0 f % 2 ^ m

/-- The Locator Cache set, F1 mod 8192 (R60). -/
def cacheSet (f : Fingerprint) : Nat := word1 f % 8192

/-- The group of a bucket (R64). -/
def groupOf (bucket : Nat) : Nat := bucket / 256

/-- The spill bin of a bucket (R74, R76). -/
def binOf (bucket : Nat) : Nat := bucket % 4096

/-- The entry address of entry i of a bucket whose group lies in a page (R62). -/
def bucketAddress (page bucket i : Nat) : Nat := page * 4096 + bucket % 256 * 16 + i

/-- The entry address of entry i of a spill bin (R62). -/
def binAddress (bin i : Nat) : Nat := bin * 16 + i

/-- Bin entries take addresses 0 to 65,535 (R62). -/
def inBin (address : Nat) : Bool := decide (address < 65536)

/-- The page of a branch's hot list (R62). -/
def hotListPage (branch : Nat) : Nat := 16 + branch / 4

/-- The byte offset of a branch's hot list in its page (R62). -/
def hotListOffset (branch : Nat) : Nat := branch % 4 * 65536

/-- The number of slots of a hot list (R62). -/
def hotSlots : Nat := 2048

/-- Slot i of a branch's hot list, by its DRAM byte address in units of 32 bytes, the size of a slot (R62). -/
def hotSlot (branch i : Nat) : Nat := (hotListPage branch * 262144 + hotListOffset branch + 32 * i) / 32

/-- The 16 entry addresses of a bucket, in position order. -/
def bucketAddresses (page bucket : Nat) : List Nat := (List.range 16).map (bucketAddress page bucket)

/-- The 16 entry addresses of a spill bin, in position order. -/
def binAddresses (bin : Nat) : List Nat := (List.range 16).map (binAddress bin)

/-! ## Staging blocks (R33, R34) -/

/-- The number of staging blocks covering the offsets from a up to, not including, b (R33). -/
def blocksCovering (a b : Nat) : Nat := if b ≤ a then 0 else (b - 1) / 4096 - a / 4096 + 1

/-- The number of staging blocks of a reorder entry of a length, ceil(L/4096) (R33). -/
def blocksOf (length : Nat) : Nat := (length + 4095) / 4096

/-- The staging blocks held by a reorder list (R34). -/
def reorderBlocks (l : List Early) : Nat := (l.map fun e => blocksOf e.payload.length).sum

/-- The staged end of a context (R33, R39). -/
def Context.stagedEnd (c : Context) : Nat := c.releasePoint + c.window.length

/-- The held-block count of a context (R34). -/
def Context.held (c : Context) : Nat :=
  blocksCovering c.releasePoint c.stagedEnd + reorderBlocks c.reorder

/-- The blocks held by all contexts. -/
def heldBlocks (t : Tab Context) : Nat := (t.map fun sc => sc.2.held).sum

/-- The free pool (R32): of the 2048 blocks, those no stream holds. -/
def Path.freeBlocks (p : Path) : Nat := 2048 - heldBlocks p.contexts

/-! ## Chunk boundaries (R46 to R48) -/

/-- The mask with its top b bits set. -/
def topMask (b : Nat) : Word32 := BitVec.ofNat 32 (2 ^ 32 - 2 ^ (32 - b))

/-- The strict mask MS: its top k + 2 bits are set (R46). -/
def strictMask (k : Nat) : Word32 := topMask (k + 2)

/-- The loose mask ML: its top k - 2 bits are set (R46). -/
def looseMask (k : Nat) : Word32 := topMask (k - 2)

/-- The rolling value after a byte whose gear table entry is g: (2 H + g) mod 2^32 (R47). -/
def roll (h g : Word32) : Word32 := h + h + g

/-- The boundary test on the values of n and H left by the byte just taken (R48). -/
def boundary (pol : PolicyEntry) (n : Nat) (h : Word32) : Bool :=
  if n = pol.max then true
  else if n < pol.min then false
  else if n < 2 ^ pol.k then h &&& strictMask pol.k = 0
  else h &&& looseMask pol.k = 0

/-! ## The check word (R59) -/

/-- The modulus of the check word (R59). -/
def checkModulus : Nat := 65497

/-- The sums b_1 + ... + b_n and 1 b_1 + ... + n b_n, the first byte of the list having the index given. -/
def checkSums : Nat → List Byte → Nat × Nat
  | _, [] => (0, 0)
  | i, b :: bs =>
    let r := checkSums (i + 1) bs
    (b.toNat + r.1, i * b.toNat + r.2)

/-- The check word C of a chunk's bytes (R59). -/
def checkWord (bytes : List Byte) : Word32 :=
  let r := checkSums 1 bytes
  BitVec.ofNat 32 (r.2 % checkModulus * 65536 + r.1 % checkModulus)

/-! ## The calendar (R129) -/

/-- The length of a month; February has 29 days when the year mod 4 is 0 (R129). -/
def monthLength (year month : Nat) : Nat :=
  if month = 2 then (if year % 4 = 0 then 29 else 28)
  else if month = 4 ∨ month = 6 ∨ month = 9 ∨ month = 11 then 30
  else 31

/-- A rollover of the date and the day number (R129, R131). -/
def Calendar.rollover (c : Calendar) : Calendar :=
  let dayNumber := min 65535 (c.dayNumber + 1)
  if c.day < monthLength c.year c.month then { c with day := c.day + 1, dayNumber := dayNumber }
  else if c.month < 12 then { c with day := 1, month := c.month + 1, dayNumber := dayNumber }
  else { c with day := 1, month := 1, year := (c.year + 1) % 100, dayNumber := dayNumber }

/-! ## Clamping -/

/-- A value brought into lo..hi. -/
def clampTo (lo hi v : Nat) : Nat := max lo (min hi v)

/-- The day on which retention ends for a chunk kept from today (R90, R92): min(65535, today + days). -/
def keepUntil (today days : Nat) : Nat := min 65535 (today + days)

end Sys2Proof.Machine
end

