-- ==== Sys2Proof/Machine/Flags.lean ====
section
/-! DEFINITION. The status flags and the ALERT pin (R194, R195), and the counters (R196, R207). -/

namespace Sys2Proof.Machine

open Sys2Proof

/-- The nine status flags, in the order of R194's table. -/
inductive Flag where
  | collision
  | spillFull
  | petFull
  | storeRetry
  | storeGiveUp
  | leak
  | stagingExhausted
  | calendarUnset
  | mgmtDrop
  deriving DecidableEq, Repr

/-- The bit that stands for a flag: bit i - 1 for the i-th flag (R203). -/
def Flag.bit : Flag → Mask16
  | .collision => 0x0001
  | .spillFull => 0x0002
  | .petFull => 0x0004
  | .storeRetry => 0x0008
  | .storeGiveUp => 0x0010
  | .leak => 0x0020
  | .stagingExhausted => 0x0040
  | .calendarUnset => 0x0080
  | .mgmtDrop => 0x0100

/-- The bits of a mask that stand for no flag. -/
def noFlag : Mask16 := 0xFE00

/-- Sets a status flag; a flag already set is unchanged (R194). -/
def Path.setFlag (p : Path) (f : Flag) : Path := { p with flags := p.flags ||| f.bit }

/-- Clears the flags of a mask (R194, R133). -/
def Path.clearFlags (p : Path) (mask : Mask16) : Path := { p with flags := p.flags &&& ~~~mask }

/-- Whether a flag is set. -/
def Path.flagSet (p : Path) (f : Flag) : Bool := p.flags &&& f.bit ≠ 0

/-- The ALERT pin is asserted (low) while a flag that is set is named in the alert mask (R195). -/
def State.alertLow (s : State) : Bool := s.path.flags &&& s.ctl.tables.settings.alertMask ≠ 0

/-- The counters, in the order in which READ COUNTERS reports them (the table after R196, then R207). -/
inductive Counter where
  | parcelsWithoutStream | opensAccepted | opensRefused | lateParcels
  | streamsNormal | streamsAbnormal | streamsAborted
  | duplicateParcels | reorderOverflows | quotaOverruns | poolOverruns | paceNotices
  | unmappedLookups | entriesRestored
  | lookupsIssued | locatorHits | staleLocators | collisions | unindexedFull | unindexedPet | blockedWaiters
  | entriesPinned | referencesRetired | retireUnderflows | releaseItems | sweepPasses | entriesReleased
  | releasedBytes | leakedBytes
  | containersOpened | placementsNoId | placementsListFull | containersSealed | sealsFailed
  | messagesIssued | storeAccepts | busyAnswers | answerTimeouts | resends | giveUps | staleAnswers
  | chunksFailed | refBatchesFailed | linkLosses | messagesLinkLost
  | refBatchesMade | sidePromotions | forwardedIToS | forwardedSToI | dropsSTransmit | dropsITransmit
  | fcsErrorsI | fcsErrorsS | noticesDropped
  | tableLoads | bankSwaps
  | requestsHandled | requestsQueueFull | requestsDropped | repliesDropped | modeChanges | warmResets
  | malformedI | malformedS | wrongDirection
  deriving DecidableEq, Repr

/-- How many counters there are. -/
def counterCount : Nat := 65

/-- A counter's place in the order of READ COUNTERS, counted from 0. -/
def Counter.place (c : Counter) : Nat := c.ctorIdx

/-- The value of the counter at a place. -/
def Path.counterAt (p : Path) (place : Nat) : Nat := tabGetD p.counters place 0

/-- The value of a counter. -/
def Path.counter (p : Path) (c : Counter) : Nat := p.counterAt c.place

/-- A 48-bit count raised by n; it stays at 2^48 - 1 (00_scope, Conventions). -/
def add48 (v n : Nat) : Nat := min max48 (v + n)

/-- Raises a counter by n (R196). -/
def Path.bump (p : Path) (c : Counter) (n : Nat) : Path :=
  { p with counters := tabPut 0 p.counters c.place (add48 (p.counter c) n) }

/-- Every counter in the order of READ COUNTERS (R196). -/
def Path.counterValues (p : Path) : List Nat := (List.range counterCount).map p.counterAt

end Sys2Proof.Machine
end

