-- ==== Sys2Proof/Machine/Containers.lean ====
section
/-! DEFINITION. The Container Allocator (R138 to R147): placements, containers set aside, SEALs made, answers
counted and containers removed. -/

namespace Sys2Proof.Machine

open Sys2Proof

/-- The length of a container (R138). -/
def containerSize : Nat := 4194304

/-- The next container id after one has been taken (R139). -/
def idAfter (v : Nat) : NextId := if v = 0xFFFFFFFF then .exhausted else .id (v + 1)

/-- The SEAL message of a container (R145). -/
def Container.sealRec (b : Container) : SealRec := ⟨b.id, b.fill, b.holes, b.chunks⟩

/-- A SEALING container makes its SEAL when no placement is pending and none has been made (R145). -/
def Container.trySeal (b : Container) : Container × Option SealRec :=
  if b.pending = 0 ∧ b.sealIssued = false then ({ b with sealIssued := true }, some b.sealRec) else (b, none)

/-- A chunk of length L placed at the fill offset (R141). -/
def Container.place (b : Container) (length : Nat) : Container :=
  { b with fill := b.fill + length, chunks := b.chunks + 1, pending := b.pending + 1 }

/-- The answer to a CHUNK message placed in the container; a failure adds to its hole bytes (R144). -/
def Container.answered (b : Container) (length : Nat) (failed : Bool) : Container :=
  { b with pending := b.pending - 1, holes := if failed then b.holes + length else b.holes }

/-- Why a placement fails (R143). -/
inductive PlaceFailure where
  | noId
  | listFull
  deriving DecidableEq, Repr

/-- What a placement request comes to: the allocator after it, the place or the reason of the failure, the SEAL of
a container set aside, and whether a container was opened. -/
structure Placed where
  alloc : Alloc
  place : Except PlaceFailure (Nat × Nat)
  sealMade : Option SealRec := none
  opened : Bool := false

/-- A placement for an EMPTY slot: a container opens with the next id and takes the chunk (R141). -/
def Alloc.openFor (a : Alloc) (cls length : Nat) (sealMade : Option SealRec) : Placed :=
  match a.nextId with
  | .id v =>
    { alloc := { a with slots := tabSet a.slots cls ⟨false, Container.place { id := v } length⟩, nextId := idAfter v },
      place := .ok (v, 0), sealMade := sealMade, opened := true }
  | _ => { alloc := a, place := .error .noId, sealMade := sealMade }

/-- A placement that needs the slot of a container that cannot take it: the container is set aside, if the request
can be met at all (R142). -/
def Alloc.setAside (a : Alloc) (cls length : Nat) (b : Container) : Placed :=
  match a.nextId with
  | .id _ =>
    if 8 ≤ a.sealing.length then { alloc := a, place := .error .listFull }
    else
      let r := b.trySeal
      Alloc.openFor { a with slots := tabErase a.slots cls, sealing := a.sealing ++ [r.1] } cls length r.2
  | _ => { alloc := a, place := .error .noId }

/-- A placement request of a length for a class (R141). -/
def Alloc.request (a : Alloc) (cls length : Nat) : Placed :=
  match tabGet a.slots cls with
  | some sl =>
    if sl.sealing = false ∧ sl.box.fill + length ≤ containerSize then
      { alloc := { a with slots := tabSet a.slots cls { sl with box := sl.box.place length } },
        place := .ok (sl.box.id, sl.box.fill) }
    else a.setAside cls length sl.box
  | none => a.openFor cls length none

/-- The answer to a CHUNK message placed in a container, as a slot takes it (R144, R145). -/
def Slot.answer (sl : Slot) (id length : Nat) (failed : Bool) : Slot × Option SealRec :=
  if sl.box.id = id then
    let b := sl.box.answered length failed
    let r := if sl.sealing then b.trySeal else (b, none)
    ({ sl with box := r.1 }, r.2)
  else (sl, none)

/-- The answer to a CHUNK message placed in a container, as a record of the sealing list takes it (R144, R145). -/
def Container.answer (b : Container) (id length : Nat) (failed : Bool) : Container × Option SealRec :=
  if b.id = id then (b.answered length failed).trySeal else (b, none)

/-- The answer to a CHUNK message is counted at its container, in a slot or in the sealing list; a SEALING
container whose last placement is answered makes its SEAL (R144, R145). -/
def Alloc.answered (a : Alloc) (id length : Nat) (failed : Bool) : Alloc × List SealRec :=
  ({ a with
      slots := a.slots.map fun cs => (cs.1, (cs.2.answer id length failed).1)
      sealing := a.sealing.map fun b => (b.answer id length failed).1 },
    (a.slots.filterMap fun cs => (cs.2.answer id length failed).2) ++
      a.sealing.filterMap fun b => (b.answer id length failed).2)

/-- The container of an answered SEAL is removed: its slot becomes EMPTY or it leaves the sealing list (R147). -/
def Alloc.remove (a : Alloc) (id : Nat) : Alloc :=
  { a with slots := a.slots.filter fun cs => cs.2.box.id ≠ id, sealing := a.sealing.filter fun b => b.id ≠ id }

/-- SEAL CONTAINERS (R146): every OPEN slot becomes SEALING; the SEALs made and the ids changed, in class order. R146 orders
the ids of the reply alone: that the SEALs ask for their tags in class order too is the model's (DESIGN CHOICE, log 44). -/
def Alloc.sealAll (a : Alloc) : Alloc × List SealRec × List Nat :=
  let rs := a.slots.map fun cs =>
    if cs.2.sealing then (cs, none)
    else
      let r := cs.2.box.trySeal
      ((cs.1, { cs.2 with sealing := true, box := r.1 }), r.2)
  ({ a with slots := rs.map (·.1) }, rs.filterMap (·.2),
    (a.slots.filter fun cs => cs.2.sealing = false).map (·.2.box.id))

/-- The ids of the containers held: slots in class order, then the sealing list (R162). -/
def Alloc.ids (a : Alloc) : List Nat := a.slots.map (·.2.box.id) ++ a.sealing.map (·.id)

end Sys2Proof.Machine
end

