-- ==== Sys2Proof/Config.lean ====
section
/-! DEFINITION. What the manual leaves open and a BD-40 fixes: the fingerprint function, what a number too wide
for its field is stored as, and how far a transmission has come. None has a body, so no proof can rest on a value of it. -/

namespace Sys2Proof

/-- The fingerprint of a chunk's bytes (R58): "The function that computes F is not specified in this manual. It is
a fixed function of the chunk's bytes and length". The length is that of the byte list (log 10). -/
opaque Config.fingerprint : List Byte → Fingerprint

/-- What a RESTORE ENTRIES item's reference count above 65535 is stored as (R72, R80, R203; log 21). -/
opaque Config.wideCount : Nat → BitVec 16

/-- What a RESTORE ENTRIES item's retention-until day above 65535 is stored as (R72, R80, R203; log 21). -/
opaque Config.wideDay : Nat → BitVec 16

/-- What a LOAD TABLE's retention days above 65535 are stored as (R178, R180, R203; log 20). -/
opaque Config.wideRetention : Nat → BitVec 16

/-- How far the S-port has come in sending a store message at a time, by its tag and serial (R163): the manual gives no
times for pieces, so which piece has been begun when an answer is taken is open (log 15). -/
opaque Config.piecesBegun : (now tag serial : Nat) → Nat

/-- A number that its field of 16 bits holds as given, or, where it is too wide, as the function given says. -/
def narrow16 (wide : Nat → BitVec 16) (v : Nat) : Nat := if v ≤ 65535 then v else (wide v).toNat

end Sys2Proof
end

