-- ==== Sys2Proof/Machine/Egress.lean ====
section
/-! DEFINITION. The Egress Scheduler (R163 to R174): the FIFOs with their hold lists, the grants of both
transmitters, the PACE list and the open REF batch. -/

namespace Sys2Proof.Machine

open Sys2Proof

/-! ## Requests leave their queue when their reply takes a place (R191) -/

/-- The head request leaves its queue and the next becomes the head. -/
def Path.popQueue (p : Path) (port : Port) : Path :=
  p.setQueue port { reqs := (p.queue port).reqs.tail, head := .waiting }

/-- What is happening to a queue's head changes. -/
def Path.setHead (p : Path) (port : Port) (h : HeadState) : Path :=
  p.setQueue port { p.queue port with head := h }

/-- A reply has taken a place in its FIFO. -/
def Path.replyJoined (p : Path) (r : Reply) : Path :=
  match r.answers with
  | some port => p.popQueue port
  | none => p

/-- A reply has found its FIFO full and waits in the hold list. -/
def Path.replyHeld (p : Path) (r : Reply) : Path :=
  match r.answers with
  | some port => p.setHead port .replying
  | none => p

/-! ## The notice FIFO of the I-port (R174) -/

/-- An arriving item finds a place: the FIFO has room and nothing is held before it. -/
def IPort.room (q : IPort) : Bool := q.hold.isEmpty && decide (q.fifo.length < 64)

/-- An item takes a place in the notice FIFO. -/
def Path.joinI (p : Path) (x : IItem) : Path :=
  let q := { p with iPort := { p.iPort with fifo := p.iPort.fifo ++ [x] } }
  match x with
  | .reply r => q.replyJoined r
  | _ => q

/-- An item joins the hold list of the notice FIFO. -/
def Path.holdI (p : Path) (x : IItem) : Path :=
  let q := { p with iPort := { p.iPort with hold := p.iPort.hold ++ [x] } }
  match x with
  | .reply r => q.replyHeld r
  | _ => q

/-- Whether an item is a stream notice. -/
def IItem.isNotice : IItem → Bool
  | .notice _ _ => true
  | _ => false

/-- A stream notice joins the FIFO, or its hold list, or is dropped when 64 stream notices are held (R174). -/
def Path.sendNotice (p : Path) (n : Notice) : Path :=
  if p.iPort.room then p.joinI (.notice n none)
  else if 64 ≤ (p.iPort.hold.filter IItem.isNotice).length then p.bump .noticesDropped 1
  else p.holdI (.notice n none)

/-- Held items take the places that are free, oldest first, at most `n` of them. -/
def Path.refillI : Nat → Path → Path
  | 0, p => p
  | n + 1, p =>
    match p.iPort.hold with
    | [] => p
    | x :: rest =>
      if p.iPort.fifo.length < 64 then
        Path.refillI n (Path.joinI { p with iPort := { p.iPort with hold := rest } } x)
      else p

/-- A grant of the I-port: the oldest PACE notice, else the head of the notice FIFO (R173). -/
def Path.grantI (p : Path) : Path :=
  if p.iPort.carrier && p.iPort.tx.isNone then
    match p.iPort.pace with
    | n :: rest => { p with iPort := { p.iPort with tx := some (.pace n), pace := rest } }
    | [] =>
      match p.iPort.fifo with
      | x :: rest => Path.refillI 64 { p with iPort := { p.iPort with tx := some x, fifo := rest } }
      | [] => p
  else p

/-! ## PACE list (R43, R173) -/

/-- A PACE notice joins the list; an unsent notice of the same context is replaced in its place. -/
def paceInsert (l : List PaceNotice) (n : PaceNotice) : List PaceNotice :=
  if l.any fun m => m.slot = n.slot then l.map fun m => if m.slot = n.slot then n else m else l ++ [n]

/-- A PACE notice is made (R40 to R43). -/
def Path.makePace (p : Path) (n : PaceNotice) : Path :=
  { p with iPort := { p.iPort with pace := paceInsert p.iPort.pace n } }

/-- A context's unsent PACE notice is discarded (R43, R22). -/
def Path.dropPace (p : Path) (slot : Nat) : Path :=
  { p with iPort := { p.iPort with pace := p.iPort.pace.filter fun m => m.slot ≠ slot } }

/-! ## The SIDE FIFO of the S-port (R166) -/

/-- An arriving item finds a place: the FIFO has room and nothing is held before it. -/
def SPort.room (q : SPort) : Bool := q.hold.isEmpty && decide (q.fifo.length < 64)

/-- An item takes a place in the SIDE FIFO at a time. -/
def Path.joinS (p : Path) (now : Nat) (x : SItem) : Path :=
  let q := { p with sPort := { p.sPort with fifo := p.sPort.fifo ++ [(now, x)] } }
  match x with
  | .reply r => q.replyJoined r
  | _ => q

/-- An item joins the hold list of the SIDE FIFO. -/
def Path.holdS (p : Path) (x : SItem) : Path :=
  let q := { p with sPort := { p.sPort with hold := p.sPort.hold ++ [x] } }
  match x with
  | .reply r => q.replyHeld r
  | _ => q

/-- A SEAL, RELEASE batch or reply joins the SIDE FIFO or its hold list. -/
def Path.offerS (p : Path) (now : Nat) (x : SItem) : Path :=
  if p.sPort.room then p.joinS now x else p.holdS x

/-- Held items take the places that are free, oldest first, at most `n` of them. -/
def Path.refillS (now : Nat) : Nat → Path → Path
  | 0, p => p
  | n + 1, p =>
    match p.sPort.hold with
    | [] => p
    | x :: rest =>
      if p.sPort.fifo.length < 64 then
        Path.refillS now n (Path.joinS { p with sPort := { p.sPort with hold := rest } } now x)
      else p

/-- A reply joins the FIFO of its port, or the FIFO's hold list (R189, R191). -/
def Path.sendReply (p : Path) (now : Nat) (port : Port) (r : Reply) : Path :=
  match port with
  | .i => if p.iPort.room then p.joinI (.reply r) else p.holdI (.reply r)
  | .s => p.offerS now (.reply r)

/-! ## The DATA class and the grants of the S-port (R163 to R168) -/

/-- The message of a tag in the in-flight list. -/
def Path.message (p : Path) (tag : Nat) : Option Message := p.link.inflight.find? fun m => m.tag = tag

/-- The serial of a tag's latest issue. -/
def Path.serialOf (p : Path) (tag : Nat) : Nat := ((p.message tag).map (·.serial)).getD 0

/-- DATA is empty. -/
def SPort.dataEmpty (q : SPort) : Bool := q.resend.isEmpty && q.chunkQ.isEmpty && q.refQ.isEmpty

/-- The tag of the resend set with the oldest first-issue time: the first of it in the in-flight list (R165). -/
def Path.oldestResend (p : Path) (first : Nat) : Nat :=
  ((p.link.inflight.find? fun m => p.sPort.resend.contains m.tag).map (·.tag)).getD first

/-- The tag granted to DATA, and the S-port after it left its queue (R165). -/
def Path.pickData (p : Path) : Option (Nat × SPort) :=
  let q := p.sPort
  match q.resend, q.chunkQ, q.refQ with
  | t :: _, _, _ =>
    let tag := p.oldestResend t
    some (tag, { q with resend := q.resend.erase tag })
  | [], c :: cs, r :: rs =>
    match q.mark with
    | .chunk => some (c, { q with chunkQ := cs, mark := .ref })
    | .ref => some (r, { q with refQ := rs, mark := .chunk })
  | [], c :: cs, [] => some (c, { q with chunkQ := cs, mark := .ref })
  | [], [], r :: rs => some (r, { q with refQ := rs, mark := .chunk })
  | [], [], [] => none

/-- A grant to DATA: the rotation count rises by 1 while it is below N (R167). -/
def Path.grantData (c : Control) (p : Path) : Path :=
  match p.pickData with
  | some (tag, q) =>
    { p with sPort := { q with tx := some (.message tag (p.serialOf tag)),
                               rotation := min c.tables.settings.rotation (q.rotation + 1) } }
  | none => p

/-- A grant to SIDE: its head is sent and the rotation count becomes 0 (R166, R167). -/
def Path.grantSide (c : Control) (p : Path) : Path :=
  match p.sPort.fifo with
  | (_, x) :: rest =>
    Path.refillS c.now 64 { p with sPort := { p.sPort with tx := some x, fifo := rest, rotation := 0 } }
  | [] => p

/-- SIDE's head is due for promotion when it has been in the FIFO for longer than the promotion time (R168). -/
def Path.promotionDue (c : Control) (p : Path) : Bool :=
  match p.sPort.fifo with
  | (t, _) :: _ => c.tables.settings.promotion ≠ 0 && decide (t + usec (100 * c.tables.settings.promotion) < c.now)
  | [] => false

/-- It is SIDE's turn: N is at least 1 and the rotation count has reached N (R167 step 4). -/
def Path.sideTurn (c : Control) (p : Path) : Bool :=
  decide (1 ≤ c.tables.settings.rotation) && decide (c.tables.settings.rotation ≤ p.sPort.rotation)

/-- A grant of the S-port (R163, R167, R168). -/
def Path.grantS (c : Control) (p : Path) : Path :=
  if p.sPort.carrier && p.sPort.tx.isNone then
    if p.sPort.fifo.isEmpty then p.grantData c
    else if p.promotionDue c then
      Path.grantSide c (if !p.sPort.dataEmpty && !p.sideTurn c then p.bump .sidePromotions 1 else p)
    else if p.sPort.dataEmpty then p.grantSide c
    else if p.sideTurn c then p.grantSide c
    else p.grantData c
  else p

/-- Whether a SIDE item is the store message of a tag. -/
def SItem.isMessageOf (tag : Nat) : SItem → Bool
  | .message t _ => t = tag
  | _ => false

/-- Whether a SIDE item is a store message. -/
def SItem.isMessage : SItem → Bool
  | .message _ _ => true
  | _ => false

/-- A message answered before its grant is withdrawn from its queue (R163); held items take freed places (R166). -/
def Path.withdraw (p : Path) (now tag : Nat) : Path :=
  Path.refillS now 64 { p with sPort := { p.sPort with
    resend := p.sPort.resend.filter (· ≠ tag),
    chunkQ := p.sPort.chunkQ.filter (· ≠ tag),
    refQ := p.sPort.refQ.filter (· ≠ tag),
    fifo := p.sPort.fifo.filter (fun tx => !tx.2.isMessageOf tag),
    hold := p.sPort.hold.filter (fun x => !x.isMessageOf tag) } }

/-- Every store message is withdrawn when the S-port carrier goes down (R169). -/
def Path.withdrawAll (p : Path) (now : Nat) : Path :=
  Path.refillS now 64 { p with sPort := { p.sPort with
    resend := [], chunkQ := [], refQ := [],
    fifo := p.sPort.fifo.filter (fun tx => !tx.2.isMessage),
    hold := p.sPort.hold.filter (fun x => !x.isMessage) } }

/-! ## Requests for tags and the open REF batch (R149, R170 to R172) -/

/-- A producer asks for a tag (R149). -/
def Path.askTag (p : Path) (r : TagRequest) : Path :=
  { p with link := { p.link with waiting := p.link.waiting ++ [r] } }

/-- The SEALs of containers ask for tags (R145). -/
def Path.askSeals (p : Path) (l : List SealRec) : Path :=
  l.foldl (fun q r => q.askTag (.message (.seal r))) p

/-- The open REF batch closes and becomes a message that asks for a tag (R170). An empty batch does not close. -/
def Path.closeBatch (p : Path) : Path :=
  match p.batch.items with
  | [] => p
  | items => (({ p with batch := {} }).bump .refBatchesMade 1).askTag (.message (.refs items))

/-- The fence closes a batch of n items (R170). -/
def fenceReached (fence n : Nat) : Bool := fence = 0 || decide (fence ≤ n)

/-- A REF item joins the open batch, which closes at its fence or for a slot whose records have ended (R170). -/
def Path.joinBatch (p : Path) (c : Control) (x : RefItem) : Path :=
  let items := p.batch.items ++ [x]
  let q := { p with batch := { items := items, timer := some (p.batch.timer.getD (c.now + msec 5)) } }
  if fenceReached c.tables.settings.fence items.length || p.eor.contains x.slot then q.closeBatch else q

end Sys2Proof.Machine
end

