-- ==== Sys2Proof/Machine/Chunker.lean ====
section
/-! DEFINITION. The Chunker and the Digest Unit on one context (R44 to R59), and the context's staging window
(R33 to R39): everything here is a function of the context alone. -/

namespace Sys2Proof.Machine

open Sys2Proof

/-! ## Chunker (R44 to R54) -/

/-- The Chunker's read offset: the chunk start offset plus n (R44). -/
def Context.readOffset (c : Context) : Nat := c.chunker.start + c.chunker.n

/-- A VERIFY stream in COUNT end mode has had its E-th chunk cut (R45, R54). -/
def Context.countDone (c : Context) : Bool :=
  match c.mode, c.endMode, c.expected with
  | .verify, some .count, some e => decide (e ≤ c.chunker.nextOrdinal)
  | _, _, _ => false

/-- A chunk ends (R49): its item joins the outcome queue, and the next chunk begins with H and n at 0. -/
def Context.cut (c : Context) : Context :=
  let k := c.chunker
  { c with
    queue := c.queue ++ [{ ordinal := k.nextOrdinal, offset := k.start, length := k.n }]
    chunks := c.chunks ++ [{ ordinal := k.nextOrdinal, stop := k.start + k.n, settled := false }]
    chunker := { k with h := 0, n := 0, start := k.start + k.n, nextOrdinal := k.nextOrdinal + 1 } }

/-- The chunker status becomes COMPLETE. -/
def Context.complete (c : Context) : Context :=
  { c with chunker := { c.chunker with status := .complete }, completed := true }

/-- The chunker status becomes one of those that are not COMPLETE. -/
def Context.setStatus (c : Context) (st : ChunkerStatus) : Context :=
  { c with chunker := { c.chunker with status := st } }

/-- The status is settled (R45); the final cut is made where the end is signalled, every in-order byte has been
read and the current chunk holds a byte (R50). -/
def Context.settleStatus (c : Context) : Context :=
  if c.countDone then c.complete
  else if c.readOffset = c.inOrder then
    if c.chunker.ended then (if 1 ≤ c.chunker.n then c.cut.complete else c.complete) else c.setStatus .starved
  else if c.chunker.n = 0 ∧ 32 ≤ c.queue.length then c.setStatus .held
  else c.setStatus .running

/-- A byte beyond the E-th chunk of a VERIFY COUNT stream is at hand (R19, R54). -/
def Context.overlong (c : Context) : Bool :=
  c.state.reading && c.countDone && decide (c.readOffset < c.inOrder)

/-- The Chunker takes the byte at the read offset (R47): n and H move, the boundary test is made, a chunk may end,
and the status is settled again. `gear` is the context's gear table. -/
def Context.takeByte (gear : Nat → Word32) (c : Context) : Context :=
  let b := c.window.getD (c.readOffset - c.releasePoint) 0
  let n := c.chunker.n + 1
  let h := roll c.chunker.h (gear b.toNat)
  let d := { c with chunker := { c.chunker with n := n, h := h } }
  (if boundary c.policy n h then d.cut else d).settleStatus

/-- The bytes of a chunk, read from the staging window (R49, R56). -/
def Context.bytes (c : Context) (offset length : Nat) : List Byte :=
  (c.window.drop (offset - c.releasePoint)).take length

/-- The items of a queue with the result of a digest written into the first that has none (R56, R57). -/
def digestFirst (bytes : Item → List Byte) : List Item → List Item
  | [] => []
  | i :: is =>
    if i.fp.isNone then
      { i with fp := some (Config.fingerprint (bytes i)), check := some (checkWord (bytes i)) } :: is
    else i :: digestFirst bytes is

/-- A digest completes (R57): digests of one stream complete in ordinal order. -/
def Context.digest (c : Context) : Context :=
  { c with queue := digestFirst (fun i => c.bytes i.offset i.length) c.queue }

/-! ## Items by ordinal -/

/-- The item of an ordinal in the outcome queue. -/
def Context.item (c : Context) (ordinal : Nat) : Option Item := c.queue.find? fun i => i.ordinal = ordinal

/-- Changes the item of an ordinal. -/
def Context.modItem (c : Context) (ordinal : Nat) (f : Item → Item) : Context :=
  { c with queue := c.queue.map fun i => if i.ordinal = ordinal then f i else i }

/-! ## Release point (R38) -/

/-- The end of the longest run of settled chunks that begins at the release point, and the chunks after it. -/
def settledRun : Nat → List Span → Nat × List Span
  | point, [] => (point, [])
  | point, s :: rest => if s.settled then settledRun s.stop rest else (point, s :: rest)

/-- A chunk becomes settled and the release point advances across the settled run (R38). -/
def Context.settle (c : Context) (ordinal : Nat) : Context :=
  let spans := c.chunks.map fun s => if s.ordinal = ordinal then { s with settled := true } else s
  let r := settledRun c.releasePoint spans
  { c with chunks := r.2, releasePoint := r.1, window := c.window.drop (r.1 - c.releasePoint) }

/-- One of the context's records has been settled (R11). -/
def Context.answer (c : Context) : Context := { c with unanswered := c.unanswered - 1 }

/-- A record has been produced for the context (R11). -/
def Context.record (c : Context) : Context := { c with unanswered := c.unanswered + 1 }

/-! ## Entering QUIESCING (R13, R14, R39, R55) -/

/-- The first ordinal whose lookup has not been issued. -/
def Context.firstUnissued (c : Context) : Nat :=
  ((c.queue.find? fun i => !i.issued).map (·.ordinal)).getD c.chunker.nextOrdinal

/-- The context enters QUIESCING with a class, a cause and a fail point (R13): it keeps the items whose lookups
have been issued and their bytes, and gives up everything else (R14, R39). -/
def Context.quiesce (c : Context) (cls : EndClass) (cause : Option Cause) (failPoint : Option (Nat × Nat)) : Context :=
  let chunks := c.chunks.filter fun s => s.ordinal < c.firstUnissued
  let stop := (chunks.getLast?.map (·.stop)).getD c.releasePoint
  { c with
    state := .quiescing
    endClass := some cls
    cause := cause
    failPoint := failPoint
    queue := c.queue.filter (·.issued)
    chunks := chunks
    window := c.window.take (stop - c.releasePoint)
    reorder := []
    warmUp := none
    chunker := { c.chunker with status := .stopped } }

/-! ## The end of a stream (R12, R15, R22) -/

/-- A context in DRAINING has finished its work (R12). -/
def Context.drained (c : Context) : Bool :=
  decide (c.final = some c.expectedSeq) && decide (c.chunker.status = .complete) && c.queue.isEmpty &&
    decide (c.releasePoint = c.inOrder) && decide (c.unanswered = 0)

/-- The class and cause with which DRAINING ends (R12). -/
def Context.drainEnd (c : Context) : EndClass × Option Cause :=
  if c.total ≠ some c.inOrder then (.abnormal, some .lengthMismatch)
  else
    match c.mode, c.endMode, c.expected with
    | .verify, some .count, some e =>
      if c.chunker.nextOrdinal < e then (.abnormal, some .short) else (.normal, none)
    | _, _, _ => (.normal, none)

/-- The CLOSE SUMMARY of a context in a slot, with a snapshot of the calendar (R21). -/
def Context.closeSummary (c : Context) (slot : Nat) (cls : EndClass) (cause : Option Cause) (cal : Calendar) :
    CloseSummary :=
  { slot := slot, branch := c.branch, stream := c.stream, mode := c.mode, endClass := cls, cause := cause,
    bytesIn := c.inOrder, counts := c.summary, failPoint := c.failPoint, calendar := cal }

/-- The linger period: the policy copy's linger factor × 100 ms, a factor of 0 meaning 1.6 s (R22). -/
def lingerPeriod (factor : Nat) : Nat := msec (100 * (if factor = 0 then 16 else factor))

/-- The warm-up period: the policy copy's warm-up factor × 1 ms, a factor of 0 meaning 16 ms (R5). -/
def warmUpPeriod (factor : Nat) : Nat := msec (if factor = 0 then 16 else factor)

/-- The context in LINGER (R22, R23): it holds no staging blocks, no outcome items and no records. -/
def Context.enterLinger (c : Context) (cls : EndClass) (cause : Option Cause) (now : Nat) : Context :=
  { c with
    state := .linger
    endClass := some cls
    cause := cause
    window := []
    reorder := []
    chunks := []
    warmUp := none
    linger := some (now + lingerPeriod c.policy.linger) }

end Sys2Proof.Machine
end

