-- ==== Sys2Proof/Machine/Index.lean ====
section
/-! DEFINITION. The Index Controller's operations on buckets, spill bins, marks and groups (R62 to R77), the
Locator Cache (R87) and the Pending Entry Table (R96). -/

namespace Sys2Proof.Machine

open Sys2Proof

/-! ## Reading the index -/

/-- The bucket a fingerprint selects at the geometry in force (R60, R64). -/
def Index.bucket (x : Index) (f : Fingerprint) : Nat := bucketOf x.geometry f

/-- The number of groups, 2^(m-8) (R64). -/
def Index.groupCount (x : Index) : Nat := 2 ^ (x.geometry - 8)

/-- The page of a bucket's group, if that group is READY (R66, R70). -/
def Index.readyPage (x : Index) (bucket : Nat) : Option Nat :=
  match tabGet x.groups (groupOf bucket) with
  | some g => if g.state = .ready then some g.page else none
  | none => none

/-- Whether a bucket's spilled mark is set (R76). -/
def Index.marked (x : Index) (bucket : Nat) : Bool := (tabGet x.marks bucket).isSome

/-- The entry at an address; none where it is FREE (R72). -/
def Index.entry (x : Index) (address : Nat) : Option Entry := tabGet x.dram address

/-- Whether the entry at an address is FREE. -/
def Index.free (x : Index) (address : Nat) : Bool := (x.entry address).isNone

/-- The addresses a search of a bucket examines, in search order (R74). -/
def Index.searchOrder (x : Index) (page bucket : Nat) : List Nat :=
  bucketAddresses page bucket ++ (if x.marked bucket then binAddresses (binOf bucket) else [])

/-- The three results of a search (R74). -/
inductive Found where
  | held (address : Nat) (e : Entry)
  | releasing (address : Nat) (e : Entry)
  | absent
  deriving DecidableEq, Repr

/-- PENDING and LIVE: the states of a held entry (R74). -/
def EntryState.held : EntryState → Bool
  | .releasing => false
  | _ => true

/-- The first of some addresses whose entry holds F in a state of the kind asked for. -/
def Index.firstMatch (x : Index) (f : Fingerprint) (held : Bool) (addresses : List Nat) : Option (Nat × Entry) :=
  addresses.findSome? fun a =>
    match x.entry a with
    | some e => if e.fp = f ∧ e.state.held = held then some (a, e) else none
    | none => none

/-- The search for F at a bucket whose group lies in a page (R74). -/
def Index.search (x : Index) (page bucket : Nat) (f : Fingerprint) : Found :=
  match x.firstMatch f true (x.searchOrder page bucket) with
  | some (a, e) => .held a e
  | none =>
    match x.firstMatch f false (x.searchOrder page bucket) with
    | some (a, e) => .releasing a e
    | none => .absent

/-! ## Writing the index -/

/-- Changes the translation entry of a bucket's group. -/
def Index.modGroup (x : Index) (bucket : Nat) (f : Group → Group) : Index :=
  { x with groups := tabUpdate x.groups (groupOf bucket) f }

/-- Sets a bucket's spilled mark; its group's marked-buckets count rises if the mark was clear (R75). -/
def Index.setMark (x : Index) (bucket : Nat) : Index :=
  if x.marked bucket then x
  else ({ x with marks := tabSet x.marks bucket () }).modGroup bucket fun g => { g with marked := g.marked + 1 }

/-- Clears a bucket's spilled mark; its group's marked-buckets count falls if the mark was set (R77). -/
def Index.clearMark (x : Index) (bucket : Nat) : Index :=
  if x.marked bucket then
    ({ x with marks := tabErase x.marks bucket }).modGroup bucket fun g => { g with marked := g.marked - 1 }
  else x

/-- Claims a FREE entry for a bucket: the lowest of the bucket, else the lowest of its bin, which sets the spilled
mark; none when both are full (R75). The entry itself is not yet written. -/
def Index.claim (x : Index) (page bucket : Nat) : Option (Nat × Index) :=
  match (bucketAddresses page bucket).find? x.free with
  | some a => some (a, x)
  | none =>
    match (binAddresses (binOf bucket)).find? x.free with
    | some a => some (a, x.setMark bucket)
    | none => none

/-- Overwrites an entry that is not FREE. -/
def Index.set (x : Index) (address : Nat) (e : Entry) : Index := { x with dram := tabSet x.dram address e }

/-- Writes a claimed entry; its group's occupancy rises if it lies in the bucket (R66, R73). -/
def Index.fill (x : Index) (address : Nat) (e : Entry) : Index :=
  let y := x.set address e
  if inBin address then y else y.modGroup (x.bucket e.fp) fun g => { g with occupancy := g.occupancy + 1 }

/-- Makes an entry FREE; its group's occupancy falls if it lies in a bucket (R66, R73). -/
def Index.release (x : Index) (address : Nat) (f : Fingerprint) : Index :=
  let y := { x with dram := tabErase x.dram address }
  if inBin address then y else y.modGroup (x.bucket f) fun g => { g with occupancy := g.occupancy - 1 }

/-- Makes the entry at an address FREE if it holds F in a state; an entry that does not is left as it is. -/
def Index.releaseIf (x : Index) (address : Nat) (f : Fingerprint) (st : EntryState) : Index :=
  match x.entry address with
  | some e => if e.fp = f ∧ e.state = st then x.release address f else x
  | none => x

/-- The mark check of a bucket (R77): a set mark clears when the bin holds no entry of the bucket. A group that is
not READY has no mark check (R70). -/
def Index.markCheck (x : Index) (bucket : Nat) : Index :=
  if (x.readyPage bucket).isNone then x
  else
    let ours := (binAddresses (binOf bucket)).any fun a =>
      match x.entry a with
      | some e => x.bucket e.fp = bucket
      | none => false
    if x.marked bucket ∧ ¬ ours then x.clearMark bucket else x

/-! ## Branch hot lists (R62, R104 to R107) -/

/-- The full slots of a branch's hot list, in slot order. -/
def Index.hotList (x : Index) (branch : Nat) : List (Fingerprint × Nat) :=
  (x.hot.filter fun e => decide (hotSlot branch 0 ≤ e.1) && decide (e.1 < hotSlot branch hotSlots)).map (·.2)

/-- Values under consecutive numbers from the first on. -/
def numbered {α : Type} : Nat → List α → Tab α
  | _, [] => []
  | i, a :: l => (i, a) :: numbered (i + 1) l

/-- A rewrite of a branch's hot list: slot i is full with the i-th entry, and every later slot is empty (R107). -/
def Index.writeHotList (x : Index) (branch : Nat) (sights : List (Fingerprint × Nat)) : Index :=
  { x with hot := (x.hot.filter fun e => decide (e.1 < hotSlot branch 0)) ++
      numbered (hotSlot branch 0) (sights.take hotSlots) ++
      x.hot.filter fun e => decide (hotSlot branch hotSlots ≤ e.1) }

/-! ## Locator Cache (R87): each set in order of last use, most recent first -/

/-- The locators of a fingerprint's set. -/
def Path.ways (p : Path) (f : Fingerprint) : List (Fingerprint × Nat) := tabGetD p.cache (cacheSet f) []

/-- Writes the locators of a fingerprint's set. -/
def Path.setWays (p : Path) (f : Fingerprint) (w : List (Fingerprint × Nat)) : Path :=
  { p with cache := tabPut [] p.cache (cacheSet f) w }

/-- The address a set holds for F. -/
def Path.locate (p : Path) (f : Fingerprint) : Option Nat := ((p.ways f).find? fun w => w.1 = f).map (·.2)

/-- Installs (F, address): the way becomes the most recently used, and the least recently used of eight leaves. -/
def Path.install (p : Path) (f : Fingerprint) (address : Nat) : Path :=
  p.setWays f (((f, address) :: (p.ways f).filter fun w => w.1 ≠ f).take 8)

/-- A hit: the way that holds F becomes the most recently used of its set. -/
def Path.touch (p : Path) (f : Fingerprint) : Path :=
  match p.locate f with
  | some a => p.install f a
  | none => p

/-- A drop: the way that holds F is emptied (R88). -/
def Path.dropWay (p : Path) (f : Fingerprint) : Path := p.setWays f ((p.ways f).filter fun w => w.1 ≠ f)

/-- An invalidation: the way that holds F with the address given is emptied. -/
def Path.invalidate (p : Path) (f : Fingerprint) (address : Nat) : Path :=
  p.setWays f ((p.ways f).filter fun w => w ≠ (f, address))

/-! ## Pending Entry Table (R96) -/

/-- The lowest-numbered free PET slot. -/
def Path.freePet (p : Path) : Option Nat := tabLowestFree p.pet 0 4096

/-- The PET slot that follows the entry at an address. -/
def Path.petOf (p : Path) (address : Nat) : Option (Nat × PetSlot) := p.pet.find? fun s => s.2.address = address

end Sys2Proof.Machine
end

