-- ==== Sys2Proof/Machine/Streams.lean ====
section
/-! DEFINITION. What happens to a stream's context from outside it: settled chunks, PACE notices, abnormal causes, the
end of its records, its end, and the opening of a stream (R3 to R24, R38 to R43). -/

namespace Sys2Proof.Machine

open Sys2Proof

/-! ## PACE (R40 to R43) -/

/-- The context's PACE notice of its present pace state. -/
def Context.paceNotice (c : Context) (slot : Nat) : PaceNotice := ⟨slot, c.branch, c.stream, c.source, c.pace, none⟩

/-- Writes a context and makes its PACE notice. -/
def Path.paced (p : Path) (slot : Nat) (c : Context) : Path :=
  Path.makePace { p with contexts := tabSet p.contexts slot c } (c.paceNotice slot)

/-- The STOP threshold, max(1, quota - pace margin) (R40). -/
def stopThreshold (quota margin : Nat) : Nat := max 1 (quota - margin)

/-- The held-block count was `before`: a rise to the STOP threshold moves GO to STOP (R40). -/
def Path.testStop (p : Path) (c : Control) (slot before : Nat) : Path :=
  match tabGet p.contexts slot with
  | some x =>
    if x.state.taking ∧ x.pace = .go ∧ before < x.held ∧
        stopThreshold x.quota c.tables.settings.paceMargin ≤ x.held then
      p.paced slot { x with pace := .stop, lastStop := some c.now }
    else p
  | none => p

/-- The held-block count was `before`: a fall to half the quota moves STOP to GO, in ACTIVE and DRAINING (R42). -/
def Path.testGo (p : Path) (slot before : Nat) : Path :=
  match tabGet p.contexts slot with
  | some x =>
    if x.state.reading ∧ x.pace = .stop ∧ x.held < before ∧ x.held ≤ x.quota / 2 then
      p.paced slot { x with pace := .go }
    else p
  | none => p

/-- At least 1 ms has passed since the last STOP was made for the context (R41). -/
def Context.stopOld (x : Context) (now : Nat) : Bool :=
  match x.lastStop with
  | some t => decide (t + msec 1 ≤ now)
  | none => true

/-- A context in STOP has taken a DATA parcel, or a parcel has been dropped for its quota: a further STOP, if the
last is at least 1 ms old (R41). -/
def Path.repeatStop (p : Path) (c : Control) (slot : Nat) : Path :=
  match tabGet p.contexts slot with
  | some x => if x.pace = .stop ∧ x.stopOld c.now then p.paced slot { x with lastStop := some c.now } else p
  | none => p

/-- A parcel has been dropped for the quota: a context in GO moves to STOP, one in STOP may repeat it (R41). -/
def Path.quotaStop (p : Path) (c : Control) (slot : Nat) : Path :=
  match tabGet p.contexts slot with
  | some x =>
    if x.pace = .go then p.paced slot { x with pace := .stop, lastStop := some c.now } else p.repeatStop c slot
  | none => p

/-! ## Settled chunks, end of records, end of the stream -/

/-- A chunk of a context becomes settled, and blocks may return (R38, R42). -/
def Path.settle (p : Path) (slot ordinal : Nat) : Path :=
  match tabGet p.contexts slot with
  | some x => Path.testGo { p with contexts := tabSet p.contexts slot (x.settle ordinal) } slot x.held
  | none => p

/-- A context reports the end of its records once, when its queue is empty after its Chunker has become COMPLETE, in
DRAINING or QUIESCING (R12, R100); the open batch that holds an item of the slot is closed at once (R172). -/
def Path.endRecords (p : Path) (slot : Nat) : Path :=
  match tabGet p.contexts slot with
  | some x =>
    if x.completed ∧ x.queue.isEmpty ∧ (x.state = .draining ∨ x.state = .quiescing) ∧ ¬ p.eor.contains slot then
      let q := { p with eor := slot :: p.eor }
      if p.batch.items.any fun i => i.slot = slot then q.closeBatch else q
    else p
  | none => p

/-- The counter of the streams ended with a class (R22). -/
def endCounter : EndClass → Counter
  | .normal => .streamsNormal
  | .abnormal => .streamsAbnormal
  | .aborted => .streamsAborted

/-- A rewrite of the branch's hot list is asked for when a STORE stream ends NORMAL with a sight list of at least 256
fingerprints (R22, R107). -/
def Path.askRewrite (p : Path) (x : Context) (cls : EndClass) : Path :=
  if x.mode = .store ∧ cls = .normal ∧ 256 ≤ x.sight.length then
    { p with hotOps := p.hotOps ++ [.rewrite x.branch x.sight] }
  else p

/-- The end of a context's work: the summary, the counter, the hot-list rewrite, LINGER (R22). Any unsent PACE notice of the
context is discarded; R22 names a GO, and that a STOP goes too at the end of DRAINING is the model's (DESIGN CHOICE, log 43). -/
def Path.endStream (p : Path) (c : Control) (slot : Nat) (x : Context) (cls : EndClass) (cause : Option Cause) : Path :=
  let q := p.sendNotice (.summary x.source (x.closeSummary slot cls cause c.calendar))
  let q := (q.bump (endCounter cls) 1).askRewrite x cls
  Path.dropPace { q with contexts := tabSet q.contexts slot (x.enterLinger cls cause c.now) } slot

/-- A context whose work is finished ends: DRAINING under R12, QUIESCING under R15. -/
def Path.endWork (p : Path) (c : Control) (slot : Nat) : Path :=
  match tabGet p.contexts slot with
  | some x =>
    if x.state = .draining ∧ x.drained then p.endStream c slot x x.drainEnd.1 x.drainEnd.2
    else if x.state = .quiescing ∧ x.queue.isEmpty ∧ x.unanswered = 0 then
      p.endStream c slot x (x.endClass.getD .abnormal) x.cause
    else p
  | none => p

/-- A context's end of records and its end are tested after whatever may have brought them about. -/
def Path.check (p : Path) (c : Control) (slot : Nat) : Path := (p.endRecords slot).endWork c slot

/-- A context in OPENING, ACTIVE or DRAINING enters QUIESCING; its unsent PACE notice is discarded (R13, R14, R43).
A context that already holds a termination class keeps it. -/
def Path.quiesce (p : Path) (slot : Nat) (cls : EndClass) (cause : Option Cause) (failPoint : Option (Nat × Nat)) :
    Path :=
  match tabGet p.contexts slot with
  | some x =>
    if x.state.taking then
      Path.dropPace { p with contexts := tabSet p.contexts slot (x.quiesce cls cause failPoint) } slot
    else p
  | none => p

/-- An abnormal cause is reported to a context (R13). -/
def Path.abnormal (p : Path) (slot : Nat) (cause : Cause) : Path := p.quiesce slot .abnormal (some cause) none

/-- STORE_LOST is reported to a context with a fail point: stream offset and ordinal (R13). -/
def Path.storeLost (p : Path) (slot offset ordinal : Nat) : Path :=
  p.quiesce slot .abnormal (some .storeLost) (some (offset, ordinal))

/-- OVERLENGTH is reported to a context with a byte beyond its E-th chunk (R19, R54). -/
def Path.testOverlength (p : Path) (slot : Nat) : Path :=
  match tabGet p.contexts slot with
  | some x => if x.overlong then p.abnormal slot .overlength else p
  | none => p

/-- One of a context's records has been settled (R11). -/
def Path.answer (p : Path) (slot : Nat) : Path := p.modCtx slot Context.answer

/-- The Chunker of a context that reads settles its status; OVERLENGTH, the end of records and the end of the stream
may follow (R45, R54, R12). -/
def Path.runChunker (p : Path) (c : Control) (slot : Nat) : Path :=
  ((p.modCtx slot fun x => if x.state.reading then x.settleStatus else x).testOverlength slot).check c slot

/-- A context becomes FREE; a hot-list load it asked for keeps no context (R105). -/
def Path.freeCtx (p : Path) (slot : Nat) : Path :=
  { p with
    contexts := tabErase p.contexts slot
    hotOps := p.hotOps.map fun o => match o with
      | .load b (some s) => if s = slot then .load b none else .load b (some s)
      | o => o }

/-- OPENING ends (R7): the context becomes ACTIVE, or DRAINING with close pending, and the Chunker begins at 0. -/
def Path.endOpening (p : Path) (c : Control) (slot : Nat) : Path :=
  match tabGet p.contexts slot with
  | some x =>
    if x.state = .opening then
      let y := { x with state := if x.closePending then .draining else .active, warmUp := none }
      Path.runChunker { p with contexts := tabSet p.contexts slot y } c slot
    else p
  | none => p

/-! ## Opening a stream (R3 to R6) -/

/-- What an OPEN, or the DATA of an implied open, asks for (R4, R6). The codes are those of R204. -/
structure OpenAsk where
  source : Mac
  branch : Nat
  stream : Nat
  mode : Nat
  endMode : Nat
  expected : Nat
  implied : Bool

/-- A field of the parcel is bad (R4). -/
def OpenAsk.bad (o : OpenAsk) : Bool :=
  decide (o.branch = 0) || decide (15 < o.stream) || !(o.mode == 1 || o.mode == 2) ||
    (o.mode == 2 && !(o.endMode == 1 || o.endMode == 2))

/-- The contexts of a branch that count against its stream limit (R3, R24). -/
def Path.openCount (p : Path) (branch : Nat) : Nat :=
  (p.contexts.filter fun sc => sc.2.branch == branch && sc.2.state.open?).length

/-- An OPEN REPLY to the parcel's source, with branch and stream number as the parcel gave them (R1, R3). -/
def Path.openReply (p : Path) (o : OpenAsk) (reason : OpenReason) (slot : Nat) : Path :=
  p.sendNotice (.openReply o.source o.branch o.stream reason slot)

/-- An open is refused (R3). -/
def Path.refuseOpen (p : Path) (o : OpenAsk) (reason : OpenReason) (slot : Nat) : Path :=
  (p.bump .opensRefused 1).openReply o reason slot

/-- The context an accepted open fills (R2, R5, R188): E of 0 means 16,777,216. -/
def OpenAsk.context (o : OpenAsk) (c : Control) : Context :=
  let b := c.tables.activeBank.branch o.branch
  let pol := c.tables.activeBank.policy b.policy
  let verify := o.mode == 2
  { branch := o.branch, stream := o.stream, source := o.source
    mode := if verify then .verify else .store
    endMode := if verify then some (if o.endMode = 1 then .count else .marker) else none
    expected := if verify && o.endMode == 1 then some (if o.expected = 0 then 16777216 else o.expected) else none
    policy := pol, holdTag := b.holdTag, quota := b.quota
    warmUp := some (c.now + warmUpPeriod pol.warmUp) }

/-- An open is accepted in a slot (R5): the context, the OPEN REPLY, the warm-up timer, the hot-list load. The slot's
end-of-records mark clears (R172). -/
def Path.acceptOpen (p : Path) (c : Control) (o : OpenAsk) (slot : Nat) : Path :=
  let q := { p with contexts := tabSet p.contexts slot (o.context c), eor := p.eor.filter (· ≠ slot) }
  let q := (q.bump .opensAccepted 1).openReply o .accepted slot
  { q with hotOps := q.hotOps ++ [.load o.branch (some slot)] }

/-- Checks 7 to 9 of R3: the branch's stream limit, a FREE slot, acceptance. The slot taken is answered. -/
def Path.openLast (p : Path) (c : Control) (o : OpenAsk) : Path × Option Nat :=
  if (c.tables.activeBank.branch o.branch).streamLimit ≤ p.openCount o.branch then
    (p.refuseOpen o .branchLimit 0, none)
  else
    match tabLowestFree p.contexts 1 384 with
    | none => (p.refuseOpen o .tableFull 0, none)
    | some slot => (p.acceptOpen c o slot, some slot)

/-- The checks of R3 in their order. The slot taken is answered, none where the open is refused. -/
def Path.openChecks (p : Path) (c : Control) (o : OpenAsk) : Path × Option Nat :=
  let b := c.tables.activeBank.branch o.branch
  if c.mode ≠ .serving then (p.refuseOpen o .wrongMode 0, none)
  else if o.bad then (p.refuseOpen o .badValue 0, none)
  else if ¬ b.enabled ∨ (o.implied ∧ ¬ b.impliedOpen) then (p.refuseOpen o .branchDisabled 0, none)
  else if o.mode = 2 ∧ ¬ b.verifyAllowed then (p.refuseOpen o .verifyNotAllowed 0, none)
  else
    match p.findCtx o.branch o.stream with
    | some (slot, x) =>
      if x.state = .linger then (p.freeCtx slot).openLast c o else (p.refuseOpen o .duplicateStream slot, none)
    | none => p.openLast c o

/-- A LATE notice for a parcel of a context in QUIESCING or LINGER, to the parcel's source (R15, R23). -/
def Path.late (p : Path) (source : Mac) (x : Context) (kind : LateKind) : Path :=
  (p.bump .lateParcels 1).sendNotice (.late source x.branch x.stream kind)

/-- Stream parcels are dropped at the S-port (R1) and while a warm reset is under way (R200). -/
def Path.dropsStreams (p : Path) (port : Port) : Bool := port = .s || p.warm.isSome

end Sys2Proof.Machine
end

