-- ==== Sys2Proof/Machine/Sweeper.lean ====
section
/-! DEFINITION. The Expiry Sweeper (R115 to R122): starts, the way from one visit to the next, visits, the RELEASE
queue and its batches. -/

namespace Sys2Proof.Machine

open Sys2Proof

/-- The items in the RELEASE queue, batched and unbatched (R121). -/
def Sweeper.queued (w : Sweeper) : Nat := w.unbatched.length + (w.batches.map List.length).sum

/-- The free places of the RELEASE queue (R121). -/
def Sweeper.freePlaces (w : Sweeper) : Nat := 256 - w.queued

/-- A visit of a bucket is issued at a position; every free place, up to 16, is reserved for it (R116). -/
def Path.issueVisit (p : Path) (pos : SweepPos) (bucket : Nat) : Path :=
  { p with sweeper := { p.sweeper with
    pass := .running, pos := pos, visit := some ⟨bucket, min 16 p.sweeper.freePlaces⟩ } }

/-- The first `n` unbatched items become a batch, which asks for a tag (R121, R149). -/
def Path.makeBatch (p : Path) (n : Nat) : Path :=
  match p.sweeper.unbatched.take n with
  | [] => p
  | items => Path.askTag { p with sweeper := { p.sweeper with
      unbatched := p.sweeper.unbatched.drop n, batches := p.sweeper.batches ++ [items] } } .oldestRelease

/-- The lowest READY group numbered g or greater (R119). -/
def Index.nextReady (x : Index) (g : Nat) : Option Nat :=
  (x.groups.find? fun e => decide (g ≤ e.1) && decide (e.1 < x.groupCount) && decide (e.2.state = .ready)).map (·.1)

/-- Whether a marked bucket comes at or after a bin and bucket in the order of the BINS phase (R120). -/
def atOrAfter (bin bucket b : Nat) : Bool := decide (bin < binOf b) || (decide (bin = binOf b) && decide (bucket ≤ b))

/-- Of two buckets, the one that comes first in the order of the BINS phase. -/
def firstInBins (a : Option Nat) (b : Nat) : Option Nat :=
  match a with
  | none => some b
  | some c => if binOf b < binOf c ∨ (binOf b = binOf c ∧ b < c) then some b else some c

/-- The next bucket the BINS phase takes: marked, below 2^m, at or after a bin and bucket (R120). -/
def Index.nextMarked (x : Index) (bin bucket : Nat) : Option Nat :=
  ((x.marks.map (·.1)).filter fun b => decide (b < 2 ^ x.geometry) && atOrAfter bin bucket b).foldl firstInBins none

/-- The next visit of a pass from a position, or none where the pass has passed bin 4095 (R119, R120). -/
def Index.nextVisit (x : Index) : SweepPos → Option (SweepPos × Nat)
  | .buckets b e =>
    if b < 2 ^ x.geometry then
      if (x.readyPage b).isSome then some (.buckets b e, b)
      else
        match x.nextReady (groupOf b + 1) with
        | some g => some (.buckets (256 * g) 0, 256 * g)
        | none => (x.nextMarked 0 0).map fun y => (.bins (binOf y) y 0, y)
    else (x.nextMarked 0 0).map fun y => (.bins (binOf y) y 0, y)
  | .bins q b e =>
    (x.nextMarked q b).map fun y => if y = b then (.bins q b e, b) else (.bins (binOf y) y 0, y)

/-- A pass goes on from a position: the next visit is issued, or the pass ends (R122) and, with the restart mark set,
the next begins at once. `n` bounds the passes that end without a visit: the mark is clear after the first. An IDLE pass
holds bucket 0, entry 0 (log 42). -/
def Path.sweepFrom (x : Index) : Nat → SweepPos → Path → Path
  | 0, _, p => p
  | n + 1, pos, p =>
    match x.nextVisit pos with
    | some (at_, bucket) => p.issueVisit at_ bucket
    | none =>
      let q := (p.makeBatch p.sweeper.unbatched.length).bump .sweepPasses 1
      if q.sweeper.restart then
        Path.sweepFrom x n (.buckets 0 0) { q with sweeper := { q.sweeper with restart := false } }
      else { q with sweeper := { q.sweeper with pass := .idle, pos := .buckets 0 0, visit := none } }

/-- A pass goes on from a position. -/
def Path.sweepOn (p : Path) (x : Index) (pos : SweepPos) : Path := Path.sweepFrom x 2 pos p

/-- What a start comes to (R118). -/
def Sweeper.startResult (w : Sweeper) : SweepResult :=
  if w.pass = .idle then .started else if w.restart then .alreadyMarked else .marked

/-- A start is taken by the sweeper (R118). -/
def Path.startSweep (p : Path) (x : Index) : Path :=
  if p.sweeper.pass = .idle then p.sweepOn x (.buckets 0 0)
  else { p with sweeper := { p.sweeper with restart := true } }

/-- A waiting pass goes on at the entry where it waits once the RELEASE queue has a free place (R121). -/
def Path.resumeSweep (p : Path) (x : Index) : Path :=
  if p.sweeper.pass = .waiting ∧ 0 < p.sweeper.freePlaces then p.sweepOn x p.sweeper.pos else p

/-- The oldest batch leaves the RELEASE queue (R121); a waiting pass may go on. -/
def Path.takeBatch (p : Path) (x : Index) : Path :=
  Path.resumeSweep { p with sweeper := { p.sweeper with batches := p.sweeper.batches.tail } } x

/-! ## A visit (R115, R116) -/

/-- A LIVE entry is releasable, its hold set already cleaned (R115). -/
def Entry.releasable (e : Entry) (today : Nat) : Bool :=
  decide (e.count = 0) && decide (e.holds = 0) && decide (e.untilDay < today)

/-- The RELEASE item of an entry (R116). -/
def Entry.relItem (e : Entry) (address : Nat) : RelItem := ⟨e.fp, e.container, e.offset, e.length, address⟩

/-- What a visit comes to: the index, the items it made, and the entry position at which it ended early. -/
structure VisitEnd where
  idx : Index
  items : List RelItem
  early : Option Nat

/-- A visit of some entries, each with its position, with the active tags, today and the reserved places that are
left (R116). -/
def Index.visit (holds : Mask16) (today : Nat) : Nat → List (Nat × Nat) → Index → VisitEnd
  | _, [], x => ⟨x, [], none⟩
  | room, (i, a) :: rest, x =>
    match x.entry a with
    | some e =>
      if e.state = .live then
        let f := { e with holds := e.holds &&& holds }
        if f.releasable today then
          match room with
          | 0 => ⟨x.set a f, [], some i⟩
          | room + 1 =>
            let r := Index.visit holds today room rest (x.set a { f with state := .releasing })
            ⟨r.idx, f.relItem a :: r.items, r.early⟩
        else Index.visit holds today room rest (x.set a f)
      else Index.visit holds today room rest x
    | none => Index.visit holds today room rest x

/-- The entries a visit examines, each with its position: those of the bucket from the position's entry on, or the
bin's entries that belong to the bucket (R119, R120). -/
def Index.visitEntries (x : Index) (pos : SweepPos) : List (Nat × Nat) :=
  match pos with
  | .buckets b e =>
    match x.readyPage b with
    | some page => ((List.range 16).drop e).map fun i => (i, bucketAddress page b i)
    | none => []
  | .bins q b e =>
    match x.readyPage b with
    | some _ =>
      (((List.range 16).drop e).map fun i => (i, binAddress q i)).filter fun ia =>
        match x.entry ia.2 with
        | some en => x.bucket en.fp = b
        | none => false
    | none => []

/-- The position with another entry. -/
def SweepPos.withEntry : SweepPos → Nat → SweepPos
  | .buckets b _, e => .buckets b e
  | .bins q b _, e => .bins q b e

/-- The position after a visit that did not end early (R119, R120): the next bucket, or in the BINS phase the next
bucket the bin serves. -/
def SweepPos.after : SweepPos → SweepPos
  | .buckets b _ => .buckets (b + 1) 0
  | .bins q b _ => .bins q (b + 4096) 0

/-- The items of a visit join the RELEASE queue; 64 unbatched make a batch (R116, R121). -/
def Path.joinRelease (p : Path) (items : List RelItem) : Path :=
  let q := { p with sweeper := { p.sweeper with unbatched := p.sweeper.unbatched ++ items, visit := none } }
  let q := if items.isEmpty then q else q.bump .releaseItems items.length
  if 64 ≤ q.sweeper.unbatched.length then q.makeBatch 64 else q

/-- A visit ends early: the pass waits at the entry, and the unbatched items make a batch (R119, R121). A place that has
become free since the visit was issued lets the pass go on at once. -/
def Path.waitSweep (p : Path) (x : Index) (pos : SweepPos) : Path :=
  let q := p.makeBatch p.sweeper.unbatched.length
  Path.resumeSweep { q with sweeper := { q.sweeper with pass := .waiting, pos := pos } } x

end Sys2Proof.Machine
end

