-- ==== Sys2Proof/Machine/StoreLink.lean ====
section
/-! DEFINITION. The Store Link Controller (R148 to R161): issues, resends, answers, failures and link loss. -/

namespace Sys2Proof.Machine

open Sys2Proof

/-! ## Accepted and failed messages (R144, R147, R152, R155 to R157) -/

/-- The answer to a CHUNK message is counted at its container; a SEAL may be made (R144, R145). -/
def Path.containerAnswer (p : Path) (id length : Nat) (failed : Bool) : Path :=
  let r := p.alloc.answered id length failed
  Path.askSeals { p with alloc := r.1 } r.2

/-- The context slots named by some REFs, each once, in order of first mention: the order in which the contexts of one answer
are told STORE_LOST and tested for their end, which R156 and R22 leave open (DESIGN CHOICE, log 40). -/
def refSlots : List RefItem → List Nat
  | [] => []
  | i :: is => i.slot :: (refSlots is).filter (· ≠ i.slot)

/-- The REF of a slot with the lowest ordinal: the fail point of R156. -/
def lowestRef (items : List RefItem) (slot : Nat) : Option RefItem :=
  (items.filter fun i => i.slot = slot).foldl
    (fun a i => match a with
      | none => some i
      | some b => if i.ordinal < b.ordinal then some i else some b) none

/-- Every context named by the REFs of a failed batch is told STORE_LOST (R156). -/
def Path.refsLost (p : Path) (items : List RefItem) : Path :=
  (refSlots items).foldl (fun q s => match lowestRef items s with
    | some i => q.storeLost s i.streamOffset i.ordinal
    | none => q) p

/-- Each REF of a batch is settled (R152, R156). -/
def Path.refsAnswered (p : Path) (items : List RefItem) : Path :=
  items.foldl (fun q i => q.answer i.slot) p

/-- Each context of some slots is tested for the end of its records and its end, in the order given (log 40). -/
def Path.checkAll (p : Path) (c : Control) (slots : List Nat) : Path := slots.foldl (fun q s => q.check c s) p

/-- The outcomes of a RELEASE batch go to the buckets of its items (R123, R124). -/
def Path.releaseOutcomes (p : Path) (items : List RelItem) (accepted : Bool) : Path :=
  { p with releaseOps := p.releaseOps ++ items.map fun i => ⟨accepted, i⟩ }

/-- The outcome of a NEW chunk's CHUNK message goes to its entry's bucket (R152, R155). -/
def Path.chunkOutcome (p : Path) (r : ChunkRec) (accepted : Bool) : Path :=
  match r.entry with
  | some (address, pet) => { p with chunkOps := p.chunkOps ++ [⟨accepted, pet, address, r.fp⟩] }
  | none => p

/-- A message is answered ACCEPT (R152). -/
def Path.accept (p : Path) (c : Control) (m : Content) : Path :=
  match m with
  | .chunk r =>
    (((p.containerAnswer r.container r.length false).settle r.slot r.ordinal).answer r.slot |>.chunkOutcome r true).check
      c r.slot
  | .refs items => (p.refsAnswered items).checkAll c (refSlots items)
  | .seal r => Path.bump { p with alloc := p.alloc.remove r.container } .containersSealed 1
  | .release items => p.releaseOutcomes items true

/-- A message is answered FAIL, or is given up (R147, R155 to R157). -/
def Path.fail (p : Path) (c : Control) (m : Content) : Path :=
  match m with
  | .chunk r =>
    let q := ((p.containerAnswer r.container r.length true).settle r.slot r.ordinal).answer r.slot
    ((q.storeLost r.slot r.streamOffset r.ordinal).chunkOutcome r false |>.bump .chunksFailed 1).check c r.slot
  | .refs items =>
    (((p.refsAnswered items).refsLost items).bump .refBatchesFailed 1).checkAll c (refSlots items)
  | .seal r =>
    (Path.bump { p with alloc := p.alloc.remove r.container } .sealsFailed 1).setFlag .storeGiveUp
  | .release items => p.releaseOutcomes items false

/-! ## The in-flight list -/

/-- A message leaves the in-flight list and its tag is free (R150). -/
def Path.removeMessage (p : Path) (tag : Nat) : Path :=
  { p with link := { p.link with inflight := p.link.inflight.filter fun m => m.tag ≠ tag } }

/-- Changes the message of a tag. -/
def Path.modMessage (p : Path) (tag : Nat) (f : Message → Message) : Path :=
  { p with link := { p.link with inflight := p.link.inflight.map fun m => if m.tag = tag then f m else m } }

/-- A tag's serial counter after it has risen by 1, mod 256 (R148). -/
def Link.nextSerial (l : Link) (tag : Nat) : Nat := (tabGetD l.serials tag 0 + 1) % 256

/-- Writes a tag's serial counter. -/
def Link.setSerial (l : Link) (tag serial : Nat) : Link := { l with serials := tabPut 0 l.serials tag serial }

/-- The lowest-numbered free tag of 0 to 63 (R149). -/
def Link.freeTag (l : Link) : Option Nat :=
  (List.range 64).find? fun t => l.inflight.all fun m => m.tag ≠ t

/-- A message is handed to the Egress Scheduler at its first issue: CHUNK and REF batches as DATA, SEAL and RELEASE
batches as SIDE (R150, R164, R166). -/
def Path.handFirst (p : Path) (now : Nat) (m : Message) : Path :=
  match m.content with
  | .chunk _ => { p with sPort := { p.sPort with chunkQ := p.sPort.chunkQ ++ [m.tag] } }
  | .refs _ => { p with sPort := { p.sPort with refQ := p.sPort.refQ ++ [m.tag] } }
  | _ => p.offerS now (.message m.tag m.serial)

/-- A message is issued with a tag (R150): a new serial, attempt 1, SENDING, the tail of the in-flight list. -/
def Path.issue (p : Path) (c : Control) (tag : Nat) (content : Content) : Path :=
  let serial := p.link.nextSerial tag
  let m : Message := ⟨tag, serial, .sending, 1, c.now, content⟩
  let l := p.link.setSerial tag serial
  (Path.bump { p with link := { l with inflight := l.inflight ++ [m] } } .messagesIssued 1).handFirst c.now m

/-- A message of the in-flight list is issued again (R153): a new serial, the attempt count raised, SENDING, the resend
set. As an issue it counts among the messages issued (R150, log 18). -/
def Path.resend (p : Path) (tag : Nat) : Path :=
  let serial := p.link.nextSerial tag
  let q := { p with link := p.link.setSerial tag serial }
  let q := q.modMessage tag fun m =>
    { m with serial := serial, phase := .sending, attempts := min 65535 (m.attempts + 1) }
  (Path.bump { q with sPort := { q.sPort with resend := q.sPort.resend ++ [tag] } } .messagesIssued 1).bump .resends 1

/-- A message leaves the list as failed (R155 to R157). -/
def Path.failMessage (p : Path) (c : Control) (m : Message) : Path :=
  ((p.removeMessage m.tag).withdraw c.now m.tag).fail c m.content

/-- A resend is due: it is made, or the message is given up, by the retry limit and action in force (R154). -/
def Path.resendDue (p : Path) (c : Control) (m : Message) : Path :=
  if m.attempts < c.tables.settings.retryLimit then p.resend m.tag
  else
    match c.tables.settings.retryAction with
    | .persist => (p.resend m.tag).setFlag .storeRetry
    | .giveUp => ((p.bump .giveUps 1).setFlag .storeGiveUp).failMessage c m

/-- A message goes to RETRY WAIT, due 2 ms later (R153); it leaves its queue if it stands in one (R163). -/
def Path.retryWait (p : Path) (c : Control) (tag : Nat) : Path :=
  (p.modMessage tag fun m => { m with phase := .retryWait (c.now + msec 2) }).withdraw c.now tag

/-- SENDING or AWAITING: the phases in which an answer is taken (R151). -/
def Phase.answerable : Phase → Bool
  | .sending | .awaiting _ => true
  | _ => false

/-! ## Requests for tags while the link is LOST (R161) -/

/-- A request for a tag fails at once (R161); a RELEASE request takes the queue's oldest batch with it. -/
def Path.failRequest (p : Path) (c : Control) (x : Index) (r : TagRequest) : Path :=
  match r with
  | .message m => p.fail c m
  | .oldestRelease =>
    match p.sweeper.batches with
    | b :: _ => (p.fail c (.release b)).takeBatch x
    | [] => p

/-- A bound on the requests for tags that can come one after another without a new chunk, REF or visit: those waiting,
one SEAL for each container that has made none, the open REF batch, and a batch of the unbatched RELEASE items. -/
def Path.tagWork (p : Path) : Nat :=
  p.link.waiting.length + (p.alloc.slots.filter fun cs => !cs.2.box.sealIssued).length +
    (p.alloc.sealing.filter fun b => !b.sealIssued).length + (if p.batch.items = [] then 0 else 1) +
    (if p.sweeper.unbatched = [] then 0 else 1)

/-- While the link is LOST, waiting requests fail, oldest first, at most `n` of them. R161 has each fail at once: that those
waiting, and those that failures make, fail oldest first after what the command did before is the model's (DESIGN CHOICE,
log 45). -/
def Path.drainLost (c : Control) (x : Index) : Nat → Path → Path
  | 0, p => p
  | n + 1, p =>
    if p.link.state = .lost then
      match p.link.waiting with
      | [] => p
      | r :: rest =>
        Path.drainLost c x n
          ((Path.failRequest { p with link := { p.link with waiting := rest } } c x r).bump .messagesLinkLost 1)
    else p

end Sys2Proof.Machine
end

