-- ==== Sys2Proof/Machine/Responder.lean ====
section
/-! DEFINITION. The Management Responder (R189 to R191): the head request of a queue, its reply, the requests the part
does not know; and `State.finish`, what every command ends with: requests that fail while the link is LOST, unknown
requests answered, and the grants of idle transmitters. -/

namespace Sys2Proof.Machine

open Sys2Proof

/-- The code of a request's kind (R202). -/
def requestCode : Request → Nat
  | .identify => 0x01
  | .readStatus => 0x02
  | .clearFlags _ => 0x03
  | .readCounters _ => 0x04
  | .setSettings _ => 0x05
  | .setGeometry _ => 0x06
  | .mapGroup _ _ => 0x07
  | .unmapGroup _ => 0x08
  | .setExclusion _ _ _ _ => 0x09
  | .loadTable _ => 0x0A
  | .readTable _ => 0x0B
  | .swapBanks => 0x0D
  | .setDate _ _ _ _ _ => 0x0E
  | .nudge _ => 0x0F
  | .setHold _ _ => 0x10
  | .retire _ => 0x11
  | .sweepNow => 0x12
  | .setContainerBase _ => 0x13
  | .sealContainers => 0x14
  | .setMode _ => 0x15
  | .restoreEntries _ => 0x16
  | .readEntry _ => 0x17
  | .readStream _ => 0x18
  | .forceEnd _ => 0x19
  | .setManagementSources _ => 0x1A
  | .warmReset => 0x1B
  | .unknown code => code

/-- What a request is answered with: a status, a reason where it is REFUSED, and results (R189). -/
structure Answer where
  status : Status
  reason : Option Reason := none
  result : Result := .none

/-- DONE with results. -/
def Answer.done (r : Result) : Answer := { status := .done, result := r }

/-- REFUSED with a reason. -/
def Answer.refuse (r : Reason) : Answer := { status := .refused, reason := some r }

/-- REFUSED with a reason and results: the reply of a rule that gives results without exception (log 31). -/
def Answer.refuseWith (r : Reason) (x : Result) : Answer := { status := .refused, reason := some r, result := x }

/-- The reply to a request (R189): it echoes the request number and kind, and goes to the request's source. -/
def Req.reply (r : Req) (answers : Option Port) (a : Answer) : Reply :=
  { answers := answers, dest := r.source, number := r.number, kind := requestCode r.request
    status := a.status, reason := a.reason, result := a.result }

/-- A handled request is answered out of its port, and counted (R189). -/
def Path.respond (p : Path) (now : Nat) (port : Port) (r : Req) (a : Answer) : Path :=
  (p.bump .requestsHandled 1).sendReply now port (r.reply (some port) a)

/-- The Responder takes head requests: the reserved pages are clear and no warm reset is under way (R63, R191). -/
def Path.handling (p : Path) (x : Index) : Bool := !x.clearing && p.warm.isNone

/-- The head request of a port that waits to be taken (R191). -/
def State.headRequest (s : State) (port : Port) : Option Req :=
  if s.path.handling s.idx then
    match s.path.queue port with
    | ⟨r :: _, .waiting⟩ => some r
    | _ => none
  else none

/-- The state with a request answered. -/
def State.answer (s : State) (port : Port) (r : Req) (a : Answer) : State :=
  { s with path := s.path.respond s.ctl.now port r a }

/-- Requests of a kind the part does not know are REFUSED with BAD_VALUE as they come to the head (R189; log 13); at
most `n` of them. -/
def Path.answerUnknown (c : Control) (x : Index) (port : Port) : Nat → Path → Path
  | 0, p => p
  | n + 1, p =>
    if p.handling x then
      match p.queue port with
      | ⟨⟨number, source, .unknown code⟩ :: _, .waiting⟩ =>
        Path.answerUnknown c x port n
          (p.respond c.now port ⟨number, source, .unknown code⟩ (.refuse .badValue))
      | _ => p
    else p

/-- Unknown requests at the heads of both queues are answered. -/
def Path.answerUnknowns (p : Path) (c : Control) (x : Index) : Path :=
  Path.answerUnknown c x .s 8 (Path.answerUnknown c x .i 8 p)

/-- Both transmitters are offered a grant. -/
def Path.grants (p : Path) (c : Control) : Path := (p.grantS c).grantI

/-- What every command ends with: requests for tags fail while the link is LOST (R161), unknown requests are answered
(R189), and idle transmitters take what waits for them (R163, R173). A grant can make room for a waiting reply and so
bring the next request to the head. That all items a command makes have joined before an idle transmitter takes one is the
model's (DESIGN CHOICE, log 46). -/
def Path.finish (p : Path) (c : Control) (x : Index) : Path :=
  let p := Path.drainLost c x p.tagWork p
  let p := (p.answerUnknowns c x).grants c
  (p.answerUnknowns c x).grants c

/-- The state with its data path finished. -/
def State.finish (s : State) : State := { s with path := s.path.finish s.ctl s.idx }

/-- The outcome of every command: a next state. -/
abbrev Step := Host.Outcome State Fault Refusal

/-- The command changes the data path. -/
def State.withPath (s : State) (p : Path) : State := { s with path := p }

end Sys2Proof.Machine
end

