-- ==== Sys2Proof/Machine/Staging.lean ====
section
/-! DEFINITION. Parcel order and the Staging Memory's placement checks (R25 to R37), on a context that takes DATA
parcels. -/

namespace Sys2Proof.Machine

open Sys2Proof

/-- What a placement check comes to (R35 to R37). -/
inductive PlaceCheck where
  | fits
  | quota
  | pool
  deriving DecidableEq, Repr

/-- The placement check: `present` blocks are held and the placement would make them `count` (R35, R36). When both
fail, the quota check is counted (R37). -/
def placeCheck (quota free present count : Nat) : PlaceCheck :=
  if quota < count then .quota else if free + present < count then .pool else .fits

/-- A parcel is dropped by a placement check (R37, R41). -/
def Path.overrun (p : Path) (c : Control) (slot : Nat) (why : PlaceCheck) : Path :=
  let q := p.modCtx slot fun x => { x with overrunCount := add48 x.overrunCount 1 }
  match why with
  | .quota => (q.bump .quotaOverruns 1).quotaStop c slot
  | .pool => (q.bump .poolOverruns 1).setFlag .stagingExhausted
  | .fits => q

/-- The blocks a context would hold after L bytes are appended, its reorder list being `rest` (R35). -/
def Context.heldAfter (x : Context) (rest : List Early) (length : Nat) : Nat :=
  blocksCovering x.releasePoint (x.inOrder + length) + reorderBlocks rest

/-- A payload joins the window (R26). -/
def Context.append (x : Context) (payload : List Byte) : Context :=
  { x with window := x.window ++ payload, inOrder := x.inOrder + payload.length, expectedSeq := x.expectedSeq + 1 }

/-- The stream's end is signalled once N is recorded and e equals N (R50). -/
def Context.signal (x : Context) : Context :=
  if x.final = some x.expectedSeq then { x with chunker := { x.chunker with ended := true } } else x

/-- Reorder entries join the window while the lowest-numbered one is next, each checked as it joins (R26, R36); at
most `n` of them. -/
def Path.joinReorder (c : Control) (slot : Nat) : Nat → Path → Path
  | 0, p => p
  | n + 1, p =>
    match tabGet p.contexts slot with
    | none => p
    | some x =>
      match x.reorder with
      | [] => p
      | e :: rest =>
        if e.seq ≠ x.expectedSeq then p
        else
          let left := { x with reorder := rest }
          let q := { p with contexts := tabSet p.contexts slot left }
          match placeCheck x.quota q.freeBlocks left.held (x.heldAfter rest e.payload.length) with
          | .fits =>
            let q := { p with contexts := tabSet p.contexts slot (left.append e.payload) }
            Path.joinReorder c slot n ((q.testStop c slot x.held).testGo slot x.held)
          | why => (q.overrun c slot why).testGo slot x.held

/-- An in-order parcel (R26, R35): taken and followed by the reorder entries it lets join, or dropped as an overrun. -/
def Path.takeInOrder (p : Path) (c : Control) (slot : Nat) (x : Context) (payload : List Byte) : Path :=
  match placeCheck x.quota p.freeBlocks x.held (x.heldAfter x.reorder payload.length) with
  | .fits =>
    let q := { p with contexts := tabSet p.contexts slot { x.append payload with gapCount := 0 } }
    let q := if x.pace = .stop then q.repeatStop c slot else q.testStop c slot x.held
    (Path.joinReorder c slot 8 q).modCtx slot Context.signal
  | why => p.overrun c slot why

/-- A reorder list with an entry at its place in sequence order (R27). -/
def insertEarly (e : Early) : List Early → List Early
  | [] => [e]
  | f :: fs => if e.seq < f.seq then e :: f :: fs else f :: insertEarly e fs

/-- An early parcel (R27, R36): placed in the reorder list, dropped because the list is full, or dropped as an
overrun. -/
def Path.takeEarly (p : Path) (c : Control) (slot : Nat) (x : Context) (seq : Nat) (payload : List Byte) : Path :=
  if 8 ≤ x.reorder.length then
    (p.modCtx slot fun y => { y with overflowCount := add48 y.overflowCount 1 }).bump .reorderOverflows 1
  else
    match placeCheck x.quota p.freeBlocks x.held (x.held + blocksOf payload.length) with
    | .fits =>
      let q := { p with contexts := tabSet p.contexts slot { x with reorder := insertEarly ⟨seq, payload⟩ x.reorder } }
      if x.pace = .stop then q.repeatStop c slot else q.testStop c slot x.held
    | why => p.overrun c slot why

/-- The three classes of a DATA parcel (R25). -/
inductive SeqClass where
  | duplicate
  | inOrder
  | early
  deriving DecidableEq, Repr

/-- The class of a DATA parcel by its sequence number (R25). -/
def Context.classify (x : Context) (seq : Nat) : SeqClass :=
  if seq < x.expectedSeq ∨ (x.reorder.any fun e => e.seq = seq) then .duplicate
  else if seq = 0xFFFFFFFF then .duplicate
  else if (match x.final with | some n => decide (n ≤ seq) | none => false) then .duplicate
  else if seq = x.expectedSeq then .inOrder
  else .early

/-- A duplicate parcel is dropped (R28). -/
def Path.takeDuplicate (p : Path) (slot : Nat) : Path :=
  (p.modCtx slot fun y => { y with dupCount := add48 y.dupCount 1 }).bump .duplicateParcels 1

/-- A DATA parcel of a context in OPENING, ACTIVE or DRAINING (R10, R25); the Chunker is told of new bytes and of the
stream's end (R26, R45, R50). -/
def Path.takeData (p : Path) (c : Control) (slot : Nat) (x : Context) (seq : Nat) (payload : List Byte) : Path :=
  match x.classify seq with
  | .duplicate => p.takeDuplicate slot
  | .inOrder => (p.takeInOrder c slot x payload).runChunker c slot
  | .early => p.takeEarly c slot x seq payload

/-- What CLOSE records and drops (R9): N, the declared total, the reorder entries numbered N or greater, and, where e
already equals N, the end signalled (R50; log 14). -/
def Context.takeClose (x : Context) (final total : Nat) : Context :=
  let kept := x.reorder.filter fun e => e.seq < final
  { x with
    final := some final
    total := some total
    reorder := kept
    dupCount := add48 x.dupCount (x.reorder.length - kept.length)
    closePending := x.state = .opening
    state := if x.state = .active then .draining else x.state
    chunker := { x.chunker with ended := decide (x.expectedSeq = final) } }

/-- CLOSE taken by a context in OPENING or ACTIVE (R9). -/
def Path.takeClose (p : Path) (c : Control) (slot : Nat) (x : Context) (final total : Nat) : Path :=
  if final < x.expectedSeq then
    let y := { x with final := some final, total := some total }
    (Path.abnormal { p with contexts := tabSet p.contexts slot y } slot .lengthMismatch).check c slot
  else
    ((Path.testGo { p with contexts := tabSet p.contexts slot (x.takeClose final total) } slot x.held)).runChunker c slot

/-- A gap tick at one context (R30): waiting raises the gap count, and 2 ends the stream with cause GAP. -/
def Context.waiting (x : Context) : Bool :=
  !x.reorder.isEmpty || (match x.final with | some n => decide (x.expectedSeq < n) | none => false)

/-- A gap tick delivered to the context in a slot (R30). -/
def Path.gapTick (c : Control) (p : Path) (slot : Nat) : Path :=
  match tabGet p.contexts slot with
  | some x =>
    if x.state.taking ∧ x.waiting then
      let q := { p with contexts := tabSet p.contexts slot { x with gapCount := x.gapCount + 1 } }
      if 2 ≤ x.gapCount + 1 then (q.abnormal slot .gap).check c slot else q
    else p
  | none => p

end Sys2Proof.Machine
end

