-- ==== Sys2Proof/Machine/StreamEvents.lean ====
section
/-! DEFINITION. The meanings of the streams' timers and of the Chunker and Digest Unit: WARM_UP_EXPIRY,
HOT_LIST_LOAD_COMPLETE, HOT_LIST_REWRITE_COMPLETE, LINGER_EXPIRY, GAP_TICK, SECONDS_TICK, TAKE_BYTE,
DIGEST_COMPLETE. -/

namespace Sys2Proof.Machine

open Sys2Proof

/-- WARM_UP_EXPIRY (R7): a context in OPENING whose warm-up timer runs ends OPENING. -/
def execWarmUpExpiry (slot : Nat) (s : State) : Step :=
  .next (match (tabGet s.path.contexts slot).bind (·.warmUp) with
    | some t =>
      let c := s.ctl.reach t
      State.finish { s with ctl := c, path := s.path.endOpening c slot }
    | none => s)

/-- The branch of a hot-list operation. -/
def HotOp.branchOf : HotOp → Nat
  | .load b _ => b
  | .rewrite b _ => b

/-- The operation under way at a branch's hot list: the first asked for (R104). -/
def Path.hotUnderWay (p : Path) (branch : Nat) : Option HotOp := p.hotOps.find? fun o => o.branchOf = branch

/-- The operation under way at a branch's list is done with. -/
def Path.hotDone (p : Path) (branch : Nat) : Path :=
  { p with hotOps := p.hotOps.eraseP fun o => o.branchOf = branch }

/-- A hot list's locators are installed in slot order (R105). -/
def Path.installAll (p : Path) (l : List (Fingerprint × Nat)) : Path := l.foldl (fun q w => q.install w.1 w.2) p

/-- HOT_LIST_LOAD_COMPLETE (R105, R7): the locators of the branch's list are in the cache, and the context that asked
ends OPENING if it is still there. -/
def execHotListLoadComplete (branch : Nat) (s : State) : Step :=
  .next (match s.path.hotUnderWay branch with
    | some (.load _ slot) =>
      let p := (s.path.hotDone branch).installAll (s.idx.hotList branch)
      State.finish (s.withPath (match slot with
        | some n => p.endOpening s.ctl n
        | none => p))
    | _ => s)

/-- HOT_LIST_REWRITE_COMPLETE (R107): slot i holds the i-th fingerprint of the sight list; the later slots are
empty. -/
def execHotListRewriteComplete (branch : Nat) (s : State) : Step :=
  .next (match s.path.hotUnderWay branch with
    | some (.rewrite _ sights) =>
      State.finish { s with idx := s.idx.writeHotList branch sights, path := s.path.hotDone branch }
    | _ => s)

/-- LINGER_EXPIRY (R23): the context becomes FREE. -/
def execLingerExpiry (slot : Nat) (s : State) : Step :=
  .next (match (tabGet s.path.contexts slot).bind (·.linger) with
    | some t => State.finish { s with ctl := s.ctl.reach t, path := s.path.freeCtx slot }
    | none => s)

/-- The gap tick interval in REFCLK periods (R29). -/
def Settings.gapInterval (g : Settings) : Nat := msec (10 * g.gapSteps)

/-- GAP_TICK (R29, R30): every context takes the tick, and the timer runs for its next interval. -/
def execGapTick (s : State) : Step :=
  let c := s.ctl.reach s.ctl.gapTimer
  .next (State.finish { s with
    ctl := { c with gapTimer := s.ctl.gapTimer + c.tables.settings.gapInterval }
    path := (s.path.contexts.map (·.1)).foldl (Path.gapTick c) s.path })

/-- The calendar after a seconds tick, and whether it rolled over (R128). -/
def Calendar.tick (c : Calendar) : Calendar × Bool :=
  if c.isSet then
    if c.seconds + 1 = 86400 then (({ c with seconds := 0 }).rollover, true)
    else ({ c with seconds := c.seconds + 1 }, false)
  else (c, false)

/-- A sweep start is sent where the calendar rolled over (R131). -/
def Path.startIf (p : Path) (x : Index) (rolled : Bool) : Path := if rolled then p.startSweep x else p

/-- SECONDS_TICK (R127, R128): the divider starts its count again and the calendar takes the tick. -/
def execSecondsTick (s : State) : Step :=
  let c := s.ctl.reach s.ctl.divider
  .next (State.finish { s with
    ctl := { c with divider := s.ctl.divider + sec 1, calendar := s.ctl.calendar.tick.1 }
    path := s.path.startIf s.idx s.ctl.calendar.tick.2 })

/-- The gear table of a context (R46, R47). -/
def Context.gearTable (x : Context) (t : Tables) (i : Nat) : Word32 := t.gearWord x.policy.gear i

/-- TAKE_BYTE (R45, R47 to R50, R54): the Chunker of a RUNNING stream takes the next in-order byte. -/
def execTakeByte (slot : Nat) (s : State) : Step :=
  .next (match tabGet s.path.contexts slot with
    | some x =>
      if x.chunker.status = .running then
        let y := x.takeByte (x.gearTable s.ctl.tables)
        let p := { s.path with contexts := tabSet s.path.contexts slot y }
        State.finish (s.withPath ((p.testOverlength slot).check s.ctl slot))
      else s
    | none => s)

/-- The lookup of an item with its digest, as it is issued (R86, R88). -/
def lookupOf (slot : Nat) (x : Context) (i : Item) (f : Fingerprint) (check : Word32) (candidate : Option Nat) :
    LookupOp :=
  { slot := slot, ordinal := i.ordinal, offset := i.offset, length := i.length, fp := f, check := check
    mode := x.mode, confirm := x.policy.confirm, retention := x.policy.retention, cls := x.policy.cls
    holdTag := x.holdTag, branch := x.branch, candidate := candidate }

/-- A lookup is issued (R86): the item is marked, the Locator Cache consulted, and the lookup sent to its bucket. -/
def Path.issueLookup (p : Path) (slot : Nat) (x : Context) (i : Item) (f : Fingerprint) (check : Word32) : Path :=
  let candidate := p.locate f
  let q := match candidate with
    | some _ => (p.touch f).bump .locatorHits 1
    | none => p
  Path.bump { q with
    contexts := tabSet q.contexts slot (x.modItem i.ordinal fun j => { j with issued := true })
    lookups := q.lookups ++ [lookupOf slot x i f check candidate] } .lookupsIssued 1

/-- The oldest item whose lookup has not been issued is issued once its digest is complete, in ACTIVE and DRAINING
(R86). -/
def Path.issueNext (p : Path) (slot : Nat) : Path :=
  match tabGet p.contexts slot with
  | some x =>
    if x.state.reading then
      match x.queue.find? fun i => !i.issued with
      | some i =>
        match i.fp, i.check with
        | some f, some k => p.issueLookup slot x i f k
        | _, _ => p
      | none => p
    else p
  | none => p

/-- A digest is in progress for an item of the context (R56, R57). -/
def Context.digesting (x : Context) : Bool := x.queue.any fun i => i.fp.isNone

/-- DIGEST_COMPLETE (R57, R86): F and C are written into the oldest item without them, and its lookup is issued. -/
def execDigestComplete (slot : Nat) (s : State) : Step :=
  .next (match tabGet s.path.contexts slot with
    | some x =>
      if x.digesting then
        State.finish (s.withPath
          (Path.issueNext { s.path with contexts := tabSet s.path.contexts slot x.digest } slot))
      else s
    | none => s)

end Sys2Proof.Machine
end

