-- ==== Sys2Proof/Machine/DeviceRequests.lean ====
section
/-! DEFINITION. The requests of the Management Responder, the Retention Calendar, the Container Allocator and the
Stream Context Table: IDENTIFY, READ_STATUS, CLEAR_FLAGS, READ_COUNTERS, SET_DATE, NUDGE, SET_CONTAINER_BASE,
SEAL_CONTAINERS, SET_MODE, READ_STREAM, FORCE_END, SET_MANAGEMENT_SOURCES. -/

namespace Sys2Proof.Machine

open Sys2Proof

/-- Writes the control state. -/
def State.withCtl (s : State) (c : Control) : State := { s with ctl := c }

/-! ## Reading the part (R196 to R199) -/

/-- IDENTIFY (R197). -/
def execIdentify (port : Port) (s : State) : Step :=
  .next (match s.headRequest port with
    | some ⟨n, src, .identify⟩ => State.finish (s.answer port ⟨n, src, .identify⟩ (.done .identity))
    | _ => s)

/-- The contexts in each state, in the order in which R2 lists the states. -/
def Path.contextCounts (p : Path) : List Nat :=
  (384 - p.contexts.length) ::
    [CtxState.opening, .active, .draining, .quiescing, .linger].map fun st =>
      (p.contexts.filter fun sc => sc.2.state = st).length

/-- The groups in a state (R66). -/
def Index.groupsIn (x : Index) (st : GroupState) : Nat := (x.groups.filter fun g => g.2.state = st).length

/-- Each container slot's state and id, in class order: none for EMPTY, else whether it is SEALING (R138). -/
def Alloc.slotReports (a : Alloc) : List (Option (Bool × Nat)) :=
  (List.range 8).map fun c => (tabGet a.slots c).map fun (sl : Slot) => (sl.sealing, sl.box.id)

/-- The snapshot READ STATUS reports (R198); the owners' parts are taken in one step (log 39). -/
def State.statusReport (s : State) : StatusReport :=
  { mode := s.ctl.mode, flags := s.path.flags, sources := s.ctl.sources
    iDepth := s.path.iQueue.reqs.length, sDepth := s.path.sQueue.reqs.length
    calendar := s.ctl.calendar
    freeBlocks := s.path.freeBlocks, petInUse := s.path.pet.length, contexts := s.path.contextCounts
    geometry := s.idx.geometry, initialising := s.idx.groupsIn .initialising, ready := s.idx.groupsIn .ready
    pass := s.path.sweeper.pass, pos := s.path.sweeper.pos, restart := s.path.sweeper.restart
    releaseItems := s.path.sweeper.queued
    slots := s.path.alloc.slotReports, sealing := s.path.alloc.sealing.length, nextId := s.path.alloc.nextId
    inflight := s.path.link.inflight.length, link := s.path.link.state
    active := s.ctl.tables.active, copying := s.ctl.tables.copying, settings := s.ctl.tables.settings }

/-- READ_STATUS (R198). -/
def execReadStatus (port : Port) (s : State) : Step :=
  .next (match s.headRequest port with
    | some ⟨n, src, .readStatus⟩ =>
      State.finish (s.answer port ⟨n, src, .readStatus⟩ (.done (.status s.statusReport)))
    | _ => s)

/-- CLEAR FLAGS' cases (R194). -/
def clearFlagsAnswer (p : Path) (mask : Mask16) : Path × Answer :=
  if mask &&& noFlag = 0 then (p.clearFlags mask, .done (.flags (p.clearFlags mask).flags))
  else (p, .refuseWith .badValue (.flags p.flags))

/-- CLEAR_FLAGS (R194). -/
def execClearFlags (port : Port) (s : State) : Step :=
  .next (match s.headRequest port with
    | some ⟨n, src, .clearFlags mask⟩ =>
      let r := clearFlagsAnswer s.path mask
      State.finish ((s.withPath r.1).answer port ⟨n, src, .clearFlags mask⟩ r.2)
    | _ => s)

/-- READ COUNTERS' cases by the code of its option, 1 for set and 2 for clear (R196, R203). Every counter is read in one
step, and set to 0 in it where the option is set (log 39). -/
def readCountersAnswer (p : Path) (option : Nat) : Path × Answer :=
  if option = 1 then ({ p with counters := [] }, .done (.counters p.counterValues))
  else if option = 2 then (p, .done (.counters p.counterValues))
  else (p, .refuse .badValue)

/-- READ_COUNTERS (R196). -/
def execReadCounters (port : Port) (s : State) : Step :=
  .next (match s.headRequest port with
    | some ⟨n, src, .readCounters option⟩ =>
      let r := readCountersAnswer s.path option
      State.finish ((s.withPath r.1).answer port ⟨n, src, .readCounters option⟩ r.2)
    | _ => s)

/-- A slot number that names a context slot (R1). -/
def slotInRange (slot : Nat) : Bool := decide (1 ≤ slot) && decide (slot ≤ 384)

/-- The outcome-queue figures of a context (R85). -/
def Context.figures (x : Context) : QueueFigures :=
  { held := x.queue.length, head := x.queue.head?.map (·.ordinal), issued := (x.queue.filter (·.issued)).length
    resolved := (x.queue.filter fun i => i.outcome.isSome).length }

/-- READ STREAM's cases (R199); the context and its outcome-queue figures are taken in one step (log 39). -/
def readStreamAnswer (p : Path) (slot : Nat) : Answer :=
  if slotInRange slot then
    match tabGet p.contexts slot with
    | some x => .done (.stream slot x x.figures)
    | none => .refuse .notFound
  else .refuse .badValue

/-- READ_STREAM (R199). -/
def execReadStream (port : Port) (s : State) : Step :=
  .next (match s.headRequest port with
    | some ⟨n, src, .readStream slot⟩ =>
      State.finish (s.answer port ⟨n, src, .readStream slot⟩ (readStreamAnswer s.path slot))
    | _ => s)

/-! ## Mode and sources (R190, R193) -/

/-- The mode a code names (R192, R203). -/
def modeOfCode (code : Nat) : Option Mode :=
  if code = 1 then some .cold else if code = 2 then some .restoring else if code = 3 then some .serving else none

/-- The next container id holds a value (R193). -/
def NextId.holdsValue : NextId → Bool
  | .id _ => true
  | _ => false

/-- The conditions of SERVING that are not met, as R203 codes them (R193 case 6). -/
def State.unmet (s : State) : Mask16 :=
  (if s.ctl.calendar.isSet then 0 else 0x0002) ||| (if s.path.alloc.nextId.holdsValue then 0 else 0x0004) |||
    (if s.ctl.tables.settings.storeAddr.isSome then 0 else 0x0008)

/-- Refused, with the mode as it stands (R193; log 31). -/
def Answer.keepsMode (why : Reason) (mode : Mode) : Answer := .refuseWith why (.mode mode)

/-- Refused with NOT_FOUND, with the conditions not met and the mode as it stands (R193). -/
def Answer.missing (conditions : Mask16) (mode : Mode) : Answer := .refuseWith .notFound (.missing conditions mode)

/-- SET MODE's cases: the new mode where it is taken, and the answer (R193). -/
def State.setModeAnswer (s : State) (code : Nat) : Mode × Answer :=
  let mode := s.ctl.mode
  match modeOfCode code with
  | some .restoring =>
    if mode = .restoring then (mode, .done (.mode mode))
    else if mode = .serving ∧ s.path.contexts ≠ [] then (mode, .keepsMode .inUse mode)
    else if s.idx.groupsIn .ready = 0 then (mode, .missing 0x0001 mode)
    else (.restoring, .done (.mode .restoring))
  | some .serving =>
    if mode = .serving then (mode, .done (.mode mode))
    else if mode = .cold then (mode, .keepsMode .wrongMode mode)
    else if s.unmet ≠ 0 then (mode, .missing s.unmet mode)
    else (.serving, .done (.mode .serving))
  | _ => (mode, .keepsMode .badValue mode)

/-- A change of mode is counted (R192). -/
def Path.countMode (p : Path) (changed : Bool) : Path := if changed then p.bump .modeChanges 1 else p

/-- SET_MODE (R192, R193). -/
def execSetMode (port : Port) (s : State) : Step :=
  .next (match s.headRequest port with
    | some ⟨n, src, .setMode code⟩ =>
      let r := s.setModeAnswer code
      State.finish (State.answer
        { s with ctl := { s.ctl with mode := r.1 }, path := s.path.countMode (decide (r.1 ≠ s.ctl.mode)) } port
        ⟨n, src, .setMode code⟩ r.2)
    | _ => s)

/-- The least significant bit of an address's first byte: a group address (R190). -/
def isGroupAddress (a : Mac) : Bool := a.getLsbD 40

/-- SET MANAGEMENT SOURCES' cases (R190). -/
def setSourcesAnswer (old given : List Mac) : List Mac × Answer :=
  if 2 < given.length then (old, .refuseWith .tooMany (.sources old))
  else if given.any fun a => a = 0 || isGroupAddress a then (old, .refuseWith .badValue (.sources old))
  else (given.dedup, .done (.sources given.dedup))

/-- SET_MANAGEMENT_SOURCES (R190). -/
def execSetManagementSources (port : Port) (s : State) : Step :=
  .next (match s.headRequest port with
    | some ⟨n, src, .setManagementSources l⟩ =>
      let r := setSourcesAnswer s.ctl.sources l
      State.finish ((s.withCtl { s.ctl with sources := r.1 }).answer port ⟨n, src, .setManagementSources l⟩ r.2)
    | _ => s)

/-! ## The calendar (R132 to R135) -/

/-- A bad value of a SET DATE (R132). -/
def dateBad (year month day seconds : Nat) : Bool :=
  decide (99 < year) || decide (month = 0) || decide (12 < month) || decide (day = 0) || decide (31 < day) ||
    decide (86399 < seconds)

/-- The control state after a taken SET DATE: the calendar written and SET, the divider restarted (R133). -/
def Control.setDate (c : Control) (cal : Calendar) : Control := { c with calendar := cal, divider := c.now + sec 1 }

/-- SET_DATE (R132, R133). -/
def execSetDate (port : Port) (s : State) : Step :=
  .next (match s.headRequest port with
    | some ⟨n, src, .setDate year month day seconds dayNumber⟩ =>
      let r : Req := ⟨n, src, .setDate year month day seconds dayNumber⟩
      if dateBad year month day seconds then State.finish (s.answer port r (.refuse .badValue))
      else
        let cal : Calendar := ⟨year, month, day, seconds, dayNumber, true⟩
        State.finish (State.answer
          { s with ctl := s.ctl.setDate cal, path := s.path.clearFlags Flag.calendarUnset.bit } port r
          (.done (.calendar cal)))
    | _ => s)

/-- The amount of a NUDGE as it is applied (R134). -/
def nudgeAmount (amount : Int) : Int := max (-30) (min 30 amount)

/-- The calendar after a taken NUDGE, and whether it rolled over (R134, R135). -/
def Calendar.nudge (c : Calendar) (amount : Int) : Calendar × Bool :=
  if 0 ≤ amount then
    let sum := c.seconds + amount.toNat
    if 86400 ≤ sum then (({ c with seconds := sum - 86400 }).rollover, true) else ({ c with seconds := sum }, false)
  else ({ c with seconds := c.seconds - (-amount).toNat }, false)

/-- NUDGE (R134, R135). -/
def execNudge (port : Port) (s : State) : Step :=
  .next (match s.headRequest port with
    | some ⟨n, src, .nudge amount⟩ =>
      if s.ctl.calendar.isSet then
        let r := s.ctl.calendar.nudge (nudgeAmount amount)
        State.finish (State.answer
          { s with ctl := { s.ctl with calendar := r.1 }, path := s.path.startIf s.idx r.2 } port
          ⟨n, src, .nudge amount⟩
          { status := if nudgeAmount amount = amount then .done else .doneAdjusted
            result := .nudged (nudgeAmount amount) r.1 })
      else State.finish (s.answer port ⟨n, src, .nudge amount⟩
        (.refuseWith .wrongMode (.nudged 0 s.ctl.calendar)))
    | _ => s)

/-! ## Containers (R139, R146) -/

/-- SET CONTAINER BASE's cases (R139). -/
def setBaseAnswer (a : Alloc) (base : Nat) : Alloc × Answer :=
  if a.slots ≠ [] ∨ a.sealing ≠ [] then (a, .refuseWith .inUse (.nextId a.nextId))
  else ({ a with nextId := .id base }, .done (.nextId (.id base)))

/-- SET_CONTAINER_BASE (R139). -/
def execSetContainerBase (port : Port) (s : State) : Step :=
  .next (match s.headRequest port with
    | some ⟨n, src, .setContainerBase base⟩ =>
      let r := setBaseAnswer s.path.alloc base
      State.finish ((s.withPath { s.path with alloc := r.1 }).answer port ⟨n, src, .setContainerBase base⟩ r.2)
    | _ => s)

/-- SEAL_CONTAINERS (R145, R146). -/
def execSealContainers (port : Port) (s : State) : Step :=
  .next (match s.headRequest port with
    | some ⟨n, src, .sealContainers⟩ =>
      let r := s.path.alloc.sealAll
      State.finish ((s.withPath (Path.askSeals { s.path with alloc := r.1 } r.2.1)).answer port
        ⟨n, src, .sealContainers⟩ (.done (.containers r.2.2)))
    | _ => s)

/-! ## FORCE END (R17) -/

/-- FORCE END's cases (R17). -/
def forceEndAnswer (c : Control) (p : Path) (slot : Nat) : Path × Answer :=
  if slotInRange slot then
    match tabGet p.contexts slot with
    | some x =>
      if x.state.taking then ((p.abnormal slot .forced).check c slot, .done .none)
      else if x.state = .quiescing then (p, .done .none)
      else (p, .refuse .notFound)
    | none => (p, .refuse .notFound)
  else (p, .refuse .badValue)

/-- FORCE_END (R17). -/
def execForceEnd (port : Port) (s : State) : Step :=
  .next (match s.headRequest port with
    | some ⟨n, src, .forceEnd slot⟩ =>
      let r := forceEndAnswer s.ctl s.path slot
      State.finish ((s.withPath r.1).answer port ⟨n, src, .forceEnd slot⟩ r.2)
    | _ => s)

end Sys2Proof.Machine
end

