-- ==== Sys2Proof/Machine/IndexRequests.lean ====
section
/-! DEFINITION. The requests of the Index Controller and of the Reference and Retention Unit, and their items:
SET_GEOMETRY, MAP_GROUP, UNMAP_GROUP, SET_EXCLUSION, READ_ENTRY, RESTORE_ENTRIES, RESTORE_ITEM, SET_HOLD, RETIRE,
RETIRE_ITEM, SWEEP_NOW; and RESERVED_PAGE_CLEARING_COMPLETE and GROUP_INITIALISATION_COMPLETE. -/

namespace Sys2Proof.Machine

open Sys2Proof

/-- Writes the index. -/
def State.withIdx (s : State) (x : Index) : State := { s with idx := x }

/-- The index with the entries of some addresses FREE. -/
def Index.wipe (x : Index) (here : Nat → Bool) : Index := { x with dram := x.dram.filter fun ae => !here ae.1 }

/-! ## Completions -/

/-- The clearing of the reserved pages completes: bins FREE, hot lists empty (R63). -/
def Index.cleared (x : Index) : Index := { x.wipe inBin with clearing := false, hot := [] }

/-- RESERVED_PAGE_CLEARING_COMPLETE (R63). -/
def execReservedPageClearingComplete (s : State) : Step :=
  .next (if s.idx.clearing then State.finish (s.withIdx s.idx.cleared) else s)

/-- The entry address lies in a page (R62). -/
def inPage (page address : Nat) : Bool := address / 4096 = page

/-- The initialisation of a group completes: its page is FREE and it is READY (R68). -/
def Index.initialised (x : Index) (group : Nat) (g : Group) : Index :=
  { x.wipe (inPage g.page) with groups := tabSet x.groups group { g with state := .ready } }

/-- GROUP_INITIALISATION_COMPLETE (R68). -/
def execGroupInitialisationComplete (group : Nat) (s : State) : Step :=
  .next (match tabGet s.idx.groups group with
    | some g =>
      if g.state = .initialising then State.finish (s.withIdx (s.idx.initialised group g)) else s
    | none => s)

/-! ## Geometry, groups and exclusions (R65, R67, R69, R71) -/

/-- What a request at the Index Controller comes to: the index after it and the answer. -/
abbrev IndexAnswer := Index × Answer

/-- A geometry the part has (R64). -/
def geometryInRange (m : Nat) : Bool := decide (16 ≤ m) && decide (m ≤ 24)

/-- The index with another geometry: every spilled mark is clear; the geometry in force changes nothing (R65, R76). -/
def Index.setGeometry (x : Index) (m : Nat) : Index :=
  if m = x.geometry then x else { x with geometry := m, marks := [] }

/-- SET GEOMETRY's cases (R65). -/
def setGeometryAnswer (mode : Mode) (x : Index) (m : Nat) : IndexAnswer :=
  if mode ≠ .cold then (x, .refuseWith .wrongMode (.geometry x.geometry))
  else if geometryInRange m = false then (x, .refuseWith .badValue (.geometry x.geometry))
  else if x.groups ≠ [] then (x, .refuseWith .inUse (.geometry x.geometry))
  else (x.setGeometry m, .done (.geometry m))

/-- SET_GEOMETRY (R65). -/
def execSetGeometry (port : Port) (s : State) : Step :=
  .next (match s.headRequest port with
    | some ⟨n, src, .setGeometry m⟩ =>
      let r := setGeometryAnswer s.ctl.mode s.idx m
      State.finish ((s.withIdx r.1).answer port ⟨n, src, .setGeometry m⟩ r.2)
    | _ => s)

/-- A page lies inside an active excluded range (R71). -/
def Index.excluded (x : Index) (page : Nat) : Bool :=
  x.exclusions.any fun e => e.active && decide (e.first ≤ page) && decide (page ≤ e.last)

/-- The lowest valid group that names a page from first to last (R67, R71). -/
def Index.groupNaming (x : Index) (first last : Nat) : Option Nat :=
  (x.groups.find? fun g => decide (first ≤ g.2.page) && decide (g.2.page ≤ last)).map (·.1)

/-- MAP GROUP's cases (R67). -/
def mapGroupAnswer (x : Index) (group page : Nat) : IndexAnswer :=
  if x.groupCount ≤ group ∨ 131072 ≤ page then (x, .refuse .badValue)
  else
    match tabGet x.groups group with
    | some g => (x, .refuseWith .inUse (.group g.state g.page))
    | none =>
      if page < 1040 ∨ x.excluded page = true then (x, .refuse .excluded)
      else
        match x.groupNaming page page with
        | some other => (x, .refuseWith .conflict (.groupNumber other))
        | none => ({ x with groups := tabSet x.groups group { state := .initialising, page := page } }, .done .none)

/-- MAP_GROUP (R67). -/
def execMapGroup (port : Port) (s : State) : Step :=
  .next (match s.headRequest port with
    | some ⟨n, src, .mapGroup group page⟩ =>
      let r := mapGroupAnswer s.idx group page
      State.finish ((s.withIdx r.1).answer port ⟨n, src, .mapGroup group page⟩ r.2)
    | _ => s)

/-- UNMAP GROUP's cases (R69). -/
def unmapGroupAnswer (x : Index) (group : Nat) : IndexAnswer :=
  if x.groupCount ≤ group then (x, .refuse .badValue)
  else
    match tabGet x.groups group with
    | none => (x, .refuse .notFound)
    | some g =>
      if g.state = .initialising ∨ g.occupancy ≠ 0 ∨ g.marked ≠ 0 then (x, .refuse .inUse)
      else ({ x with groups := tabErase x.groups group }, .done .none)

/-- UNMAP_GROUP (R69). -/
def execUnmapGroup (port : Port) (s : State) : Step :=
  .next (match s.headRequest port with
    | some ⟨n, src, .unmapGroup group⟩ =>
      let r := unmapGroupAnswer s.idx group
      State.finish ((s.withIdx r.1).answer port ⟨n, src, .unmapGroup group⟩ r.2)
    | _ => s)

/-- SET EXCLUSION's cases (R71). -/
def setExclusionAnswer (x : Index) (range first last : Nat) (active : Bool) : IndexAnswer :=
  if 3 < range ∨ 131071 < last ∨ last < first then (x, .refuse .badValue)
  else
    match (if active then x.groupNaming first last else none) with
    | some g => (x, .refuseWith .conflict (.groupNumber g))
    | none => ({ x with exclusions := x.exclusions.set range ⟨first, last, active⟩ }, .done .none)

/-- SET_EXCLUSION (R71). -/
def execSetExclusion (port : Port) (s : State) : Step :=
  .next (match s.headRequest port with
    | some ⟨n, src, .setExclusion range first last active⟩ =>
      let r := setExclusionAnswer s.idx range first last active
      State.finish ((s.withIdx r.1).answer port ⟨n, src, .setExclusion range first last active⟩ r.2)
    | _ => s)

/-! ## READ ENTRY (R83) -/

/-- The snapshot of an entry (R83, R206). -/
def entryReport (x : Index) (p : Path) (address : Nat) (e : Entry) : EntryReport :=
  { entry := e, address := address, inBin := inBin address, mark := x.marked (x.bucket e.fp)
    pet := if e.state = .pending then (p.petOf address).map (·.1) else none }

/-- READ ENTRY's answer (R83). -/
def readEntryAnswer (x : Index) (p : Path) (f : Fingerprint) : Answer :=
  match x.readyPage (x.bucket f) with
  | none => .refuse .notFound
  | some page =>
    match x.search page (x.bucket f) f with
    | .held a e => .done (.entry (entryReport x p a e))
    | .releasing a e => .done (.entry (entryReport x p a e))
    | .absent => .refuse .notFound

/-- READ_ENTRY (R83). -/
def execReadEntry (port : Port) (s : State) : Step :=
  .next (match s.headRequest port with
    | some ⟨n, src, .readEntry f⟩ =>
      State.finish (s.answer port ⟨n, src, .readEntry f⟩ (readEntryAnswer s.idx s.path f))
    | _ => s)

/-! ## Items in list order at one bucket (R81, R112) -/

/-- Item k has not been answered, and no earlier unanswered item names its bucket. -/
def itemReady (x : Index) (fps : List Fingerprint) (answered : List Bool) (k : Nat) : Bool :=
  match fps[k]?, answered[k]? with
  | some f, some false => ((fps.zip answered).take k).all fun fa => fa.2 || x.bucket fa.1 ≠ x.bucket f
  | _, _ => false

/-- Every answer of a list, once all are there. -/
def allAnswers {α : Type} : List (Option α) → Option (List α)
  | [] => some []
  | none :: _ => none
  | some a :: l => (allAnswers l).map (a :: ·)

/-- The request at a port's head while its items are being answered: the Responder runs (R191, R201). -/
def State.headUnderWay (s : State) (port : Port) : Option (Req × HeadState) :=
  if s.path.handling s.idx then
    match s.path.queue port with
    | ⟨r :: _, h⟩ => some (r, h)
    | _ => none
  else none

/-! ## RESTORE ENTRIES (R80 to R82) -/

/-- A bad value of a RESTORE ENTRIES item (R80). -/
def RestoreEntry.bad (i : RestoreEntry) : Bool :=
  decide (i.length = 0) || decide (65536 < i.length) || decide (4194303 < i.offset) ||
    decide (4194304 < i.offset + i.length)

/-- Why a RESTORE ENTRIES is refused, if it is (R80). -/
def restoreRefusal (mode : Mode) (items : List RestoreEntry) : Option Reason :=
  if mode ≠ .restoring then some .wrongMode
  else if items.length < 1 ∨ 32 < items.length then some .badValue
  else if items.any RestoreEntry.bad then some .badValue
  else none

/-- RESTORE_ENTRIES (R80): a taken request keeps the head while its items are answered. -/
def execRestoreEntries (port : Port) (s : State) : Step :=
  .next (match s.headRequest port with
    | some ⟨n, src, .restoreEntries items⟩ =>
      match restoreRefusal s.ctl.mode items with
      | some why => State.finish (s.answer port ⟨n, src, .restoreEntries items⟩ (.refuse why))
      | none => State.finish (s.withPath (s.path.setHead port (.restoring (items.map fun _ => none))))
    | _ => s)

/-- The entry a RESTORE item inserts (R81); bit 0 of its hold set is ignored (R206). A count or day too wide for its
field is stored as Config says (log 21). -/
def restoredEntry (i : RestoreEntry) : Entry :=
  { fp := i.fp, check := i.check, state := .live, container := i.container, offset := i.offset, length := i.length
    count := narrow16 Config.wideCount i.count, untilDay := narrow16 Config.wideDay i.untilDay
    holds := i.holds &&& 0xFFFE, firstBranch := 0, collided := false, restored := true }

/-- A RESTORE item at its bucket (R81). -/
def restoreAt (x : Index) (i : RestoreEntry) : Index × RestoreAnswer :=
  match x.readyPage (x.bucket i.fp) with
  | none => (x, .unmapped)
  | some page =>
    match x.search page (x.bucket i.fp) i.fp with
    | .held _ _ => (x, .duplicate)
    | _ =>
      match x.claim page (x.bucket i.fp) with
      | none => (x, .full)
      | some (a, y) => (y.fill a (restoredEntry i), .inserted)

/-- A restore that sets a count to 65535 pins its entry (R108). -/
def Path.restorePinned (p : Path) (i : RestoreEntry) (a : RestoreAnswer) : Path :=
  if a = .inserted ∧ (restoredEntry i).count = 65535 then p.bump .entriesPinned 1 else p

/-- The items of a RESTORE ENTRIES are answered as far as `answers`: the reply when all are, and with it the rise of the
entries restored, whose moment R82 leaves open (DESIGN CHOICE, log 41). -/
def Path.restoreProgress (p : Path) (now : Nat) (port : Port) (r : Req) (answers : List (Option RestoreAnswer)) : Path :=
  match allAnswers answers with
  | some l =>
    (p.bump .entriesRestored (l.filter (· = .inserted)).length).respond now port r (.done (.restored l))
  | none => p.setHead port (.restoring answers)

/-- RESTORE_ITEM (R81, R82): an item of the RESTORE ENTRIES at the head of a port's queue is taken at its bucket. -/
def execRestoreItem (port : Port) (index : Nat) (s : State) : Step :=
  .next (match s.headUnderWay port with
    | some (⟨n, src, .restoreEntries items⟩, .restoring answers) =>
      match items[index]? with
      | some i =>
        if itemReady s.idx (items.map (·.fp)) (answers.map (·.isSome)) index then
          let r := restoreAt s.idx i
          State.finish { s with
            idx := r.1
            path := (s.path.restorePinned i r.2).restoreProgress s.ctl.now port ⟨n, src, .restoreEntries items⟩
              (answers.set index (some r.2)) }
        else s
      | none => s
    | _ => s)

/-! ## SET HOLD (R110) -/

/-- The hold table with a tag's flag given a value (R110). -/
def setTag (holds : Mask16) (tag : Nat) (active : Bool) : Mask16 :=
  if active then holds ||| ((1 : Mask16) <<< tag) else holds &&& ~~~((1 : Mask16) <<< tag)

/-- SET HOLD's cases (R110). The reply carries the active flags of all 15 tags as the mask of the hold table; that coding is
the model's (DESIGN CHOICE, log 32). That a refused reply carries it too is by inference (log 31). -/
def setHoldAnswer (holds : Mask16) (tag : Nat) (active : Bool) : Mask16 × Answer :=
  if tag = 0 ∨ 15 < tag then (holds, .refuseWith .badValue (.holds holds))
  else (setTag holds tag active, .done (.holds (setTag holds tag active)))

/-- SET_HOLD (R110). -/
def execSetHold (port : Port) (s : State) : Step :=
  .next (match s.headRequest port with
    | some ⟨n, src, .setHold tag active⟩ =>
      let r := setHoldAnswer s.ctl.holds tag active
      State.finish (State.answer { s with ctl := { s.ctl with holds := r.1 } } port ⟨n, src, .setHold tag active⟩ r.2)
    | _ => s)

/-! ## RETIRE (R112, R113) -/

/-- A RETIRE is refused (R112). -/
def retireBad (items : List (Fingerprint × Nat)) : Bool :=
  decide (items.length < 1) || decide (64 < items.length) || items.any fun i => i.2 = 0

/-- RETIRE (R112): a taken request keeps the head while its items are answered. -/
def execRetire (port : Port) (s : State) : Step :=
  .next (match s.headRequest port with
    | some ⟨n, src, .retire items⟩ =>
      if retireBad items then State.finish (s.answer port ⟨n, src, .retire items⟩ (.refuse .badValue))
      else State.finish (s.withPath (s.path.setHead port (.retiring (items.map fun _ => none))))
    | _ => s)

/-- What a RETIRE item comes to: the index, its answer with the entry's count, and the references retired. -/
structure Retired where
  idx : Index
  answer : RetireAnswer
  count : Option Nat := none
  references : Nat := 0

/-- A RETIRE item at its bucket (R113). -/
def retireAt (x : Index) (f : Fingerprint) (c : Nat) : Retired :=
  match x.readyPage (x.bucket f) with
  | none => { idx := x, answer := .notFound }
  | some page =>
    match x.search page (x.bucket f) f with
    | .held a e =>
      if e.state = .pending then { idx := x, answer := .busy }
      else if e.count = 65535 then { idx := x, answer := .pinned, count := some 65535 }
      else if c ≤ e.count then
        { idx := x.set a { e with count := e.count - c }, answer := .done, count := some (e.count - c), references := c }
      else { idx := x.set a { e with count := 0 }, answer := .underflow, count := some 0, references := e.count }
    | _ => { idx := x, answer := .notFound }

/-- A RETIRE item is counted (R113). -/
def Path.countRetired (p : Path) (r : Retired) : Path :=
  match r.answer with
  | .done => p.bump .referencesRetired r.references
  | .underflow => (p.bump .referencesRetired r.references).bump .retireUnderflows 1
  | _ => p

/-- The items of a RETIRE are answered as far as `answers`: the reply when all are (R112). -/
def Path.retireProgress (p : Path) (now : Nat) (port : Port) (r : Req)
    (answers : List (Option (RetireAnswer × Option Nat))) : Path :=
  match allAnswers answers with
  | some l => p.respond now port r (.done (.retired l))
  | none => p.setHead port (.retiring answers)

/-- RETIRE_ITEM (R112, R113): an item of the RETIRE at the head of a port's queue is taken at its bucket. -/
def execRetireItem (port : Port) (index : Nat) (s : State) : Step :=
  .next (match s.headUnderWay port with
    | some (⟨n, src, .retire items⟩, .retiring answers) =>
      match items[index]? with
      | some i =>
        if itemReady s.idx (items.map (·.1)) (answers.map (·.isSome)) index then
          let r := retireAt s.idx i.1 i.2
          State.finish { s with
            idx := r.idx
            path := (s.path.countRetired r).retireProgress s.ctl.now port ⟨n, src, .retire items⟩
              (answers.set index (some (r.answer, r.count))) }
        else s
      | none => s
    | _ => s)

/-! ## SWEEP NOW (R118) -/

/-- SWEEP_NOW (R118). -/
def execSweepNow (port : Port) (s : State) : Step :=
  .next (match s.headRequest port with
    | some ⟨n, src, .sweepNow⟩ =>
      if s.ctl.calendar.isSet then
        State.finish ((s.withPath (s.path.startSweep s.idx)).answer port ⟨n, src, .sweepNow⟩
          (.done (.sweep s.path.sweeper.startResult)))
      else State.finish (s.answer port ⟨n, src, .sweepNow⟩ (.refuse .wrongMode))
    | _ => s)

end Sys2Proof.Machine
end

