-- ==== Sys2Proof/Machine/Pieces.lean ====
section
/-! DEFINITION. The frames of store messages (R150, R163, R186, R202, R205), and what becomes of those of the message
being sent when it leaves SENDING, when the settings that its frames carry change, when the S-port carrier goes down, and at
a warm reset. -/

namespace Sys2Proof.Machine

open Sys2Proof

/-! ## Fields of the part's own frames -/

/-- A number of 4 bytes: one that a rule checks against a range (R203). -/
def num4 (v : Nat) : List Byte := Wire.num 4 v

/-- A count of 48 bits. -/
def num6 (v : Nat) : List Byte := Wire.num 6 v

/-- The part's address on the I-port (R202). -/
def iPortAddress : Mac := 0x020000000001

/-- The part's address on the S-port (R202). -/
def sPortAddress : Mac := 0x020000000002

/-- The frame of some content with its destination, under an EtherType (R202). -/
def framed (source : Mac) (etherType : Nat) (c : Mac × List Byte) : List Byte := Wire.frame c.1 source etherType c.2

/-! ## Store messages (R205) -/

/-- The bytes of a REF item (R205). -/
def RefItem.bytes (i : RefItem) : List Byte :=
  Wire.num 16 i.fp.toNat ++ num4 i.container ++ num4 i.offset ++ num4 i.length ++ Wire.num 2 i.branch ++
    Wire.num 2 i.slot ++ num6 i.ordinal ++ [0, 0]

/-- The bytes of a RELEASE item (R205). -/
def RelItem.bytes (i : RelItem) : List Byte :=
  Wire.num 16 i.fp.toNat ++ num4 i.container ++ num4 i.offset ++ num4 i.length

/-- A chunk's bytes, read from its stream's staging window (R205, R38). -/
def Path.chunkBytes (p : Path) (r : ChunkRec) : List Byte :=
  match tabGet p.contexts r.slot with
  | some x => x.bytes r.streamOffset r.length
  | none => []

/-- A store message as its kind, descriptor and payload (R205). -/
structure MessageBytes where
  kind : Nat
  descriptor : List Byte
  payload : List Byte

/-- The descriptor and payload of a store message (R205). -/
def Path.messageBytes (p : Path) : Content → MessageBytes
  | .chunk r =>
    { kind := 0x81
      descriptor := num4 r.container ++ num4 r.offset ++ num4 r.length ++ Wire.num 16 r.fp.toNat ++
        num4 r.check.toNat ++ Wire.num 2 r.branch ++ Wire.num 2 r.slot ++ num6 r.ordinal ++
        Wire.flag r.entry.isNone ++ [0]
      payload := p.chunkBytes r }
  | .refs items =>
    { kind := 0x82, descriptor := Wire.num 1 items.length ++ [0, 0, 0], payload := items.flatMap RefItem.bytes }
  | .seal c =>
    { kind := 0x83, descriptor := num4 c.container ++ num4 c.fill ++ num4 c.holes ++ num4 c.chunks, payload := [] }
  | .release items =>
    { kind := 0x84, descriptor := Wire.num 1 items.length ++ [0, 0, 0], payload := items.flatMap RelItem.bytes }

/-- The piece count, max(1, ceil(payload / 8192)) (R205). -/
def pieceCount (payload : Nat) : Nat := max 1 ((payload + 8191) / 8192)

/-- A piece of a store message (R205). -/
def MessageBytes.piece (m : MessageBytes) (tag serial index : Nat) : List Byte :=
  let part := (m.payload.drop (8192 * index)).take 8192
  [BitVec.ofNat 8 m.kind, 1] ++ Wire.num 1 tag ++ Wire.num 1 serial ++ Wire.num 1 index ++
    Wire.num 1 (pieceCount m.payload.length) ++ Wire.num 2 part.length ++
    (if index = 0 then m.descriptor else []) ++ part

/-- The pieces of a store message, in index order (R205). -/
def MessageBytes.pieces (m : MessageBytes) (tag serial : Nat) : List (List Byte) :=
  (List.range (pieceCount m.payload.length)).map (m.piece tag serial)

/-- The frames of the store message that is in SENDING under a tag and serial, made under some settings: they go to the
store address (R150, R186). A tag whose message has left SENDING, or has been issued again, has none. -/
def Path.messageFrames (p : Path) (g : Settings) (tag serial : Nat) : List (List Byte) :=
  match p.message tag with
  | some m =>
    if m.serial = serial ∧ m.phase = .sending then
      ((p.messageBytes m.content).pieces tag serial).map fun b =>
        framed sPortAddress g.etherType (g.storeAddr.getD 0, b)
    else []
  | none => []

/-! ## The message being sent (R163, R169, R176) -/

/-- The store message an item of the transmitter is sending: its tag, its serial, and the frames that are fixed. -/
def SItem.sending : SItem → Option (Nat × Nat × List (List Byte))
  | .message tag serial => some (tag, serial, [])
  | .part made (some (tag, serial)) => some (tag, serial, made)
  | _ => none

/-- The frames of the message being sent that have been begun: those fixed before, and of the others as many as a free
value says, the first always (R163; log 15). -/
def Path.begun (p : Path) (c : Control) (tag serial : Nat) (made : List (List Byte)) : List (List Byte) :=
  let frames := p.messageFrames c.tables.settings tag serial
  made ++ (frames.take (1 + Config.piecesBegun c.now tag serial % frames.length)).drop made.length

/-- An item of the transmitter with the frames it has begun fixed; what a store message has not begun is still sent, or is
not (R163, R169, R176). -/
def SItem.fixed (p : Path) (c : Control) (goesOn : Bool) (x : SItem) : SItem :=
  match x.sending with
  | some (tag, serial, made) => .part (p.begun c tag serial made) (if goesOn then some (tag, serial) else none)
  | none => x

/-- An item is sending the message of a tag and serial. -/
def SItem.sends (tag serial : Nat) (x : SItem) : Bool :=
  match x.sending with
  | some (t, r, _) => t = tag && r = serial
  | none => false

/-- The S-port's transmitter changes what it sends. -/
def Path.modTx (p : Path) (f : SItem → SItem) : Path :=
  { p with sPort := { p.sPort with tx := p.sPort.tx.map f } }

/-- A message leaves SENDING: if it is being sent, the piece already begun is finished and the remaining pieces are not sent
(R163). -/
def Path.stopSending (p : Path) (c : Control) (m : Message) : Path :=
  p.modTx fun x => if x.sends m.tag m.serial then x.fixed p c false else x

/-! ## Frames made under settings that have since changed (R186, R202) -/

/-- A reply made under an EtherType, if it does not name the one it was made under yet. -/
def Reply.stamp (old : Nat) (r : Reply) : Reply := { r with etherType := some (r.etherType.getD old) }

/-- A PACE notice made under an EtherType, if it does not name the one it was made under yet. -/
def PaceNotice.stamp (old : Nat) (n : PaceNotice) : PaceNotice := { n with etherType := some (n.etherType.getD old) }

/-- An item of the I-port made under an EtherType, if it does not name the one it was made under yet. -/
def IItem.stamp (old : Nat) : IItem → IItem
  | .pace n => .pace (n.stamp old)
  | .notice n e => .notice n (some (e.getD old))
  | .reply r => .reply (r.stamp old)
  | .frame bytes => .frame bytes

/-- An item of the S-port made under an EtherType, if it does not name the one it was made under yet. -/
def SItem.stamp (old : Nat) : SItem → SItem
  | .reply r => .reply (r.stamp old)
  | x => x

/-- Every notice and reply that has been made keeps the EtherType it was made under (R202). -/
def Path.stamp (p : Path) (old : Nat) : Path :=
  { p with
    sPort := { p.sPort with
      tx := p.sPort.tx.map (SItem.stamp old)
      fifo := p.sPort.fifo.map fun e => (e.1, e.2.stamp old)
      hold := p.sPort.hold.map (SItem.stamp old) }
    iPort := { p.iPort with
      tx := p.iPort.tx.map (IItem.stamp old)
      pace := p.iPort.pace.map (PaceNotice.stamp old)
      fifo := p.iPort.fifo.map (IItem.stamp old)
      hold := p.iPort.hold.map (IItem.stamp old) } }

/-- The EtherType or the store address changes: the pieces begun keep theirs, and the pieces that follow take the new
(R186); a new EtherType leaves the frames that have been made as they are (R202). -/
def Path.keepFrames (p : Path) (c : Control) (g : Settings) : Path :=
  let old := c.tables.settings
  let q := if g.etherType = old.etherType ∧ g.storeAddr = old.storeAddr then p else p.modTx (SItem.fixed p c true)
  if g.etherType = old.etherType then q else q.stamp old.etherType

end Sys2Proof.Machine
end

