-- ==== Sys2Proof/Machine/LinkEvents.lean ====
section
/-! DEFINITION. The meanings of the carriers, the store link's timers, the grants of tags and the ends of transmissions:
S_PORT_CARRIER_DOWN, S_PORT_CARRIER_UP, LOSS_TIMER_EXPIRY, I_PORT_CARRIER_DOWN, I_PORT_CARRIER_UP,
REF_BATCH_TIMER_EXPIRY, TAG_GRANT, S_PORT_TRANSMIT_DONE, I_PORT_TRANSMIT_DONE, ANSWER_TIMER_EXPIRY, RESEND_DUE. -/

namespace Sys2Proof.Machine

open Sys2Proof

/-- Every message enters SUSPENDED (R159). -/
def Link.suspend (l : Link) : Link :=
  { l with inflight := l.inflight.map fun m => { m with phase := .suspended } }

/-- The S-port carrier goes down (R159, R169): DOWN from UP, the 5 s loss timer, messages suspended and withdrawn. The
transmitter stops at the end of the frame in progress: of the message being sent the pieces begun are finished and the others
are not sent, and a reply or a frame forwarded, which is one frame, is finished (log 19). -/
def Path.sCarrierDown (p : Path) (c : Control) : Path :=
  let l := { p.link.suspend with state := .down, lossTimer := some (c.now + sec 5) }
  let port := { p.sPort with carrier := false, tx := p.sPort.tx.map (SItem.fixed p c false) }
  (Path.withdrawAll { p with link := l, sPort := port } c.now).bump .linkLosses 1

/-- S_PORT_CARRIER_DOWN (R159, R169). A carrier that is already down does not go down. -/
def execSPortCarrierDown (s : State) : Step :=
  .next (if s.path.sPort.carrier then State.finish (s.withPath (s.path.sCarrierDown s.ctl)) else s)

/-- Each message of the list is due for a resend, in order of first issue (R160). -/
def Path.resendAll (p : Path) (c : Control) (l : List Message) : Path := l.foldl (fun q m => q.resendDue c m) p

/-- The S-port carrier comes up (R160, R161). -/
def Path.sCarrierUp (p : Path) (c : Control) : Path :=
  let q := { p with sPort := { p.sPort with carrier := true } }
  match p.link.state with
  | .down => Path.resendAll { q with link := { q.link with state := .up, lossTimer := none } } c p.link.inflight
  | _ => { q with link := { q.link with state := .up } }

/-- S_PORT_CARRIER_UP (R160, R161). A carrier that is already up does not come up. -/
def execSPortCarrierUp (s : State) : Step :=
  .next (if s.path.sPort.carrier then s else State.finish (s.withPath (s.path.sCarrierUp s.ctl)))

/-- Every message of the list is failed, in order of first issue, and counted (R161). -/
def Path.failAll (p : Path) (c : Control) (l : List Message) : Path :=
  l.foldl (fun q m => (q.failMessage c m).bump .messagesLinkLost 1) p

/-- LOSS_TIMER_EXPIRY (R161): LOST, every message failed, STORE_GIVEUP; requests for tags fail as the command ends. -/
def execLossTimerExpiry (s : State) : Step :=
  .next (match s.path.link.lossTimer with
    | some t =>
      let c := s.ctl.reach t
      let q := { s.path with link := { s.path.link with state := .lost, lossTimer := none } }
      State.finish { s with ctl := c, path := (q.failAll c q.link.inflight).setFlag .storeGiveUp }
    | none => s)

/-- A PACE notice that has been sent is counted (R43, R173). -/
def Path.countPace (p : Path) (x : IItem) : Path :=
  match x with
  | .pace _ => p.bump .paceNotices 1
  | _ => p

/-- I_PORT_CARRIER_DOWN (R173): grants stop. The frame in progress is finished: every item of the I-port is one frame, so the
transmitter keeps its item until that frame is done (log 19). -/
def execIPortCarrierDown (s : State) : Step :=
  .next (if s.path.iPort.carrier then
      State.finish (s.withPath { s.path with iPort := { s.path.iPort with carrier := false } })
    else s)

/-- I_PORT_CARRIER_UP (R173): grants resume. -/
def execIPortCarrierUp (s : State) : Step :=
  .next (if s.path.iPort.carrier then s
    else State.finish (s.withPath { s.path with iPort := { s.path.iPort with carrier := true } }))

/-- REF_BATCH_TIMER_EXPIRY (R171): the open batch closes with the items it holds. -/
def execRefBatchTimerExpiry (s : State) : Step :=
  .next (match s.path.batch.timer with
    | some t => State.finish { s with ctl := s.ctl.reach t, path := s.path.closeBatch }
    | none => s)

/-- The oldest waiting request receives a tag and is issued (R149, R150); a RELEASE request takes the queue's oldest
batch. -/
def Path.grantTag (p : Path) (c : Control) (x : Index) (tag : Nat) : Path :=
  match p.link.waiting with
  | [] => p
  | .message m :: rest => Path.issue { p with link := { p.link with waiting := rest } } c tag m
  | .oldestRelease :: rest =>
    let q := { p with link := { p.link with waiting := rest } }
    match p.sweeper.batches with
    | b :: _ => (q.issue c tag (.release b)).takeBatch x
    | [] => q

/-- TAG_GRANT (R149, R150): with the link UP, the store address set, a tag free and a request waiting. -/
def execTagGrant (s : State) : Step :=
  .next (if s.path.link.state = .up ∧ s.ctl.tables.settings.storeAddr.isSome ∧ s.path.link.waiting ≠ [] then
      match s.path.link.freeTag with
      | some tag => State.finish (s.withPath (s.path.grantTag s.ctl s.idx tag))
      | none => s
    else s)

/-- The last piece of a store message has been sent: a message still in SENDING under that serial goes to AWAITING
(R150, R163). -/
def Path.messageSent (p : Path) (c : Control) (tag serial : Nat) : Path :=
  p.modMessage tag fun m =>
    if m.serial = serial ∧ m.phase = .sending then { m with phase := .awaiting (c.now + msec 200) } else m

/-- S_PORT_TRANSMIT_DONE (R163): a message that left SENDING while it was sent goes nowhere. -/
def execSPortTransmitDone (s : State) : Step :=
  .next (match s.path.sPort.tx with
    | some x =>
      let p := { s.path with sPort := { s.path.sPort with tx := none } }
      State.finish (s.withPath (match x.sending with
        | some (tag, serial, _) => p.messageSent s.ctl tag serial
        | none => p))
    | none => s)

/-- I_PORT_TRANSMIT_DONE (R173). -/
def execIPortTransmitDone (s : State) : Step :=
  .next (match s.path.iPort.tx with
    | some x => State.finish (s.withPath (Path.countPace { s.path with iPort := { s.path.iPort with tx := none } } x))
    | none => s)

/-- ANSWER_TIMER_EXPIRY (R153): handled as BUSY, under its own counter. -/
def execAnswerTimerExpiry (tag : Nat) (s : State) : Step :=
  .next (match s.path.message tag with
    | some m =>
      match m.phase with
      | .awaiting t =>
        let c := s.ctl.reach t
        State.finish { s with ctl := c, path := (s.path.bump .answerTimeouts 1).retryWait c tag }
      | _ => s
    | none => s)

/-- RESEND_DUE (R153, R154): the due time of a message in RETRY WAIT comes. -/
def execResendDue (tag : Nat) (s : State) : Step :=
  .next (match s.path.message tag with
    | some m =>
      match m.phase with
      | .retryWait t =>
        let c := s.ctl.reach t
        State.finish { s with ctl := c, path := s.path.resendDue c m }
      | _ => s
    | none => s)

end Sys2Proof.Machine
end

