-- ==== Sys2Proof/Machine/Lookup.lean ====
section
/-! DEFINITION. The Lookup Engine's commands: LOOKUP, PLACEMENT_REQUEST, LOOKUP_RESULT, CHUNK_ACCEPT_AT_BUCKET,
CHUNK_FAIL_AT_BUCKET, RELEASE_OUTCOME_AT_BUCKET and SWEEPER_VISIT (R85 to R103, R116 to R124). -/

namespace Sys2Proof.Machine

open Sys2Proof

/-! ## Judging a lookup at its bucket (R89 to R94) -/

/-- The mask of a hold tag, if it is from 1 to 15 and active in the hold table (R90, R92, R111). -/
def activeTag (holds : Mask16) (tag : Nat) : Mask16 := if tag = 0 then 0 else holds &&& ((1 : Mask16) <<< tag)

/-- What a lookup comes to at its bucket: the index and the data path after it, and the result returned. -/
structure Judged where
  idx : Index
  path : Path
  outcome : ChunkOutcome
  location : Option Location := none
  pet : Option Nat := none

/-- Where an entry lies and what it names. -/
def Entry.location (e : Entry) (address : Nat) : Location := ⟨address, e.container, e.offset, e.length⟩

/-- The check words differ and the policy has confirm on (R90, R91, R94). -/
def LookupOp.differs (o : LookupOp) (e : Entry) : Bool := o.confirm && decide (o.check ≠ e.check)

/-- A held entry with a reference counted by a DUPLICATE (R90). -/
def Entry.refer (e : Entry) (o : LookupOp) (c : Control) : Entry :=
  { e with
    count := min 65535 (e.count + 1)
    untilDay := max e.untilDay (keepUntil c.calendar.dayNumber o.retention)
    holds := e.holds ||| activeTag c.holds o.holdTag }

/-- A count that rises from 65534 to 65535 pins its entry (R108). -/
def Path.countPinned (p : Path) (before : Nat) : Path := if before = 65534 then p.bump .entriesPinned 1 else p

/-- A waiter joins a PET slot and its item is marked JOINED (R97). -/
def Path.joinPet (p : Path) (n : Nat) (ps : PetSlot) (o : LookupOp) : Path :=
  Path.modCtx { p with pet := tabSet p.pet n { ps with waiters := ps.waiters ++ [⟨o.slot, o.ordinal, o.offset, false⟩] } }
    o.slot fun x => x.modItem o.ordinal fun i => { i with mark := .joined }

/-- A STORE lookup whose find reports held: DUPLICATE, a collision, or NEW-UNINDEXED for a full waiter list (R90, R91,
R97). -/
def judgeHeld (c : Control) (x : Index) (p : Path) (o : LookupOp) (a : Nat) (e : Entry) : Judged :=
  if o.differs e then
    ⟨x.set a { e with collided := true }, (p.setFlag .collision).bump .collisions 1, .newUnindexed, none, none⟩
  else
    let counted := x.set a (e.refer o c)
    match e.state, p.petOf a with
    | .pending, some (n, ps) =>
      if 8 ≤ ps.waiters.length then ⟨x, p.bump .blockedWaiters 1, .newUnindexed, none, none⟩
      else ⟨counted, (p.countPinned e.count).joinPet n ps o, .duplicate, some (e.location a), some n⟩
    | _, _ => ⟨counted, p.countPinned e.count, .duplicate, some (e.location a), none⟩

/-- The counter of a failed placement (R143). -/
def PlaceFailure.counter : PlaceFailure → Counter
  | .noId => .placementsNoId
  | .listFull => .placementsListFull

/-- A placement request is taken by the Container Allocator (R140 to R143); a failure is reported to the context as
NO_CONTAINER. -/
def Path.place (p : Path) (slot cls length : Nat) : Path × Option (Nat × Nat) :=
  let r := p.alloc.request cls length
  let q := Path.askSeals { p with alloc := r.alloc } r.sealMade.toList
  let q := if r.opened then q.bump .containersOpened 1 else q
  match r.place with
  | .ok at_ => (q, some at_)
  | .error why => ((q.bump why.counter 1).abnormal slot .noContainer, none)

/-- The entry an insertion writes (R92). -/
def insertedEntry (o : LookupOp) (c : Control) (container offset : Nat) : Entry :=
  { fp := o.fp, check := o.check, state := .pending, container := container, offset := offset, length := o.length
    count := 1, untilDay := keepUntil c.calendar.dayNumber o.retention, holds := activeTag c.holds o.holdTag
    firstBranch := o.branch, collided := false, restored := false }

/-- A STORE lookup that misses: an entry is inserted, or the chunk is NEW-UNINDEXED or UNPLACED (R92, R93). -/
def judgeMiss (c : Control) (x : Index) (p : Path) (o : LookupOp) (page : Nat) : Judged :=
  match x.claim page (x.bucket o.fp) with
  | none => ⟨x, (p.setFlag .spillFull).bump .unindexedFull 1, .newUnindexed, none, none⟩
  | some (a, y) =>
    match p.freePet with
    | none => ⟨y, (p.setFlag .petFull).bump .unindexedPet 1, .newUnindexed, none, none⟩
    | some n =>
      match p.place o.slot o.cls o.length with
      | (q, some (container, offset)) =>
        let e := insertedEntry o c container offset
        ⟨y.fill a e, { q with pet := tabSet q.pet n ⟨a, o.fp, []⟩ }, .new, some (e.location a), some n⟩
      | (q, none) => ⟨y, q, .unplaced, none, none⟩

/-- A VERIFY lookup (R94). -/
def judgeVerify (x : Index) (p : Path) (o : LookupOp) (f : Found) : Judged :=
  match f with
  | .held a e =>
    if o.differs e then ⟨x, (p.setFlag .collision).bump .collisions 1, .missing, none, none⟩
    else ⟨x, p, .found, some (e.location a), none⟩
  | _ => ⟨x, p, .missing, none, none⟩

/-- The entry at a candidate address, if the candidate is good (R88). -/
def Index.goodCandidate (x : Index) (o : LookupOp) : Option (Nat × Entry) :=
  match o.candidate with
  | some a =>
    match x.entry a with
    | some e => if e.fp = o.fp ∧ e.state.held then some (a, e) else none
    | none => none
  | none => none

/-- The find of a lookup: a good candidate gives held, otherwise the search (R89 step 2). -/
def Index.find (x : Index) (o : LookupOp) (page : Nat) : Found :=
  match x.goodCandidate o with
  | some (a, e) => .held a e
  | none => x.search page (x.bucket o.fp) o.fp

/-- A lookup is judged at its bucket (R89). -/
def judge (c : Control) (x : Index) (p : Path) (o : LookupOp) : Judged :=
  match x.readyPage (x.bucket o.fp), o.mode with
  | none, .store => ⟨x, p.bump .unmappedLookups 1, .newUnindexed, none, none⟩
  | none, .verify => ⟨x, p.bump .unmappedLookups 1, .missing, none, none⟩
  | some page, .verify => judgeVerify x p o (x.find o page)
  | some page, .store =>
    match x.find o page with
    | .held a e => judgeHeld c x p o a e
    | _ => judgeMiss c x p o page

/-- A candidate was carried, used and found stale (R88); one that met a group not READY was not used (R89). -/
def Index.staleCandidate (x : Index) (o : LookupOp) : Bool :=
  (x.readyPage (x.bucket o.fp)).isSome && o.candidate.isSome && (x.goodCandidate o).isNone

/-- The waiting lookup of a slot and ordinal. -/
def Path.lookupAt (p : Path) (slot ordinal : Nat) : Option LookupOp :=
  p.lookups.find? fun o => o.slot = slot && o.ordinal = ordinal

/-- No older lookup of the same stream waits at the same bucket (R86). -/
def Path.lookupFirst (p : Path) (x : Index) (o : LookupOp) : Bool :=
  match p.lookups.find? fun q => q.slot = o.slot && x.bucket q.fp = x.bucket o.fp with
  | some q => q.ordinal = o.ordinal
  | none => false

/-- LOOKUP (R78, R86, R88 to R94, R97): the lookup is taken at its bucket and its result goes back. -/
def execLookup (slot ordinal : Nat) (s : State) : Step :=
  .next (match s.path.lookupAt slot ordinal with
    | some o =>
      if s.path.lookupFirst s.idx o then
        let p := { s.path with lookups := s.path.lookups.eraseP fun q => q.slot = slot && q.ordinal = ordinal }
        let j := judge s.ctl s.idx p o
        let r : LookupResult := ⟨slot, ordinal, o.fp, j.outcome, j.location, j.pet, s.idx.staleCandidate o⟩
        State.finish { s with idx := j.idx, path := { j.path with results := j.path.results ++ [r] } }
      else s
    | none => s)

/-! ## Head retirement (R100 to R102, R106) -/

/-- The summary counters with a retired item (R21, R100). -/
def Summary.count (m : Summary) (i : Item) (o : ChunkOutcome) : Summary :=
  match o with
  | .unplaced => m
  | .new => { m with chunks := add48 m.chunks 1, newChunks := add48 m.newChunks 1, newBytes := add48 m.newBytes i.length }
  | .duplicate =>
    { m with chunks := add48 m.chunks 1, dupChunks := add48 m.dupChunks 1, dupBytes := add48 m.dupBytes i.length }
  | .newUnindexed =>
    { m with chunks := add48 m.chunks 1, unindexedChunks := add48 m.unindexedChunks 1
             unindexedBytes := add48 m.unindexedBytes i.length }
  | .found => { m with chunks := add48 m.chunks 1, found := add48 m.found 1 }
  | .missing =>
    { m with chunks := add48 m.chunks 1, missing := add48 m.missing 1
             firstMissing := match m.firstMissing with | some n => some n | none => some i.ordinal }

/-- The sight list with a retired DUPLICATE item (R106). -/
def sightWith (l : List (Fingerprint × Nat)) (i : Item) : List (Fingerprint × Nat) :=
  match i.fp, i.location with
  | some f, some loc => if (l.any fun w => w.1 = f) ∨ 2048 ≤ l.length then l else l ++ [(f, loc.address)]
  | _, _ => l

/-- The context with its head item out of the queue and counted (R100, R106). -/
def Context.retire (x : Context) (i : Item) (rest : List Item) (o : ChunkOutcome) : Context :=
  { x with
    queue := rest
    summary := x.summary.count i o
    sight := if o = .duplicate ∧ x.mode = .store then sightWith x.sight i else x.sight }

/-- The CHUNK message of a NEW or NEW-UNINDEXED item (R101). -/
def chunkRecOf (slot : Nat) (x : Context) (i : Item) (o : ChunkOutcome) : ChunkRec :=
  let place : Nat × Nat :=
    if o = .new then (i.location.map fun (l : Location) => (l.container, l.offset)).getD (0, 0) else i.placement.getD (0, 0)
  { slot := slot, ordinal := i.ordinal, streamOffset := i.offset, length := i.length
    fp := i.fp.getD 0, check := i.check.getD 0, container := place.1, offset := place.2, branch := x.branch
    entry := if o = .new then i.location.bind fun l => i.pet.map fun n => (l.address, n) else none }

/-- The REF item of a DUPLICATE item (R101). -/
def refItemOf (slot : Nat) (x : Context) (i : Item) : RefItem :=
  let l := i.location.getD ⟨0, 0, 0, i.length⟩
  { slot := slot, ordinal := i.ordinal, streamOffset := i.offset, fp := i.fp.getD 0
    container := l.container, offset := l.offset, length := l.length, branch := x.branch }

/-- A waiter's REF now waits in the PET (R101). -/
def Path.holdRef (p : Path) (n slot ordinal : Nat) : Path :=
  { p with pet := tabUpdate p.pet n fun ps => { ps with waiters := ps.waiters.map fun w =>
      if w.slot = slot ∧ w.ordinal = ordinal then { w with held := true } else w } }

/-- A retiring item hands on its record and is settled as its outcome and mark say (R38, R101, R102). -/
def Path.handOn (p : Path) (c : Control) (slot : Nat) (x : Context) (i : Item) (o : ChunkOutcome) : Path :=
  match o with
  | .new => (p.modCtx slot Context.record).askTag (.message (.chunk (chunkRecOf slot x i o)))
  | .newUnindexed => (p.modCtx slot Context.record).askTag (.message (.chunk (chunkRecOf slot x i o)))
  | .duplicate =>
    match i.mark with
    | .lost => p.settle slot i.ordinal
    | .joined => ((p.modCtx slot Context.record).holdRef (i.pet.getD 0) slot i.ordinal).settle slot i.ordinal
    | _ => ((p.modCtx slot Context.record).joinBatch c (refItemOf slot x i)).settle slot i.ordinal
  | _ => p.settle slot i.ordinal

/-- A HELD Chunker settles its status again when an item leaves the queue (R45). -/
def Context.unhold (x : Context) : Context := if x.chunker.status = .held then x.settleStatus else x

/-- The head items of a context's queue retire while they are resolved, at most `n` of them (R100). -/
def Path.retireHeads (c : Control) (slot : Nat) : Nat → Path → Path
  | 0, p => p
  | n + 1, p =>
    match tabGet p.contexts slot with
    | some x =>
      match x.queue with
      | i :: rest =>
        match i.outcome with
        | some o =>
          let q := { p with contexts := tabSet p.contexts slot (x.retire i rest o) }
          Path.retireHeads c slot n ((q.handOn c slot x i o).modCtx slot Context.unhold)
        | none => p
      | [] => p
    | none => p

/-- Resolved heads retire, and the end of records and of the stream are tested (R12, R15, R100). -/
def Path.resolve (p : Path) (c : Control) (slot : Nat) : Path :=
  (Path.retireHeads c slot 32 p).check c slot

/-- Whether a context's queue still holds an item. -/
def Path.hasItem (p : Path) (slot ordinal : Nat) : Bool :=
  match tabGet p.contexts slot with
  | some x => (x.item ordinal).isSome
  | none => false

/-- Changes an item of a context's queue. -/
def Path.modItem (p : Path) (slot ordinal : Nat) (f : Item → Item) : Path :=
  p.modCtx slot fun x => x.modItem ordinal f

/-- The placement request of a NEW-UNINDEXED result (R93). -/
def Path.askPlacement (p : Path) (slot ordinal : Nat) : Path :=
  match tabGet p.contexts slot with
  | some x =>
    match x.item ordinal with
    | some i => { p with placements := p.placements ++ [⟨slot, ordinal, x.policy.cls, i.length⟩] }
    | none => p
  | none => p

/-- The Locator Cache takes a lookup's result (R88, R95). -/
def Path.cacheResult (p : Path) (r : LookupResult) : Path :=
  let q := if r.stale then (p.dropWay r.fp).bump .staleLocators 1 else p
  match r.outcome, r.location with
  | .new, some l => q.install r.fp l.address
  | .duplicate, some l => q.install r.fp l.address
  | _, _ => q

/-- A lookup's result is taken by the Lookup Engine (R93, R95). -/
def Path.takeResult (p : Path) (c : Control) (r : LookupResult) : Path :=
  let q := p.cacheResult r
  let q := q.modItem r.slot r.ordinal fun i => { i with location := r.location, pet := r.pet }
  match r.outcome with
  | .newUnindexed => q.askPlacement r.slot r.ordinal
  | o => (q.modItem r.slot r.ordinal fun i => { i with outcome := some o }).resolve c r.slot

/-- LOOKUP_RESULT (R88, R93, R95, R100): a result whose item is gone is discarded. -/
def execLookupResult (slot ordinal : Nat) (s : State) : Step :=
  .next (match s.path.results.find? fun r => r.slot = slot && r.ordinal = ordinal with
    | some r =>
      let p := { s.path with results := s.path.results.eraseP fun r => r.slot = slot && r.ordinal = ordinal }
      State.finish (s.withPath (if p.hasItem slot ordinal then p.takeResult s.ctl r else p))
    | none => s)

/-- A placement request of a NEW-UNINDEXED result is taken, and its item is resolved (R93). -/
def Path.takePlacement (p : Path) (c : Control) (r : PlaceReq) : Path :=
  match p.place r.slot r.cls r.length with
  | (q, some at_) =>
    (q.modItem r.slot r.ordinal fun i => { i with outcome := some .newUnindexed, placement := some at_ }).resolve c r.slot
  | (q, none) => (q.modItem r.slot r.ordinal fun i => { i with outcome := some .unplaced }).resolve c r.slot

/-- PLACEMENT_REQUEST (R93, R140 to R143): the request of an item waiting for its place is taken. -/
def execPlacementRequest (slot ordinal : Nat) (s : State) : Step :=
  .next (match s.path.placements.find? fun r => r.slot = slot && r.ordinal = ordinal with
    | some r =>
      let p := { s.path with placements := s.path.placements.eraseP fun r => r.slot = slot && r.ordinal = ordinal }
      State.finish (s.withPath (if p.hasItem slot ordinal then p.takePlacement s.ctl r else p))
    | none => s)

/-! ## Outcomes at the bucket (R98, R99, R123, R124) -/

/-- The REF item of a waiter whose REF waits in the PET (R98, R101). -/
def waiterRef (p : Path) (w : Waiter) (e : Entry) : RefItem :=
  { slot := w.slot, ordinal := w.ordinal, streamOffset := w.offset, fp := e.fp, container := e.container
    offset := e.offset, length := e.length, branch := ((tabGet p.contexts w.slot).map (·.branch)).getD 0 }

/-- A waiter of an accepted chunk: its waiting REF joins the batch, or its item is marked LIVE (R98). -/
def Path.waiterLive (c : Control) (e : Entry) (p : Path) (w : Waiter) : Path :=
  if w.held then p.joinBatch c (waiterRef p w e)
  else p.modItem w.slot w.ordinal fun i => { i with mark := .live }

/-- The waiting outcome of a PET slot's CHUNK message. -/
def Path.chunkOpAt (p : Path) (accepted : Bool) (slot : Nat) : Option ChunkOp :=
  p.chunkOps.find? fun o => o.accepted = accepted && o.pet = slot

/-- The outcome of a PET slot's CHUNK message has been taken. -/
def Path.chunkOpDone (p : Path) (accepted : Bool) (slot : Nat) : Path :=
  { p with chunkOps := p.chunkOps.eraseP fun o => o.accepted = accepted && o.pet = slot }

/-- The waiters of a PET slot, in list order. -/
def Path.waiters (p : Path) (slot : Nat) : List Waiter := ((tabGet p.pet slot).map (·.waiters)).getD []

/-- CHUNK_ACCEPT_AT_BUCKET (R98, R152): the PENDING entry becomes LIVE, its waiters are released and its PET slot
freed. -/
def execChunkAcceptAtBucket (slot : Nat) (s : State) : Step :=
  .next (match s.path.chunkOpAt true slot with
    | some o =>
      let p := s.path.chunkOpDone true slot
      match s.idx.entry o.address with
      | some e =>
        if e.fp = o.fp ∧ e.state = .pending then
          let q := (p.waiters slot).foldl (Path.waiterLive s.ctl e) p
          State.finish { s with
            idx := s.idx.set o.address { e with state := .live }
            path := { q with pet := tabErase q.pet slot } }
        else State.finish (s.withPath p)
      | none => State.finish (s.withPath p)
    | none => s)

/-- A waiter of a failed chunk: its waiting REF is discarded and settled, or its item is marked LOST (R99). -/
def Path.waiterLost (p : Path) (w : Waiter) : Path :=
  if w.held then p.answer w.slot else p.modItem w.slot w.ordinal fun i => { i with mark := .lost }

/-- The context slots some waiters name, each once, in order of first mention: the order in which the contexts of a failed
chunk's waiters are told STORE_LOST and tested for their end, which R99 and R22 leave open (DESIGN CHOICE, log 40). -/
def waiterSlots : List Waiter → List Nat
  | [] => []
  | w :: ws => w.slot :: (waiterSlots ws).filter (· ≠ w.slot)

/-- A slot's waiter with the lowest ordinal (R99). -/
def lowestWaiter (l : List Waiter) (slot : Nat) : Option Waiter :=
  (l.filter fun w => w.slot = slot).foldl
    (fun a w => match a with
      | none => some w
      | some b => if w.ordinal < b.ordinal then some w else some b) none

/-- Every context named by the waiters of a failed chunk is told STORE_LOST (R99). -/
def Path.waitersTold (p : Path) (l : List Waiter) : Path :=
  (waiterSlots l).foldl (fun q s => match lowestWaiter l s with
    | some w => q.storeLost s w.offset w.ordinal
    | none => q) p

/-- CHUNK_FAIL_AT_BUCKET (R99, R155): the PENDING entry becomes FREE, its waiters are lost, its PET slot freed and its
locator invalidated. -/
def execChunkFailAtBucket (slot : Nat) (s : State) : Step :=
  .next (match s.path.chunkOpAt false slot with
    | some o =>
      let p := s.path.chunkOpDone false slot
      let l := p.waiters slot
      let q := (l.foldl Path.waiterLost p).waitersTold l
      let q := Path.invalidate { q with pet := tabErase q.pet slot } o.fp o.address
      State.finish { s with
        idx := s.idx.releaseIf o.address o.fp .pending
        path := q.checkAll s.ctl (waiterSlots l) }
    | none => s)

/-- A released item is counted, as released or as leaked (R123, R124). -/
def Path.countRelease (p : Path) (o : ReleaseOp) : Path :=
  if o.accepted then (p.bump .entriesReleased 1).bump .releasedBytes o.item.length
  else (p.bump .leakedBytes o.item.length).setFlag .leak

/-- The outcome of a RELEASE item is taken at its bucket: index and data path after it (R123, R124). -/
def takeRelease (x : Index) (p : Path) (o : ReleaseOp) : Index × Path :=
  (x.releaseIf o.item.address o.item.fp .releasing, (p.invalidate o.item.fp o.item.address).countRelease o)

/-- RELEASE_OUTCOME_AT_BUCKET (R123, R124). -/
def execReleaseOutcomeAtBucket (address : Nat) (s : State) : Step :=
  .next (match s.path.releaseOps.find? fun o => o.item.address = address with
    | some o =>
      let p := { s.path with releaseOps := s.path.releaseOps.eraseP fun o => o.item.address = address }
      let r := takeRelease s.idx p o
      State.finish { s with idx := r.1, path := r.2 }
    | none => s)

/-! ## The sweeper's visit (R116, R119 to R122) -/

/-- The mark check that follows a visit of the BINS phase (R120). -/
def Index.afterVisit (x : Index) (pos : SweepPos) (bucket : Nat) : Index :=
  match pos with
  | .bins _ _ _ => x.markCheck bucket
  | .buckets _ _ => x

/-- SWEEPER_VISIT (R70, R77, R115, R116, R119 to R122): the outstanding visit is taken, and the pass waits, goes on or
ends. -/
def execSweeperVisit (s : State) : Step :=
  .next (match s.path.sweeper.visit with
    | some v =>
      let pos := s.path.sweeper.pos
      let r := Index.visit s.ctl.holds s.ctl.calendar.dayNumber v.reserved (s.idx.visitEntries pos) s.idx
      let p := s.path.joinRelease r.items
      match r.early with
      | some i => State.finish { s with idx := r.idx, path := p.waitSweep r.idx (pos.withEntry i) }
      | none =>
        let x := r.idx.afterVisit pos v.bucket
        State.finish { s with idx := x, path := p.sweepOn x pos.after }
    | none => s)

end Sys2Proof.Machine
end

