-- ==== Sys2Proof/Machine/Parcels.lean ====
section
/-! DEFINITION. The meanings of the frames' commands: OPEN, DATA, CLOSE, ABORT, MGMT, STORE_ANSWER,
PASS_THROUGH_FRAME, FCS_ERROR_FRAME, MALFORMED_FRAME, WRONG_DIRECTION_FRAME. -/

namespace Sys2Proof.Machine

open Sys2Proof

/-- A stream parcel that reaches no context is dropped and counted (R1). -/
def Path.withoutStream (p : Path) : Path := p.bump .parcelsWithoutStream 1

/-- An OPEN arrives (R1, R3 to R5). -/
def Path.openArrives (p : Path) (c : Control) (port : Port) (source : Mac)
    (branch stream mode endMode expected : Nat) : Path :=
  if p.dropsStreams port then p.withoutStream
  else (p.openChecks c ⟨source, branch, stream, mode, endMode, expected, false⟩).1

/-- OPEN (R1, R3 to R5). -/
def execOpen (port : Port) (source : Mac) (branch stream mode endMode expected : Nat) (s : State) : Step :=
  .next (State.finish (s.withPath (s.path.openArrives s.ctl port source branch stream mode endMode expected)))

/-- A DATA parcel whose identity has no context: an implied open if its number is 0 (R1, R6). -/
def Path.dataWithoutContext (p : Path) (c : Control) (source : Mac) (branch stream seq : Nat) (payload : List Byte) :
    Path :=
  if seq = 0 then
    match p.openChecks c ⟨source, branch, stream, 1, 0, 0, true⟩ with
    | (q, some slot) =>
      match tabGet q.contexts slot with
      | some x => q.takeData c slot x seq payload
      | none => q
    | (q, none) => q.withoutStream
  else p.withoutStream

/-- A DATA parcel arrives (R1, R6, R10, R15, R23, R25). -/
def Path.dataArrives (p : Path) (c : Control) (port : Port) (source : Mac) (branch stream seq : Nat)
    (payload : List Byte) : Path :=
  if p.dropsStreams port then p.withoutStream
  else
    match p.findCtx branch stream with
    | some (slot, x) => if x.state.taking then p.takeData c slot x seq payload else p.late source x .data
    | none => p.dataWithoutContext c source branch stream seq payload

/-- DATA (R1, R6, R10, R15, R23, R25). -/
def execData (port : Port) (source : Mac) (branch stream seq : Nat) (payload : List Byte) (s : State) : Step :=
  .next (State.finish (s.withPath (s.path.dataArrives s.ctl port source branch stream seq payload)))

/-- A second CLOSE in DRAINING is dropped and counted in the dropped-duplicate count (R10, R28). -/
def Path.secondClose (p : Path) (slot : Nat) : Path :=
  p.modCtx slot fun x => { x with dupCount := add48 x.dupCount 1 }

/-- A CLOSE arrives (R1, R8 to R10, R15, R23). -/
def Path.closeArrives (p : Path) (c : Control) (port : Port) (source : Mac) (branch stream final total : Nat) : Path :=
  if p.dropsStreams port then p.withoutStream
  else
    match p.findCtx branch stream with
    | some (slot, x) =>
      match x.state with
      | .opening => p.takeClose c slot x final total
      | .active => p.takeClose c slot x final total
      | .draining => p.secondClose slot
      | .quiescing => p.late source x .close
      | .linger => p.late source x .close
    | none => p.withoutStream

/-- CLOSE (R1, R8 to R10, R15, R23). -/
def execClose (port : Port) (source : Mac) (branch stream final total : Nat) (s : State) : Step :=
  .next (State.finish (s.withPath (s.path.closeArrives s.ctl port source branch stream final total)))

/-- An ABORT arrives (R1, R16). -/
def Path.abortArrives (p : Path) (c : Control) (port : Port) (source : Mac) (branch stream : Nat) : Path :=
  if p.dropsStreams port then p.withoutStream
  else
    match p.findCtx branch stream with
    | some (slot, x) =>
      if x.state.taking then (p.quiesce slot .aborted none none).check c slot else p.late source x .abort
    | none => p.withoutStream

/-- ABORT (R1, R16). -/
def execAbort (port : Port) (source : Mac) (branch stream : Nat) (s : State) : Step :=
  .next (State.finish (s.withPath (s.path.abortArrives s.ctl port source branch stream)))

/-- The FIFO of a port has room for an answer made at once (R191). -/
def Path.replyRoom (p : Path) : Port → Bool
  | .i => p.iPort.room
  | .s => p.sPort.room

/-- A request finds its queue full (R191): it is answered REFUSED BUSY at once, or dropped where that answer finds no
place. -/
def Path.refuseFull (p : Path) (now : Nat) (port : Port) (r : Req) : Path :=
  let q := p.bump .requestsQueueFull 1
  if q.replyRoom port then q.sendReply now port (r.reply none (.refuse .busy))
  else (q.bump .repliesDropped 1).setFlag .mgmtDrop

/-- A request passes the source check: the list is empty or holds its source (R190). -/
def passesSources (sources : List Mac) (source : Mac) : Bool := sources.isEmpty || sources.contains source

/-- A request arrives at a port (R189 to R191). -/
def Path.arrive (p : Path) (c : Control) (port : Port) (r : Req) : Path :=
  if passesSources c.sources r.source then
    if 8 ≤ (p.queue port).reqs.length then p.refuseFull c.now port r
    else p.setQueue port { p.queue port with reqs := (p.queue port).reqs ++ [r] }
  else (p.bump .requestsDropped 1).setFlag .mgmtDrop

/-- MGMT (R189 to R191). -/
def execMgmt (port : Port) (source : Mac) (number : Nat) (request : Request) (s : State) : Step :=
  .next (State.finish (s.withPath (s.path.arrive s.ctl port ⟨number, source, request⟩)))

/-- A STORE ANSWER is taken by a message that holds its tag and serial in SENDING or AWAITING (R151). -/
def Path.answered (p : Path) (tag serial : Nat) : Option Message :=
  match p.message tag with
  | some m => if m.serial = serial ∧ m.phase.answerable then some m else none
  | none => none

/-- A taken answer is handled by its verdict (R152, R153, R155 to R157). -/
def Path.takeAnswer (p : Path) (c : Control) (m : Message) (v : Verdict) : Path :=
  let q := p.stopSending c m
  match v with
  | .accept => (((q.removeMessage m.tag).withdraw c.now m.tag).bump .storeAccepts 1).accept c m.content
  | .busy => (q.bump .busyAnswers 1).retryWait c m.tag
  | .fail => q.failMessage c m

/-- A STORE ANSWER arrives (R151 to R157): any answer at the I-port is stale. -/
def Path.answerArrives (p : Path) (c : Control) (port : Port) (tag serial : Nat) (verdict : Verdict) : Path :=
  match port, p.answered tag serial with
  | .s, some m => p.takeAnswer c m verdict
  | _, _ => p.bump .staleAnswers 1

/-- STORE_ANSWER (R151 to R157). -/
def execStoreAnswer (port : Port) (tag serial : Nat) (verdict : Verdict) (s : State) : Step :=
  .next (State.finish (s.withPath (s.path.answerArrives s.ctl port tag serial verdict)))

/-- A frame with a bad FCS arrives (R175). -/
def Path.fcsError (p : Path) : Port → Path
  | .i => p.bump .fcsErrorsI 1
  | .s => p.bump .fcsErrorsS 1

/-- FCS_ERROR_FRAME (R175). -/
def execFcsError (port : Port) (s : State) : Step := .next (State.finish (s.withPath (s.path.fcsError port)))

/-- A malformed frame arrives (R202, R207). -/
def Path.malformed (p : Path) : Port → Path
  | .i => p.bump .malformedI 1
  | .s => p.bump .malformedS 1

/-- MALFORMED_FRAME (R202, R207). -/
def execMalformed (port : Port) (s : State) : Step := .next (State.finish (s.withPath (s.path.malformed port)))

/-- A frame of the wrong direction arrives (R207): one counter for both ports. -/
def Path.wrongWay (p : Path) : Path := p.bump .wrongDirection 1

/-- WRONG_DIRECTION_FRAME (R207). -/
def execWrongDirection (port : Port) (s : State) : Step :=
  .next (State.finish (s.withPath (match port with
    | .i => s.path.wrongWay
    | .s => s.path.wrongWay)))

/-- A pass-through frame is queued unchanged to the opposite port's FIFO, or dropped (R166, R174, R175). -/
def Path.forward (p : Path) (c : Control) (port : Port) (frame : List Byte) : Path :=
  match port with
  | .i =>
    if p.sPort.room then (p.joinS c.now (.frame frame)).bump .forwardedIToS 1 else p.bump .dropsSTransmit 1
  | .s => if p.iPort.room then (p.joinI (.frame frame)).bump .forwardedSToI 1 else p.bump .dropsITransmit 1

/-- A frame with a good FCS arrives, read as the command it is (R175, R202, R207). No other command is read from a
frame. -/
def Path.frameArrives (p : Path) (c : Control) : Instr → Path
  | .passThroughFrame port frame => p.forward c port frame
  | .openParcel port source branch stream mode endMode expected =>
    p.openArrives c port source branch stream mode endMode expected
  | .dataParcel port source branch stream seq payload => p.dataArrives c port source branch stream seq payload
  | .closeParcel port source branch stream final total => p.closeArrives c port source branch stream final total
  | .abortParcel port source branch stream => p.abortArrives c port source branch stream
  | .mgmtParcel port source number request => p.arrive c port ⟨number, source, request⟩
  | .storeAnswer port tag serial verdict => p.answerArrives c port tag serial verdict
  | .malformedFrame port => p.malformed port
  | .wrongDirectionFrame _ => p.wrongWay
  | _ => p

/-- PASS_THROUGH_FRAME (R175): the frame's type field is compared with the EtherType in force as the frame arrives. A frame
of that EtherType is never forwarded: it is taken as what it holds. -/
def execPassThrough (port : Port) (frame : List Byte) (s : State) : Step :=
  .next (State.finish (s.withPath
    (s.path.frameArrives s.ctl (Wire.classifyFrame s.ctl.tables.settings.etherType port frame))))

end Sys2Proof.Machine
end

