-- ==== Sys2Proof/Machine/Resets.lean ====
section
/-! DEFINITION. The resets: COLD_RESET, WARM_RESET and WARM_RESET_COMPLETE. -/

namespace Sys2Proof.Machine

open Sys2Proof

/-! ## Cold reset -/

/-- The S-port link after a cold reset: it follows the carrier at the release of the RESET pin (R161). -/
def coldLink (carrier : Bool) : Link :=
  if carrier then {} else { state := .down, lossTimer := some (sec 5) }

/-- The state after a cold reset: every field at its cold value, the carriers being what their ports report (log 4);
the commands waiting are the sender's and stay. -/
def State.coldReset (s : State) : State :=
  { State.reset with
    pending := s.pending
    path := { State.reset.path with
      sPort := { carrier := s.path.sPort.carrier }
      iPort := { carrier := s.path.iPort.carrier }
      link := coldLink s.path.sPort.carrier } }

/-- COLD_RESET (R63, R64, R161, R177, R186, R192 and the reset tables). -/
def execColdReset (s : State) : Step := .next s.coldReset

/-! ## Warm reset (R2, R55, R84, R85, R87, R96, R104 to R107, R117, R121, R162, R176, R200, R201) -/

/-- The release operations that wait at their buckets are taken (R84). -/
def releaseWaiting (x : Index) (p : Path) : Index × Path :=
  p.releaseOps.foldl (fun r o => takeRelease r.1 r.2 o) (x, { p with releaseOps := [] })

/-- Every PENDING entry becomes FREE, found through the PET slots (R84). -/
def Index.freePending (x : Index) (pet : Tab PetSlot) : Index :=
  pet.foldl (fun y s => y.releaseIf s.2.address s.2.fp .pending) x

/-- The items of the RELEASE batches in flight. -/
def Link.releaseItems (l : Link) : List RelItem :=
  l.inflight.flatMap fun m => match m.content with
    | .release items => items
    | _ => []

/-- The items of every RELEASING entry that has not been answered: the RELEASE queue and the batches in flight (R84). -/
def Path.releasing (p : Path) : List RelItem :=
  p.sweeper.batches.flatten ++ p.sweeper.unbatched ++ p.link.releaseItems

/-- Every RELEASING entry becomes FREE and is counted as leaked (R84). -/
def leakAll (x : Index) (p : Path) (items : List RelItem) : Index × Path :=
  items.foldl (fun r i => takeRelease r.1 r.2 ⟨false, i⟩) (x, p)

/-- The hot-list operations a warm reset keeps: the rewrites that have begun, each the first of its branch (R105,
R107). -/
def keptHotOps (begun : List Nat) : List HotOp → List HotOp
  | [] => []
  | o :: l =>
    let rest := keptHotOps (o.branchOf :: begun) l
    match o with
    | .rewrite b s => if begun.contains b then rest else .rewrite b s :: rest
    | .load _ _ => rest

/-- What is happening to a queue's head after a warm reset asked at another port: waiting items and a waiting reply are
discarded (R82, R112, R201). -/
def HeadState.discard : HeadState → HeadState
  | .waiting => .waiting
  | _ => .discarded

/-- The data path with what a warm reset empties emptied (R2, R55, R85, R87, R96, R105, R107, R117, R121, R162, R176):
counters, flags, the next container id, serial counters, link state and loss timer, carriers and the frames whose
transmission has begun are kept. -/
def Path.swept (p : Path) (c : Control) : Path :=
  { counters := p.counters
    flags := p.flags
    hotOps := keptHotOps [] p.hotOps
    alloc := { nextId := p.alloc.nextId }
    link := { serials := p.link.serials, state := p.link.state, lossTimer := p.link.lossTimer }
    sPort := { carrier := p.sPort.carrier, tx := p.sPort.tx.map (SItem.fixed p c false) }
    iPort := { carrier := p.iPort.carrier, tx := p.iPort.tx }
    iQueue := p.iQueue
    sQueue := p.sQueue }

/-- The queues from the moment a WARM RESET is taken at a port (R200, R201). -/
def Path.resetQueues (p : Path) (port : Port) : Path :=
  (p.setHead port .replying).setHead (Port.other port) (p.queue (Port.other port)).head.discard

/-- The changes a WARM RESET taken at a port makes to the index and the data path (R84, R162, R176, R200). -/
def warmChanges (c : Control) (x : Index) (p : Path) (port : Port) : Index × Path :=
  let r := releaseWaiting x p
  let r := leakAll (r.1.freePending p.pet) r.2 p.releasing
  (r.1, { (r.2.swept c).resetQueues port with warm := some ⟨port, p.alloc.ids⟩ })

/-- WARM_RESET (R200, R201). -/
def execWarmReset (port : Port) (s : State) : Step :=
  .next (match s.headRequest port with
    | some ⟨_, _, .warmReset⟩ =>
      let r := warmChanges s.ctl s.idx s.path port
      State.finish { s with idx := r.1, path := r.2 }
    | _ => s)

/-- A request whose items or reply the reset has discarded leaves its queue (R191, R201). -/
def Path.popDiscarded (p : Path) (port : Port) : Path :=
  if (p.queue port).head = .discarded then p.popQueue port else p

/-- The reply to the WARM RESET at the head of a port's queue (R200). -/
def Path.answerWarm (p : Path) (now : Nat) (w : WarmReset) : Path :=
  match (p.queue w.port).reqs with
  | r :: _ => p.respond now w.port r (.done (.containers w.containers))
  | [] => p

/-- The data path at the completion of a warm reset (R200, R201). -/
def Path.warmComplete (p : Path) (now : Nat) (w : WarmReset) : Path :=
  Path.answerWarm ((Path.bump { p with warm := none } .warmResets 1).popDiscarded (Port.other w.port)) now w

/-- WARM_RESET_COMPLETE (R29, R200, R201). -/
def execWarmResetComplete (s : State) : Step :=
  .next (match s.path.warm with
    | some w =>
      State.finish { s with
        ctl := { s.ctl with gapTimer := s.ctl.now + s.ctl.tables.settings.gapInterval }
        path := s.path.warmComplete s.ctl.now w }
    | none => s)

end Sys2Proof.Machine
end

