-- ==== Sys2Proof/Machine/TableRequests.lean ====
section
/-! DEFINITION. The requests of the Table Banks (R177 to R187): LOAD_TABLE, READ_TABLE, SWAP_BANKS, SET_SETTINGS; and
BANK_COPY_COMPLETE. -/

namespace Sys2Proof.Machine

open Sys2Proof

/-- Writes the tables. -/
def State.withTables (s : State) (t : Tables) : State := { s with ctl := { s.ctl with tables := t } }

/-- What a request at the Table Banks comes to: the tables after it and the answer. -/
abbrev TablesAnswer := Tables × Answer

/-! ## LOAD TABLE (R180, R181) -/

/-- The code of an on-off field: 1 for on, 2 for off, the order in which R178 and R179 name them (R203). -/
def onOffCode (b : Bool) : Nat := if b then 1 else 2

/-- A code that names neither on nor off (R203). -/
def badCode (code : Nat) : Bool := !(code == 1 || code == 2)

/-- A value given for a policy entry lies outside the range R180 allows, or is a code of no value (R203). -/
def PolicyRow.bad (e : PolicyRow) : Bool :=
  decide (3 < e.gear) || decide (7 < e.cls) || decide (15 < e.warmUp) || decide (15 < e.linger) || badCode e.confirm

/-- A value given for a branch entry lies outside the range R180 allows, or is a code of no value (R203). -/
def BranchRow.bad (e : BranchRow) : Bool :=
  decide (31 < e.policy) || decide (15 < e.holdTag) || badCode e.enabled || badCode e.impliedOpen ||
    badCode e.verifyAllowed

/-- The policy entry some values give. -/
def PolicyRow.entry (e : PolicyRow) : PolicyEntry :=
  ⟨e.k, e.min, e.max, e.gear, e.confirm == 1, e.retention, e.cls, e.warmUp, e.linger⟩

/-- The branch entry some values give. -/
def BranchRow.entry (e : BranchRow) : BranchEntry :=
  ⟨e.enabled == 1, e.policy, e.holdTag, e.streamLimit, e.quota, e.impliedOpen == 1, e.verifyAllowed == 1⟩

/-- A policy entry as values. -/
def PolicyEntry.row (e : PolicyEntry) : PolicyRow :=
  ⟨e.k, e.min, e.max, e.gear, onOffCode e.confirm, e.retention, e.cls, e.warmUp, e.linger⟩

/-- A branch entry as values. -/
def BranchEntry.row (e : BranchEntry) : BranchRow :=
  ⟨onOffCode e.enabled, e.policy, e.holdTag, e.streamLimit, e.quota, onOffCode e.impliedOpen,
    onOffCode e.verifyAllowed⟩

/-- A policy entry with k, MIN and MAX brought into their ranges, in that order (R181). -/
def PolicyEntry.clamped (e : PolicyEntry) : PolicyEntry :=
  let k := clampTo 8 16 e.k
  { e with k := k, min := clampTo 64 (2 ^ k) (e.min / 64 * 64), max := clampTo (2 ^ k) 65536 (e.max / 64 * 64) }

/-- A policy entry as it is stored: clamped, and with retention days that fit their field (log 20). -/
def PolicyEntry.stored (e : PolicyEntry) : PolicyEntry :=
  { PolicyEntry.clamped e with retention := narrow16 Config.wideRetention e.retention }

/-- A branch entry with the stream limit and the quota brought into their ranges (R181). -/
def BranchEntry.clamped (e : BranchEntry) : BranchEntry :=
  { e with streamLimit := clampTo 1 8 e.streamLimit, quota := clampTo 16 512 e.quota }

/-- A gear table is in use: a context in OPENING, ACTIVE, DRAINING or QUIESCING has a policy copy that names it
(R185). -/
def Path.gearInUse (p : Path) (table : Nat) : Bool :=
  p.contexts.any fun sc => sc.2.state.open? && sc.2.policy.gear == table

/-- Consecutive numbers from the first on are written; `d` is what an unlisted number reads as. -/
def putRows {α : Type} [DecidableEq α] (d : α) : Tab α → Nat → List α → Tab α
  | t, _, [] => t
  | t, i, a :: rest => putRows d (tabPut d t i a) (i + 1) rest

/-- Case 1 of R180 for a range of entries: the count is 0 or the range passes the end of the table. -/
def badRange (first count size : Nat) : Bool := decide (count = 0) || decide (size < first + count)

/-- The tables with another standby bank. -/
def Tables.setStandby (t : Tables) (b : Bank) : Tables := t.setBank t.active.other b

/-- DONE_ADJUSTED or DONE, with the entries written (R180). -/
def loaded (adjusted : Bool) (r : TableRows) : Answer :=
  { status := if adjusted then .doneAdjusted else .done, result := .rows r }

/-- LOAD TABLE of kind POLICY (R180). -/
def loadPolicies (t : Tables) (first : Nat) (rows : List PolicyRow) : TablesAnswer :=
  if badRange first rows.length 32 then (t, .refuse .badValue)
  else if 32 < rows.length then (t, .refuse .tooMany)
  else if t.copying then (t, .refuse .busy)
  else if rows.any PolicyRow.bad then (t, .refuse .badValue)
  else
    let given := rows.map PolicyRow.entry
    let stored := given.map PolicyEntry.stored
    (t.setStandby { t.standbyBank with policies := putRows {} t.standbyBank.policies first stored },
      loaded (decide (given.map PolicyEntry.clamped ≠ given)) (.policies stored))

/-- LOAD TABLE of kind BRANCH (R180). -/
def loadBranches (t : Tables) (first : Nat) (rows : List BranchRow) : TablesAnswer :=
  if badRange first rows.length 4096 || decide (first = 0) then (t, .refuse .badValue)
  else if 64 < rows.length then (t, .refuse .tooMany)
  else if t.copying then (t, .refuse .busy)
  else if rows.any BranchRow.bad then (t, .refuse .badValue)
  else
    let given := rows.map BranchRow.entry
    let stored := given.map BranchEntry.clamped
    (t.setStandby { t.standbyBank with branches := putRows {} t.standbyBank.branches first stored },
      loaded (decide (stored ≠ given)) (.branches stored))

/-- LOAD TABLE of kind GEAR (R180, R185). -/
def loadGears (t : Tables) (inUse : Bool) (table first : Nat) (values : List Word32) : TablesAnswer :=
  if badRange first values.length 256 || decide (3 < table) then (t, .refuse .badValue)
  else if 64 < values.length then (t, .refuse .tooMany)
  else if inUse then (t, .refuse .inUse)
  else ({ t with gear := putRows 0 t.gear (256 * table + first) values }, loaded false (.gears values))

/-- LOAD TABLE's cases (R180). -/
def loadAnswer (t : Tables) (p : Path) : TableLoad → TablesAnswer
  | .policy first rows => loadPolicies t first rows
  | .branch first rows => loadBranches t first rows
  | .gear table first values => loadGears t (p.gearInUse table) table first values
  | .unknown _ => (t, .refuse .badValue)

/-- The request was carried out. -/
def Answer.taken (a : Answer) : Bool :=
  match a.status with
  | .done => true
  | .doneAdjusted => true
  | _ => false

/-- A load that was taken is counted (R180). -/
def Path.countIf (p : Path) (taken : Bool) (c : Counter) : Path := if taken then p.bump c 1 else p

/-- LOAD_TABLE (R180, R181, R185). -/
def execLoadTable (port : Port) (s : State) : Step :=
  .next (match s.headRequest port with
    | some ⟨n, src, .loadTable l⟩ =>
      let r := loadAnswer s.ctl.tables s.path l
      State.finish (((s.withTables r.1).withPath (s.path.countIf r.2.taken .tableLoads)).answer port
        ⟨n, src, .loadTable l⟩ r.2)
    | _ => s)

/-! ## READ TABLE (R182) -/

/-- The bank a code names, 1 for A and 2 for B (R203). -/
def bankOfCode (code : Nat) : Option BankId := if code = 1 then some .a else if code = 2 then some .b else none

/-- Consecutive values from the first on. -/
def rowsFrom {α : Type} (read : Nat → α) (first count : Nat) : List α :=
  (List.range count).map fun i => read (first + i)

/-- READ TABLE of a banked table (R182): the limit and size of the kind, and the rows it would carry. -/
def readBanked (t : Tables) (bank first count limit size : Nat) (zero : Bool) (rows : Bank → TableRows) : Answer :=
  match bankOfCode bank with
  | none => .refuse .badValue
  | some id =>
    if badRange first count size || (zero && decide (first = 0)) then .refuse .badValue
    else if limit < count then .refuse .tooMany
    else if id ≠ t.active ∧ t.copying = true then .refuse .busy
    else .done (.bankRows t.active (rows (t.bank id)))

/-- READ TABLE's cases (R182). -/
def readAnswer (t : Tables) : TableRead → Answer
  | .policy bank first count =>
    readBanked t bank first count 32 32 false fun b => .policies (rowsFrom b.policy first count)
  | .branch bank first count =>
    readBanked t bank first count 64 4096 true fun b => .branches (rowsFrom b.branch first count)
  | .gear table first count =>
    if badRange first count 256 || decide (3 < table) then .refuse .badValue
    else if 64 < count then .refuse .tooMany
    else .done (.bankRows t.active (.gears (rowsFrom (t.gearWord table) first count)))
  | .unknown _ => .refuse .badValue

/-- READ_TABLE (R182). -/
def execReadTable (port : Port) (s : State) : Step :=
  .next (match s.headRequest port with
    | some ⟨n, src, .readTable q⟩ =>
      State.finish (s.answer port ⟨n, src, .readTable q⟩ (readAnswer s.ctl.tables q))
    | _ => s)

/-! ## SWAP BANKS (R183) -/

/-- SWAP BANKS by the copy state (R183). -/
def swapAnswer (t : Tables) : TablesAnswer :=
  if t.copying then (t, { status := .notTaken })
  else ({ t with active := t.active.other, copying := true }, .done (.bank t.active.other))

/-- SWAP_BANKS (R183). -/
def execSwapBanks (port : Port) (s : State) : Step :=
  .next (match s.headRequest port with
    | some ⟨n, src, .swapBanks⟩ =>
      let r := swapAnswer s.ctl.tables
      State.finish (((s.withTables r.1).withPath (s.path.countIf r.2.taken .bankSwaps)).answer port
        ⟨n, src, .swapBanks⟩ r.2)
    | _ => s)

/-- The copy completes: the standby bank holds what the active bank holds (R183). -/
def Tables.copied (t : Tables) : Tables := { t.setStandby t.activeBank with copying := false }

/-- BANK_COPY_COMPLETE (R183). -/
def execBankCopyComplete (s : State) : Step :=
  .next (if s.ctl.tables.copying then State.finish (s.withTables s.ctl.tables.copied) else s)

/-! ## SET SETTINGS (R186, R187) -/

/-- The field name is known (R187 case 1). -/
def SettingWrite.known : SettingWrite → Bool
  | .unknown _ => false
  | _ => true

/-- The value lies in the field's range (R187 case 2). -/
def SettingWrite.inRange : SettingWrite → Bool
  | .etherType v => decide (0x0600 ≤ v) && decide (v ≤ 0xFFFF)
  | .storeAddr a => decide (a ≠ 0)
  | .gapSteps v => decide (1 ≤ v) && decide (v ≤ 255)
  | .retryLimit v => v == 2 || v == 4 || v == 16 || v == 64
  | .retryAction v => v == 1 || v == 2
  | .fence v => decide (v ≤ 64)
  | .rotation v => decide (v ≤ 3)
  | .promotion v => decide (v ≤ 7)
  | .paceMargin v => decide (v ≤ 64)
  | .alertMask m => decide (m &&& noFlag = 0)
  | .unknown _ => false

/-- The record with a named field written (R187). -/
def Settings.write (g : Settings) : SettingWrite → Settings
  | .etherType v => { g with etherType := v }
  | .storeAddr a => { g with storeAddr := some a }
  | .gapSteps v => { g with gapSteps := v }
  | .retryLimit v => { g with retryLimit := v }
  | .retryAction v => { g with retryAction := if v = 1 then .persist else .giveUp }
  | .fence v => { g with fence := v }
  | .rotation v => { g with rotation := v }
  | .promotion v => { g with promotion := v }
  | .paceMargin v => { g with paceMargin := v }
  | .alertMask m => { g with alertMask := m }
  | .unknown _ => g

/-- Every field name is known and every value lies in its range (R187). -/
def settingsGood (writes : List SettingWrite) : Bool :=
  writes.all fun w => SettingWrite.known w && SettingWrite.inRange w

/-- The control state with another settings record: the gap timer restarts when its interval changes (R29). -/
def Control.withSettings (c : Control) (g : Settings) : Control :=
  { c with
    tables := { c.tables with settings := g }
    gapTimer := if g.gapSteps = c.tables.settings.gapSteps then c.gapTimer else c.now + g.gapInterval }

/-- The open batch closes if the fence in force is met by the items it holds (R170). -/
def Path.refence (p : Path) (fence : Nat) : Path :=
  if fenceReached fence p.batch.items.length then p.closeBatch else p

/-- The rotation count is brought down to N (R167). -/
def Path.rotateTo (p : Path) (n : Nat) : Path := { p with sPort := { p.sPort with rotation := min p.sPort.rotation n } }

/-- The data path takes another settings record: the frames that have been made or begun keep their EtherType and address
(R186, R202), the rotation count is brought down to N (R167), the fence meets the open batch (R170). -/
def Path.withSettings (p : Path) (c : Control) (g : Settings) : Path :=
  ((p.keepFrames c g).rotateTo g.rotation).refence g.fence

/-- SET_SETTINGS (R186, R187, R29): a refused request changes nothing. -/
def execSetSettings (port : Port) (s : State) : Step :=
  .next (match s.headRequest port with
    | some ⟨n, src, .setSettings writes⟩ =>
      let old := s.ctl.tables.settings
      let new := writes.foldl Settings.write old
      if settingsGood writes then
        State.finish (State.answer { s with ctl := s.ctl.withSettings new, path := s.path.withSettings s.ctl new } port
          ⟨n, src, .setSettings writes⟩ (.done (.settings new)))
      else State.finish (s.answer port ⟨n, src, .setSettings writes⟩ (.refuseWith .badValue (.settings old)))
    | _ => s)

end Sys2Proof.Machine
end

