-- ==== Sys2Proof/Machine/Dispatch.lean ====
section
/-! DEFINITION. One arm for each command. -/

namespace Sys2Proof.Machine

open Sys2Proof

/-- What a command does to everything but the queue of commands. -/
def exec (i : Instr) (s : State) : Host.Outcome State Fault Refusal :=
  match i with
  | .coldReset => Sys2Proof.Machine.execColdReset s
  | .reservedPageClearingComplete => Sys2Proof.Machine.execReservedPageClearingComplete s
  | .sPortCarrierDown => Sys2Proof.Machine.execSPortCarrierDown s
  | .sPortCarrierUp => Sys2Proof.Machine.execSPortCarrierUp s
  | .lossTimerExpiry => Sys2Proof.Machine.execLossTimerExpiry s
  | .iPortCarrierDown => Sys2Proof.Machine.execIPortCarrierDown s
  | .iPortCarrierUp => Sys2Proof.Machine.execIPortCarrierUp s
  | .openParcel port source branch stream mode endMode expected => Sys2Proof.Machine.execOpen port source branch stream mode endMode expected s
  | .dataParcel port source branch stream seq payload => Sys2Proof.Machine.execData port source branch stream seq payload s
  | .closeParcel port source branch stream final total => Sys2Proof.Machine.execClose port source branch stream final total s
  | .abortParcel port source branch stream => Sys2Proof.Machine.execAbort port source branch stream s
  | .mgmtParcel port source number request => Sys2Proof.Machine.execMgmt port source number request s
  | .storeAnswer port tag serial verdict => Sys2Proof.Machine.execStoreAnswer port tag serial verdict s
  | .passThroughFrame port frame => Sys2Proof.Machine.execPassThrough port frame s
  | .fcsErrorFrame port => Sys2Proof.Machine.execFcsError port s
  | .malformedFrame port => Sys2Proof.Machine.execMalformed port s
  | .wrongDirectionFrame port => Sys2Proof.Machine.execWrongDirection port s
  | .identify port => Sys2Proof.Machine.execIdentify port s
  | .readStatus port => Sys2Proof.Machine.execReadStatus port s
  | .clearFlags port => Sys2Proof.Machine.execClearFlags port s
  | .readCounters port => Sys2Proof.Machine.execReadCounters port s
  | .setSettings port => Sys2Proof.Machine.execSetSettings port s
  | .setGeometry port => Sys2Proof.Machine.execSetGeometry port s
  | .mapGroup port => Sys2Proof.Machine.execMapGroup port s
  | .unmapGroup port => Sys2Proof.Machine.execUnmapGroup port s
  | .setExclusion port => Sys2Proof.Machine.execSetExclusion port s
  | .loadTable port => Sys2Proof.Machine.execLoadTable port s
  | .readTable port => Sys2Proof.Machine.execReadTable port s
  | .swapBanks port => Sys2Proof.Machine.execSwapBanks port s
  | .setDate port => Sys2Proof.Machine.execSetDate port s
  | .nudge port => Sys2Proof.Machine.execNudge port s
  | .setHold port => Sys2Proof.Machine.execSetHold port s
  | .retire port => Sys2Proof.Machine.execRetire port s
  | .retireItem port index => Sys2Proof.Machine.execRetireItem port index s
  | .sweepNow port => Sys2Proof.Machine.execSweepNow port s
  | .setContainerBase port => Sys2Proof.Machine.execSetContainerBase port s
  | .sealContainers port => Sys2Proof.Machine.execSealContainers port s
  | .setMode port => Sys2Proof.Machine.execSetMode port s
  | .restoreEntries port => Sys2Proof.Machine.execRestoreEntries port s
  | .restoreItem port index => Sys2Proof.Machine.execRestoreItem port index s
  | .readEntry port => Sys2Proof.Machine.execReadEntry port s
  | .readStream port => Sys2Proof.Machine.execReadStream port s
  | .forceEnd port => Sys2Proof.Machine.execForceEnd port s
  | .setManagementSources port => Sys2Proof.Machine.execSetManagementSources port s
  | .warmReset port => Sys2Proof.Machine.execWarmReset port s
  | .warmResetComplete => Sys2Proof.Machine.execWarmResetComplete s
  | .warmUpExpiry slot => Sys2Proof.Machine.execWarmUpExpiry slot s
  | .hotListLoadComplete branch => Sys2Proof.Machine.execHotListLoadComplete branch s
  | .hotListRewriteComplete branch => Sys2Proof.Machine.execHotListRewriteComplete branch s
  | .lingerExpiry slot => Sys2Proof.Machine.execLingerExpiry slot s
  | .gapTick => Sys2Proof.Machine.execGapTick s
  | .secondsTick => Sys2Proof.Machine.execSecondsTick s
  | .takeByte slot => Sys2Proof.Machine.execTakeByte slot s
  | .digestComplete slot => Sys2Proof.Machine.execDigestComplete slot s
  | .lookup slot ordinal => Sys2Proof.Machine.execLookup slot ordinal s
  | .placementRequest slot ordinal => Sys2Proof.Machine.execPlacementRequest slot ordinal s
  | .lookupResult slot ordinal => Sys2Proof.Machine.execLookupResult slot ordinal s
  | .refBatchTimerExpiry => Sys2Proof.Machine.execRefBatchTimerExpiry s
  | .tagGrant => Sys2Proof.Machine.execTagGrant s
  | .sPortTransmitDone => Sys2Proof.Machine.execSPortTransmitDone s
  | .iPortTransmitDone => Sys2Proof.Machine.execIPortTransmitDone s
  | .answerTimerExpiry tag => Sys2Proof.Machine.execAnswerTimerExpiry tag s
  | .resendDue tag => Sys2Proof.Machine.execResendDue tag s
  | .chunkAcceptAtBucket slot => Sys2Proof.Machine.execChunkAcceptAtBucket slot s
  | .chunkFailAtBucket slot => Sys2Proof.Machine.execChunkFailAtBucket slot s
  | .releaseOutcomeAtBucket address => Sys2Proof.Machine.execReleaseOutcomeAtBucket address s
  | .sweeperVisit => Sys2Proof.Machine.execSweeperVisit s
  | .groupInitialisationComplete group => Sys2Proof.Machine.execGroupInitialisationComplete group s
  | .bankCopyComplete => Sys2Proof.Machine.execBankCopyComplete s

end Sys2Proof.Machine
end

