-- ==== Sys2Proof/Machine/Step.lean ====
section
/-! DEFINITION. One step of the part: the command at the front of the queue, or one idle REFCLK period. -/

namespace Sys2Proof.Machine

open Sys2Proof

/-- One REFCLK period in which nothing happens (log 2). -/
def State.idle (s : State) : State := { s with ctl := { s.ctl with now := s.ctl.now + 1 } }

/-- One step: the front command acts on the state with the rest of the queue; on an empty queue the part idles. -/
def step (s : State) : Host.Outcome State Fault Refusal :=
  match s.pending with
  | c :: rest => exec c { s with pending := rest }
  | [] => .next s.idle

/-- The state with the command a word spells at the front of its queue; unchanged where the word spells none. -/
def State.withFetchWord (s : State) (nbits w : Nat) : State :=
  match decodeTableWord nbits w with
  | some c => { s with pending := c :: s.pending }
  | none => s

end Sys2Proof.Machine
end

