-- ==== Sys2Proof/Machine/Formats.lean ====
section
/-! DEFINITION. The frames the part makes (R202 to R206): notices, replies with their results; and what each port is
sending. No command reads these: they are the part's outputs as views of the state. -/

namespace Sys2Proof.Machine

open Sys2Proof

/-! ## Pieces of a coding -/

/-- A field that may be absent: a presence byte, then the field, written as n zero bytes where it is absent (R202). -/
def presence {α : Type} (n : Nat) (write : α → List Byte) : Option α → List Byte
  | some a => 1 :: write a
  | none => 0 :: List.replicate n 0

/-- A value of two that its rule names in a list, such as set or clear, running or stopped: its position in the list,
from 1 (R203). -/
def position (first : Bool) : List Byte := Wire.num 1 (if first then 1 else 2)

/-- An Ethernet address. -/
def macBytes (a : Mac) : List Byte := Wire.num 6 a.toNat

/-! ## Notices (R204) -/

/-- The reason code of an OPEN REPLY (R204). -/
def OpenReason.code : OpenReason → Nat
  | .accepted => 0
  | .wrongMode => 1
  | .badValue => 2
  | .branchDisabled => 3
  | .branchLimit => 4
  | .tableFull => 5
  | .duplicateStream => 6
  | .verifyNotAllowed => 7

/-- The code of a termination class (R204). -/
def EndClass.code : EndClass → Nat
  | .normal => 1
  | .abnormal => 2
  | .aborted => 3

/-- The code of a cause, 0 where there is none (R204). -/
def causeCode : Option Cause → Nat
  | none => 0
  | some .gap => 1
  | some .lengthMismatch => 2
  | some .storeLost => 3
  | some .noContainer => 4
  | some .forced => 5
  | some .short => 6
  | some .overlength => 7

/-- The code of a stream's mode (R204). -/
def StreamMode.code : StreamMode → Nat
  | .store => 1
  | .verify => 2

/-- The presence bits of a CLOSE SUMMARY (R204). -/
def CloseSummary.presenceBits (b : CloseSummary) : Nat :=
  (if b.mode = .verify then 1 else 0) + (if b.mode = .verify ∧ b.counts.firstMissing.isSome then 2 else 0) +
    (if b.cause = some .storeLost then 4 else 0)

/-- The 90 bytes of a CLOSE SUMMARY (R204). A field whose presence bit is clear is zero. -/
def CloseSummary.bytes (b : CloseSummary) : List Byte :=
  let verify := b.mode = .verify
  let point := if b.cause = some .storeLost then b.failPoint.getD (0, 0) else (0, 0)
  Wire.num 2 b.slot ++ Wire.num 1 b.endClass.code ++ Wire.num 1 (causeCode b.cause) ++
    Wire.num 1 b.presenceBits ++ Wire.num 1 b.mode.code ++ num6 b.bytesIn ++ num6 b.counts.chunks ++
    num6 b.counts.newChunks ++ num6 b.counts.newBytes ++ num6 b.counts.dupChunks ++ num6 b.counts.dupBytes ++
    num6 b.counts.unindexedChunks ++ num6 b.counts.unindexedBytes ++
    num6 (if verify then b.counts.found else 0) ++ num6 (if verify then b.counts.missing else 0) ++
    num6 (if verify then b.counts.firstMissing.getD 0 else 0) ++ num6 point.1 ++ num6 point.2 ++
    Wire.num 1 b.calendar.year ++ Wire.num 1 b.calendar.month ++ Wire.num 1 b.calendar.day ++ [0] ++
    Wire.num 2 b.calendar.dayNumber

/-- The kind code of a parcel that came too late (R202, R204). -/
def LateKind.code : LateKind → Nat
  | .data => 0x02
  | .close => 0x03
  | .abort => 0x04

/-- The parcel of a stream notice, with its destination (R204). -/
def Notice.parcel : Notice → Mac × List Byte
  | .openReply dest branch stream reason slot =>
    (dest, Wire.parcel 0x41 branch stream
      (Wire.num 1 (if reason = .accepted then 0 else 1) ++ Wire.num 1 reason.code ++ Wire.num 2 slot))
  | .summary dest b => (dest, Wire.parcel 0x43 b.branch b.stream b.bytes)
  | .late dest branch stream kind => (dest, Wire.parcel 0x44 branch stream (Wire.num 1 kind.code ++ [0]))

/-- The parcel of a PACE notice, with its destination (R204). -/
def PaceNotice.parcel (n : PaceNotice) : Mac × List Byte :=
  (n.dest, Wire.parcel 0x42 n.branch n.stream
    (Wire.num 2 n.slot ++ Wire.num 1 (if n.pace = .stop then 1 else 2) ++ [0]))

/-! ## Results of the replies (R202, R203, R206) -/

/-- The code of a status (R202). -/
def Status.code : Status → Nat
  | .done => 0
  | .doneAdjusted => 1
  | .notTaken => 2
  | .refused => 3

/-- The code of a reason, 0 where there is none (R202). -/
def reasonCode : Option Reason → Nat
  | none => 0
  | some .badValue => 1
  | some .wrongMode => 2
  | some .inUse => 3
  | some .busy => 4
  | some .notFound => 5
  | some .conflict => 6
  | some .excluded => 7
  | some .tooMany => 8

/-- A device mode (R192, R203). -/
def Mode.code : Mode → Nat
  | .cold => 1
  | .restoring => 2
  | .serving => 3

/-- A bank (R177, R203). -/
def BankId.code : BankId → Nat
  | .a => 1
  | .b => 2

/-- A group state, counted in R66's list (R203). -/
def GroupState.code : GroupState → Nat
  | .initialising => 2
  | .ready => 3

/-- A pass state (R117, R203). -/
def PassState.code : PassState → Nat
  | .idle => 1
  | .running => 2
  | .waiting => 3

/-- A link state (R159, R203). -/
def LinkState.code : LinkState → Nat
  | .up => 1
  | .down => 2
  | .lost => 3

/-- A context state, counted in R2's list, FREE being 1 (R203). -/
def CtxState.code : CtxState → Nat
  | .opening => 2
  | .active => 3
  | .draining => 4
  | .quiescing => 5
  | .linger => 6

/-- A chunker status, counted in R44's list (R203). -/
def ChunkerStatus.code : ChunkerStatus → Nat
  | .notStarted => 1
  | .running => 2
  | .starved => 3
  | .held => 4
  | .complete => 5
  | .stopped => 6

/-- A position of a pass: phase, bin, bucket, entry (R117). R117 gives a position of the BUCKETS phase no bin: that its bin is
written as 0, without a presence byte, is the model's (DESIGN CHOICE, log 42). -/
def SweepPos.bytes : SweepPos → List Byte
  | .buckets b e => Wire.num 1 1 ++ Wire.num 2 0 ++ Wire.num 3 b ++ Wire.num 1 e
  | .bins q b e => Wire.num 1 2 ++ Wire.num 2 q ++ Wire.num 3 b ++ Wire.num 1 e

/-- The next container id: a value, UNSET or EXHAUSTED (R139). -/
def NextId.bytes : NextId → List Byte
  | .id v => Wire.num 1 1 ++ num4 v
  | .unset => Wire.num 1 2 ++ num4 0
  | .exhausted => Wire.num 1 3 ++ num4 0

/-- The calendar's fields (R126). -/
def Calendar.bytes (c : Calendar) : List Byte :=
  num4 c.year ++ num4 c.month ++ num4 c.day ++ num4 c.seconds ++ Wire.num 2 c.dayNumber ++
    position c.isSet

/-- The settings record in the order of R186. The store address is written as a field that may be absent, absent while it is
UNSET (DESIGN CHOICE, log 47). -/
def Settings.bytes (g : Settings) : List Byte :=
  num4 g.etherType ++ presence 6 macBytes g.storeAddr ++ num4 g.gapSteps ++ num4 g.retryLimit ++
    Wire.num 1 (if g.retryAction = .persist then 1 else 2) ++ num4 g.fence ++ num4 g.rotation ++ num4 g.promotion ++
    num4 g.paceMargin ++ Wire.num 2 g.alertMask.toNat

/-- The state and id of a container slot (R138). -/
def slotBytes : Option (Bool × Nat) → List Byte
  | none => Wire.num 1 1 ++ presence 4 num4 none
  | some (sealing, id) => Wire.num 1 (if sealing then 3 else 2) ++ presence 4 num4 (some id)

/-- The results of READ STATUS, in the order of R198. Phase and position are one field that may be absent, absent while the
pass is IDLE (log 42). R198 names the request queue depths together: that the I-port's comes before the
S-port's is the model's (DESIGN CHOICE, log 33). -/
def StatusReport.bytes (r : StatusReport) : List Byte :=
  Wire.num 1 r.mode.code ++ Wire.num 2 r.flags.toNat ++ Wire.list macBytes r.sources ++ Wire.num 1 r.iDepth ++
    Wire.num 1 r.sDepth ++ r.calendar.bytes ++ Wire.num 2 r.freeBlocks ++ Wire.num 2 r.petInUse ++
    r.contexts.flatMap (Wire.num 2) ++ num4 r.geometry ++ Wire.num 3 r.initialising ++ Wire.num 3 r.ready ++
    Wire.num 1 r.pass.code ++ presence 7 SweepPos.bytes (if r.pass = .idle then none else some r.pos) ++
    position r.restart ++ Wire.num 2 r.releaseItems ++ r.slots.flatMap slotBytes ++ Wire.num 1 r.sealing ++
    r.nextId.bytes ++ Wire.num 1 r.inflight ++ Wire.num 1 r.link.code ++ Wire.num 1 r.active.code ++
    Wire.num 1 (if r.copying then 2 else 1) ++ r.settings.bytes

/-- The state code of an entry image (R206). -/
def EntryState.code : EntryState → Nat
  | .pending => 1
  | .live => 2
  | .releasing => 3

/-- The entry image and its location, 72 bytes (R206). -/
def EntryReport.bytes (r : EntryReport) : List Byte :=
  let e := r.entry
  Wire.num 16 e.fp.toNat ++ num4 e.check.toNat ++ Wire.num 1 e.state.code ++
    Wire.num 1 ((if e.collided then 1 else 0) + (if e.restored then 2 else 0)) ++ Wire.num 2 e.holds.toNat ++
    num4 e.container ++ num4 e.offset ++ num4 e.length ++ Wire.num 2 e.count ++ Wire.num 2 e.untilDay ++
    Wire.num 2 e.firstBranch ++ List.replicate 22 0 ++ num4 r.address ++ Wire.flag r.inBin ++ Wire.flag r.mark ++
    Wire.num 2 (r.pet.getD 0xFFFF)

/-- A context's fields, in the order of R199. Of the summary counters, R2 has all 0 at open but the first missing ordinal,
and R21 calls found and missing absent for a STORE stream: that READ STREAM writes these two for every context as plain counts,
without a presence byte, and so as 0 for a STORE stream, is the model's (DESIGN CHOICE, log 33). -/
def Context.streamBytes (x : Context) : List Byte :=
  Wire.num 2 x.branch ++ Wire.num 1 x.stream ++ macBytes x.source ++ Wire.num 1 x.state.code ++
    Wire.num 1 x.mode.code ++ presence 1 (fun m => Wire.num 1 (if m = EndMode.count then 1 else 2)) x.endMode ++
    presence 4 num4 x.expected ++ Wire.policyRow (PolicyEntry.row x.policy) ++ num4 x.holdTag ++ num4 x.quota ++
    num4 x.expectedSeq ++ presence 4 num4 x.final ++ presence 6 num6 x.total ++ num6 x.inOrder ++
    Wire.flag x.closePending ++ Wire.list (fun e : Early => num4 e.seq) x.reorder ++ Wire.num 1 x.gapCount ++
    num6 x.dupCount ++ num6 x.overflowCount ++ num6 x.overrunCount ++
    Wire.num 1 (if x.pace = .stop then 1 else 2) ++ Wire.num 2 x.held ++ num6 x.releasePoint ++
    Wire.num 1 x.chunker.status.code ++ num4 x.chunker.h.toNat ++ Wire.num 3 x.chunker.n ++ num6 x.chunker.start ++
    num6 x.chunker.nextOrdinal ++ Wire.flag x.chunker.ended ++ num6 x.unanswered ++ num6 x.summary.chunks ++
    num6 x.summary.newChunks ++ num6 x.summary.newBytes ++ num6 x.summary.dupChunks ++ num6 x.summary.dupBytes ++
    num6 x.summary.unindexedChunks ++ num6 x.summary.unindexedBytes ++ num6 x.summary.found ++
    num6 x.summary.missing ++ presence 6 num6 x.summary.firstMissing ++
    presence 1 (fun k : EndClass => Wire.num 1 k.code) x.endClass ++
    presence 1 (fun k : Cause => Wire.num 1 (causeCode (some k))) x.cause ++
    presence 12 (fun f : Nat × Nat => num6 f.1 ++ num6 f.2) x.failPoint ++ position x.warmUp.isSome ++
    position x.linger.isSome

/-- The outcome-queue figures (R85, R199). -/
def QueueFigures.bytes (q : QueueFigures) : List Byte :=
  Wire.num 1 q.held ++ presence 6 num6 q.head ++ Wire.num 1 q.issued ++ Wire.num 1 q.resolved

/-- The position of a RETIRE answer in R113's table (R203). -/
def RetireAnswer.code : RetireAnswer → Nat
  | .notFound => 1
  | .busy => 2
  | .pinned => 3
  | .done => 4
  | .underflow => 5

/-- The position of a RESTORE ENTRIES answer in R81's table (R203). -/
def RestoreAnswer.code : RestoreAnswer → Nat
  | .unmapped => 1
  | .duplicate => 2
  | .full => 3
  | .inserted => 4

/-- A result of SWEEP NOW (R118, R203). -/
def SweepResult.code : SweepResult → Nat
  | .started => 1
  | .marked => 2
  | .alreadyMarked => 3

/-- The numbers of items answered each way, by the codes from 1 to n (R82, R112). -/
def eachWay (n : Nat) (codes : List Nat) : List Byte :=
  (List.range n).flatMap fun k => Wire.num 1 ((codes.filter (· = k + 1)).length)

/-- Entries of a table, with their count. -/
def TableRows.bytes : TableRows → List Byte
  | .policies rows => Wire.list (fun e => Wire.policyRow (PolicyEntry.row e)) rows
  | .branches rows => Wire.list (fun e => Wire.branchRow (BranchEntry.row e)) rows
  | .gears values => Wire.list (fun v : Word32 => num4 v.toNat) values

/-- The family code, the silicon revision and the capacities (R197). -/
def identityBytes : List Byte :=
  Wire.num 2 0x4248 ++ Wire.num 1 3 ++ Wire.num 2 384 ++ Wire.num 2 2048 ++ Wire.num 1 32 ++ Wire.num 2 4096 ++
    Wire.num 1 8 ++ Wire.num 2 8192 ++ Wire.num 1 8 ++ Wire.num 3 131072 ++ Wire.num 1 16 ++ Wire.num 1 24 ++
    Wire.num 1 15 ++ Wire.num 2 256 ++ Wire.num 1 8 ++ Wire.num 1 8 ++ Wire.num 1 64 ++ Wire.num 1 32 ++
    Wire.num 2 4096 ++ Wire.num 1 4 ++ Wire.num 1 2 ++ Wire.num 1 8

/-- The results of a reply (R202, R203; logs 30 to 33). R203 gives no coding for the active flags of all 15 tags that a SET
HOLD reply carries (R110), which are no hold set of an entry: that they are a 16-bit mask, bit t set for an active tag t and
bit 0 zero, is the model's (DESIGN CHOICE, log 32). -/
def Result.bytes : Result → List Byte
  | .none => []
  | .identity => identityBytes
  | .status r => r.bytes
  | .flags mask => Wire.num 2 mask.toNat
  | .counters values => values.flatMap fun v => num6 v ++ Wire.flag (decide (v = max48))
  | .settings r => r.bytes
  | .geometry m => num4 m
  | .group state page => Wire.num 1 state.code ++ num4 page
  | .groupNumber g => num4 g
  | .rows r => r.bytes
  | .bankRows active r => r.bytes ++ Wire.num 1 active.code
  | .bank active => Wire.num 1 active.code
  | .calendar c => c.bytes
  | .nudged amount c => Wire.signed amount ++ c.bytes
  | .holds mask => Wire.num 2 mask.toNat
  | .retired l =>
    Wire.list (fun a : RetireAnswer × Option Nat => Wire.num 1 a.1.code ++ presence 2 (Wire.num 2) a.2) l ++
      eachWay 5 (l.map fun a => a.1.code)
  | .sweep r => Wire.num 1 r.code
  | .nextId id => id.bytes
  | .containers ids => Wire.list num4 ids
  | .mode m => Wire.num 1 m.code
  | .missing conditions m => Wire.num 2 conditions.toNat ++ Wire.num 1 m.code
  | .restored l => Wire.list (fun a : RestoreAnswer => Wire.num 1 a.code) l ++ eachWay 4 (l.map RestoreAnswer.code)
  | .entry r => r.bytes
  | .stream _ c figures => c.streamBytes ++ figures.bytes
  | .sources l => Wire.list macBytes l

/-- The MGMT REPLY of a reply, with its destination (R189, R202). -/
def Reply.parcel (r : Reply) : Mac × List Byte :=
  (r.dest, Wire.parcel 0x45 0 0
    (Wire.num 2 r.number ++ Wire.num 1 r.kind ++ Wire.num 1 r.status.code ++ Wire.num 1 (reasonCode r.reason) ++
      [0] ++ r.result.bytes))

/-! ## What each port is sending (R202) -/

/-- The frames, without FCS, of an item of the S-port under some settings; store messages go to the store address (R186). A
frame forwarded is unchanged (R175). Of a message that has left SENDING while it was sent, the frames that had been begun
are all (R163). -/
def SItem.frames (p : Path) (g : Settings) : SItem → List (List Byte)
  | .frame bytes => [bytes]
  | .reply r => [framed sPortAddress (r.etherType.getD g.etherType) r.parcel]
  | .message tag serial => p.messageFrames g tag serial
  | .part made (some (tag, serial)) => made ++ (p.messageFrames g tag serial).drop made.length
  | .part made none => made

/-- The frame, without FCS, of an item of the I-port under some settings. -/
def IItem.frames (g : Settings) : IItem → List (List Byte)
  | .frame bytes => [bytes]
  | .reply r => [framed iPortAddress (r.etherType.getD g.etherType) r.parcel]
  | .notice n e => [framed iPortAddress (e.getD g.etherType) n.parcel]
  | .pace n => [framed iPortAddress (n.etherType.getD g.etherType) n.parcel]

/-- The frames of the item the S-port is sending. -/
def State.sLanes (s : State) : List (List Byte) :=
  match s.path.sPort.tx with
  | some x => x.frames s.path s.ctl.tables.settings
  | none => []

/-- The frames of the item the I-port is sending. -/
def State.iLanes (s : State) : List (List Byte) :=
  match s.path.iPort.tx with
  | some x => x.frames s.ctl.tables.settings
  | none => []

end Sys2Proof.Machine
end

