-- ==== Sys2Proof/Safety.lean ====
section
/-! DEFINITION. What statements speak of: the parts of the state a command leaves alone, a reply on its way, and the
properties that every step keeps. -/

namespace Sys2Proof.Machine

open Sys2Proof

/-! ## Frames -/

/-- The data path with a context in a slot. -/
def Path.withCtx (p : Path) (slot : Nat) (x : Context) : Path := { p with contexts := tabSet p.contexts slot x }


/-- The data path without its transmitters, request queues and counters: contexts, flags, PET, Locator Cache,
operations on their way, sweeper, allocator, store link, open REF batch, end-of-records marks, warm reset. -/
def Path.core (p : Path) : Path := { p with counters := [], sPort := {}, iPort := {}, iQueue := {}, sQueue := {} }

/-- Two data paths with the same counters, but for those of a list. -/
def Path.countersKept (p q : Path) (but : List Counter) : Prop := ∀ c, c ∉ but → q.counter c = p.counter c

/-- An item is being sent by the S-port, or stands in the SIDE FIFO or its hold list. -/
def Path.sHas (p : Path) (x : SItem) : Prop :=
  p.sPort.tx = some x ∨ (∃ time, (time, x) ∈ p.sPort.fifo) ∨ x ∈ p.sPort.hold

/-- An item is being sent by the I-port, or stands in the notice FIFO or its hold list. -/
def Path.iHas (p : Path) (x : IItem) : Prop := p.iPort.tx = some x ∨ x ∈ p.iPort.fifo ∨ x ∈ p.iPort.hold

/-- A store message is being sent by the S-port, or its tag stands in DATA (R164). -/
def Path.dataHas (p : Path) (tag : Nat) : Prop :=
  (∃ serial, p.sPort.tx = some (.message tag serial)) ∨ tag ∈ p.sPort.resend ∨ tag ∈ p.sPort.chunkQ ∨
    tag ∈ p.sPort.refQ

/-! ## Replies and grants, written out for the statements -/

/-- A reply takes a place in its port's FIFO: the request it answers leaves its queue, and the next becomes the head (R191,
R202). -/
def Path.replyPlaced (p : Path) (r : Reply) : Path :=
  match r.answers with
  | some port => p.setQueue port ⟨(p.queue port).reqs.tail, .waiting⟩
  | none => p

/-- A reply waits in a hold list: the request it answers stays at the head of its queue (R191). -/
def Path.replyWaits (p : Path) (r : Reply) : Path :=
  match r.answers with
  | some port => p.setQueue port { p.queue port with head := .replying }
  | none => p

/-- A reply is handed to its port (R166, R174, R191): it joins the tail of the FIFO where that has a place and holds nothing
back, and else the tail of the hold list. -/
def Path.handed (p : Path) (now : Nat) (port : Port) (r : Reply) : Path :=
  match port with
  | .i =>
    if p.iPort.hold = [] ∧ p.iPort.fifo.length < 64 then
      Path.replyPlaced { p with iPort := { p.iPort with fifo := p.iPort.fifo ++ [.reply r] } } r
    else Path.replyWaits { p with iPort := { p.iPort with hold := p.iPort.hold ++ [.reply r] } } r
  | .s =>
    if p.sPort.hold = [] ∧ p.sPort.fifo.length < 64 then
      Path.replyPlaced { p with sPort := { p.sPort with fifo := p.sPort.fifo ++ [(now, .reply r)] } } r
    else Path.replyWaits { p with sPort := { p.sPort with hold := p.sPort.hold ++ [.reply r] } } r

/-- A request has been handled: it is counted, and its reply is handed to its port (R189, R196). -/
def Path.replied (p : Path) (now : Nat) (port : Port) (r : Req) (a : Answer) : Path :=
  (p.bump .requestsHandled 1).handed now port (r.reply (some port) a)

/-- An item of SIDE takes a place: a reply among them is a reply placed. -/
def SItem.placed (p : Path) : SItem → Path
  | .reply r => p.replyPlaced r
  | _ => p

/-- An item of the notice FIFO takes a place: a reply among them is a reply placed. -/
def IItem.placed (p : Path) : IItem → Path
  | .reply r => p.replyPlaced r
  | _ => p

/-- The oldest item of SIDE's hold list takes a place: it joins the FIFO's tail with the time (R166). -/
def Path.placedS (p : Path) (now : Nat) (y : SItem) (rest : List SItem) : Path :=
  SItem.placed { p with sPort := { p.sPort with fifo := p.sPort.fifo ++ [(now, y)], hold := rest } } y

/-- The oldest item of the notice FIFO's hold list takes a place: it joins the FIFO's tail (R174). -/
def Path.placedI (p : Path) (y : IItem) (rest : List IItem) : Path :=
  IItem.placed { p with iPort := { p.iPort with fifo := p.iPort.fifo ++ [y], hold := rest } } y

/-- DATA holds no store message (R164). -/
def SPort.noData (q : SPort) : Prop := q.resend = [] ∧ q.chunkQ = [] ∧ q.refQ = []

/-- DATA's next message is that of a tag, and `q` is the S-port without it (R164, R165): of the resend set the one issued
first, else the head of the CHUNK queue or of the REF queue, of two the one that the alternation mark names; the mark then
names the other queue. -/
def Path.dataNext (p : Path) (tag : Nat) (q : SPort) : Prop :=
  let d := p.sPort
  tag ∈ d.resend ∧ q = { d with resend := d.resend.erase tag } ∧
      (∀ before m after, p.link.inflight = before ++ m :: after → m.tag ∈ d.resend → (∀ o ∈ before, o.tag ∉ d.resend) →
        tag = m.tag) ∨
    d.resend = [] ∧ (∃ rest, d.chunkQ = tag :: rest ∧ (d.refQ = [] ∨ d.mark = .chunk) ∧
      q = { d with chunkQ := rest, mark := .ref }) ∨
    d.resend = [] ∧ ∃ rest, d.refQ = tag :: rest ∧ (d.chunkQ = [] ∨ d.mark = .ref) ∧
      q = { d with refQ := rest, mark := .chunk }

/-- An item that joined SIDE at a time is due for promotion: the promotion time is set, and the item has waited for longer
(R168). -/
def Control.promotes (c : Control) (time : Nat) : Prop :=
  c.tables.settings.promotion ≠ 0 ∧ time + 2500 * c.tables.settings.promotion < c.now

/-- The rotation gives SIDE its turn: N is at least 1 and the rotation count is N (R167). -/
def SPort.sideTurn (q : SPort) (c : Control) : Prop :=
  1 ≤ c.tables.settings.rotation ∧ c.tables.settings.rotation ≤ q.rotation

/-- What an idle S-port with its carrier takes (R163, R167, R168): the head of SIDE where it is due for promotion, where DATA
is empty, or at its turn, which makes the rotation count 0, a promotion being counted where DATA would have been next; else
DATA's next message, under the serial of its latest issue, which raises the rotation count up to N. -/
def Path.grantedS (c : Control) (p q : Path) : Prop :=
  (∃ time x rest, p.sPort.fifo = (time, x) :: rest ∧ (c.promotes time ∨ p.sPort.noData ∨ p.sPort.sideTurn c) ∧
    let sent : Path := { p with sPort := { p.sPort with tx := some x, fifo := rest, rotation := 0 } }
    (c.promotes time ∧ ¬ p.sPort.noData ∧ ¬ p.sPort.sideTurn c ∧ q = sent.bump .sidePromotions 1 ∨
      ¬ (c.promotes time ∧ ¬ p.sPort.noData ∧ ¬ p.sPort.sideTurn c) ∧ q = sent)) ∨
  (∀ time x rest, p.sPort.fifo = (time, x) :: rest → ¬ c.promotes time ∧ ¬ p.sPort.sideTurn c) ∧
    ∃ tag serial d, p.dataNext tag d ∧ (∀ m, p.message tag = some m → serial = m.serial) ∧
      q = { p with sPort := { d with
        tx := some (.message tag serial), rotation := min c.tables.settings.rotation (d.rotation + 1) } }

/-- What an idle I-port with its carrier takes: the oldest PACE notice, else the head of the notice FIFO (R173). -/
def Path.grantedI (p q : Path) : Prop :=
  (∃ n rest, p.iPort.pace = n :: rest ∧ q = { p with iPort := { p.iPort with tx := some (.pace n), pace := rest } }) ∨
  p.iPort.pace = [] ∧ ∃ x rest, p.iPort.fifo = x :: rest ∧
    q = { p with iPort := { p.iPort with tx := some x, fifo := rest } }

/-- A request of a kind the part knows (R189, R202). -/
def Request.known : Request → Bool
  | .unknown _ => false
  | _ => true

/-- One of the things that every command may end with: an idle transmitter with its carrier takes what is next; the oldest
item of a hold list takes a place that is free, and joins the FIFO's tail with the time (R166, R174); a request of an unknown
kind at the head of its queue is answered (R189, log 13). Counters that read alike are the same. -/
inductive Passing (c : Control) (x : Index) (p : Path) : Path → Prop where
  | grantS (q : Path) : p.sPort.carrier = true → p.sPort.tx = none → p.grantedS c q → Passing c x p q
  | grantI (q : Path) : p.iPort.carrier = true → p.iPort.tx = none → p.grantedI q → Passing c x p q
  | placeS (y : SItem) (rest : List SItem) : p.sPort.hold = y :: rest → p.sPort.fifo.length < 64 →
      Passing c x p (p.placedS c.now y rest)
  | placeI (y : IItem) (rest : List IItem) : p.iPort.hold = y :: rest → p.iPort.fifo.length < 64 →
      Passing c x p (p.placedI y rest)
  | unknown (port : Port) (r : Req) (rest : List Req) : p.handling x = true → p.queue port = ⟨r :: rest, .waiting⟩ →
      Request.known r.request = false → Passing c x p (p.replied c.now port r (.refuse .badValue))
  | recount (l : Tab Nat) : (∀ k, Path.counter { p with counters := l } k = p.counter k) →
      Passing c x p { p with counters := l }

/-- From one data path to another, only what every command may end with has happened, one thing after another. -/
inductive Passes (c : Control) (x : Index) (p : Path) : Path → Prop where
  | refl : Passes c x p p
  | step (q r : Path) : Passes c x p q → Passing c x q r → Passes c x p r

/-- The command completes, and its next state is `u` but for what every command may end with. That all items of `u` have
joined before an idle transmitter takes one is the model's choice (log 46). -/
def Completes (c : Instr) (s u : State) : Prop :=
  ∃ t, exec c s = .next t ∧ t.pending = s.pending ∧ t.ctl = u.ctl ∧ t.idx = u.idx ∧ Passes u.ctl u.idx u.path t.path

/-- The command of a port's head request completes: its next state is `u` with the request counted as handled and its reply
handed to the port, but for what every command may end with. So the request has left its queue if the reply has taken a place
in the FIFO, and stays at the head while the reply waits in the hold list. -/
def Replies (c : Instr) (s u : State) (port : Port) (r : Req) (a : Answer) : Prop :=
  Completes c s { u with path := u.path.replied u.ctl.now port r a }

/-- The command completes as `u`, the requests for tags that then wait on a LOST link having failed, oldest first (R161,
`Path.drainLost`): where the link is not LOST, or none waits, that is `u` itself. That they fail after the rest of the command
is the model's choice (log 45). -/
def CompletesDrained (c : Instr) (s u : State) : Prop :=
  Completes c s { u with path := Path.drainLost u.ctl u.idx u.path.tagWork u.path }

/-- The command of a port's head request completes as `u` with the request answered, the requests for tags that then wait on a
LOST link having failed (R161; log 45). -/
def RepliesDrained (c : Instr) (s u : State) (port : Port) (r : Req) (a : Answer) : Prop :=
  CompletesDrained c s { u with path := u.path.replied u.ctl.now port r a }

/-- Nothing that every command may end with changes a port's queue: a head that waits to be taken is of a kind the part knows,
and no hold list holds a reply to the queue's head. -/
def Path.steady (p : Path) (port : Port) : Prop :=
  (∀ r, (p.queue port).head = .waiting → (p.queue port).reqs.head? = some r → Request.known r.request = true) ∧
    ∀ r : Reply, .reply r ∈ p.sPort.hold ∨ .reply r ∈ p.iPort.hold → r.answers ≠ some port

/-- The command completes as `u`, and where nothing it may end with changes the port's queue, that is `u`'s queue. -/
def CompletesAtQueue (c : Instr) (s u : State) (port : Port) : Prop :=
  Completes c s u ∧
    (s.path.steady port → ∃ t, exec c s = .next t ∧ t.path.queue port = u.path.queue port)

/-! ## How streams end, written out for the statements -/

/-- The class and cause with which a stream in DRAINING ends (R12): a declared total that differs from the bytes received is
LENGTH_MISMATCH, fewer chunks than a VERIFY stream in COUNT end mode expects is SHORT, and anything else is NORMAL. -/
def Context.verdict (x : Context) : EndClass × Option Cause :=
  let short : Bool := x.mode == .verify && x.endMode == some .count &&
    x.expected.any fun n => decide (x.chunker.nextOrdinal < n)
  if x.total ≠ some x.inOrder then (.abnormal, some .lengthMismatch)
  else if short then (.abnormal, some .short)
  else (.normal, none)

/-- The end of a stream with a class and a cause (R21, R22, R43, R107): the CLOSE SUMMARY, the counter of the class, a
rewrite of the branch's hot list for a STORE stream that ends NORMAL with a sight list of at least 256, LINGER with its timer
running, no unsent PACE notice. That an unsent STOP goes too at the end of DRAINING is the model's choice (log 43). -/
def Path.ends (p : Path) (c : Control) (slot : Nat) (x : Context) (verdict : EndClass × Option Cause) : Path :=
  let summary : CloseSummary :=
    ⟨slot, x.branch, x.stream, x.mode, verdict.1, verdict.2, x.inOrder, x.summary, x.failPoint, c.calendar⟩
  let counter : Counter := match verdict.1 with
    | .normal => .streamsNormal
    | .abnormal => .streamsAbnormal
    | .aborted => .streamsAborted
  let told := (p.sendNotice (.summary x.source summary)).bump counter 1
  let rewrites : List HotOp :=
    if x.mode = .store ∧ verdict.1 = .normal ∧ 256 ≤ x.sight.length then [.rewrite x.branch x.sight] else []
  let y := { x with
    state := .linger, endClass := some verdict.1, cause := verdict.2, window := [], reorder := [], chunks := []
    warmUp := none
    linger := some (c.now + 25000 * (100 * if x.policy.linger = 0 then 16 else x.policy.linger)) }
  Path.dropPace (Path.withCtx { told with hotOps := told.hotOps ++ rewrites } slot y) slot

/-- The Chunker at the signalled end of its stream (R50): the bytes of the current chunk, if it holds any, are cut, and the
Chunker is COMPLETE. -/
def Context.finished (x : Context) : Context :=
  let k := x.chunker
  if k.n = 0 then { x with completed := true, chunker := { k with status := .complete } }
  else { x with
    completed := true
    queue := x.queue ++ [{ ordinal := k.nextOrdinal, offset := k.start, length := k.n }]
    chunks := x.chunks ++ [{ ordinal := k.nextOrdinal, stop := k.start + k.n, settled := false }]
    chunker := { k with
      status := .complete, h := 0, n := 0, start := k.start + k.n, nextOrdinal := k.nextOrdinal + 1 } }

/-- The open REF batch becomes a message that asks for a tag (R170). -/
def Path.batchClosed (p : Path) : Path :=
  Path.bump { p with
    batch := {}, link := { p.link with waiting := p.link.waiting ++ [.message (.refs p.batch.items)] } } .refBatchesMade 1

/-- What a context that may be done comes to. In DRAINING or QUIESCING, with its Chunker COMPLETE and its queue empty, its
records have ended, once: the slot is marked, and an open batch that holds an item of it closes (R12, R100, R172). Then a
stream in DRAINING ends that has N parcels, a COMPLETE Chunker, no item, no byte unsettled and no record unanswered (R12), and
one in QUIESCING with no item and no record unanswered (R15). -/
def Path.endsIfDone (p : Path) (c : Control) (slot : Nat) : Path :=
  match tabGet p.contexts slot with
  | none => p
  | some x =>
    let recorded := x.completed = true ∧ x.queue = [] ∧ (x.state = .draining ∨ x.state = .quiescing) ∧ slot ∉ p.eor
    let marked : Path := { p with eor := slot :: p.eor }
    let q := if recorded then (if ∃ i ∈ p.batch.items, i.slot = slot then marked.batchClosed else marked) else p
    if x.state = .draining ∧ x.final = some x.expectedSeq ∧ x.chunker.status = .complete ∧ x.queue = [] ∧
        x.releasePoint = x.inOrder ∧ x.unanswered = 0 then q.ends c slot x x.verdict
    else if x.state = .quiescing ∧ x.queue = [] ∧ x.unanswered = 0 then
      q.ends c slot x (x.endClass.getD .abnormal, x.cause)
    else q

/-- A context as it enters QUIESCING with a class and a cause that has no fail point (R13, R14, R39): it keeps the items whose
lookups have been issued with their bytes, which end where the last of them ends, and gives up the others with its reorder
list; its warm-up timer stops and its Chunker is STOPPED. -/
def Context.parked (x : Context) (cls : EndClass) (cause : Option Cause) : Context :=
  let chunks := x.chunks.filter fun k => decide (k.ordinal < x.firstUnissued)
  let stop := (chunks.getLast?.map (·.stop)).getD x.releasePoint
  { x with
    state := .quiescing, endClass := some cls, cause := cause, failPoint := none, reorder := [], warmUp := none
    queue := x.queue.filter (fun i => i.issued), window := x.window.take (stop - x.releasePoint), chunks := chunks
    chunker := { x.chunker with status := .stopped } }

/-- The records of a slot have ended: its end-of-records mark is set, unless it stands, and an open batch that holds an item of
it closes (R12, R172). -/
def Path.recordsEnd (p : Path) (slot : Nat) : Path :=
  if slot ∈ p.eor then p
  else
    let marked : Path := { p with eor := slot :: p.eor }
    if ∃ i ∈ p.batch.items, i.slot = slot then marked.batchClosed else marked

/-! ## What answers to store messages do, written out for the statements -/

/-- A chunk of a context is answered: it is settled, the release point advances (R38, R152), and a fall of the held blocks
of a STOP context to half its quota makes a PACE GO (R42). -/
def Path.chunkSettled (p : Path) (slot ordinal : Nat) : Path :=
  match tabGet p.contexts slot with
  | none => p
  | some x =>
    let y := { x.settle ordinal with unanswered := x.unanswered - 1 }
    if x.state.reading ∧ x.pace = .stop ∧ y.held < x.held ∧ y.held ≤ x.quota / 2 then
      Path.makePace (p.withCtx slot { y with pace := .go }) ⟨slot, x.branch, x.stream, x.source, .go, none⟩
    else p.withCtx slot y

/-- The SEAL that a SEALING container asks for when nothing of it is pending and none was made, and the container after it
(R145). -/
def Container.seals (b : Container) : Container × List TagRequest :=
  if b.pending = 0 ∧ b.sealIssued = false then
    ({ b with sealIssued := true }, [.message (.seal ⟨b.id, b.fill, b.holes, b.chunks⟩)])
  else (b, [])

/-- The answer to a CHUNK message at its container (R144, R145): one placement fewer is pending, a failed chunk's bytes are
a hole, and a SEALING container with nothing pending makes its SEAL. -/
def Path.placementAnswered (p : Path) (r : ChunkRec) (failed : Bool) : Path :=
  let counted (b : Container) : Container :=
    { b with pending := b.pending - 1, holes := if failed then b.holes + r.length else b.holes }
  let slot (sl : Slot) : Container × List TagRequest :=
    if sl.box.id ≠ r.container then (sl.box, [])
    else if sl.sealing then (counted sl.box).seals else (counted sl.box, [])
  let aside (b : Container) : Container × List TagRequest := if b.id ≠ r.container then (b, []) else (counted b).seals
  { p with
    alloc := { p.alloc with
      slots := p.alloc.slots.map fun cs => (cs.1, { cs.2 with box := (slot cs.2).1 })
      sealing := p.alloc.sealing.map fun b => (aside b).1 }
    link := { p.link with waiting := p.link.waiting ++
      ((p.alloc.slots.flatMap fun cs => (slot cs.2).2) ++ p.alloc.sealing.flatMap fun b => (aside b).2) } }

/-- The outcome of a NEW chunk goes to its entry's bucket (R152, R155). -/
def Path.outcomeSent (p : Path) (r : ChunkRec) (accepted : Bool) : Path :=
  { p with chunkOps := p.chunkOps ++ (r.entry.map fun e => (⟨accepted, e.2, e.1, r.fp⟩ : ChunkOp)).toList }

/-- One record of a context is answered (R11). -/
def Path.recordAnswered (p : Path) (slot : Nat) : Path :=
  match tabGet p.contexts slot with
  | some x => p.withCtx slot { x with unanswered := x.unanswered - 1 }
  | none => p

/-- The data path after a container's SEAL was answered: the container is no longer held (R147). -/
def Path.containerGone (p : Path) (id : Nat) : Path :=
  { p with alloc := { p.alloc with
    slots := p.alloc.slots.filter fun cs => decide (cs.2.box.id ≠ id)
    sealing := p.alloc.sealing.filter fun b => decide (b.id ≠ id) } }

/-- What ACCEPT of a message that has left the in-flight list comes to, by its kind (R144, R147, R152). -/
def Path.afterAccept (p : Path) (c : Control) : Content → Path
  | .chunk r => (((p.placementAnswered r false).chunkSettled r.slot r.ordinal).outcomeSent r true).endsIfDone c r.slot
  | .refs items => (refSlots items).foldl (fun q n => q.endsIfDone c n)
      (items.foldl (fun q i => q.recordAnswered i.slot) p)
  | .seal r => (p.containerGone r.container).bump .containersSealed 1
  | .release items => { p with releaseOps := p.releaseOps ++ items.map fun i => ⟨true, i⟩ }

/-- What the failure of a message that has left the in-flight list comes to, by its kind (R144, R147, R155 to R157): each
context named is told STORE_LOST, with the offset and ordinal of its chunk, or of its REF of the lowest ordinal. -/
def Path.afterFail (p : Path) (c : Control) : Content → Path
  | .chunk r =>
    let q := ((p.placementAnswered r true).chunkSettled r.slot r.ordinal).storeLost r.slot r.streamOffset r.ordinal
    ((q.outcomeSent r false).bump .chunksFailed 1).endsIfDone c r.slot
  | .refs items =>
    let told := (refSlots items).foldl (fun q n => match lowestRef items n with
      | some i => q.storeLost n i.streamOffset i.ordinal
      | none => q) (items.foldl (fun q i => q.recordAnswered i.slot) p)
    (refSlots items).foldl (fun q n => q.endsIfDone c n) (told.bump .refBatchesFailed 1)
  | .seal r => ((p.containerGone r.container).bump .sealsFailed 1).setFlag .storeGiveUp
  | .release items => { p with releaseOps := p.releaseOps ++ items.map fun i => ⟨false, i⟩ }

/-! ## Reorder entries that join, written out for the statements -/

/-- The last STOP made for a context is less than 1 ms old (R41). -/
def Context.stopRecent (x : Context) (now : Nat) : Bool := x.lastStop.any fun t => decide (now < t + 25000)

/-- A context takes its slot, with a PACE notice of its pace state. -/
def Path.withPaced (p : Path) (slot : Nat) (y : Context) : Path :=
  Path.makePace (p.withCtx slot y) ⟨slot, y.branch, y.stream, y.source, y.pace, none⟩

/-- A context takes its slot, its held blocks having been `before`: in ACTIVE or DRAINING and in STOP, a fall to half its
quota makes a PACE GO (R42). -/
def Path.withFall (p : Path) (slot : Nat) (y : Context) (before : Nat) : Path :=
  if y.state.reading ∧ y.pace = .stop ∧ y.held < before ∧ y.held ≤ y.quota / 2 then
    p.withPaced slot { y with pace := .go }
  else p.withCtx slot y

/-- A context takes its slot with a parcel dropped for its quota: in GO, or with its last STOP 1 ms old, it makes a PACE STOP
(R41). -/
def Path.withQuotaStop (p : Path) (c : Control) (slot : Nat) (y : Context) (before : Nat) : Path :=
  if y.pace = .stop ∧ y.stopRecent c.now then p.withFall slot y before
  else
    let z := { y with pace := .stop, lastStop := some c.now }
    (p.withPaced slot z).withFall slot z before

/-- A context in GO takes its slot with held blocks that have risen to its STOP threshold, and makes a PACE STOP (R40); any
other takes it as R42 says. -/
def Path.withRise (p : Path) (c : Control) (slot : Nat) (y : Context) (before : Nat) : Path :=
  if y.pace = .go ∧ before < y.held ∧ max 1 (y.quota - c.tables.settings.paceMargin) ≤ y.held then
    p.withPaced slot { y with pace := .stop, lastStop := some c.now }
  else p.withFall slot y before

/-- What the reorder list of the context in a slot comes to after an in-order parcel: while its lowest entry is next, it
joins the window where the quota and the pool take the blocks that makes, its own blocks being given up for the check, and
the held blocks move the pace state as they change (R26, R36, R40, R42; log 8). An entry they do not take is dropped as an
overrun, for the quota with the STOP of R41, for the pool with STAGING_EXHAUSTED, and the joining ends (R36, R37, R41). -/
inductive Path.Joins (c : Control) (slot : Nat) : Path → Path → Prop where
  | none (p : Path) (x : Context) : tabGet p.contexts slot = some x →
      (∀ e, x.reorder.head? = some e → e.seq ≠ x.expectedSeq) → Path.Joins c slot p p
  | join (p q : Path) (x left y : Context) (e : Early) (rest : List Early) (would : Nat) :
      tabGet p.contexts slot = some x → x.reorder = e :: rest → e.seq = x.expectedSeq → left = { x with reorder := rest } →
      would = blocksCovering x.releasePoint (x.inOrder + e.payload.length) + reorderBlocks rest →
      would ≤ x.quota → would ≤ (p.withCtx slot left).freeBlocks + left.held →
      y = { left with
        window := x.window ++ e.payload, inOrder := x.inOrder + e.payload.length, expectedSeq := x.expectedSeq + 1 } →
      Path.Joins c slot (p.withRise c slot y x.held) q → Path.Joins c slot p q
  | quota (p : Path) (x left : Context) (e : Early) (rest : List Early) :
      tabGet p.contexts slot = some x → x.reorder = e :: rest → e.seq = x.expectedSeq →
      left = { x with reorder := rest } →
      x.quota < blocksCovering x.releasePoint (x.inOrder + e.payload.length) + reorderBlocks rest →
      Path.Joins c slot p (Path.bump (p.withQuotaStop c slot
        { left with overrunCount := min max48 (x.overrunCount + 1) } x.held) .quotaOverruns 1)
  | pool (p : Path) (x left : Context) (e : Early) (rest : List Early) (would : Nat) :
      tabGet p.contexts slot = some x → x.reorder = e :: rest → e.seq = x.expectedSeq →
      left = { x with reorder := rest } →
      would = blocksCovering x.releasePoint (x.inOrder + e.payload.length) + reorderBlocks rest →
      would ≤ x.quota → (p.withCtx slot left).freeBlocks + left.held < would →
      Path.Joins c slot p (Path.setFlag (Path.bump (p.withFall slot
        { left with overrunCount := min max48 (x.overrunCount + 1) } x.held) .poolOverruns 1) .stagingExhausted)

/-! ## Placements, written out for the statements -/

/-- A placement request for a chunk of a length, from the context in a slot and for a class (R141 to R143): the data path
after it and the place. The OPEN container of the class takes the chunk at its fill offset where it has room; an EMPTY slot
opens a container with the next id, and so does one whose container cannot take the chunk, which is set aside in the sealing
list; with no next id, or no room in the list, the context is told NO_CONTAINER. -/
def Path.placement (p : Path) (slot cls length : Nat) : Path × Option (Nat × Nat) :=
  let a := p.alloc
  let fails (n : Counter) : Path × Option (Nat × Nat) := ((p.bump n 1).abnormal slot .noContainer, none)
  let opens (id : Nat) (slots : Tab Slot) (sealing : List Container) (seals : List TagRequest) :
      Path × Option (Nat × Nat) :=
    (Path.bump { p with
      alloc := { slots := tabSet slots cls ⟨false, { id := id, fill := length, chunks := 1, pending := 1 }⟩
                 sealing := sealing, nextId := if id = 0xFFFFFFFF then .exhausted else .id (id + 1) }
      link := { p.link with waiting := p.link.waiting ++ seals } } .containersOpened 1, some (id, 0))
  match tabGet a.slots cls with
  | none =>
    match a.nextId with
    | .id id => opens id a.slots a.sealing []
    | _ => fails .placementsNoId
  | some sl =>
    if sl.sealing = false ∧ sl.box.fill + length ≤ 4194304 then
      ({ p with alloc := { a with slots := tabSet a.slots cls { sl with box := { sl.box with
          fill := sl.box.fill + length, chunks := sl.box.chunks + 1, pending := sl.box.pending + 1 } } } },
        some (sl.box.id, sl.box.fill))
    else
      match a.nextId with
      | .id id =>
        if 8 ≤ a.sealing.length then fails .placementsListFull
        else opens id (tabErase a.slots cls) (a.sealing ++ [sl.box.seals.1]) sl.box.seals.2
      | _ => fails .placementsNoId

/-! ## Retirement, written out for the statements -/

/-- A REF item joins the open batch, whose timer of 5 ms starts where none runs; the batch closes at once where it holds as
many items as the fence, where the fence is 0, and where the end-of-records mark of the item's slot is set (R170 to R172). -/
def Path.refJoins (p : Path) (c : Control) (i : RefItem) : Path :=
  let items := p.batch.items ++ [i]
  let q : Path := { p with batch := { items := items, timer := some (p.batch.timer.getD (c.now + 125000)) } }
  if c.tables.settings.fence = 0 ∨ c.tables.settings.fence ≤ items.length ∨ i.slot ∈ p.eor then q.batchClosed else q

/-- The summary counters after an item retires with an outcome; the first MISSING gives the first missing ordinal, and an
UNPLACED item is not counted (R18, R21, R100, R102). -/
def Summary.counted (m : Summary) (i : Item) (o : ChunkOutcome) : Summary :=
  let up (n k : Nat) : Nat := min max48 (n + k)
  let sum := { m with chunks := up m.chunks 1 }
  match o with
  | .new => { sum with newChunks := up m.newChunks 1, newBytes := up m.newBytes i.length }
  | .duplicate => { sum with dupChunks := up m.dupChunks 1, dupBytes := up m.dupBytes i.length }
  | .newUnindexed => { sum with
      unindexedChunks := up m.unindexedChunks 1, unindexedBytes := up m.unindexedBytes i.length }
  | .found => { sum with found := up m.found 1 }
  | .missing => { sum with
      missing := up m.missing 1, firstMissing := if m.firstMissing = none then some i.ordinal else m.firstMissing }
  | .unplaced => m

/-- The sight list after a DUPLICATE item retires: its fingerprint and entry address join the end, unless the list holds the
fingerprint or 2048 of them (R106). -/
def Context.sighted (x : Context) (f : Fingerprint) (address : Nat) : List (Fingerprint × Nat) :=
  if f ∈ x.sight.map (·.1) ∨ 2048 ≤ x.sight.length then x.sight else x.sight ++ [(f, address)]

/-- A chunk of the context in a slot is settled, and a fall of its held blocks may make a PACE GO (R38, R42). -/
def Path.settledAt (p : Path) (slot ordinal : Nat) : Path :=
  match tabGet p.contexts slot with
  | some x => p.withFall slot (x.settle ordinal) x.held
  | none => p

/-- The chunker status is settled (R45, R50). -/
def Context.statusSettled (x : Context) : Context :=
  if x.countDone then { x with completed := true, chunker := { x.chunker with status := .complete } }
  else if x.readOffset = x.inOrder then (if x.chunker.ended then x.finished else x.setStatus .starved)
  else x.setStatus (if x.chunker.n = 0 ∧ 32 ≤ x.queue.length then .held else .running)

/-- A Chunker that was HELD settles its status when an item leaves the queue (R45, R100). -/
def Path.heldSettled (p : Path) (slot : Nat) : Path :=
  match tabGet p.contexts slot with
  | some x => p.withCtx slot (if x.chunker.status = .held then x.statusSettled else x)
  | none => p

/-- What the retiring item of a context hands on, by its outcome and mark (R101, R102, R106). `y` is the context with the
item out of its queue and counted. A record of the context is then unanswered: a NEW chunk's message with its entry and
place, a NEW-UNINDEXED one's with its placement, each asking for a tag; or a DUPLICATE's REF, which joins the open batch, or
waits in the PET. A DUPLICATE of a STORE stream is noted in the sight list; one marked LOST, and an item of another outcome,
makes no record. All but the two kinds of CHUNK are settled. -/
inductive Path.HandsOn (c : Control) (slot : Nat) (i : Item) (y : Context) (p : Path) : ChunkOutcome → Path → Prop where
  | new (f : Fingerprint) (k : Word32) (l : Location) (n : Nat) :
      i.fp = some f → i.check = some k → i.location = some l → i.pet = some n →
      Path.HandsOn c slot i y p .new { p.withCtx slot { y with unanswered := y.unanswered + 1 } with
        link := { p.link with waiting := p.link.waiting ++ [.message (.chunk
          ⟨slot, i.ordinal, i.offset, i.length, f, k, l.container, l.offset, y.branch, some (l.address, n)⟩)] } }
  | unindexed (f : Fingerprint) (k : Word32) (container offset : Nat) :
      i.fp = some f → i.check = some k → i.placement = some (container, offset) →
      Path.HandsOn c slot i y p .newUnindexed { p.withCtx slot { y with unanswered := y.unanswered + 1 } with
        link := { p.link with waiting := p.link.waiting ++ [.message (.chunk
          ⟨slot, i.ordinal, i.offset, i.length, f, k, container, offset, y.branch, none⟩)] } }
  | ref (f : Fingerprint) (l : Location) :
      y.mode = .store → i.fp = some f → i.location = some l → i.mark = .none ∨ i.mark = .live →
      Path.HandsOn c slot i y p .duplicate
        ((Path.refJoins (p.withCtx slot { y with unanswered := y.unanswered + 1, sight := y.sighted f l.address }) c
          ⟨slot, i.ordinal, i.offset, f, l.container, l.offset, l.length, y.branch⟩).settledAt slot i.ordinal)
  | joined (f : Fingerprint) (l : Location) (n : Nat) (ps : PetSlot) :
      y.mode = .store → i.fp = some f → i.location = some l → i.mark = .joined → i.pet = some n → tabGet p.pet n = some ps →
      Path.HandsOn c slot i y p .duplicate
        (Path.settledAt { p.withCtx slot { y with unanswered := y.unanswered + 1, sight := y.sighted f l.address } with
          pet := tabSet p.pet n { ps with waiters := ps.waiters.map fun w =>
            if w.slot = slot ∧ w.ordinal = i.ordinal then { w with held := true } else w } } slot i.ordinal)
  | lost (f : Fingerprint) (l : Location) :
      y.mode = .store → i.fp = some f → i.location = some l → i.mark = .lost →
      Path.HandsOn c slot i y p .duplicate
        ((p.withCtx slot { y with sight := y.sighted f l.address }).settledAt slot i.ordinal)
  | others (o : ChunkOutcome) : o = .found ∨ o = .missing ∨ o = .unplaced →
      Path.HandsOn c slot i y p o ((p.withCtx slot y).settledAt slot i.ordinal)

/-- What the head items of the context in a slot come to: each that is resolved leaves the queue, is counted and hands on its
record, a Chunker that was HELD settles its status, and the next is the head; the first that is not resolved stays (R100). -/
inductive Path.Retires (c : Control) (slot : Nat) : Path → Path → Prop where
  | stop (p : Path) (x : Context) : tabGet p.contexts slot = some x →
      (∀ i, x.queue.head? = some i → i.outcome = none) → Path.Retires c slot p p
  | head (p q r : Path) (x : Context) (i : Item) (rest : List Item) (o : ChunkOutcome) :
      tabGet p.contexts slot = some x → x.queue = i :: rest → i.outcome = some o →
      Path.HandsOn c slot i { x with queue := rest, summary := x.summary.counted i o } p o q →
      Path.Retires c slot (q.heldSettled slot) r → Path.Retires c slot p r

/-! ## The sweeper's way, written out for the statements -/

/-- The items in the RELEASE queue, in batches or not (R121). -/
def Sweeper.load (w : Sweeper) : Nat := w.unbatched.length + (w.batches.map List.length).sum

/-- A visit of a bucket is issued at a position, every free place of the RELEASE queue, up to 16, being reserved for it
(R116). -/
def Path.visits (p : Path) (pos : SweepPos) (bucket : Nat) : Path :=
  { p with sweeper := { p.sweeper with
    pass := .running, pos := pos, visit := some ⟨bucket, min 16 (256 - p.sweeper.load)⟩ } }

/-- The items of a visit join the RELEASE queue; where the unbatched items then number 64 or more, the oldest 64 become a batch,
which asks for a tag (R116, R121). -/
def Path.itemsJoin (p : Path) (items : List RelItem) : Path :=
  let w := p.sweeper
  let all := w.unbatched ++ items
  let q : Path := if all.length < 64 then { p with sweeper := { w with visit := none, unbatched := all } }
    else { p with
      sweeper := { w with visit := none, unbatched := all.drop 64, batches := w.batches ++ [all.take 64] }
      link := { p.link with waiting := p.link.waiting ++ [.oldestRelease] } }
  if items = [] then q else q.bump .releaseItems items.length

/-- The items that are not yet a batch, if there are any, become one, which asks for a tag (R121, R122). -/
def Path.restBatched (p : Path) : Path :=
  if p.sweeper.unbatched = [] then p
  else { p with
    sweeper := { p.sweeper with unbatched := [], batches := p.sweeper.batches ++ [p.sweeper.unbatched] }
    link := { p.link with waiting := p.link.waiting ++ [.oldestRelease] } }

/-- A bucket to be taken in the BINS phase: marked, and below 2^m (R120). -/
def Index.due (x : Index) (b : Nat) : Prop := b ∈ x.marks.map (·.1) ∧ b < 2 ^ x.geometry

/-- A bucket comes at or after a bin and a bucket in the order of the BINS phase: by bin, then by number (R120). -/
def comesAfter (bin bucket b : Nat) : Prop := bin < b % 4096 ∨ bin = b % 4096 ∧ bucket ≤ b

/-- A READY group numbered more than another, among those the geometry has (R64, R119). -/
def Index.readyAfter (x : Index) (g h : Nat) : Prop :=
  g < h ∧ h < 2 ^ (x.geometry - 8) ∧ ∃ e, tabGet x.groups h = some e ∧ e.state = .ready

/-- What a pass comes to that stands at a position (R119, R120, R122). In BUCKETS it visits its bucket where the group is READY;
else it goes to the first bucket of the next READY group, and with none, or past the last bucket, to the BINS phase. There it
visits the first of the marked buckets that are left, from its entry on if it stands at it. With none left the pass ends: the
items left become a batch, the pass is counted, and with the restart mark set, which clears, the next begins at once; else the
sweeper is IDLE, its position bucket 0, entry 0 of the phase BUCKETS (log 42). -/
inductive Path.SweepsOn (x : Index) : SweepPos → Path → Path → Prop where
  | bucket (p : Path) (b k : Nat) : b < 2 ^ x.geometry → (x.readyPage b).isSome = true →
      Path.SweepsOn x (.buckets b k) p (p.visits (.buckets b k) b)
  | group (p q : Path) (b k g : Nat) : b < 2 ^ x.geometry → x.readyPage b = none → x.readyAfter (b / 256) g →
      (∀ h, x.readyAfter (b / 256) h → g ≤ h) →
      Path.SweepsOn x (.buckets (256 * g) 0) p q → Path.SweepsOn x (.buckets b k) p q
  | bins (p q : Path) (b k : Nat) : (b < 2 ^ x.geometry → x.readyPage b = none ∧ ∀ h, ¬ x.readyAfter (b / 256) h) →
      Path.SweepsOn x (.bins 0 0 0) p q → Path.SweepsOn x (.buckets b k) p q
  | marked (p : Path) (bin b k z : Nat) : x.due z → comesAfter bin b z →
      (∀ o, x.due o → comesAfter bin b o → comesAfter (z % 4096) z o) → (z = b → bin = b % 4096) →
      Path.SweepsOn x (.bins bin b k) p (p.visits (.bins (z % 4096) z (if z = b then k else 0)) z)
  | idle (p : Path) (bin b k : Nat) : (∀ z, x.due z → ¬ comesAfter bin b z) → p.sweeper.restart = false →
      Path.SweepsOn x (.bins bin b k) p
        (Path.bump { p.restBatched with sweeper := { p.restBatched.sweeper with
          pass := .idle, pos := .buckets 0 0, visit := none } } .sweepPasses 1)
  | again (p q : Path) (bin b k : Nat) : (∀ z, x.due z → ¬ comesAfter bin b z) → p.sweeper.restart = true →
      Path.SweepsOn x (.buckets 0 0)
        (Path.bump { p.restBatched with sweeper := { p.restBatched.sweeper with restart := false } } .sweepPasses 1) q →
      Path.SweepsOn x (.bins bin b k) p q

/-- What a pass comes to whose visit has ended early (R119, R121): the items that are not yet a batch become one, and the pass
waits at the entry; where the queue has a free place it goes on at once. -/
def Path.WaitsAt (x : Index) (pos : SweepPos) (p q : Path) : Prop :=
  let waits : Path := { p.restBatched with sweeper := { p.restBatched.sweeper with pass := .waiting, pos := pos } }
  (256 ≤ p.sweeper.load ∧ q = waits) ∨ (p.sweeper.load < 256 ∧ Path.SweepsOn x pos waits q)

/-- Between two data paths, a context that took parcels has been told STORE_LOST: it is ending, or has ended, ABNORMAL with
that cause (R13, R14). -/
def Path.toldLost (p q : Path) (slot : Nat) : Prop :=
  ∀ x, tabGet p.contexts slot = some x → x.state.taking = true →
    ∃ y, tabGet q.contexts slot = some y ∧ (y.state = .quiescing ∨ y.state = .linger) ∧
      y.endClass = some .abnormal ∧ y.cause = some .storeLost

/-- Between two data paths, a store message has failed: what R155 to R158 give it has happened. -/
def Path.failedIn (p q : Path) : Content → Prop
  | .chunk r => p.toldLost q r.slot ∧
      ∀ address pet, r.entry = some (address, pet) → (⟨false, pet, address, r.fp⟩ : ChunkOp) ∈ q.chunkOps
  | .refs items => ∀ i ∈ items, p.toldLost q i.slot
  | .seal r => (∀ cs ∈ q.alloc.slots, cs.2.box.id ≠ r.container) ∧ ∀ b ∈ q.alloc.sealing, b.id ≠ r.container
  | .release items => ∀ i ∈ items, (⟨false, i⟩ : ReleaseOp) ∈ q.releaseOps

/-! ## What every step keeps -/

/-- While the link is LOST, no request for a tag waits (R161). -/
def Path.lostDrained (p : Path) : Prop := p.link.state = .lost → p.link.waiting = []

/-- No transmitter whose carrier is up is idle while an item waits for it (R163, R173). -/
def Path.working (p : Path) : Prop :=
  (p.sPort.carrier = true → p.sPort.tx = none → p.sPort.fifo = [] ∧ p.sPort.dataEmpty = true) ∧
    (p.iPort.carrier = true → p.iPort.tx = none → p.iPort.pace = [] ∧ p.iPort.fifo = [])

/-- The calendar's fields lie in their ranges (R126). -/
def Calendar.legal (c : Calendar) : Bool :=
  decide (c.year ≤ 99) && decide (1 ≤ c.month) && decide (c.month ≤ 12) && decide (1 ≤ c.day) && decide (c.day ≤ 31) &&
    decide (c.seconds ≤ 86399) && decide (c.dayNumber ≤ 65535)

/-- The device settings lie in their ranges (R186). -/
def Settings.legal (g : Settings) : Bool :=
  decide (0x0600 ≤ g.etherType) && decide (g.etherType ≤ 0xFFFF) && decide (g.storeAddr ≠ some 0) &&
    decide (1 ≤ g.gapSteps) && decide (g.gapSteps ≤ 255) &&
    (g.retryLimit == 2 || g.retryLimit == 4 || g.retryLimit == 16 || g.retryLimit == 64) && decide (g.fence ≤ 64) &&
    decide (g.rotation ≤ 3) && decide (g.promotion ≤ 7) && decide (g.paceMargin ≤ 64) &&
    decide (g.alertMask &&& noFlag = 0)

/-- A policy entry lies in the ranges of R178, with MIN ≤ 2^k ≤ MAX (R181). -/
def PolicyEntry.legal (e : PolicyEntry) : Bool :=
  decide (8 ≤ e.k) && decide (e.k ≤ 16) && decide (64 ≤ e.min) && decide (e.min ≤ 2 ^ e.k) && decide (e.min % 64 = 0) &&
    decide (2 ^ e.k ≤ e.max) && decide (e.max ≤ 65536) && decide (e.max % 64 = 0) && decide (e.gear ≤ 3) &&
    decide (e.retention ≤ 65535) && decide (e.cls ≤ 7) && decide (e.warmUp ≤ 15) && decide (e.linger ≤ 15)

/-- A branch entry lies in the ranges of R179. -/
def BranchEntry.legal (e : BranchEntry) : Bool :=
  decide (e.policy ≤ 31) && decide (e.holdTag ≤ 15) && decide (1 ≤ e.streamLimit) && decide (e.streamLimit ≤ 8) &&
    decide (16 ≤ e.quota) && decide (e.quota ≤ 512)

/-- Every entry of a bank lies in its ranges, and no entry is listed twice. -/
def Bank.legal (b : Bank) : Bool :=
  (b.policies.all fun e => PolicyEntry.legal e.2) && (b.branches.all fun e => BranchEntry.legal e.2) &&
    tabWf b.policies && tabWf b.branches

/-- The calendar, the settings and both banks lie in their ranges; no gear entry is listed twice; at most 2 management
sources are held, and only the tags 1 to 15 can be active (R126, R178, R179, R185, R186, R190, R110). -/
def Control.legal (c : Control) : Bool :=
  c.calendar.legal && c.tables.settings.legal && c.tables.bankA.legal && c.tables.bankB.legal &&
    tabWf c.tables.gear && decide (c.sources.length ≤ 2) && decide (c.holds &&& 1 = 0)

/-- An excluded range holds its pages in order, both among the 131,072 there are (R71). -/
def Exclusion.legal (e : Exclusion) : Bool := decide (e.first ≤ e.last) && decide (e.last ≤ 131071)

/-- The geometry lies in 16 to 24, and there are 4 excluded ranges, each in its range (R64, R71). -/
def Index.legal (x : Index) : Bool :=
  geometryInRange x.geometry && decide (x.exclusions.length = 4) && x.exclusions.all Exclusion.legal

/-- The day number of a SET DATE fits its 2 bytes (R132, R203); no other request gives one. -/
def Request.dayFits : Request → Bool
  | .setDate _ _ _ _ dayNumber => decide (dayNumber ≤ 65535)
  | _ => true

/-- The request a command brings has a day number that fits. -/
def Instr.dayFits : Instr → Bool
  | .mgmtParcel _ _ _ request => Request.dayFits request
  | _ => true

/-- Every SET DATE waiting, in a request queue or in a command yet to be taken, has a day number that fits. -/
def State.daysFit (s : State) : Prop :=
  (∀ port, ∀ r ∈ (s.path.queue port).reqs, Request.dayFits r.request = true) ∧
    ∀ c ∈ s.pending, Instr.dayFits c = true

/-- The stacked DRAM's entries and hot-list slots, the translation table and the spilled marks are in canonical form. -/
def Index.canonical (x : Index) : Bool := Memory.wf x.dram && tabWf x.groups && tabWf x.marks && tabWf x.hot

/-- No entry's reference count is above 65535 (R72, R108). -/
def Index.countsFit (x : Index) : Prop := ∀ a e, x.entry a = some e → e.count ≤ 65535

/-- What a safe state is: every property that a step keeps holds. -/
def State.safe (s : State) : Prop :=
  s.ctl.legal = true ∧ s.idx.legal = true ∧ s.daysFit ∧ s.idx.canonical = true ∧ s.idx.countsFit ∧
    tabWf s.path.contexts = true ∧ s.path.lostDrained ∧ s.path.working

/-- What may become of an index entry without its place becoming FREE (R72, R73, R98, R108, R109, R116): it names the same
chunk in the same place, PENDING can become LIVE and LIVE can become RELEASING, a pinned count stays pinned, and the
retention-until day does not fall. -/
def Entry.mayBecome (e f : Entry) : Prop :=
  f.fp = e.fp ∧ f.check = e.check ∧ f.container = e.container ∧ f.offset = e.offset ∧ f.length = e.length ∧
    f.firstBranch = e.firstBranch ∧ f.restored = e.restored ∧
    (f.state = e.state ∨ e.state = .pending ∧ f.state = .live ∨ e.state = .live ∧ f.state = .releasing) ∧
    (e.count = 65535 → f.count = 65535) ∧ e.untilDay ≤ f.untilDay ∧ (e.collided = true → f.collided = true)

end Sys2Proof.Machine
end

