-- ==== Sys2Proof/WellFormed.lean ====
section
/-! DEFINITION. The commands whose fields lie in the ranges their encodings admit (R202 to R205): what the wire can
carry, whatever the part then makes of it. -/

namespace Sys2Proof

/-- A number of n bytes. -/
def fits (n v : Nat) : Bool := decide (v < 256 ^ n)

/-- An item of a RETIRE as the wire carries it. -/
def retireWf (i : Fingerprint × Nat) : Bool := fits 1 i.2

/-- An item of a RESTORE ENTRIES as the wire carries it. -/
def RestoreEntry.wf (i : RestoreEntry) : Bool :=
  fits 4 i.container && fits 4 i.offset && fits 4 i.length && fits 4 i.count && fits 4 i.untilDay

/-- The values of a policy entry as the wire carries them. -/
def PolicyRow.wf (e : PolicyRow) : Bool :=
  fits 4 e.k && fits 4 e.min && fits 4 e.max && fits 4 e.gear && fits 4 e.confirm && fits 4 e.retention &&
    fits 4 e.cls && fits 4 e.warmUp && fits 4 e.linger

/-- The values of a branch entry as the wire carries them. -/
def BranchRow.wf (e : BranchRow) : Bool :=
  fits 4 e.enabled && fits 4 e.policy && fits 4 e.holdTag && fits 4 e.streamLimit && fits 4 e.quota &&
    fits 4 e.impliedOpen && fits 4 e.verifyAllowed

/-- The arguments of a LOAD TABLE as the wire carries them; the kinds 1 to 3 are known. -/
def TableLoad.wf : TableLoad → Bool
  | .policy first rows => fits 4 first && fits 4 rows.length && rows.all PolicyRow.wf
  | .branch first rows => fits 4 first && fits 4 rows.length && rows.all BranchRow.wf
  | .gear table first values => fits 4 table && fits 4 first && fits 4 values.length
  | .unknown kind => fits 1 kind && (decide (kind = 0) || decide (3 < kind))

/-- The arguments of a READ TABLE as the wire carries them. -/
def TableRead.wf : TableRead → Bool
  | .policy bank first count => fits 1 bank && fits 4 first && fits 4 count
  | .branch bank first count => fits 1 bank && fits 4 first && fits 4 count
  | .gear table first count => fits 4 table && fits 4 first && fits 4 count
  | .unknown kind => fits 1 kind && (decide (kind = 0) || decide (3 < kind))

/-- A field of a SET SETTINGS as the wire carries it, its name known. -/
def SettingWrite.wf : SettingWrite → Bool
  | .etherType v => fits 4 v
  | .storeAddr _ => true
  | .gapSteps v => fits 4 v
  | .retryLimit v => fits 4 v
  | .retryAction v => fits 1 v
  | .fence v => fits 4 v
  | .rotation v => fits 4 v
  | .promotion v => fits 4 v
  | .paceMargin v => fits 4 v
  | .alertMask _ => true
  | .unknown _ => false

/-- The fields of a SET SETTINGS: an unknown name can only be the last that is read. -/
def settingsWf : List SettingWrite → Bool
  | [] => true
  | [.unknown name] => fits 1 name && (decide (name = 0) || decide (10 < name))
  | w :: l => w.wf && settingsWf l

/-- A request code the part knows (R202). -/
def knownCode (code : Nat) : Bool := decide (1 ≤ code) && decide (code ≤ 0x1B) && decide (code ≠ 0x0C)

/-- A request as the wire carries it. -/
def Request.wf : Request → Bool
  | .identify => true
  | .readStatus => true
  | .clearFlags _ => true
  | .readCounters option => fits 1 option
  | .setSettings writes => fits 1 writes.length && settingsWf writes
  | .setGeometry m => fits 4 m
  | .mapGroup group page => fits 4 group && fits 4 page
  | .unmapGroup group => fits 4 group
  | .setExclusion range first last _ => fits 4 range && fits 4 first && fits 4 last
  | .loadTable l => l.wf
  | .readTable q => q.wf
  | .swapBanks => true
  | .setDate year month day seconds dayNumber =>
    fits 4 year && fits 4 month && fits 4 day && fits 4 seconds && fits 2 dayNumber
  | .nudge amount => decide (-2147483648 ≤ amount) && decide (amount < 2147483648)
  | .setHold tag _ => fits 4 tag
  | .retire items => fits 1 items.length && items.all retireWf
  | .sweepNow => true
  | .setContainerBase base => fits 4 base
  | .sealContainers => true
  | .setMode code => fits 1 code
  | .restoreEntries items => fits 1 items.length && items.all RestoreEntry.wf
  | .readEntry _ => true
  | .readStream slot => fits 4 slot
  | .forceEnd slot => fits 4 slot
  | .setManagementSources l => fits 1 l.length
  | .warmReset => true
  | .unknown code => fits 1 code && !knownCode code

/-- The branch and stream number of a parcel header (R202). -/
def headerWf (branch stream : Nat) : Bool := decide (branch < 4096) && fits 1 stream

/-- A context slot's number (R1). -/
def slotWf (slot : Nat) : Bool := decide (1 ≤ slot) && decide (slot ≤ 384)

/-- A branch's number. -/
def branchWf (branch : Nat) : Bool := decide (1 ≤ branch) && decide (branch ≤ 4095)

/-- A command whose fields lie in the ranges of their encodings, or, for an internal event, of the structures it
names. -/
def Instr.wf : Instr → Bool
  | .openParcel _ _ branch stream mode endMode expected =>
    headerWf branch stream && fits 1 mode && fits 1 endMode && fits 3 expected
  | .dataParcel _ _ branch stream seq payload =>
    headerWf branch stream && fits 4 seq && decide (1 ≤ payload.length) && decide (payload.length ≤ 8192)
  | .closeParcel _ _ branch stream final total => headerWf branch stream && fits 4 final && fits 6 total
  | .abortParcel _ _ branch stream => headerWf branch stream
  | .mgmtParcel _ _ number request => fits 2 number && request.wf
  | .storeAnswer _ tag serial _ => fits 1 tag && fits 1 serial
  | .passThroughFrame _ frame => decide (frame.length ≤ 9212)
  | .retireItem _ index => decide (index < 64)
  | .restoreItem _ index => decide (index < 32)
  | .warmUpExpiry slot => slotWf slot
  | .hotListLoadComplete branch => branchWf branch
  | .hotListRewriteComplete branch => branchWf branch
  | .lingerExpiry slot => slotWf slot
  | .takeByte slot => slotWf slot
  | .digestComplete slot => slotWf slot
  | .lookup slot _ => slotWf slot
  | .placementRequest slot _ => slotWf slot
  | .lookupResult slot _ => slotWf slot
  | .answerTimerExpiry tag => decide (tag < 64)
  | .resendDue tag => decide (tag < 64)
  | .chunkAcceptAtBucket slot => decide (slot < 4096)
  | .chunkFailAtBucket slot => decide (slot < 4096)
  | .releaseOutcomeAtBucket address => decide (address < 536870912)
  | .groupInitialisationComplete group => decide (group < 65536)
  | .coldReset => true
  | .reservedPageClearingComplete => true
  | .sPortCarrierDown => true
  | .sPortCarrierUp => true
  | .lossTimerExpiry => true
  | .iPortCarrierDown => true
  | .iPortCarrierUp => true
  | .fcsErrorFrame _ => true
  | .malformedFrame _ => true
  | .wrongDirectionFrame _ => true
  | .identify _ => true
  | .readStatus _ => true
  | .clearFlags _ => true
  | .readCounters _ => true
  | .setSettings _ => true
  | .setGeometry _ => true
  | .mapGroup _ => true
  | .unmapGroup _ => true
  | .setExclusion _ => true
  | .loadTable _ => true
  | .readTable _ => true
  | .swapBanks _ => true
  | .setDate _ => true
  | .nudge _ => true
  | .setHold _ => true
  | .retire _ => true
  | .sweepNow _ => true
  | .setContainerBase _ => true
  | .sealContainers _ => true
  | .setMode _ => true
  | .restoreEntries _ => true
  | .readEntry _ => true
  | .readStream _ => true
  | .forceEnd _ => true
  | .setManagementSources _ => true
  | .warmReset _ => true
  | .warmResetComplete => true
  | .gapTick => true
  | .secondsTick => true
  | .refBatchTimerExpiry => true
  | .tagGrant => true
  | .sPortTransmitDone => true
  | .iPortTransmitDone => true
  | .sweeperVisit => true
  | .bankCopyComplete => true

end Sys2Proof
end

