-- ==== Sys2Proof/Certificates/Slice0/Obligations.lean ====
section
/-! DEFINITION. The statements for the provers. What they rest on stands in Safety.lean: `Completes`, `Replies` and
`CompletesAtQueue` say that the command answers the next state described, but for what every command may end with, which
`Passes` lists (transmitters take what waits for them, held items take the places left, requests of unknown kinds are
answered), after all that the command makes has joined (log 46); `CompletesDrained` and `RepliesDrained` say so of the state
in which the requests for tags that then wait on a LOST link have failed (log 45); `Path.Joins`, `Path.HandsOn` and
`Path.Retires` write out what the reorder list and the resolved heads come to, `Path.SweepsOn` and `Path.WaitsAt` where a
pass of the sweeper goes. A state met by `lostDrained` is one that satisfies R161 (O2 says that
every step keeps it). -/

open Sys2Proof Sys2Proof.Machine

/-! ## The step -/

/-- A step takes the command at the front of the queue and runs it with the rest of the queue; on an empty queue one
REFCLK period passes and nothing else happens (logs 2 and 11). Every command completes in every state, and leaves the queue
of commands alone: one whose event cannot occur in the state changes nothing, which is the model's choice (log 1). -/
def Obligations.StepRunsTheFrontCommand : Prop :=
  (∀ (c : Instr) (rest : List Instr) (s : State), s.pending = c :: rest → step s = exec c { s with pending := rest }) ∧
    (∀ s : State, s.pending = [] → step s = .next { s with ctl := { s.ctl with now := s.ctl.now + 1 } }) ∧
    ∀ (c : Instr) (s : State), ∃ t, exec c s = .next t ∧ t.pending = s.pending

/-! ## What every step keeps -/

/-- R161: while the link is LOST no request for a tag waits, since every one fails as it is made. -/
def Obligations.LostLinkHoldsNoRequest : Prop :=
  ∀ s t : State, s.path.lostDrained → step s = .next t → t.path.lostDrained

/-- R163, R173: no transmitter whose carrier is up is idle while an item waits for it. -/
def Obligations.NoIdleTransmitterWaits : Prop :=
  ∀ s t : State, s.path.working → step s = .next t → t.path.working

/-- The stacked DRAM with its entries and its hot-list slots, the translation table and the spilled marks keep their
canonical form: no entry address, hot-list slot, group or bucket is listed twice. In that form the reference counts keep their
range: none is above 65535 (R72, R108). -/
def Obligations.IndexStaysCanonical : Prop :=
  ∀ s t : State, s.idx.canonical = true → step s = .next t →
    t.idx.canonical = true ∧ (s.idx.countsFit → t.idx.countsFit)

/-- No context slot is listed twice: the Stream Context Table keeps its canonical form. -/
def Obligations.ContextSlotsStayCanonical : Prop :=
  ∀ s t : State, tabWf s.path.contexts = true → step s = .next t → tabWf t.path.contexts = true

/-- The calendar with its day number, the device settings, the entries of both banks, the management sources, the geometry
and the excluded ranges stay in the ranges that R126, R178, R179, R181, R186, R190, R64 and R71 give them, where the day
number of every SET DATE that waits, in a request queue or in a command to be taken, fits its 2 bytes; and what waits after
the step is such again. -/
def Obligations.RegistersStayLegal : Prop :=
  ∀ s t : State, (s.ctl.legal = true ∧ s.idx.legal = true ∧ s.daysFit) → step s = .next t →
    t.ctl.legal = true ∧ t.idx.legal = true ∧ t.daysFit

/-- R72, R73, R108, R109: while an index entry is not FREE it names the same chunk in the same place, moves only from
PENDING to LIVE and from LIVE to RELEASING, keeps a pinned count, and never loses retention. A cold reset empties the
index. R115, R116: an entry that is LIVE becomes RELEASING only by a visit of the sweeper, with count 0, no active hold in its
hold set and a retention-until day before today's day number. R90, R111, R116: a tag leaves a hold set only by such a visit of
a LIVE entry and only where its flag is not active; one is added only by a lookup and only where it is active. R90, R113: a
count falls only by an item of a RETIRE, and rises only by a lookup. The counts are in their range, which every step keeps (O4). -/
def Obligations.EntriesChangeOnlyInPlace : Prop :=
  ∀ (c : Instr) (s t : State) (a : Nat) (e f : Entry), c ≠ .coldReset → s.idx.canonical = true →
    s.idx.countsFit → exec c s = .next t →
    s.idx.entry a = some e → t.idx.entry a = some f →
      e.mayBecome f ∧
      (e.state = .live → f.state = .releasing →
        c = .sweeperVisit ∧ e.count = 0 ∧ e.holds &&& s.ctl.holds = 0 ∧ e.untilDay < s.ctl.calendar.dayNumber) ∧
      (∀ tag, e.holds.getLsbD tag = true → f.holds.getLsbD tag = false →
        c = .sweeperVisit ∧ e.state = .live ∧ s.ctl.holds.getLsbD tag = false) ∧
      (∀ tag, e.holds.getLsbD tag = false → f.holds.getLsbD tag = true →
        (∃ slot ordinal, c = .lookup slot ordinal) ∧ s.ctl.holds.getLsbD tag = true) ∧
      (f.count < e.count → ∃ port k, c = .retireItem port k) ∧
      (e.count < f.count → ∃ slot ordinal, c = .lookup slot ordinal)

/-- Only SET MODE and a cold reset change the device mode (R192); only the seconds tick, SET DATE, NUDGE and a cold reset
change the calendar (R126 to R135). -/
def Obligations.ModeAndCalendarChangeOnlyByTheirCommands : Prop :=
  ∀ (c : Instr) (s t : State), exec c s = .next t →
    (t.ctl.mode ≠ s.ctl.mode → c = .coldReset ∨ ∃ port, c = .setMode port) ∧
    (t.ctl.calendar ≠ s.ctl.calendar →
      c = .coldReset ∨ c = .secondsTick ∨ (∃ port, c = .setDate port) ∨ ∃ port, c = .nudge port)

/-- The state right after reset meets every property that a step keeps. -/
def Obligations.ResetIsSafe : Prop := State.reset.safe

/-- What a cold reset leaves, field by field, as the reset tables give it: COLD, no management source, no active hold, the
calendar UNSET on 1 January of year 0, bank A active and both banks, the gear tables and the settings at their defaults; the
reserved pages being cleared, the geometry 20, no group, 4 inactive excluded ranges, no spilled mark; only CALENDAR_UNSET
set, every counter 0, every context FREE, the pool full, the Pending Entry Table, the Locator Cache and every list of
operations empty; the sweeper IDLE with an empty RELEASE queue, every container slot EMPTY, no next container id; the link
UP with nothing in flight or waiting and every serial counter 0; both transmitters idle with empty queues, the alternation
mark at CHUNK and the rotation count 0; the open REF batch, the end-of-records marks and both request queues empty. The
clock that begins at 0 with the divider and the gap timer running from there (log 2), the carriers up (log 4), the empty
index and hot lists before they are cleared (log 9) and the sweeper's position while it is IDLE (log 42) are the model's
choices. -/
def Obligations.ResetState : Prop :=
  let r := State.reset
  let bank : Bank := { policies := [], branches := [] }
  r.pending = [] ∧
    (r.ctl.now = 0 ∧ r.ctl.mode = .cold ∧ r.ctl.sources = [] ∧ r.ctl.holds = 0 ∧
      r.ctl.calendar = ⟨0, 1, 1, 0, 0, false⟩ ∧ r.ctl.divider = 25000000 ∧ r.ctl.gapTimer = 12500000 ∧
      r.ctl.tables.bankA = bank ∧ r.ctl.tables.bankB = bank ∧ r.ctl.tables.active = .a ∧ r.ctl.tables.copying = false ∧
      r.ctl.tables.gear = [] ∧ r.ctl.tables.settings = ⟨0xB7A5, none, 50, 4, .giveUp, 16, 2, 0, 8, 0⟩ ∧
      (∀ i, bank.policy i = ⟨12, 2048, 16384, 0, true, 30, 0, 4, 4⟩) ∧
      (∀ i, bank.branch i = ⟨false, 0, 0, 2, 64, false, false⟩) ∧ ∀ g i, r.ctl.tables.gearWord g i = 0) ∧
    (r.idx.clearing = true ∧ r.idx.geometry = 20 ∧ r.idx.groups = [] ∧
      r.idx.exclusions = List.replicate 4 ⟨0, 0, false⟩ ∧ r.idx.marks = [] ∧ r.idx.dram = [] ∧ r.idx.hot = [] ∧
      (∀ a, r.idx.entry a = none) ∧ (∀ b, r.idx.marked b = false) ∧ ∀ branch, r.idx.hotList branch = []) ∧
    (r.path.counters = [] ∧ (∀ c, r.path.counter c = 0) ∧ r.path.flags = 0x0080 ∧ r.alertLow = false ∧
      r.path.contexts = [] ∧ r.path.freeBlocks = 2048 ∧ r.path.pet = [] ∧ r.path.cache = [] ∧
      (∀ f, r.path.locate f = none) ∧ r.path.hotOps = [] ∧ r.path.lookups = [] ∧ r.path.results = [] ∧
      r.path.placements = [] ∧ r.path.chunkOps = [] ∧ r.path.releaseOps = []) ∧
    (r.path.sweeper.pass = .idle ∧ r.path.sweeper.pos = .buckets 0 0 ∧ r.path.sweeper.restart = false ∧
      r.path.sweeper.visit = none ∧ r.path.sweeper.unbatched = [] ∧ r.path.sweeper.batches = [] ∧
      r.path.alloc.slots = [] ∧ r.path.alloc.sealing = [] ∧ r.path.alloc.nextId = .unset) ∧
    (r.path.link.inflight = [] ∧ r.path.link.waiting = [] ∧ r.path.link.serials = [] ∧
      (∀ tag, tabGetD r.path.link.serials tag 0 = 0) ∧ r.path.link.state = .up ∧ r.path.link.lossTimer = none) ∧
    (r.path.sPort.carrier = true ∧ r.path.sPort.tx = none ∧ r.path.sPort.resend = [] ∧ r.path.sPort.chunkQ = [] ∧
      r.path.sPort.refQ = [] ∧ r.path.sPort.mark = .chunk ∧ r.path.sPort.fifo = [] ∧ r.path.sPort.hold = [] ∧
      r.path.sPort.rotation = 0 ∧ r.path.iPort.carrier = true ∧ r.path.iPort.tx = none ∧ r.path.iPort.pace = [] ∧
      r.path.iPort.fifo = [] ∧ r.path.iPort.hold = []) ∧
    r.path.batch.items = [] ∧ r.path.batch.timer = none ∧ r.path.eor = [] ∧ r.path.iQueue.reqs = [] ∧
    r.path.iQueue.head = .waiting ∧ r.path.sQueue.reqs = [] ∧ r.path.sQueue.head = .waiting ∧ r.path.warm = none

/-! ## Resets, carriers and completions -/

/-- COLD_RESET from any state: everything but the carriers and the commands waiting is at its reset value; the link is UP
with a carrier, and DOWN with its 5 s loss timer running without one (R161). That the carriers stay (log 4) and the commands
waiting stay (log 11) is the model's choice. -/
def Obligations.ColdResetClearsThePart : Prop :=
  ∀ s : State, ∃ t, exec .coldReset s = .next t ∧ t.pending = s.pending ∧ t.ctl = State.reset.ctl ∧
    t.idx = State.reset.idx ∧ t.path.core = { State.reset.path.core with link := t.path.link } ∧
    t.path.counters = [] ∧ t.path.iQueue = {} ∧ t.path.sQueue = {} ∧
    t.path.sPort = { carrier := s.path.sPort.carrier } ∧ t.path.iPort = { carrier := s.path.iPort.carrier } ∧
    (s.path.sPort.carrier = true → t.path.link = {}) ∧
    (s.path.sPort.carrier = false → t.path.link = { state := .down, lossTimer := some 125000000 })

/-- R63: when the clearing of the reserved pages completes, the spill bins are FREE, every hot list is empty, and requests
can be handled. R68: when the initialisation of a group completes, every entry of its page is FREE and the group is READY.
Nothing else changes. That a page is cleared as its initialisation completes is the model's choice (log 29). -/
def Obligations.InitialisationsComplete : Prop :=
  (∀ s : State, s.path.lostDrained → s.idx.clearing = true →
    Completes .reservedPageClearingComplete s (s.withIdx ({ s.idx with
      clearing := false, hot := [], dram := s.idx.dram.filter fun e => decide (65536 ≤ e.1) }))) ∧
  ∀ (s : State) (group : Nat) (g : Group), s.path.lostDrained → tabGet s.idx.groups group = some g →
    g.state = .initialising →
      Completes (.groupInitialisationComplete group) s (s.withIdx ({ s.idx with
        groups := tabSet s.idx.groups group { g with state := .ready }
        dram := s.idx.dram.filter fun e => decide (e.1 / 4096 ≠ g.page) }))

/-- R159, R169: when the S-port carrier goes down the link is DOWN and its 5 s loss timer runs, every message is SUSPENDED
and leaves its queue, and the loss is counted. The item being sent stops at the end of the frame in progress: the transmitter
keeps it until that frame is done, of a store message only the pieces begun, the first among them, and of a reply or a frame
forwarded its one frame. Which pieces have begun is a free value (log 15); that the item being sent has begun its first frame,
and that a reply is one frame, is by inference (log 19). -/
def Obligations.SCarrierDown : Prop :=
  ∀ s : State, s.path.sPort.carrier = true →
    let l := { s.path.link with
      inflight := s.path.link.inflight.map fun m => { m with phase := .suspended }
      state := .down, lossTimer := some (s.ctl.now + 125000000) }
    let port := { s.path.sPort with
      carrier := false, tx := s.path.sPort.tx.map fun x => x.fixed s.path s.ctl false
      resend := [], chunkQ := [], refQ := []
      fifo := s.path.sPort.fifo.filter fun x => !x.2.isMessage
      hold := s.path.sPort.hold.filter fun x => !x.isMessage }
    Completes .sPortCarrierDown s (s.withPath (Path.bump { s.path with link := l, sPort := port } .linkLosses 1)) ∧
    ∀ x, s.path.sPort.tx = some x →
      ∃ t y, exec .sPortCarrierDown s = .next t ∧ t.path.sPort.tx = some y ∧ y.sending = none ∧
        (x.sending = none → y = x) ∧ t.sLanes <+: s.sLanes ∧ t.sLanes.head? = s.sLanes.head?

/-- R160: when the S-port carrier comes up on a link that is DOWN, the link is UP, the loss timer stops, and each message of
the in-flight list is taken in order of first issue: one below the retry limit is issued again, with the next serial, the
next attempt, SENDING, in the resend set; one at the limit is issued again under PERSIST, which sets STORE_RETRY, and under
GIVE_UP is counted, sets STORE_GIVEUP and fails (R154). So those that are issued again are the in-flight list, in their
order, and stand in DATA; where none is given up, nothing else changes. R161: when it comes up on a LOST link, the link is
UP and nothing else changes. A message issued again is counted as issued and as resent, by inference (log 18). The order
in which the contexts of a REF batch given up are told STORE_LOST and end (log 40), and that an unsent PACE STOP is discarded
too as a stream ends (log 43), are the model's choices. -/
def Obligations.SCarrierUp : Prop :=
  (∀ s : State, s.path.sPort.carrier = false → s.path.link.state = .lost →
    Completes .sPortCarrierUp s (s.withPath ({ s.path with
      link := { s.path.link with state := .up }, sPort := { s.path.sPort with carrier := true } }))) ∧
  ∀ s : State, s.path.sPort.carrier = false → s.path.link.state = .down →
    let g := s.ctl.tables.settings
    let goesOn (m : Message) : Bool := decide (m.attempts < g.retryLimit) || decide (g.retryAction = .persist)
    let up : Path := { s.path with
      sPort := { s.path.sPort with carrier := true }
      link := { s.path.link with state := .up, lossTimer := none } }
    let again (p : Path) (tag : Nat) : Path :=
      let serial := (tabGetD p.link.serials tag 0 + 1) % 256
      (Path.bump { p with
        sPort := { p.sPort with resend := p.sPort.resend ++ [tag] }
        link := { p.link with
          serials := tabPut 0 p.link.serials tag serial
          inflight := p.link.inflight.map fun o => if o.tag = tag then { o with
            serial := serial, phase := .sending, attempts := min 65535 (o.attempts + 1) } else o } }
        .messagesIssued 1).bump .resends 1
    let due (p : Path) (m : Message) : Path :=
      if m.attempts < g.retryLimit then again p m.tag
      else if g.retryAction = .persist then (again p m.tag).setFlag .storeRetry
      else ((p.bump .giveUps 1).setFlag .storeGiveUp).failMessage s.ctl m
    let after := s.path.link.inflight.foldl due up
    let next (m : Message) : Message := { m with
      serial := (tabGetD s.path.link.serials m.tag 0 + 1) % 256, phase := .sending
      attempts := min 65535 (m.attempts + 1) }
    Completes .sPortCarrierUp s (s.withPath after) ∧
    after.sPort.carrier = true ∧ after.link.state = .up ∧ after.link.lossTimer = none ∧
    ((∃ m ∈ s.path.link.inflight, g.retryLimit ≤ m.attempts) →
      after.flagSet (if g.retryAction = .persist then .storeRetry else .storeGiveUp) = true) ∧
    ((s.path.link.inflight.map (·.tag)).Nodup →
      after.link.inflight = (s.path.link.inflight.filter goesOn).map next ∧
      (∀ m ∈ s.path.link.inflight, goesOn m = true → after.dataHas m.tag) ∧
      ((∀ m ∈ s.path.link.inflight, goesOn m = true) →
        after.core = { s.path.core with link := after.link, flags := after.flags } ∧
        after.link.waiting = s.path.link.waiting ∧ after.flags &&& ~~~0x0008 = s.path.flags &&& ~~~0x0008 ∧
        ((∀ m ∈ s.path.link.inflight, m.attempts < g.retryLimit) → after.flags = s.path.flags) ∧
        s.path.countersKept after [.resends, .messagesIssued] ∧
        (∀ x, up.sHas x → after.sHas x) ∧ ∀ x, up.iHas x → after.iHas x))

/-- R161: LOSS_TIMER_EXPIRY completes whenever the loss timer runs. The link is LOST and every message of the in-flight list
fails, in order of first issue, then every request for a tag that waits, oldest first, each counted; STORE_GIVEUP is set. A
CHUNK's outcome goes to its entry's bucket; every context a CHUNK or a REF names that took parcels is told STORE_LOST, and
is in QUIESCING or LINGER for it; the container of a SEAL is gone; the items of a RELEASE batch go to their buckets as
failed (R155 to R158). The clock stands at the timer's end or later, which is the model's (log 3). That the waiting requests
fail after the messages, oldest first (log 45), the order in which the contexts of one lost REF batch are told STORE_LOST and
end (log 40), and that an unsent PACE STOP is discarded too as a stream ends (log 43), are the model's choices. -/
def Obligations.LossTimerFailsEverything : Prop :=
  ∀ (s : State) (time : Nat), s.path.link.lossTimer = some time →
    let c : Control := { s.ctl with now := max s.ctl.now time }
    let failed := s.path.link.inflight.foldl (fun q m => (Path.failMessage q c m).bump .messagesLinkLost 1)
      { s.path with link := { s.path.link with state := .lost, lossTimer := none } }
    let flagged := failed.setFlag .storeGiveUp
    ∃ t, exec .lossTimerExpiry s = .next t ∧ t.pending = s.pending ∧ t.ctl = c ∧ t.idx = s.idx ∧
      Passes c s.idx (Path.drainLost c s.idx flagged.tagWork flagged) t.path ∧
      t.path.link.state = .lost ∧ t.path.link.lossTimer = none ∧ t.path.link.inflight = [] ∧
      t.path.link.waiting = [] ∧ t.path.flagSet .storeGiveUp = true ∧
      ∀ content, ((∃ m ∈ s.path.link.inflight, m.content = content) ∨ .message content ∈ s.path.link.waiting) →
        s.path.failedIn t.path content

/-- R163, R150: when the last piece of a store message has been sent, the message that is still in SENDING under its serial
goes to AWAITING with a 200 ms answer timer; what is left of a message that has left SENDING goes nowhere. R173: when the
I-port carrier goes down grants stop, and the item being sent, which is one frame, is finished; when the carrier comes up grants
resume. R43: a PACE notice is counted when it has been sent, the carrier being up or down. Nothing else changes but by what comes next. R163, R165, R167, R168: with its carrier
the S-port takes SIDE's head where it is due for promotion, where DATA is empty or at its turn, the promotion counted where
DATA would have been next and the rotation count going to 0; else DATA's next message, of the resend set the one issued
first, of the CHUNK and the REF queue the one the alternation mark names, the rotation count rising up to N. R173: the
I-port takes the oldest PACE notice, else the head of the notice FIFO. R166, R174, R191: the places an item leaves go to the
oldest of the hold list, in order, in SIDE with the time, and a reply that takes one takes its request out of its queue.
That the item being sent has begun, and is one frame, is by inference (log 19). That all a command makes joins before an idle
transmitter takes an item is the model's choice (log 46). -/
def Obligations.TransmissionsEnd : Prop :=
  ∀ s : State, s.path.lostDrained →
    let c := s.ctl
    let sSent (x : SItem) : Path := { s.path with
      sPort := { s.path.sPort with tx := none }
      link := match x.sending with
        | some (tag, serial, _) => { s.path.link with
            inflight := s.path.link.inflight.map fun m =>
              if m.tag = tag ∧ m.serial = serial ∧ m.phase = .sending then { m with phase := .awaiting (c.now + 5000000) }
              else m }
        | none => s.path.link }
    let iIdle : Path :=
      let p : Path := { s.path with iPort := { s.path.iPort with tx := none } }
      match s.path.iPort.tx with
      | some (.pace _) => p.bump .paceNotices 1
      | _ => p
    let sGranted (p q : Path) : Prop :=
      (∀ time y rest, p.sPort.fifo = (time, y) :: rest → c.promotes time ∨ p.sPort.noData ∨ p.sPort.sideTurn c →
        let taken := p.sPort.hold.take (64 - rest.length)
        q.sPort = { p.sPort with
          tx := some y, rotation := 0, fifo := rest ++ taken.map fun z => (c.now, z)
          hold := p.sPort.hold.drop (64 - rest.length) } ∧
        (∀ port, q.queue port = (taken.foldl SItem.placed p).queue port) ∧
        (c.promotes time → ¬ p.sPort.noData → ¬ p.sPort.sideTurn c →
          q.counter .sidePromotions = min max48 (p.counter .sidePromotions + 1)) ∧
        (¬ c.promotes time ∨ p.sPort.noData ∨ p.sPort.sideTurn c →
          q.counter .sidePromotions = p.counter .sidePromotions)) ∧
      (∀ tag m d, (∀ time y rest, p.sPort.fifo = (time, y) :: rest → ¬ c.promotes time ∧ ¬ p.sPort.sideTurn c) →
        p.dataNext tag d → p.message tag = some m →
          q.sPort = { d with
            tx := some (.message tag m.serial), rotation := min c.tables.settings.rotation (d.rotation + 1) } ∧
          q.counter .sidePromotions = p.counter .sidePromotions) ∧
      (p.sPort.fifo = [] → p.sPort.noData → q.sPort = p.sPort)
    let iGranted (p q : Path) : Prop :=
      (∀ n rest, p.iPort.pace = n :: rest → q.iPort = { p.iPort with tx := some (.pace n), pace := rest }) ∧
      (∀ y rest, p.iPort.pace = [] → p.iPort.fifo = y :: rest →
        let taken := p.iPort.hold.take (64 - rest.length)
        q.iPort = { p.iPort with
          tx := some y, fifo := rest ++ taken, hold := p.iPort.hold.drop (64 - rest.length) } ∧
        ∀ port, q.queue port = (taken.foldl IItem.placed p).queue port) ∧
      (p.iPort.pace = [] → p.iPort.fifo = [] → q.iPort = p.iPort)
    let quiet : Prop := s.path.working ∧ ∀ port, ∀ r ∈ (s.path.queue port).reqs, Request.known r.request = true
    (∀ x, s.path.sPort.tx = some x →
      Completes .sPortTransmitDone s (s.withPath (sSent x)) ∧
      (s.path.sPort.carrier = true → quiet →
        ∃ t, exec .sPortTransmitDone s = .next t ∧ sGranted (sSent x) t.path)) ∧
    (s.path.iPort.tx ≠ none →
      Completes .iPortTransmitDone s (s.withPath iIdle) ∧
      (s.path.iPort.carrier = true → quiet →
        ∃ t, exec .iPortTransmitDone s = .next t ∧ iGranted iIdle t.path)) ∧
    (s.path.iPort.carrier = true → Completes .iPortCarrierDown s
      (s.withPath ({ s.path with iPort := { s.path.iPort with carrier := false } }))) ∧
    (s.path.iPort.carrier = false →
      Completes .iPortCarrierUp s (s.withPath ({ s.path with iPort := { s.path.iPort with carrier := true } })))

/-! ## Parcels and frames -/

/-- R3, R5: an OPEN that passes every check takes the lowest-numbered FREE slot, fills the context as R2 says, counts,
answers ACCEPTED with the slot, starts the warm-up timer and asks for the branch's hot list. A LINGER context of the same
identity is freed first. R6: so does a DATA parcel with number 0 and no context, as an implied STORE open where the branch
allows one; its payload is then taken as the first parcel of the new context, where the quota and the pool can take its
blocks, and a PACE STOP is made where they come to the STOP threshold (R40). That the OPEN REPLY and the PACE STOP both join
before an idle transmitter takes one is the model's choice (log 46). -/
def Obligations.OpenAccepted : Prop :=
  (∀ (s : State) (source : Mac) (branch stream mode endMode expected slot : Nat) (base : Path),
    let b := s.ctl.tables.activeBank.branch branch
    let pol := s.ctl.tables.activeBank.policy b.policy
    let x : Context :=
      { branch := branch, stream := stream, source := source
        mode := if mode = 2 then .verify else .store
        endMode := if mode = 2 then some (if endMode = 1 then .count else .marker) else none
        expected := if mode = 2 ∧ endMode = 1 then some (if expected = 0 then 16777216 else expected) else none
        policy := pol, holdTag := b.holdTag, quota := b.quota
        warmUp := some (s.ctl.now + 25000 * if pol.warmUp = 0 then 16 else pol.warmUp) }
    let opened := { base.withCtx slot x with eor := base.eor.filter fun n => n ≠ slot }
    let told := (opened.bump .opensAccepted 1).sendNotice (.openReply source branch stream .accepted slot)
    s.path.lostDrained → s.path.warm = none → s.ctl.mode = .serving → branch ≠ 0 → stream ≤ 15 →
    (mode = 1 ∨ mode = 2 ∧ (endMode = 1 ∨ endMode = 2)) → b.enabled = true → (mode = 2 → b.verifyAllowed = true) →
    (s.path.findCtx branch stream = none ∧ base = s.path ∨
      ∃ n x, s.path.findCtx branch stream = some (n, x) ∧ x.state = .linger ∧ base = s.path.freeCtx n) →
    base.openCount branch < b.streamLimit →
    (1 ≤ slot ∧ slot ≤ 384 ∧ tabGet base.contexts slot = none ∧
      ∀ n, 1 ≤ n → n < slot → (tabGet base.contexts n).isSome = true) →
      Completes (.openParcel .i source branch stream mode endMode expected) s
        (s.withPath { told with hotOps := told.hotOps ++ [.load branch (some slot)] })) ∧
  ∀ (s : State) (source : Mac) (branch stream slot : Nat) (payload : List Byte),
    let b := s.ctl.tables.activeBank.branch branch
    let pol := s.ctl.tables.activeBank.policy b.policy
    let blocks := blocksCovering 0 payload.length
    let x : Context :=
      { branch := branch, stream := stream, source := source, mode := .store, endMode := none, expected := none
        policy := pol, holdTag := b.holdTag, quota := b.quota
        warmUp := some (s.ctl.now + 25000 * if pol.warmUp = 0 then 16 else pol.warmUp)
        window := payload, inOrder := payload.length, expectedSeq := 1 }
    let stopped := { x with pace := .stop, lastStop := some s.ctl.now }
    let told := (Path.bump { s.path with eor := s.path.eor.filter fun n => n ≠ slot } .opensAccepted 1).sendNotice
      (.openReply source branch stream .accepted slot)
    let opened (x : Context) : Path :=
      Path.withCtx { told with hotOps := told.hotOps ++ [.load branch (some slot)] } slot x
    let takes (p : Path) := Completes (.dataParcel .i source branch stream 0 payload) s (s.withPath p)
    s.path.lostDrained → s.path.warm = none → s.ctl.mode = .serving → branch ≠ 0 → stream ≤ 15 →
    b.enabled = true → b.impliedOpen = true → s.path.findCtx branch stream = none →
    s.path.openCount branch < b.streamLimit →
    (1 ≤ slot ∧ slot ≤ 384 ∧ tabGet s.path.contexts slot = none ∧
      ∀ n, 1 ≤ n → n < slot → (tabGet s.path.contexts n).isSome = true) →
    blocks ≤ b.quota → blocks ≤ s.path.freeBlocks →
      (blocks < max 1 (b.quota - s.ctl.tables.settings.paceMargin) → takes (opened x)) ∧
      (max 1 (b.quota - s.ctl.tables.settings.paceMargin) ≤ blocks →
        takes (Path.makePace (opened stopped) ⟨slot, branch, stream, source, .stop, none⟩))

/-- R3, R4: an OPEN is refused with the reason of the first check that applies. It is counted, and
answered with the branch and stream number it gave; DUPLICATE_STREAM carries the slot of the context there is. It changes no
context, but that a LINGER context of the same identity, which the sixth check frees, stays FREE when a later check refuses. R6: so is the
implied open of a DATA parcel with number 0 and no context, BRANCH_DISABLED being its reason also where the branch does not
allow one; the parcel is then counted as one without a stream (R1). -/
def Obligations.OpenRefused : Prop :=
  (∀ (s : State) (source : Mac) (branch stream mode endMode expected slot : Nat) (reason : OpenReason) (base : Path),
    let b := s.ctl.tables.activeBank.branch branch
    let lastChecks : Prop :=
      if b.streamLimit ≤ base.openCount branch then reason = .branchLimit ∧ slot = 0
      else (∀ n, 1 ≤ n → n ≤ 384 → (tabGet base.contexts n).isSome = true) ∧ reason = .tableFull ∧ slot = 0
    s.path.lostDrained → s.path.warm = none →
    (if s.ctl.mode ≠ .serving then base = s.path ∧ reason = .wrongMode ∧ slot = 0
     else if branch = 0 ∨ 15 < stream ∨ (mode ≠ 1 ∧ mode ≠ 2) ∨ (mode = 2 ∧ endMode ≠ 1 ∧ endMode ≠ 2) then
       base = s.path ∧ reason = .badValue ∧ slot = 0
     else if b.enabled = false then base = s.path ∧ reason = .branchDisabled ∧ slot = 0
     else if mode = 2 ∧ b.verifyAllowed = false then base = s.path ∧ reason = .verifyNotAllowed ∧ slot = 0
     else match s.path.findCtx branch stream with
       | some (n, x) =>
         if x.state = .linger then base = s.path.freeCtx n ∧ lastChecks
         else base = s.path ∧ reason = .duplicateStream ∧ slot = n
       | none => base = s.path ∧ lastChecks) →
      Completes (.openParcel .i source branch stream mode endMode expected) s
        (s.withPath ((base.bump .opensRefused 1).sendNotice (.openReply source branch stream reason slot)))) ∧
  ∀ (s : State) (source : Mac) (branch stream : Nat) (payload : List Byte) (reason : OpenReason),
    let b := s.ctl.tables.activeBank.branch branch
    s.path.lostDrained → s.path.warm = none → s.path.findCtx branch stream = none →
    (if s.ctl.mode ≠ .serving then reason = .wrongMode
     else if branch = 0 ∨ 15 < stream then reason = .badValue
     else if b.enabled = false ∨ b.impliedOpen = false then reason = .branchDisabled
     else if b.streamLimit ≤ s.path.openCount branch then reason = .branchLimit
     else (∀ n, 1 ≤ n → n ≤ 384 → (tabGet s.path.contexts n).isSome = true) ∧ reason = .tableFull) →
      Completes (.dataParcel .i source branch stream 0 payload) s
        (s.withPath (((s.path.bump .opensRefused 1).sendNotice (.openReply source branch stream reason 0)).bump
          .parcelsWithoutStream 1))

/-- R1, R200: a stream parcel that arrives at the S-port or during a warm reset is dropped and counted, and so is a DATA
parcel (but number 0), a CLOSE or an ABORT whose identity has no context. -/
def Obligations.ParcelsWithoutStream : Prop :=
  ∀ (s : State) (port : Port) (source : Mac) (branch stream seq mode endMode expected final total : Nat)
    (payload : List Byte), s.path.lostDrained →
    (port = .s ∨ s.path.warm ≠ none →
      Completes (.openParcel port source branch stream mode endMode expected) s
        (s.withPath (s.path.bump .parcelsWithoutStream 1))) ∧
    (port = .s ∨ s.path.warm ≠ none ∨ (s.path.findCtx branch stream = none ∧ seq ≠ 0) →
      Completes (.dataParcel port source branch stream seq payload) s
        (s.withPath (s.path.bump .parcelsWithoutStream 1))) ∧
    (port = .s ∨ s.path.warm ≠ none ∨ s.path.findCtx branch stream = none →
      Completes (.closeParcel port source branch stream final total) s
        (s.withPath (s.path.bump .parcelsWithoutStream 1)) ∧
      Completes (.abortParcel port source branch stream) s (s.withPath (s.path.bump .parcelsWithoutStream 1)))

/-- R15, R23: a DATA, CLOSE or ABORT for a context in QUIESCING or LINGER draws a LATE notice to the parcel's source, and is
counted; the context does not change. -/
def Obligations.LateParcels : Prop :=
  ∀ (s : State) (source : Mac) (branch stream seq final total slot : Nat) (payload : List Byte) (x : Context),
    s.path.lostDrained → s.path.warm = none → s.path.findCtx branch stream = some (slot, x) →
    (x.state = .quiescing ∨ x.state = .linger) →
      Completes (.dataParcel .i source branch stream seq payload) s
        (s.withPath ((s.path.bump .lateParcels 1).sendNotice (.late source branch stream .data))) ∧
      Completes (.closeParcel .i source branch stream final total) s
        (s.withPath ((s.path.bump .lateParcels 1).sendNotice (.late source branch stream .close))) ∧
      Completes (.abortParcel .i source branch stream) s
        (s.withPath ((s.path.bump .lateParcels 1).sendNotice (.late source branch stream .abort)))

/-- R25, R26, R35, R40, R41, R45, R50: an in-order DATA parcel that its quota and the pool can take joins the window; the
expected sequence rises by 1, the gap count clears, and the end is signalled when the next parcel would be N. A Chunker that
reads settles its status. A GO context whose held blocks rose to the STOP threshold, or a STOP context whose last STOP is
1 ms old, makes a PACE STOP. R26, R36: the parcels of the reorder list that it lets follow, of consecutive numbers, join the
window after it, and the others stay; one that the quota or the pool cannot take is dropped as an overrun, and the joining
ends; the held blocks move the pace state at each (R37, R40, R41, R42: `Path.Joins`). So where the blocks they take stay below
the STOP threshold of a GO context, or above half the quota of a STOP context, no PACE notice is made, and where one parcel's
joining makes the held blocks of a STOP context fall to half its quota, a PACE GO is made. That such a joining is a fall that
R42 tests is by inference (log 8). -/
def Obligations.InOrderDataIsStaged : Prop :=
  ∀ (s : State) (source : Mac) (branch stream slot : Nat) (payload : List Byte) (x : Context),
    let e := x.expectedSeq
    let length := x.inOrder + payload.length
    let takes (p : Path) := Completes (.dataParcel .i source branch stream e payload) s (s.withPath p)
    let settled (y : Context) := if x.state = .opening then y
      else y.setStatus (if x.chunker.n = 0 ∧ 32 ≤ x.queue.length then .held else .running)
    let staged (joins rest : List Early) := settled { x with
      window := x.window ++ payload ++ joins.flatMap (·.payload)
      inOrder := length + (joins.map (·.payload.length)).sum, expectedSeq := e + 1 + joins.length
      reorder := rest, gapCount := 0
      chunker := { x.chunker with
        ended := decide (x.final = some (e + 1 + joins.length)) || x.chunker.ended } }
    let threshold := max 1 (x.quota - s.ctl.tables.settings.paceMargin)
    let recent := ∃ t, x.lastStop = some t ∧ s.ctl.now < t + 25000
    let first : Path :=
      let y := { x with window := x.window ++ payload, inOrder := length, expectedSeq := e + 1, gapCount := 0 }
      if x.pace = .go then s.path.withRise s.ctl slot y x.held
      else if x.stopRecent s.ctl.now then s.path.withCtx slot y
      else s.path.withPaced slot { y with lastStop := some s.ctl.now }
    let present := blocksCovering x.releasePoint length + reorderBlocks x.reorder
    s.path.lostDrained → s.path.warm = none →
    s.path.findCtx branch stream = some (slot, x) → tabGet s.path.contexts slot = some x → x.state.taking = true →
    e ≠ 0xFFFFFFFF → (∀ n, x.final = some n → e < n) → (∀ r ∈ x.reorder, r.seq ≠ e) →
    x.completed = false → x.countDone = false → x.readOffset < length → present ≤ x.quota →
      (x.reorder = [] → present ≤ s.path.freeBlocks + x.held →
        let y := staged [] []
        let stopped := { y with pace := .stop, lastStop := some s.ctl.now }
        let stops := (x.pace = .go ∧ x.held < y.held ∧ threshold ≤ y.held) ∨ (x.pace = .stop ∧ ¬ recent)
        (stops → takes (Path.makePace (s.path.withCtx slot stopped) ⟨slot, x.branch, x.stream, x.source, .stop, none⟩)) ∧
        (¬ stops → takes (s.path.withCtx slot y))) ∧
      (∀ q z, present ≤ s.path.freeBlocks + x.held → x.reorder.length ≤ 8 → Path.Joins s.ctl slot first q →
        tabGet q.contexts slot = some z →
          takes (q.withCtx slot (settled { z with chunker := { z.chunker with
            ended := decide (z.final = some z.expectedSeq) || z.chunker.ended } }))) ∧
      (∀ joins rest : List Early, x.reorder = joins ++ rest → joins.length ≤ 8 →
        joins.map (·.seq) = (List.range joins.length).map (fun i => e + 1 + i) →
        (∀ r, rest.head? = some r → r.seq ≠ e + 1 + joins.length) →
        tabWf s.path.contexts = true → x.releasePoint + x.window.length = x.inOrder →
        let most := blocksCovering x.releasePoint (length + (joins.map (·.payload.length)).sum) + reorderBlocks x.reorder
        most ≤ x.quota → most + (heldBlocks s.path.contexts - x.held) ≤ 2048 →
          (x.pace = .go ∧ most < threshold ∨
            x.pace = .stop ∧ recent ∧
              (x.state = .opening ∨ x.quota / 2 < blocksCovering x.releasePoint length + reorderBlocks rest) →
            takes (s.path.withCtx slot (staged joins rest))) ∧
          (∀ join, joins = [join] → x.pace = .stop → recent → x.state ≠ .opening →
            (staged joins rest).held < present → (staged joins rest).held ≤ x.quota / 2 →
              takes (Path.makePace (s.path.withCtx slot { staged joins rest with pace := .go })
                ⟨slot, x.branch, x.stream, x.source, .go, none⟩)))

/-- R25, R28: a DATA parcel that repeats a taken or waiting number, or carries 0xFFFFFFFF, or a number not below N, is dropped
and counted at its context and in the device's counter. R27: an early one is dropped and counted when the reorder list
holds 8; otherwise, where the quota and the pool can take its blocks, it waits in the list in sequence order. R40: a GO
context that comes to its STOP threshold by it makes a PACE STOP. R41: a STOP context makes a further one where its last STOP
is 1 ms old, and none where it is more recent. -/
def Obligations.DataOutOfOrderIsHeldOrDropped : Prop :=
  ∀ (s : State) (source : Mac) (branch stream seq slot : Nat) (payload : List Byte) (x : Context),
    let y := { x with reorder := insertEarly ⟨seq, payload⟩ x.reorder }
    let stopped := { y with pace := .stop, lastStop := some s.ctl.now }
    let recent := ∃ t, x.lastStop = some t ∧ s.ctl.now < t + 25000
    let stops := (x.pace = .go ∧ x.held < y.held ∧ max 1 (x.quota - s.ctl.tables.settings.paceMargin) ≤ y.held) ∨
      (x.pace = .stop ∧ ¬ recent)
    let early := x.expectedSeq < seq ∧ (∀ e ∈ x.reorder, e.seq ≠ seq) ∧ seq ≠ 0xFFFFFFFF ∧ ∀ n, x.final = some n → seq < n
    let takes (p : Path) := Completes (.dataParcel .i source branch stream seq payload) s (s.withPath p)
    s.path.lostDrained → s.path.warm = none →
    s.path.findCtx branch stream = some (slot, x) → tabGet s.path.contexts slot = some x → x.state.taking = true →
      (seq < x.expectedSeq ∨ (∃ e ∈ x.reorder, e.seq = seq) ∨ seq = 0xFFFFFFFF ∨ (∃ n, x.final = some n ∧ n ≤ seq) →
        takes ((s.path.withCtx slot { x with dupCount := min max48 (x.dupCount + 1) }).bump .duplicateParcels 1)) ∧
      (early → 8 ≤ x.reorder.length →
        takes ((s.path.withCtx slot { x with overflowCount := min max48 (x.overflowCount + 1) }).bump
          .reorderOverflows 1)) ∧
      (early → x.reorder.length < 8 → x.held + blocksOf payload.length ≤ x.quota →
        blocksOf payload.length ≤ s.path.freeBlocks →
          (stops → takes (Path.makePace (s.path.withCtx slot stopped) ⟨slot, x.branch, x.stream, x.source, .stop, none⟩)) ∧
          (¬ stops → takes (s.path.withCtx slot y)))

/-- R35, R36, R37, R41: a DATA parcel whose blocks would pass the quota is dropped as a quota overrun, and a context in GO,
or one in STOP whose last STOP is 1 ms old, makes a PACE STOP; one that the quota could take and the free pool cannot is
dropped as a pool overrun and sets STAGING_EXHAUSTED. When both fail, the quota is counted. The in-order parcel and the
early one are covered, in OPENING, ACTIVE and DRAINING. At an in-order parcel a Chunker that reads settles its status (R45),
and one that is COMPLETE stays so, its stream ending if it is done (R12). That an unsent PACE STOP is discarded too as a
stream ends is the model's choice (log 43). -/
def Obligations.OverrunDataIsDropped : Prop :=
  ∀ (s : State) (source : Mac) (branch stream seq slot would : Nat) (payload : List Byte) (x : Context),
    let counted := { x with overrunCount := min max48 (x.overrunCount + 1) }
    let reads := x.state ≠ .opening ∧ seq = x.expectedSeq
    let recent := ∃ t, x.lastStop = some t ∧ s.ctl.now < t + 25000
    let takes (p : Path) := Completes (.dataParcel .i source branch stream seq payload) s (s.withPath p)
    let dropped (y : Context) (done : Path → Path) : Prop :=
      (x.quota < would →
        (x.pace = .go ∨ ¬ recent →
          takes (done ((Path.makePace (s.path.withCtx slot { y with pace := .stop, lastStop := some s.ctl.now })
            ⟨slot, x.branch, x.stream, x.source, .stop, none⟩).bump .quotaOverruns 1))) ∧
        (x.pace = .stop → recent → takes (done ((s.path.withCtx slot y).bump .quotaOverruns 1)))) ∧
      (would ≤ x.quota → s.path.freeBlocks + x.held < would →
        takes (done (((s.path.withCtx slot y).bump .poolOverruns 1).setFlag .stagingExhausted)))
    s.path.lostDrained → s.path.warm = none →
    s.path.findCtx branch stream = some (slot, x) → tabGet s.path.contexts slot = some x → x.state.taking = true →
    (∀ e ∈ x.reorder, e.seq ≠ seq) → seq ≠ 0xFFFFFFFF → (∀ n, x.final = some n → seq < n) →
    (seq = x.expectedSeq ∧ would = blocksCovering x.releasePoint (x.inOrder + payload.length) + reorderBlocks x.reorder ∨
      x.expectedSeq < seq ∧ x.reorder.length < 8 ∧ would = x.held + blocksOf payload.length) →
      (¬ reads → dropped counted id) ∧
      (reads → x.completed = false → x.countDone = false → x.readOffset ≠ x.inOrder →
        dropped (counted.setStatus (if x.chunker.n = 0 ∧ 32 ≤ x.queue.length then .held else .running)) id) ∧
      (reads → x.completed = false → x.countDone = false → x.readOffset = x.inOrder → x.chunker.ended = false →
        dropped (counted.setStatus .starved) id) ∧
      (reads → x.completed = true → x.countDone = true → x.chunker.status = .complete → x.readOffset = x.inOrder →
        s.path.link.state ≠ .lost → dropped counted fun p => p.endsIfDone s.ctl slot)

/-- R9, R10, R50, R42: a CLOSE taken in OPENING or ACTIVE with N not below the expected sequence records N and the declared
total, drops the reorder entries numbered N or more, and makes an ACTIVE stream DRAINING, an OPENING one close-pending;
where N is the expected sequence the end is signalled. In ACTIVE, with parcels still to come or bytes still to be read, the
Chunker settles its status, and a fall of the held blocks to half the quota makes a PACE GO; with the end signalled and
every byte read, the final cut is made and the Chunker is COMPLETE, and a stream with nothing in its queue, nothing
unsettled and nothing unanswered ends at once (R12, R22). A second CLOSE in DRAINING is only counted at its context. That a
second CLOSE in OPENING replaces N and works out the end signal anew (log 14), that the GO test comes with the CLOSE (log
8), and what the device's duplicate counter does then (logs 24 and 25) are the model's. That an unsent PACE STOP is
discarded too as a stream ends is the model's choice (log 43). -/
def Obligations.CloseIsTaken : Prop :=
  ∀ (s : State) (source : Mac) (branch stream final total slot : Nat) (x : Context),
    let kept := x.reorder.filter fun e => decide (e.seq < final)
    let taken := { x with
      final := some final, total := some total, reorder := kept
      dupCount := min max48 (x.dupCount + (x.reorder.length - kept.length))
      chunker := { x.chunker with ended := decide (x.expectedSeq = final) } }
    let y := { taken with closePending := false, state := .draining }
    let z := y.setStatus (if x.readOffset = x.inOrder then .starved
      else if x.chunker.n = 0 ∧ 32 ≤ x.queue.length then .held else .running)
    let paced (w : Context) : Path :=
      if x.pace = .stop ∧ y.held < x.held ∧ y.held ≤ x.quota / 2 then
        Path.makePace (s.path.withCtx slot { w with pace := .go }) ⟨slot, x.branch, x.stream, x.source, .go, none⟩
      else s.path.withCtx slot w
    let takes (p : Path) := Completes (.closeParcel .i source branch stream final total) s (s.withPath p)
    s.path.lostDrained → s.path.warm = none →
    s.path.findCtx branch stream = some (slot, x) → tabGet s.path.contexts slot = some x →
      (x.state = .opening → x.expectedSeq ≤ final → takes (s.path.withCtx slot { taken with closePending := true })) ∧
      (x.state = .active → x.expectedSeq ≤ final → x.completed = false → x.countDone = false →
        (x.expectedSeq < final ∨ x.readOffset ≠ x.inOrder → takes (paced z)) ∧
        (x.expectedSeq = final → x.readOffset = x.inOrder → s.path.link.state ≠ .lost →
          takes ((paced y.finished).endsIfDone s.ctl slot))) ∧
      (x.state = .draining → takes (s.path.withCtx slot { x with dupCount := min max48 (x.dupCount + 1) }))

/-- R9, R13, R14, R15, R17, R22, R39, R43: an ABORT, a CLOSE with N below the expected sequence and a FORCE END end a stream
in OPENING, ACTIVE or DRAINING that has no issued lookup and no unanswered record at once: the CLOSE SUMMARY with its class
and cause goes to the branch, the stream is counted by its class, its PACE notice is discarded, and the context is in LINGER
with its linger timer running. One whose Chunker has become COMPLETE reports the end of its records first (R12, R172); the
request of a batch this closes fails on a LOST link, after the rest of the command (R161; logs 40, 43 and 45). -/
def Obligations.EarlyEndWithNothingInFlight : Prop :=
  ∀ (s : State) (slot : Nat) (x : Context),
    let linger (cls : EndClass) (cause : Option Cause) (x : Context) := { x with
      state := .linger, endClass := some cls, cause := cause, failPoint := none, queue := [], chunks := [], window := []
      reorder := [], warmUp := none, chunker := { x.chunker with status := .stopped }
      linger := some (s.ctl.now + 25000 * (100 * if x.policy.linger = 0 then 16 else x.policy.linger)) }
    let reported : Path := if x.completed = true then s.path.recordsEnd slot else s.path
    let ends (cls : EndClass) (cause : Option Cause) (n : Counter) (x : Context) : Path :=
      ((((reported.sendNotice (.summary x.source
        ⟨slot, x.branch, x.stream, x.mode, cls, cause, x.inOrder, x.summary, none, s.ctl.calendar⟩)).bump n 1).withCtx
        slot (linger cls cause x)).dropPace slot)
    s.path.warm = none → tabGet s.path.contexts slot = some x → x.state.taking = true →
    (∀ i ∈ x.queue, i.issued = false) → x.unanswered = 0 →
      (∀ (source : Mac) (branch stream : Nat), s.path.findCtx branch stream = some (slot, x) →
        CompletesDrained (.abortParcel .i source branch stream) s (s.withPath (ends .aborted none .streamsAborted x))) ∧
      (∀ (source : Mac) (branch stream final total : Nat), s.path.findCtx branch stream = some (slot, x) →
        x.state ≠ .draining → final < x.expectedSeq →
          CompletesDrained (.closeParcel .i source branch stream final total) s (s.withPath
            (ends .abnormal (some .lengthMismatch) .streamsAbnormal
              { x with final := some final, total := some total }))) ∧
      (∀ (port : Port) (n : Nat) (src : Mac), s.headRequest port = some ⟨n, src, .forceEnd slot⟩ →
        1 ≤ slot → slot ≤ 384 →
          RepliesDrained (.forceEnd port) s (s.withPath (ends .abnormal (some .forced) .streamsAbnormal x)) port
            ⟨n, src, .forceEnd slot⟩ (.done .none))

/-- R9, R13, R14, R16, R17, R39, R43: an ABORT, a CLOSE with N below the expected sequence and a FORCE END make a stream in
OPENING, ACTIVE or DRAINING that has an issued lookup or an unanswered record QUIESCING with their class and cause: it keeps
the items whose lookups have been issued with their bytes, which end where the last of them ends, gives up the others with its
reorder list, its warm-up timer stops, its Chunker is STOPPED, and its unsent PACE notice is discarded. One whose Chunker has
become COMPLETE and that keeps no item reports the end of its records (R12, R172); the request of a batch this closes fails on
a LOST link, after the rest of the command (R161; logs 40, 43 and 45). -/
def Obligations.AbortQuiesces : Prop :=
  ∀ (s : State) (slot : Nat) (x : Context),
    let parks (cls : EndClass) (cause : Option Cause) (x : Context) : Path :=
      let p := Path.dropPace (s.path.withCtx slot (x.parked cls cause)) slot
      if x.completed = true ∧ ∀ i ∈ x.queue, i.issued = false then p.recordsEnd slot else p
    s.path.warm = none → tabGet s.path.contexts slot = some x → x.state.taking = true →
    (x.unanswered ≠ 0 ∨ ∃ i ∈ x.queue, i.issued = true) →
      (∀ (source : Mac) (branch stream : Nat), s.path.findCtx branch stream = some (slot, x) →
        CompletesDrained (.abortParcel .i source branch stream) s (s.withPath (parks .aborted none x))) ∧
      (∀ (source : Mac) (branch stream final total : Nat), s.path.findCtx branch stream = some (slot, x) →
        x.state ≠ .draining → final < x.expectedSeq →
          CompletesDrained (.closeParcel .i source branch stream final total) s (s.withPath
            (parks .abnormal (some .lengthMismatch) { x with final := some final, total := some total }))) ∧
      (∀ (port : Port) (n : Nat) (src : Mac), s.headRequest port = some ⟨n, src, .forceEnd slot⟩ →
        1 ≤ slot → slot ≤ 384 →
          RepliesDrained (.forceEnd port) s (s.withPath (parks .abnormal (some .forced) x)) port
            ⟨n, src, .forceEnd slot⟩ (.done .none))

/-- R190, R191: a request from a source the list does not admit is dropped, counted and flagged; one that finds its queue of
8 full is counted and answered BUSY at once, or, where that answer finds no place, dropped and flagged; any other joins the
tail of its port's queue, where it stays unless its kind is unknown and it is at the head (log 13). That the queue-full
counter rises in both cases is the model's choice (log 26). -/
def Obligations.RequestsArrive : Prop :=
  ∀ (s : State) (port : Port) (source : Mac) (number : Nat) (request : Request), s.path.lostDrained →
    (s.ctl.sources ≠ [] → source ∉ s.ctl.sources → Completes (.mgmtParcel port source number request) s
      (s.withPath ((s.path.bump .requestsDropped 1).setFlag .mgmtDrop))) ∧
    (s.ctl.sources = [] ∨ source ∈ s.ctl.sources →
      ((s.path.queue port).reqs.length < 8 →
        let u := s.withPath (s.path.setQueue port
          { s.path.queue port with reqs := (s.path.queue port).reqs ++ [⟨number, source, request⟩] })
        Completes (.mgmtParcel port source number request) s u ∧
        (Request.known request = true → CompletesAtQueue (.mgmtParcel port source number request) s u port)) ∧
      (8 ≤ (s.path.queue port).reqs.length → s.path.replyRoom port = true →
        Completes (.mgmtParcel port source number request) s
          (s.withPath ((s.path.bump .requestsQueueFull 1).handed s.ctl.now port
            ⟨none, source, number, requestCode request, .refused, some .busy, .none, none⟩))) ∧
      (8 ≤ (s.path.queue port).reqs.length → s.path.replyRoom port = false →
        Completes (.mgmtParcel port source number request) s
          (s.withPath (((s.path.bump .requestsQueueFull 1).bump .repliesDropped 1).setFlag .mgmtDrop))))

/-- R151, R152, R153, R155, R156, R157: a STORE ANSWER is stale at the I-port, and where no message holds its tag and serial
in SENDING or AWAITING. BUSY puts the message in RETRY WAIT for 2 ms. ACCEPT and FAIL free the tag, and do what their rules
give the message's kind: a CHUNK is answered at its container and settled at its stream, its outcome goes to its entry's
bucket, and FAIL tells the stream STORE_LOST; each REF of a batch is answered at its stream, and FAIL tells every stream it
names STORE_LOST, with the REF of the lowest ordinal; the streams this brings to their end end (R12, R15, R22). A RELEASE
batch's items go to their buckets with the outcome; a SEAL's container is removed and counted, a FAIL setting STORE_GIVEUP.
In each case the message leaves the S-port's queues, and R163: if it is being sent, the piece begun is finished and the
others are not sent. Which pieces have begun is a free value (log 15); the order of several streams is the order in which
the batch first names them (log 40). That an unsent PACE STOP is discarded too as a stream ends is the model's choice (log
43). -/
def Obligations.StoreAnswersAreTaken : Prop :=
  (∀ (s : State) (port : Port) (tag serial : Nat) (verdict : Verdict) (m : Message),
    let port' := { s.path.sPort with
      tx := s.path.sPort.tx.map fun x => if x.sends tag serial then x.fixed s.path s.ctl false else x
      resend := s.path.sPort.resend.filter fun t => t ≠ tag
      chunkQ := s.path.sPort.chunkQ.filter fun t => t ≠ tag
      refQ := s.path.sPort.refQ.filter fun t => t ≠ tag
      fifo := s.path.sPort.fifo.filter fun x => !x.2.isMessageOf tag
      hold := s.path.sPort.hold.filter fun x => !x.isMessageOf tag }
    let waits := s.path.link.inflight.map fun o =>
      if o.tag = tag then { o with phase := .retryWait (s.ctl.now + 50000) } else o
    let freed : Path := { s.path with
      sPort := port', link := { s.path.link with inflight := s.path.link.inflight.filter fun o => o.tag ≠ tag } }
    let takes (v : Verdict) (p : Path) := Completes (.storeAnswer .s tag serial v) s (s.withPath p)
    s.path.lostDrained →
    ((port = .i ∨ ∀ o, s.path.message tag = some o → o.serial ≠ serial ∨ o.phase.answerable = false) →
      Completes (.storeAnswer port tag serial verdict) s (s.withPath (s.path.bump .staleAnswers 1))) ∧
    (s.path.message tag = some m → m.serial = serial → m.phase.answerable = true →
      takes .busy (Path.bump { s.path with sPort := port', link := { s.path.link with inflight := waits } }
        .busyAnswers 1) ∧
      (s.path.link.state ≠ .lost ∨ (∃ items, m.content = .release items) ∨ (∃ r, m.content = .seal r) →
        takes .accept ((freed.bump .storeAccepts 1).afterAccept s.ctl m.content) ∧
        takes .fail (freed.afterFail s.ctl m.content)))) ∧
  (∀ (items : List RefItem) (slot : Nat) (i : RefItem), lowestRef items slot = some i →
    i ∈ items ∧ i.slot = slot ∧ ∀ j ∈ items, j.slot = slot → i.ordinal ≤ j.ordinal) ∧
  ∀ (s : State) (tag serial : Nat) (verdict : Verdict) (m : Message) (x : SItem),
    s.path.link.state ≠ .lost → s.path.message tag = some m → m.serial = serial → m.phase.answerable = true →
    s.path.sPort.tx = some x → x.sends tag serial = true →
      ∃ t y, exec (.storeAnswer .s tag serial verdict) s = .next t ∧ t.path.sPort.tx = some y ∧ y.sending = none ∧
        t.sLanes <+: s.sLanes ∧ (m.phase = .sending → t.sLanes.head? = s.sLanes.head?)

/-- R166, R174, R175: a frame of another EtherType than the one in force joins the other port's FIFO unchanged and is counted,
or is dropped and counted where the FIFO has no place or holds others back. A frame of the EtherType in force is taken as the
command it holds: an OPEN, DATA, CLOSE, ABORT or management request, a STORE ANSWER, or a malformed or wrong-way frame.
R175, R207: a frame with a bad FCS, a malformed frame and a frame of the wrong direction do nothing but raise their counter;
the last has one counter for both ports. -/
def Obligations.FramesPassOrAreCounted : Prop :=
  ∀ (s : State) (port : Port) (frame : List Byte),
    exec (.passThroughFrame port frame) s =
      exec (Wire.classifyFrame s.ctl.tables.settings.etherType port frame) s ∧
    (s.path.lostDrained →
      (14 ≤ frame.length → frame.length ≤ 9212 →
        256 * (frame.getD 12 0).toNat + (frame.getD 13 0).toNat ≠ s.ctl.tables.settings.etherType →
        (s.path.sPort.room = true → Completes (.passThroughFrame .i frame) s (s.withPath (Path.bump { s.path with
          sPort := { s.path.sPort with fifo := s.path.sPort.fifo ++ [(s.ctl.now, .frame frame)] } } .forwardedIToS 1))) ∧
        (s.path.sPort.room = false → Completes (.passThroughFrame .i frame) s
          (s.withPath (s.path.bump .dropsSTransmit 1))) ∧
        (s.path.iPort.room = true → Completes (.passThroughFrame .s frame) s (s.withPath (Path.bump { s.path with
          iPort := { s.path.iPort with fifo := s.path.iPort.fifo ++ [.frame frame] } } .forwardedSToI 1))) ∧
        (s.path.iPort.room = false → Completes (.passThroughFrame .s frame) s
          (s.withPath (s.path.bump .dropsITransmit 1)))) ∧
      Completes (.fcsErrorFrame .i) s (s.withPath (s.path.bump .fcsErrorsI 1)) ∧
      Completes (.fcsErrorFrame .s) s (s.withPath (s.path.bump .fcsErrorsS 1)) ∧
      Completes (.malformedFrame .i) s (s.withPath (s.path.bump .malformedI 1)) ∧
      Completes (.malformedFrame .s) s (s.withPath (s.path.bump .malformedS 1)) ∧
      Completes (.wrongDirectionFrame port) s (s.withPath (s.path.bump .wrongDirection 1)))

/-! ## Requests at the Management Responder and the Table Banks -/

/-- R194, R196, R197, R198: IDENTIFY and READ STATUS change nothing; the contexts that READ STATUS counts by state are 384
together. READ COUNTERS answers all 65 counters in order; the clear option, set (code 1), leaves them 0, and, clear (code
2), leaves them (R203). CLEAR FLAGS of flags there are clears just these; one that names anything else clears nothing; both
answer the flags after it. R189, R191, R202: an IDENTIFY handled raises the counter of requests handled by 1, and where its
reply takes a place in its port's FIFO it leaves its queue, the next being the head; where the reply waits in the hold list
it stays at the head. That READ STATUS and READ COUNTERS take all they report in one step (log 39), that READ COUNTERS is
not in its own counts (log 27), that a clear option of any other code is refused (log 30), and the flags in a refused reply
(log 31) are the model's. -/
def Obligations.ThePartIsRead : Prop :=
  ∀ (s : State) (port : Port) (n : Nat) (src : Mac), s.path.lostDrained →
    (s.headRequest port = some ⟨n, src, .identify⟩ →
      Replies (.identify port) s s port ⟨n, src, .identify⟩ (.done .identity) ∧
        (s.path.working → (∀ other, ∀ r ∈ (s.path.queue other).reqs, Request.known r.request = true) →
          ∃ t, exec (.identify port) s = .next t ∧
            t.path.counter .requestsHandled = min max48 (s.path.counter .requestsHandled + 1) ∧
            t.path.queue port = if s.path.replyRoom port then ⟨(s.path.queue port).reqs.tail, .waiting⟩
              else { s.path.queue port with head := .replying })) ∧
    (s.headRequest port = some ⟨n, src, .readStatus⟩ →
      Replies (.readStatus port) s s port ⟨n, src, .readStatus⟩ (.done (.status s.statusReport)) ∧
        (s.path.contexts.length ≤ 384 → s.statusReport.contexts.sum = 384)) ∧
    (∀ option values, s.headRequest port = some ⟨n, src, .readCounters option⟩ → values.length = 65 →
      (∀ c : Counter, values[c.place]? = some (s.path.counter c)) →
        let replies (p : Path) (a : Answer) :=
          Replies (.readCounters port) s (s.withPath p) port ⟨n, src, .readCounters option⟩ a
        (option = 1 → replies { s.path with counters := [] } (.done (.counters values))) ∧
        (option = 2 → replies s.path (.done (.counters values))) ∧
        (option ≠ 1 → option ≠ 2 → replies s.path (.refuse .badValue))) ∧
    (∀ mask, s.headRequest port = some ⟨n, src, .clearFlags mask⟩ →
      (mask &&& 0xFE00 = 0 →
        Replies (.clearFlags port) s (s.withPath ({ s.path with flags := s.path.flags &&& ~~~mask })) port
          ⟨n, src, .clearFlags mask⟩ (.done (.flags (s.path.flags &&& ~~~mask)))) ∧
      (mask &&& 0xFE00 ≠ 0 →
        Replies (.clearFlags port) s s port ⟨n, src, .clearFlags mask⟩ (.refuseWith .badValue (.flags s.path.flags))))

/-- R83, R199, R182: READ ENTRY answers the entry that a search finds, PENDING, LIVE or RELEASING, with its address, and
NOT_FOUND where there is none or the group is not READY. READ STREAM answers the context of a slot, NOT_FOUND for a FREE
one, BAD_VALUE for a number that is no slot. READ TABLE, the first case that applies deciding, is
BAD_VALUE for an unknown kind, for a bank that is neither A nor B, for no entry, for a range past the end of the table (32
policies, 4096 branches, 256 words of a gear table), for branch 0 and for a gear table above 3; TOO_MANY for more than 64
branches or words; BUSY for the standby bank while it is copied; and else answers the entries of the bank or of the gear table
named, with the active bank. None of them changes anything. That READ STREAM takes the context and its queue's figures
in one step is the model's choice (log 39). -/
def Obligations.EntriesStreamsAndTablesAreRead : Prop :=
  ∀ (s : State) (port : Port) (n : Nat) (src : Mac), s.path.lostDrained →
    (∀ f answer, s.headRequest port = some ⟨n, src, .readEntry f⟩ →
      (match s.idx.readyPage (s.idx.bucket f) with
        | none => answer = Answer.refuse .notFound
        | some page =>
          match s.idx.search page (s.idx.bucket f) f with
          | .absent => answer = Answer.refuse .notFound
          | .held a e => answer = Answer.done (.entry ⟨e, a, decide (a < 65536), s.idx.marked (s.idx.bucket f),
              if e.state = .pending then (s.path.petOf a).map (·.1) else none⟩)
          | .releasing a e => answer = Answer.done (.entry ⟨e, a, decide (a < 65536), s.idx.marked (s.idx.bucket f),
              if e.state = .pending then (s.path.petOf a).map (·.1) else none⟩)) →
      Replies (.readEntry port) s s port ⟨n, src, .readEntry f⟩ answer) ∧
    (∀ slot answer, s.headRequest port = some ⟨n, src, .readStream slot⟩ →
      (if 1 ≤ slot ∧ slot ≤ 384 then
        match tabGet s.path.contexts slot with
        | some x => answer = Answer.done (.stream slot x x.figures)
        | none => answer = Answer.refuse .notFound
       else answer = Answer.refuse .badValue) →
      Replies (.readStream port) s s port ⟨n, src, .readStream slot⟩ answer) ∧
    (∀ read answer, s.headRequest port = some ⟨n, src, .readTable read⟩ →
      let t := s.ctl.tables
      let held (bank : Nat) := if bank = 1 then t.bankA else t.bankB
      let busy (bank : Nat) : Prop := bank ≠ (if t.active = .a then 1 else 2) ∧ t.copying = true
      (match read with
        | .policy bank first count =>
          if bank ≠ 1 ∧ bank ≠ 2 ∨ count = 0 ∨ 32 < first + count then answer = Answer.refuse .badValue
          else if busy bank then answer = Answer.refuse .busy
          else ∃ rows, rows.length = count ∧ (∀ i, i < count → rows[i]? = some ((held bank).policy (first + i))) ∧
            answer = Answer.done (.bankRows t.active (.policies rows))
        | .branch bank first count =>
          if bank ≠ 1 ∧ bank ≠ 2 ∨ count = 0 ∨ 4096 < first + count ∨ first = 0 then answer = Answer.refuse .badValue
          else if 64 < count then answer = Answer.refuse .tooMany
          else if busy bank then answer = Answer.refuse .busy
          else ∃ rows, rows.length = count ∧ (∀ i, i < count → rows[i]? = some ((held bank).branch (first + i))) ∧
            answer = Answer.done (.bankRows t.active (.branches rows))
        | .gear table first count =>
          if count = 0 ∨ 256 < first + count ∨ 3 < table then answer = Answer.refuse .badValue
          else if 64 < count then answer = Answer.refuse .tooMany
          else ∃ words, words.length = count ∧
            (∀ i, i < count → words[i]? = some (tabGetD t.gear (256 * table + (first + i)) 0)) ∧
            answer = Answer.done (.bankRows t.active (.gears words))
        | .unknown _ => answer = Answer.refuse .badValue) →
      Replies (.readTable port) s s port ⟨n, src, .readTable read⟩ answer)

/-- R187, R29, R167, R170: a SET SETTINGS that names an unknown field or a value out of range changes nothing and answers
the record as it is. Any other writes the fields it names, in order, and answers the record after it; the gap timer restarts
where its interval changes, the rotation count comes down to N, and the open REF batch closes where it meets the new fence.
R186, R202: what was made under the old EtherType and store address keeps them: the frame being sent and every notice and
reply that waits at the I-port, every reply at the S-port, and of a store message being sent the pieces begun, the first
among them; the other pieces take the new ones. That a field named twice takes the last value given (log 30), that the
rotation count comes down at once (log 23), the record in a refused reply (log 31), and which pieces have begun (log 15) are
the model's. -/
def Obligations.SettingsAreSet : Prop :=
  ∀ (s : State) (port : Port) (n : Nat) (src : Mac) (writes : List SettingWrite),
    let old := s.ctl.tables.settings
    let new := writes.foldl Settings.write old
    let ctl := { s.ctl with
      tables := { s.ctl.tables with settings := new }
      gapTimer := if new.gapSteps = old.gapSteps then s.ctl.gapTimer else s.ctl.now + 250000 * new.gapSteps }
    let kept := s.path.keepFrames s.ctl new
    let path := { kept with sPort := { kept.sPort with rotation := min kept.sPort.rotation new.rotation } }
    let frames (q : IPort) (g : Settings) : List (List (List Byte)) :=
      q.tx.toList.map (IItem.frames g) ++ q.pace.map (fun x => IItem.frames g (.pace x)) ++
        q.fifo.map (IItem.frames g) ++ q.hold.map (IItem.frames g)
    let replies (p : Path) (q : SPort) (g : Settings) : List (List (List Byte)) :=
      (q.tx.toList ++ q.fifo.map (·.2) ++ q.hold).map fun x => match x.sending with
        | some _ => []
        | none => x.frames p g
    s.headRequest port = some ⟨n, src, .setSettings writes⟩ →
      (s.path.lostDrained → (∃ w ∈ writes, SettingWrite.known w = false ∨ SettingWrite.inRange w = false) →
        Replies (.setSettings port) s s port ⟨n, src, .setSettings writes⟩ (.refuseWith .badValue (.settings old))) ∧
      (s.path.link.state ≠ .lost → (∀ w ∈ writes, SettingWrite.known w = true ∧ SettingWrite.inRange w = true) →
        Replies (.setSettings port) s
          { s with
            ctl := ctl
            path := if s.path.batch.items ≠ [] ∧ (new.fence = 0 ∨ new.fence ≤ s.path.batch.items.length) then
                path.batchClosed
              else path }
          port ⟨n, src, .setSettings writes⟩ (.done (.settings new))) ∧
      kept.core = s.path.core ∧ kept.counters = s.path.counters ∧
      (new.etherType = old.etherType → new.storeAddr = old.storeAddr → kept = s.path) ∧
      frames kept.iPort new = frames s.path.iPort old ∧ replies kept kept.sPort new = replies s.path s.path.sPort old ∧
      ∀ x tag serial made, s.path.sPort.tx = some x → x.sending = some (tag, serial, made) →
        ∃ y k, kept.sPort.tx = some y ∧ 1 ≤ k ∧
          y.frames kept new = (x.frames s.path old).take k ++ (s.path.messageFrames new tag serial).drop k

/-- R180, R181: a LOAD TABLE of policies in their ranges is taken into the standby bank while no copy runs: k is clamped to 8
to 16, MIN rounded down to 64 and clamped to 64 to 2^k, MAX rounded down and clamped to 2^k to 65536; the reply carries
the entries as stored, DONE_ADJUSTED if a value was changed. No other entry changes. One with a value out of range, or with a
code that names neither on nor off for confirm, is refused and changes nothing. That on has code 1 and off code 2 is log
30's. -/
def Obligations.PoliciesAreLoaded : Prop :=
  ∀ (s : State) (port : Port) (n first : Nat) (src : Mac) (rows : List PolicyRow) (stored : List PolicyEntry),
    let t := s.ctl.tables
    let given : List PolicyEntry := rows.map fun e =>
      ⟨e.k, e.min, e.max, e.gear, decide (e.confirm = 1), e.retention, e.cls, e.warmUp, e.linger⟩
    s.path.lostDrained → s.ctl.legal = true →
    s.headRequest port = some ⟨n, src, .loadTable (.policy first rows)⟩ → t.copying = false →
    rows ≠ [] → first + rows.length ≤ 32 →
    ((∃ e ∈ rows, 3 < e.gear ∨ 7 < e.cls ∨ 15 < e.warmUp ∨ 15 < e.linger ∨ e.confirm ≠ 1 ∧ e.confirm ≠ 2) →
      Replies (.loadTable port) s s port ⟨n, src, .loadTable (.policy first rows)⟩ (.refuse .badValue)) ∧
    ((∀ e ∈ rows, e.gear ≤ 3 ∧ e.cls ≤ 7 ∧ e.warmUp ≤ 15 ∧ e.linger ≤ 15 ∧ e.retention ≤ 65535 ∧
      (e.confirm = 1 ∨ e.confirm = 2)) →
    stored = given.map (fun e =>
      let k := max 8 (min 16 e.k)
      { e with
        k := k, min := max 64 (min (2 ^ k) (e.min / 64 * 64)), max := max (2 ^ k) (min 65536 (e.max / 64 * 64)) }) →
      ∃ bank : Bank,
        Replies (.loadTable port) s
          ((s.withTables (t.setBank t.active.other bank)).withPath (s.path.bump .tableLoads 1)) port
          ⟨n, src, .loadTable (.policy first rows)⟩
          { status := if stored = given then .done else .doneAdjusted, result := .rows (.policies stored) } ∧
        bank.branches = t.standbyBank.branches ∧
        ∀ i, bank.policy i =
          (if first ≤ i ∧ i < first + rows.length then stored.getD (i - first) {} else t.standbyBank.policy i))

/-- R180, R181, R185: a LOAD TABLE of branches in their ranges is taken into the standby bank with the stream limit clamped to
1 to 8 and the quota to 16 to 512; one with a value out of range, or with a code that names neither on nor off, is refused and
changes nothing; one of a gear table is written at once, and is refused with IN_USE while a stream that is
not in LINGER names the table. For every kind, policies too, an unknown one, no entry, a range past the end of the
table, branch 0 and a gear table above 3 are refused with BAD_VALUE, more than 64 branches or words of a gear table with
TOO_MANY, and a load of a banked table during a copy with BUSY, whatever its values. That on has code 1 and off code 2 is log
30's. -/
def Obligations.BranchesAndGearsAreLoaded : Prop :=
  ∀ (s : State) (port : Port) (n first : Nat) (src : Mac),
    let t := s.ctl.tables
    s.path.lostDrained → s.ctl.legal = true →
    (∀ load, s.headRequest port = some ⟨n, src, .loadTable load⟩ →
      let refused (r : Reason) := Replies (.loadTable port) s s port ⟨n, src, .loadTable load⟩ (.refuse r)
      match load with
      | .policy first rows =>
        (rows = [] ∨ 32 < first + rows.length → refused .badValue) ∧
          (rows ≠ [] → first + rows.length ≤ 32 → t.copying = true → refused .busy)
      | .branch first rows =>
        let out := rows = [] ∨ 4096 < first + rows.length ∨ first = 0
        (out → refused .badValue) ∧ (¬ out → 64 < rows.length → refused .tooMany) ∧
          (¬ out → rows.length ≤ 64 → t.copying = true → refused .busy)
      | .gear table first values =>
        let out := values = [] ∨ 256 < first + values.length ∨ 3 < table
        (out → refused .badValue) ∧ (¬ out → 64 < values.length → refused .tooMany)
      | .unknown _ => refused .badValue) ∧
    (∀ (rows : List BranchRow) (stored : List BranchEntry), s.headRequest port = some ⟨n, src, .loadTable (.branch first rows)⟩ →
      1 ≤ first → 1 ≤ rows.length → rows.length ≤ 64 → first + rows.length ≤ 4096 →
      (t.copying = false → (∃ e ∈ rows, 31 < e.policy ∨ 15 < e.holdTag ∨ e.enabled ≠ 1 ∧ e.enabled ≠ 2 ∨
          e.impliedOpen ≠ 1 ∧ e.impliedOpen ≠ 2 ∨ e.verifyAllowed ≠ 1 ∧ e.verifyAllowed ≠ 2) →
        Replies (.loadTable port) s s port ⟨n, src, .loadTable (.branch first rows)⟩ (.refuse .badValue)) ∧
      (t.copying = false → (∀ e ∈ rows, e.policy ≤ 31 ∧ e.holdTag ≤ 15 ∧ (e.enabled = 1 ∨ e.enabled = 2) ∧
          (e.impliedOpen = 1 ∨ e.impliedOpen = 2) ∧ (e.verifyAllowed = 1 ∨ e.verifyAllowed = 2)) →
        let given : List BranchEntry := rows.map fun e =>
          ⟨decide (e.enabled = 1), e.policy, e.holdTag, e.streamLimit, e.quota, decide (e.impliedOpen = 1),
            decide (e.verifyAllowed = 1)⟩
        stored = given.map (fun e => { e with
          streamLimit := max 1 (min 8 e.streamLimit), quota := max 16 (min 512 e.quota) }) →
        ∃ bank : Bank,
          Replies (.loadTable port) s
            ((s.withTables (t.setBank t.active.other bank)).withPath (s.path.bump .tableLoads 1)) port
            ⟨n, src, .loadTable (.branch first rows)⟩
            { status := if stored = given then .done else .doneAdjusted, result := .rows (.branches stored) } ∧
          bank.policies = t.standbyBank.policies ∧
          ∀ i, bank.branch i =
            (if first ≤ i ∧ i < first + rows.length then stored.getD (i - first) {} else t.standbyBank.branch i))) ∧
    (∀ (table : Nat) (values : List Word32), s.headRequest port = some ⟨n, src, .loadTable (.gear table first values)⟩ →
      table ≤ 3 → 1 ≤ values.length → values.length ≤ 64 → first + values.length ≤ 256 →
      ((∃ sc ∈ s.path.contexts, sc.2.state ≠ .linger ∧ sc.2.policy.gear = table) →
        Replies (.loadTable port) s s port ⟨n, src, .loadTable (.gear table first values)⟩ (.refuse .inUse)) ∧
      ((∀ sc ∈ s.path.contexts, sc.2.state = .linger ∨ sc.2.policy.gear ≠ table) →
        ∃ gear : Tab Word32,
          Replies (.loadTable port) s
            ((s.withTables { t with gear := gear }).withPath (s.path.bump .tableLoads 1)) port
            ⟨n, src, .loadTable (.gear table first values)⟩ (.done (.rows (.gears values))) ∧
          ∀ i, tabGetD gear i 0 =
            (if 256 * table + first ≤ i ∧ i < 256 * table + first + values.length then
              values.getD (i - (256 * table + first)) 0 else tabGetD t.gear i 0)))

/-- R183: SWAP BANKS with no copy running makes the standby bank active, begins a copy, is counted, and answers the new active
bank; while a copy runs it is NOT_TAKEN. At the copy's end both banks hold what the active one holds. -/
def Obligations.BanksAreSwappedAndCopied : Prop :=
  ∀ (s : State) (port : Port) (n : Nat) (src : Mac),
    let t := s.ctl.tables
    let other : BankId := if t.active = .a then .b else .a
    let held := if t.active = .a then t.bankA else t.bankB
    s.path.lostDrained →
    (s.headRequest port = some ⟨n, src, .swapBanks⟩ →
      (t.copying = true → Replies (.swapBanks port) s s port ⟨n, src, .swapBanks⟩ { status := .notTaken }) ∧
      (t.copying = false →
        Replies (.swapBanks port) s
          ((s.withTables { t with active := other, copying := true }).withPath (s.path.bump .bankSwaps 1)) port
          ⟨n, src, .swapBanks⟩ (.done (.bank other)))) ∧
    (t.copying = true →
      Completes .bankCopyComplete s (s.withTables { t with bankA := held, bankB := held, copying := false }))

/-! ## The calendar -/

/-- R132, R133, R134, R135: a SET DATE in its ranges writes the calendar, makes it SET, starts the divider again and clears
CALENDAR_UNSET; one out of its ranges is refused with BAD_VALUE. A NUDGE of an UNSET calendar is refused; otherwise its
amount is clamped to -30 to 30 and moves the seconds, stopping at 0 downwards, and rolling the date over upwards. The amount
0 in a refused NUDGE's reply is the model's choice (log 31). The calendar before a NUDGE is in its ranges, as every step
keeps it (O6). -/
def Obligations.TheCalendarIsSetAndNudged : Prop :=
  ∀ (s : State) (port : Port) (n : Nat) (src : Mac),
    let cal := s.ctl.calendar
    (∀ year month day seconds dayNumber : Nat,
      let r : Req := ⟨n, src, .setDate year month day seconds dayNumber⟩
      let good := year ≤ 99 ∧ 1 ≤ month ∧ month ≤ 12 ∧ 1 ≤ day ∧ day ≤ 31 ∧ seconds ≤ 86399
      let given : Calendar := ⟨year, month, day, seconds, dayNumber, true⟩
      s.headRequest port = some r → s.path.lostDrained →
        (good → Replies (.setDate port) s
          { s with
            ctl := { s.ctl with calendar := given, divider := s.ctl.now + 25000000 }
            path := { s.path with flags := s.path.flags &&& ~~~0x0080 } }
          port r (.done (.calendar given))) ∧
        (¬ good → Replies (.setDate port) s s port r (.refuse .badValue))) ∧
    (∀ amount clamped : Int,
      let r : Req := ⟨n, src, .nudge amount⟩
      let answer (after : Calendar) : Answer :=
        { status := if clamped = amount then .done else .doneAdjusted, result := .nudged clamped after }
      let moved : Calendar := { cal with seconds := (cal.seconds + clamped).toNat }
      let rolled := Calendar.rollover { cal with seconds := (cal.seconds + clamped).toNat - 86400 }
      s.headRequest port = some r → cal.legal = true → clamped = max (-30) (min 30 amount) →
        (cal.isSet = false → s.path.lostDrained →
          Replies (.nudge port) s s port r (.refuseWith .wrongMode (.nudged 0 cal))) ∧
        (cal.isSet = true → s.path.lostDrained → cal.seconds + clamped < 86400 →
          Replies (.nudge port) s (s.withCtl { s.ctl with calendar := moved }) port r (answer moved)) ∧
        (cal.isSet = true → s.path.link.state ≠ .lost → 86400 ≤ cal.seconds + clamped →
          Replies (.nudge port) s
            { s with ctl := { s.ctl with calendar := rolled }, path := s.path.startSweep s.idx } port r (answer rolled)))

/-- R127, R128: a seconds tick moves the clock to the divider's end, where the divider starts again. An UNSET calendar
stands; a SET one gains a second, and after second 86399 rolls over to second 0, which sends the sweeper a start. The clock
is the model's (log 3). -/
def Obligations.TheCalendarTicks : Prop :=
  ∀ s : State,
    let cal := s.ctl.calendar
    let later (c : Calendar) : Control := { s.ctl with
      now := max s.ctl.now s.ctl.divider, divider := s.ctl.divider + 25000000, calendar := c }
    (cal.isSet = false → s.path.lostDrained → Completes .secondsTick s (s.withCtl (later cal))) ∧
    (cal.isSet = true → s.path.lostDrained → cal.seconds ≠ 86399 →
      Completes .secondsTick s (s.withCtl (later { cal with seconds := cal.seconds + 1 }))) ∧
    (cal.isSet = true → s.path.link.state ≠ .lost → cal.seconds = 86399 →
      Completes .secondsTick s
        { s with ctl := later (Calendar.rollover { cal with seconds := 0 }), path := s.path.startSweep s.idx })

/-- R129, R130, R131: a rollover adds a day while the day is below the month's length, otherwise starts the next month on its
first day, December being followed by January of the next year mod 100; a day past the month's length goes to the first of
the next month; the day number rises by 1 and stays at 65535. -/
def Obligations.RolloverAdvancesTheDate : Prop :=
  ∀ c : Calendar, c.legal = true →
    let length := if c.month = 2 then (if c.year % 4 = 0 then 29 else 28) else if c.month ∈ [4, 6, 9, 11] then 30 else 31
    let r := c.rollover
    r.dayNumber = min 65535 (c.dayNumber + 1) ∧ r.seconds = c.seconds ∧ r.isSet = c.isSet ∧ r.legal = true ∧
    (c.day < length → r.day = c.day + 1 ∧ r.month = c.month ∧ r.year = c.year) ∧
    (length ≤ c.day → r.day = 1 ∧
      (c.month < 12 → r.month = c.month + 1 ∧ r.year = c.year) ∧
      (c.month = 12 → r.month = 1 ∧ r.year = (c.year + 1) % 100))

/-! ## Requests at the Index Controller -/

/-- R65, R69: SET GEOMETRY outside COLD mode, of a value outside 16 to 24, or with a valid group is refused and changes
nothing; otherwise the geometry becomes m and, where it changes, every spilled mark is clear; the reply carries the geometry
in force. UNMAP GROUP of a group number out of range, of an unmapped group, or of one that is INITIALISING, occupied or
marked is refused; otherwise the group is UNMAPPED. That a refused SET GEOMETRY carries the geometry is by inference (log
31). -/
def Obligations.GeometryIsSetAndGroupsUnmapped : Prop :=
  ∀ (s : State) (port : Port) (n : Nat) (src : Mac) (y : Index) (a : Answer), s.path.lostDrained →
    let x := s.idx
    (∀ m, s.headRequest port = some ⟨n, src, .setGeometry m⟩ →
      (if s.ctl.mode ≠ .cold then y = x ∧ a = .refuseWith .wrongMode (.geometry x.geometry)
       else if m < 16 ∨ 24 < m then y = x ∧ a = .refuseWith .badValue (.geometry x.geometry)
       else if x.groups ≠ [] then y = x ∧ a = .refuseWith .inUse (.geometry x.geometry)
       else y = (if m = x.geometry then x else { x with geometry := m, marks := [] }) ∧ a = .done (.geometry m)) →
        Replies (.setGeometry port) s (s.withIdx y) port ⟨n, src, .setGeometry m⟩ a) ∧
    (∀ group, s.headRequest port = some ⟨n, src, .unmapGroup group⟩ →
      (if 2 ^ (x.geometry - 8) ≤ group then y = x ∧ a = .refuse .badValue
       else
        match tabGet x.groups group with
        | none => y = x ∧ a = .refuse .notFound
        | some g =>
          if g.state = .ready ∧ g.occupancy = 0 ∧ g.marked = 0 then
            y = { x with groups := tabErase x.groups group } ∧ a = .done .none
          else y = x ∧ a = .refuse .inUse) →
        Replies (.unmapGroup port) s (s.withIdx y) port ⟨n, src, .unmapGroup group⟩ a)

/-- R67, R71: MAP GROUP is refused for a group or page number out of range, a valid group, a reserved or excluded page, and a
page that another group names, with the results its rule gives; otherwise the group is INITIALISING in the page. SET EXCLUSION
is refused for a bad range and for an active range that holds a page a group names; otherwise the range is written. -/
def Obligations.GroupsAreMappedAndPagesExcluded : Prop :=
  ∀ (s : State) (port : Port) (n : Nat) (src : Mac) (y : Index) (a : Answer), s.path.lostDrained →
    let x := s.idx
    let named (first last : Nat) := x.groups.find? fun e => decide (first ≤ e.2.page ∧ e.2.page ≤ last)
    (∀ group page, s.headRequest port = some ⟨n, src, .mapGroup group page⟩ →
      (if 2 ^ (x.geometry - 8) ≤ group ∨ 131072 ≤ page then y = x ∧ a = .refuse .badValue
       else
        match tabGet x.groups group with
        | some g => y = x ∧ a = .refuseWith .inUse (.group g.state g.page)
        | none =>
          if page < 1040 ∨ ∃ e ∈ x.exclusions, e.active = true ∧ e.first ≤ page ∧ page ≤ e.last then
            y = x ∧ a = .refuse .excluded
          else
            match named page page with
            | some e => y = x ∧ a = .refuseWith .conflict (.groupNumber e.1)
            | none => y = { x with groups := tabSet x.groups group ⟨.initialising, page, 0, 0⟩ } ∧ a = .done .none) →
        Replies (.mapGroup port) s (s.withIdx y) port ⟨n, src, .mapGroup group page⟩ a) ∧
    (∀ range first last active, s.headRequest port = some ⟨n, src, .setExclusion range first last active⟩ →
      (if 4 ≤ range ∨ 131072 ≤ last ∨ last < first then y = x ∧ a = .refuse .badValue
       else
        match named first last with
        | some e =>
          if active = true then y = x ∧ a = .refuseWith .conflict (.groupNumber e.1)
          else y = { x with exclusions := x.exclusions.set range ⟨first, last, false⟩ } ∧ a = .done .none
        | none => y = { x with exclusions := x.exclusions.set range ⟨first, last, active⟩ } ∧ a = .done .none) →
        Replies (.setExclusion port) s (s.withIdx y) port ⟨n, src, .setExclusion range first last active⟩ a)

/-- R110: SET HOLD of tag 0 or of one above 15 is refused and changes nothing; otherwise the flag of the tag takes the value
given and no other changes. The reply carries the flags after the request; that a refused one does is by inference (log 31).
-/
def Obligations.HoldTagsAreSet : Prop :=
  ∀ (s : State) (port : Port) (n tag : Nat) (src : Mac) (active : Bool), s.path.lostDrained →
    s.headRequest port = some ⟨n, src, .setHold tag active⟩ →
      (tag = 0 ∨ 15 < tag →
        Replies (.setHold port) s s port ⟨n, src, .setHold tag active⟩ (.refuseWith .badValue (.holds s.ctl.holds))) ∧
      (1 ≤ tag → tag ≤ 15 → ∃ holds : Mask16,
        Replies (.setHold port) s (s.withCtl { s.ctl with holds := holds }) port ⟨n, src, .setHold tag active⟩
          (.done (.holds holds)) ∧
        ∀ i, i < 16 → holds.getLsbD i = if i = tag then active else s.ctl.holds.getLsbD i)

/-- R112, R113: a RETIRE without items, with more than 64, or with a count of 0 is refused; any other keeps the head of its
queue while its items are taken, each at its bucket: an entry that is LIVE loses the count given, one with less comes to 0
and counts an underflow; a PENDING, pinned or missing one is answered and does not change. The answer to the last item makes
the reply, in list order. -/
def Obligations.ReferencesAreRetired : Prop :=
  ∀ (s : State) (port : Port) (n : Nat) (src : Mac) (items : List (Fingerprint × Nat)), s.path.lostDrained →
    let r : Req := ⟨n, src, .retire items⟩
    let bad := items = [] ∨ 64 < items.length ∨ ∃ i ∈ items, i.2 = 0
    (s.headRequest port = some r →
      (bad → Replies (.retire port) s s port r (.refuse .badValue)) ∧
      (¬ bad → CompletesAtQueue (.retire port) s
        (s.withPath (s.path.setQueue port { s.path.queue port with head := .retiring (items.map fun _ => none) })) port)) ∧
    (∀ (rest : List Req) (answers : List (Option (RetireAnswer × Option Nat))) (k c : Nat) (f : Fingerprint) (y : Index)
        (p : Path) (answer : RetireAnswer × Option Nat),
      s.path.handling s.idx = true → s.path.queue port = ⟨r :: rest, .retiring answers⟩ →
      items[k]? = some (f, c) → answers[k]? = some none →
      (∀ j g, j < k → items[j]? = some g → answers[j]? = some none → s.idx.bucket g.1 ≠ s.idx.bucket f) →
      (match (s.idx.readyPage (s.idx.bucket f)).map fun page => s.idx.search page (s.idx.bucket f) f with
        | some (.held at_ e) =>
          if e.state = .pending then y = s.idx ∧ p = s.path ∧ answer = (.busy, none)
          else if e.count = 65535 then y = s.idx ∧ p = s.path ∧ answer = (.pinned, some 65535)
          else if c ≤ e.count then
            y = s.idx.set at_ { e with count := e.count - c } ∧ p = s.path.bump .referencesRetired c ∧
              answer = (.done, some (e.count - c))
          else
            y = s.idx.set at_ { e with count := 0 } ∧
              p = (s.path.bump .referencesRetired e.count).bump .retireUnderflows 1 ∧ answer = (.underflow, some 0)
        | _ => y = s.idx ∧ p = s.path ∧ answer = (.notFound, none)) →
        (none ∈ answers.set k (some answer) → CompletesAtQueue (.retireItem port k) s
          { s with
            idx := y
            path := p.setQueue port ⟨r :: rest, .retiring (answers.set k (some answer))⟩ } port) ∧
        (∀ all, answers.set k (some answer) = all.map some →
          Replies (.retireItem port k) s { s with idx := y, path := p } port r (.done (.retired all))))

/-- R80, R81, R82: a RESTORE ENTRIES outside RESTORING, with no item or more than 32, or with a length or place out of
range, is refused; any other keeps the head of its queue while its items are taken, each at its bucket: a fingerprint held
is a DUPLICATE, an unmapped group and a full bucket and bin are answered, and otherwise a LIVE entry with the item's values
and RESTORED set is inserted, a count of 65535 being counted as pinned. The answer to the last item makes the reply, and
counts the entries inserted. A count or a day above 65535 is left open (log 21). That the entries are counted with the
reply is the model's choice (log 41). -/
def Obligations.EntriesAreRestored : Prop :=
  ∀ (s : State) (port : Port) (n : Nat) (src : Mac) (items : List RestoreEntry), s.path.lostDrained →
    let r : Req := ⟨n, src, .restoreEntries items⟩
    let bad := items = [] ∨ 32 < items.length ∨
      ∃ i ∈ items, i.length = 0 ∨ 65536 < i.length ∨ 4194303 < i.offset ∨ 4194304 < i.offset + i.length
    (s.headRequest port = some r →
      (s.ctl.mode ≠ .restoring → Replies (.restoreEntries port) s s port r (.refuse .wrongMode)) ∧
      (s.ctl.mode = .restoring → bad → Replies (.restoreEntries port) s s port r (.refuse .badValue)) ∧
      (s.ctl.mode = .restoring → ¬ bad → CompletesAtQueue (.restoreEntries port) s
        (s.withPath (s.path.setQueue port { s.path.queue port with head := .restoring (items.map fun _ => none) })) port)) ∧
    (∀ (rest : List Req) (answers : List (Option RestoreAnswer)) (k : Nat) (i : RestoreEntry) (y : Index) (p : Path)
        (answer : RestoreAnswer),
      s.path.handling s.idx = true → s.path.queue port = ⟨r :: rest, .restoring answers⟩ →
      items[k]? = some i → answers[k]? = some none → i.count ≤ 65535 → i.untilDay ≤ 65535 →
      (∀ j g, j < k → items[j]? = some g → answers[j]? = some none → s.idx.bucket g.fp ≠ s.idx.bucket i.fp) →
      (match s.idx.readyPage (s.idx.bucket i.fp) with
        | none => y = s.idx ∧ p = s.path ∧ answer = .unmapped
        | some page =>
          match s.idx.search page (s.idx.bucket i.fp) i.fp, s.idx.claim page (s.idx.bucket i.fp) with
          | .held _ _, _ => y = s.idx ∧ p = s.path ∧ answer = .duplicate
          | _, none => y = s.idx ∧ p = s.path ∧ answer = .full
          | _, some (at_, x) =>
            y = x.fill at_ ⟨i.fp, i.check, .live, i.container, i.offset, i.length, i.count, i.untilDay,
                i.holds &&& 0xFFFE, 0, false, true⟩ ∧
              p = (if i.count = 65535 then s.path.bump .entriesPinned 1 else s.path) ∧ answer = .inserted) →
        (none ∈ answers.set k (some answer) → CompletesAtQueue (.restoreItem port k) s
          { s with
            idx := y
            path := p.setQueue port ⟨r :: rest, .restoring (answers.set k (some answer))⟩ } port) ∧
        (∀ all, answers.set k (some answer) = all.map some →
          Replies (.restoreItem port k) s
            { s with idx := y, path := p.bump .entriesRestored (all.filter (· = .inserted)).length } port r
            (.done (.restored all))))

/-- R118, R119, R120, R122: SWEEP NOW of an UNSET calendar is refused. A pass that is not IDLE gets its restart mark. A start
of an IDLE one visits bucket 0 where group 0 is READY, with up to 16 free places of the RELEASE queue reserved; with no READY
group and no marked bucket the pass ends at once. That an IDLE sweeper's position is bucket 0, entry 0 of the phase BUCKETS
is the model's choice (log 42). -/
def Obligations.SweepsStart : Prop :=
  ∀ (s : State) (port : Port) (n : Nat) (src : Mac), s.path.lostDrained →
    let w := s.path.sweeper
    let swept (w : Sweeper) (a : SweepResult) (p : Path) :=
      Replies (.sweepNow port) s (s.withPath ({ p with sweeper := w })) port ⟨n, src, .sweepNow⟩ (.done (.sweep a))
    s.headRequest port = some ⟨n, src, .sweepNow⟩ →
      (s.ctl.calendar.isSet = false →
        Replies (.sweepNow port) s s port ⟨n, src, .sweepNow⟩ (.refuse .wrongMode)) ∧
      (s.ctl.calendar.isSet = true →
        (w.pass ≠ .idle → swept { w with restart := true } (if w.restart then .alreadyMarked else .marked) s.path) ∧
        (w.pass = .idle → (∃ g, tabGet s.idx.groups 0 = some g ∧ g.state = .ready) →
          swept { w with pass := .running, pos := .buckets 0 0, visit := some ⟨0, min 16 (256 - w.queued)⟩ } .started
            s.path) ∧
        (w.pass = .idle → (∀ g ∈ s.idx.groups, g.2.state = .initialising) → s.idx.marks = [] → w.unbatched = [] →
          w.restart = false →
            swept { w with pass := .idle, pos := .buckets 0 0, visit := none } .started (s.path.bump .sweepPasses 1)))

/-! ## Requests at the Container Allocator, the modes, the sources and the streams -/

/-- R139, R145, R146: SET CONTAINER BASE is refused while a container is OPEN, SEALING or in the sealing list, and otherwise
sets the next container id; the reply carries it. SEAL CONTAINERS makes every OPEN slot SEALING and answers their ids in
class order; those without a pending placement ask for the tag of their SEAL. That a refused SET CONTAINER BASE carries the
next container id is by inference (log 31). That the SEALs ask for their tags in class order is the model's choice (log 44).
-/
def Obligations.ContainersAreBasedAndSealed : Prop :=
  ∀ (s : State) (port : Port) (n : Nat) (src : Mac),
    let a := s.path.alloc
    let ready (b : Container) := decide (b.pending = 0) && !b.sealIssued
    let slots := a.slots.map fun cs => (cs.1, if cs.2.sealing then cs.2
      else { cs.2 with sealing := true, box := { cs.2.box with sealIssued := cs.2.box.sealIssued || ready cs.2.box } })
    let opened := a.slots.filter fun cs => !cs.2.sealing
    let made := (opened.filter fun cs => ready cs.2.box).map fun cs => TagRequest.message
      (.seal ⟨cs.2.box.id, cs.2.box.fill, cs.2.box.holes, cs.2.box.chunks⟩)
    (∀ base, s.headRequest port = some ⟨n, src, .setContainerBase base⟩ → s.path.lostDrained →
      (a.slots ≠ [] ∨ a.sealing ≠ [] → Replies (.setContainerBase port) s s port ⟨n, src, .setContainerBase base⟩
        (.refuseWith .inUse (.nextId a.nextId))) ∧
      (a.slots = [] → a.sealing = [] → Replies (.setContainerBase port) s
        (s.withPath ({ s.path with alloc := { a with nextId := .id base } })) port ⟨n, src, .setContainerBase base⟩
        (.done (.nextId (.id base))))) ∧
    (s.headRequest port = some ⟨n, src, .sealContainers⟩ → s.path.link.state ≠ .lost →
      Replies (.sealContainers port) s
        (s.withPath ({ s.path with
          alloc := { a with slots := slots }, link := { s.path.link with waiting := s.path.link.waiting ++ made } }))
        port ⟨n, src, .sealContainers⟩ (.done (.containers (opened.map fun cs => cs.2.box.id))))

/-- R192, R193: SET MODE refuses a target that is not RESTORING or SERVING, SERVING from COLD, RESTORING from SERVING while
a context is not FREE, RESTORING without a READY group and SERVING with a condition not met, which it names; it is DONE
where the mode stands already, and otherwise changes the mode, which is counted. The reply carries the mode after the
request. The mode that stands beside the conditions not met is the model's coding (log 31). -/
def Obligations.TheModeIsSet : Prop :=
  ∀ (s : State) (port : Port) (n code : Nat) (src : Mac) (mode : Mode) (a : Answer), s.path.lostDrained →
    let old := s.ctl.mode
    let unmet : Mask16 := (if s.ctl.calendar.isSet then 0 else 2) |||
      (if s.path.alloc.nextId = .unset ∨ s.path.alloc.nextId = .exhausted then 4 else 0) |||
      (if s.ctl.tables.settings.storeAddr = none then 8 else 0)
    s.headRequest port = some ⟨n, src, .setMode code⟩ →
    (if code = 2 then
      if old = .restoring then mode = old ∧ a = .done (.mode old)
      else if old = .serving ∧ s.path.contexts ≠ [] then mode = old ∧ a = .refuseWith .inUse (.mode old)
      else if ∀ g ∈ s.idx.groups, g.2.state ≠ .ready then mode = old ∧ a = .refuseWith .notFound (.missing 1 old)
      else mode = .restoring ∧ a = .done (.mode .restoring)
     else if code = 3 then
      if old = .serving then mode = old ∧ a = .done (.mode old)
      else if old = .cold then mode = old ∧ a = .refuseWith .wrongMode (.mode old)
      else if unmet ≠ 0 then mode = old ∧ a = .refuseWith .notFound (.missing unmet old)
      else mode = .serving ∧ a = .done (.mode .serving)
     else mode = old ∧ a = .refuseWith .badValue (.mode old)) →
      Replies (.setMode port) s
        { s with
          ctl := { s.ctl with mode := mode }
          path := if mode = old then s.path else s.path.bump .modeChanges 1 }
        port ⟨n, src, .setMode code⟩ a

/-- R190: SET MANAGEMENT SOURCES with more than 2 addresses, an address of zeros or a group address is refused and changes
nothing; otherwise the list holds the addresses given, each once. R17: FORCE END is refused for a number that is no slot and
for a FREE or LINGER context, and is DONE and changes nothing for one in QUIESCING. That a refused SET MANAGEMENT SOURCES
carries the list is by inference (log 31). -/
def Obligations.SourcesAreSetAndEndsForced : Prop :=
  ∀ (s : State) (port : Port) (n : Nat) (src : Mac), s.path.lostDrained →
    (∀ given, s.headRequest port = some ⟨n, src, .setManagementSources given⟩ →
      let bad := ∃ a ∈ given, a = 0 ∨ a.getLsbD 40 = true
      (2 < given.length → Replies (.setManagementSources port) s s port ⟨n, src, .setManagementSources given⟩
        (.refuseWith .tooMany (.sources s.ctl.sources))) ∧
      (given.length ≤ 2 → bad → Replies (.setManagementSources port) s s port ⟨n, src, .setManagementSources given⟩
        (.refuseWith .badValue (.sources s.ctl.sources))) ∧
      (given.length ≤ 2 → ¬ bad → ∃ l : List Mac, l.Nodup ∧ (∀ a, a ∈ l ↔ a ∈ given) ∧
        Replies (.setManagementSources port) s (s.withCtl { s.ctl with sources := l }) port
          ⟨n, src, .setManagementSources given⟩ (.done (.sources l)))) ∧
    (∀ slot, s.headRequest port = some ⟨n, src, .forceEnd slot⟩ →
      (slot = 0 ∨ 384 < slot → Replies (.forceEnd port) s s port ⟨n, src, .forceEnd slot⟩ (.refuse .badValue)) ∧
      (1 ≤ slot → slot ≤ 384 → (∀ x, tabGet s.path.contexts slot = some x → x.state = .linger) →
        Replies (.forceEnd port) s s port ⟨n, src, .forceEnd slot⟩ (.refuse .notFound)) ∧
      (1 ≤ slot → slot ≤ 384 → (∃ x, tabGet s.path.contexts slot = some x ∧ x.state = .quiescing) →
        Replies (.forceEnd port) s s port ⟨n, src, .forceEnd slot⟩ (.done .none)))

/-! ## Warm reset -/

/-- R84, R162, R176, R200, R201: a WARM RESET completes. It takes the release operations that wait at their buckets, and
frees every PENDING entry that a PET slot follows and every RELEASING entry that an operation, the RELEASE queue or a batch
in flight names; no other entry changes, and a group's occupancy falls by its bucket entries freed. It counts what accepted
operations release, and leaks and flags the others. It keeps marks, hot lists and mappings, and of the hot-list operations
the rewrites that have begun, the first of their branch (R105, R107). It empties the contexts, the Pending Entry Table, the
Locator Cache, the sweeper, the containers, the store link's list and both transmitters' queues, keeping counters, serials,
the link state, the next container id and the frames being sent, of a store message the pieces begun; both request queues
keep their requests. That all the blocks change in one step (log 22), that the item being sent has begun its first frame
(log 19), which pieces of it have begun (log 15), and the emptied sweeper's position, bucket 0, entry 0 of the phase BUCKETS (log 42), are
the model's choices. -/
def Obligations.WarmResetEmptiesTheDataPath : Prop :=
  ∀ (s : State) (port : Port) (n : Nat) (src : Mac), s.headRequest port = some ⟨n, src, .warmReset⟩ →
    s.idx.canonical = true →
      let p := s.path
      let x := s.idx
      let released := p.sweeper.batches.flatten ++ p.sweeper.unbatched ++ p.link.releaseItems
      let accepted := (p.releaseOps.filter (·.accepted)).map (·.item)
      let leaked := (p.releaseOps.filter fun o => !o.accepted).map (·.item) ++ released
      let gone (a : Nat) (e : Entry) : Prop :=
        (e.state = .releasing ∧ ∃ i ∈ accepted ++ leaked, i.address = a ∧ i.fp = e.fp) ∨
          (e.state = .pending ∧ ∃ ps ∈ p.pet, ps.2.address = a ∧ ps.2.fp = e.fp)
      let raised (c : Counter) (l : List Nat) : Nat := l.foldl (fun v k => min max48 (v + k)) (p.counter c)
      ∃ t, exec (.warmReset port) s = .next t ∧ t.pending = s.pending ∧ t.ctl = s.ctl ∧
        t.path = { counters := t.path.counters, flags := t.path.flags, hotOps := t.path.hotOps
                   alloc := { nextId := p.alloc.nextId }
                   link := { serials := p.link.serials, state := p.link.state, lossTimer := p.link.lossTimer }
                   sPort := { carrier := p.sPort.carrier, tx := p.sPort.tx.map (SItem.fixed p s.ctl false) }
                   iPort := { carrier := p.iPort.carrier, tx := p.iPort.tx }
                   iQueue := t.path.iQueue, sQueue := t.path.sQueue
                   warm := some ⟨port, p.alloc.slots.map (·.2.box.id) ++ p.alloc.sealing.map (·.id)⟩ } ∧
        t.path.queue port = { p.queue port with head := .replying } ∧
        t.path.queue (Port.other port) = { p.queue (Port.other port) with
          head := if (p.queue (Port.other port)).head = .waiting then .waiting else .discarded } ∧
        t.path.hotOps = (List.range p.hotOps.length).filterMap (fun i => match p.hotOps[i]? with
          | some (HotOp.rewrite b sights) =>
            if ∀ o ∈ p.hotOps.take i, HotOp.branchOf o ≠ b then some (HotOp.rewrite b sights) else none
          | _ => none) ∧
        t.path.counter .entriesReleased = raised .entriesReleased (accepted.map fun _ => 1) ∧
        t.path.counter .releasedBytes = raised .releasedBytes (accepted.map (·.length)) ∧
        t.path.counter .leakedBytes = raised .leakedBytes (leaked.map (·.length)) ∧
        p.countersKept t.path [.entriesReleased, .releasedBytes, .leakedBytes] ∧
        t.path.flags = (if leaked = [] then p.flags else p.flags ||| 0x0020) ∧
        { t.idx with groups := x.groups, dram := x.dram } = x ∧
        (∀ a, (x.entry a = none → t.idx.entry a = none) ∧
          ∀ e, x.entry a = some e → (gone a e → t.idx.entry a = none) ∧ (¬ gone a e → t.idx.entry a = some e)) ∧
        t.idx.groups = x.groups.map fun g => (g.1, { g.2 with
          occupancy := g.2.occupancy - (x.dram.filter fun e =>
            decide (65536 ≤ e.1) && decide (t.idx.entry e.1 = none) && decide (x.bucket e.2.fp / 256 = g.1)).length })

/-- R29, R200, R201: at the completion of a warm reset the gap timer restarts, the reset is counted, a request of the other
port whose items or reply it discarded leaves its queue, and the request is answered with the ids of the containers there
were. -/
def Obligations.WarmResetCompletes : Prop :=
  ∀ (s : State) (w : WarmReset) (r : Req) (rest : List Req) (h : HeadState), s.path.lostDrained →
    s.path.warm = some w → s.path.queue w.port = ⟨r :: rest, h⟩ →
      let base := Path.bump { s.path with warm := none } .warmResets 1
      let other := Port.other w.port
      let q := s.path.queue other
      Replies .warmResetComplete s
        { s with
          ctl := { s.ctl with gapTimer := s.ctl.now + 250000 * s.ctl.tables.settings.gapSteps }
          path := if q.head = .discarded then base.setQueue other ⟨q.reqs.tail, .waiting⟩ else base }
        w.port r (.done (.containers w.containers))

/-! ## The streams' timers and the Chunker -/

/-- R7, R45, R50: OPENING ends when the warm-up timer runs out, or when the hot list the stream asked for has been loaded:
the context is ACTIVE, or DRAINING where its CLOSE has come, its warm-up timer stops, and the Chunker begins; with the end
already signalled and every byte read it is COMPLETE, and a stream with nothing left to do ends (R12, R22). R105, R62: a
load installs the branch's list in the Locator Cache, the full slots among the 2,048 from address (16 + b div 4) 8192 + (b
mod 4) 2048 on in units of 32 bytes. R107: a rewrite fills slot i with the i-th entry of the sight list and empties the
later ones; no other slot changes. R23: a context whose linger timer runs out is FREE, and a load it asked for keeps no
context. The clock that comes to a timer's end (log 3), and that the installs of a load come with its completion (log 6),
are the model's. That an unsent PACE STOP is discarded too as a stream ends is the model's choice (log 43). -/
def Obligations.OpeningAndLingerEnd : Prop :=
  ∀ s : State, s.path.lostDrained →
    let first (branch : Nat) : Nat := (16 + branch / 4) * 8192 + branch % 4 * 2048
    let list (branch : Nat) : List (Fingerprint × Nat) :=
      (List.range 2048).filterMap fun i => tabGet s.idx.hot (first branch + i)
    let loaded (branch : Nat) (left : List HotOp) : Path :=
      { (list branch).foldl (fun p w => p.install w.1 w.2) s.path with hotOps := left }
    (∀ (slot : Nat) (x : Context), tabGet s.path.contexts slot = some x →
      let begun := { x with state := if x.closePending then .draining else .active, warmUp := none }
      let ends := x.readOffset = x.inOrder ∧ x.chunker.ended = true
      let y := begun.setStatus (if x.readOffset = x.inOrder then .starved
        else if x.chunker.n = 0 ∧ 32 ≤ x.queue.length then .held else .running)
      let becomes (c : Control) (p q : Path) : Prop := x.completed = false ∧ x.countDone = false ∧
        (¬ ends ∧ q = p.withCtx slot y ∨
          ends ∧ s.path.link.state ≠ .lost ∧ q = (p.withCtx slot begun.finished).endsIfDone c slot)
      let forgotten := s.path.hotOps.map fun o => match o with
        | .load b (some k) => if k = slot then .load b none else .load b (some k)
        | o => o
      (∀ time q, let c : Control := { s.ctl with now := max s.ctl.now time }
        x.state = .opening → x.warmUp = some time → becomes c s.path q →
          Completes (.warmUpExpiry slot) s { s with ctl := c, path := q }) ∧
      (∀ (branch : Nat) (before after : List HotOp) (q : Path),
        s.path.hotOps = before ++ .load branch (some slot) :: after → (∀ o ∈ before, HotOp.branchOf o ≠ branch) →
        tabWf s.idx.hot = true → x.state = .opening → becomes s.ctl (loaded branch (before ++ after)) q →
          Completes (.hotListLoadComplete branch) s (s.withPath q)) ∧
      (∀ time, x.linger = some time →
        Completes (.lingerExpiry slot) s
          { s with
            ctl := { s.ctl with now := max s.ctl.now time }
            path := { s.path with contexts := tabErase s.path.contexts slot, hotOps := forgotten } })) ∧
    (∀ (branch : Nat) (before after : List HotOp) (who : Option Nat),
      s.path.hotOps = before ++ .load branch who :: after → (∀ o ∈ before, HotOp.branchOf o ≠ branch) →
      tabWf s.idx.hot = true →
      (∀ slot x, who = some slot → tabGet s.path.contexts slot = some x → x.state ≠ .opening) →
        Completes (.hotListLoadComplete branch) s (s.withPath (loaded branch (before ++ after)))) ∧
    (∀ (branch : Nat) (before after : List HotOp) (sights : List (Fingerprint × Nat)),
      s.path.hotOps = before ++ .rewrite branch sights :: after → (∀ o ∈ before, HotOp.branchOf o ≠ branch) →
      tabWf s.idx.hot = true →
        ∃ hot, tabWf hot = true ∧
          (∀ i, i < 2048 → tabGet hot (first branch + i) = sights[i]?) ∧
          (∀ a, a < first branch ∨ first branch + 2048 ≤ a → tabGet hot a = tabGet s.idx.hot a) ∧
          Completes (.hotListRewriteComplete branch) s
            { s with idx := { s.idx with hot := hot }, path := { s.path with hotOps := before ++ after } })

/-- R29, R30: a gap tick moves the clock to the gap timer's end, where the timer runs again; every stream that waits for a
parcel gains 1 in its gap count, and no other changes. One that comes to 2 is QUIESCING with cause GAP, with the bytes, chunks
and items whose lookups have been issued (R13, R14, R39); one with none of these, and no record unanswered, ends (R15, R22).
Several waiting streams, some at their first tick and some at their second, are taken in the order of their slots, each as if
alone. The clock is the model's (log 3), and so is one step for all contexts, in slot order (log 7). What the end of a
stream's records asks for on a LOST link fails after the tick (R161; logs 40, 43 and 45). -/
def Obligations.GapTicksAreCounted : Prop :=
  ∀ s : State, tabWf s.path.contexts = true →
    let waits (x : Context) : Bool := x.state.taking &&
      (decide (x.reorder ≠ []) || (match x.final with | some n => decide (x.expectedSeq < n) | none => false))
    let later : Control := { s.ctl with
      now := max s.ctl.now s.ctl.gapTimer, gapTimer := s.ctl.gapTimer + 250000 * s.ctl.tables.settings.gapSteps }
    let counted (x : Context) : Context := { x with gapCount := x.gapCount + 1 }
    let ticked (p : Path) (sc : Nat × Context) : Path :=
      if waits sc.2 = false then p
      else if sc.2.gapCount = 0 then p.withCtx sc.1 (counted sc.2)
      else ((p.withCtx sc.1 ((counted sc.2).parked .abnormal (some .gap))).dropPace sc.1).endsIfDone later sc.1
    let after := s.path.contexts.foldl ticked s.path
    CompletesDrained .gapTick s { s with ctl := later, path := after } ∧
    (s.path.lostDrained → (∀ sc ∈ s.path.contexts, waits sc.2 = true → sc.2.gapCount = 0) →
      Completes .gapTick s
        { s with
          ctl := later
          path := { s.path with contexts := s.path.contexts.map fun sc =>
            (sc.1, if waits sc.2 then { sc.2 with gapCount := 1 } else sc.2) } }) ∧
    ∀ slot x, tabGet s.path.contexts slot = some x →
      (waits x = false → tabGet after.contexts slot = some x) ∧
      (waits x = true → x.gapCount = 0 → tabGet after.contexts slot = some { x with gapCount := 1 }) ∧
      (waits x = true → 1 ≤ x.gapCount →
        (x.unanswered ≠ 0 ∨ (∃ i ∈ x.queue, i.issued = true) →
          tabGet after.contexts slot = some ((counted x).parked .abnormal (some .gap))) ∧
        (x.unanswered = 0 → (∀ i ∈ x.queue, i.issued = false) →
          ∃ y, tabGet after.contexts slot = some y ∧ y.state = .linger ∧ y.endClass = some .abnormal ∧ y.cause = some .gap))

/-- R46 to R49, R45: the Chunker takes the next byte of a RUNNING stream: n rises by 1 and H becomes 2 H + G[b] mod 2^32. The
chunk ends at n = MAX; below MIN it does not; below AVG = 2^k it ends where H AND the strict mask is 0, from AVG on where H
AND the loose mask is 0. A cut puts an item with the next ordinal at the tail of the outcome queue, and the next chunk
begins with H and n at 0. R50, R54: the last byte of an ended stream, and the E-th chunk of a VERIFY stream in COUNT end
mode, make the Chunker COMPLETE. R19, R54: a byte beyond the E-th chunk, at hand when that is cut or brought by a DATA
parcel after it, ends the stream with cause OVERLENGTH. That the item of the E-th chunk is given up with the others whose
lookups have not been issued is by inference (log 12). -/
def Obligations.BytesAreTaken : Prop :=
  (∀ (s : State) (slot : Nat) (x : Context),
    let k := x.policy.k
    let n := x.chunker.n + 1
    let b := x.window.getD (x.readOffset - x.releasePoint) 0
    let h : Word32 := 2 * x.chunker.h + s.ctl.tables.gearWord x.policy.gear b.toNat
    let ends := if n = x.policy.max then true
      else if n < x.policy.min then false
      else if n < 2 ^ k then decide (h &&& BitVec.ofNat 32 (2 ^ 32 - 2 ^ (30 - k)) = 0)
      else decide (h &&& BitVec.ofNat 32 (2 ^ 32 - 2 ^ (34 - k)) = 0)
    let on := { x with chunker := { x.chunker with
      n := n, h := h, status := if x.chunker.start + n = x.inOrder then .starved else .running } }
    let stop := x.chunker.start + n
    let cut (status : ChunkerStatus) := { x with
      queue := x.queue ++ [{ ordinal := x.chunker.nextOrdinal, offset := x.chunker.start, length := n }]
      chunks := x.chunks ++ [{ ordinal := x.chunker.nextOrdinal, stop := stop, settled := false }]
      chunker := { x.chunker with
        n := 0, h := 0, start := stop, nextOrdinal := x.chunker.nextOrdinal + 1, status := status } }
    let next : ChunkerStatus := if stop = x.inOrder then .starved else if 32 ≤ x.queue.length + 1 then .held else .running
    let takes (y : Context) := Completes (.takeByte slot) s (s.withPath (s.path.withCtx slot y))
    s.path.lostDrained → tabGet s.path.contexts slot = some x → x.chunker.status = .running → x.state.reading = true →
    PolicyEntry.legal x.policy = true → x.completed = false → x.countDone = false →
      (x.chunker.ended = false ∨ stop ≠ x.inOrder →
        (ends = false → takes on) ∧
        (ends = true → (cut next).countDone = false → takes (cut next)) ∧
        (ends = true → (cut next).countDone = true → stop = x.inOrder →
          takes { cut .complete with completed := true }) ∧
        (ends = true → (cut next).countDone = true → stop < x.inOrder → s.path.link.state ≠ .lost →
          Completes (.takeByte slot) s (s.withPath (Path.endsIfDone
            ((s.path.withCtx slot (({ cut .complete with completed := true } : Context).quiesce .abnormal
              (some .overlength) none)).dropPace slot) s.ctl slot)))) ∧
      (x.chunker.ended = true → stop = x.inOrder → takes { cut .complete with completed := true })) ∧
  ∀ (s : State) (source : Mac) (branch stream slot : Nat) (payload : List Byte) (x : Context),
    let length := x.inOrder + payload.length
    let y := { x with
      window := x.window ++ payload, inOrder := length, expectedSeq := x.expectedSeq + 1, gapCount := 0, completed := true
      chunker := { x.chunker with
        status := .complete, ended := decide (x.final = some (x.expectedSeq + 1)) || x.chunker.ended } }
    s.path.link.state ≠ .lost → s.path.warm = none → s.path.findCtx branch stream = some (slot, x) →
    tabGet s.path.contexts slot = some x → x.state.reading = true → x.countDone = true → x.expectedSeq ≠ 0xFFFFFFFF →
    (∀ n, x.final = some n → x.expectedSeq < n) → x.reorder = [] → x.pace = .go → x.readOffset < length →
    blocksCovering x.releasePoint length ≤ x.quota → blocksCovering x.releasePoint length ≤ s.path.freeBlocks + x.held →
    y.held < max 1 (x.quota - s.ctl.tables.settings.paceMargin) →
      Completes (.dataParcel .i source branch stream x.expectedSeq payload) s (s.withPath (Path.endsIfDone
        ((s.path.withCtx slot (y.quiesce .abnormal (some .overlength) none)).dropPace slot) s.ctl slot))

/-- R57, R58, R86, R88: a digest completes for the oldest item without one, whose F and C are a function of the chunk's
bytes; where every older item has been issued its lookup is issued with what the stream's policy copy gives, and with the
locator that the cache holds. R59: C is B 65536 + A, A and B being the sums of the bytes, plain and weighted by their place,
mod 65497. R87: the Locator Cache set of F is F1 mod 8192, its ways held in order of last use. An install of a locator makes
its way the most recently used, in place of the way that holds F, else in an empty one, else in place of the least recently
used of eight; a hit makes its way the most recently used; a drop empties the way that holds F, an invalidation the one that
holds F with the address; no other set changes. The function that gives F is open (log 10). -/
def Obligations.DigestsAreTakenAndLookupsIssued : Prop :=
  (∀ bytes : List Byte,
    let a := (bytes.map (·.toNat)).sum % 65497
    let b := ((List.range bytes.length).map fun i => (i + 1) * (bytes.getD i 0).toNat).sum % 65497
    checkWord bytes = BitVec.ofNat 32 (b * 65536 + a)) ∧
  (∀ (p : Path) (f : Fingerprint) (a : Nat), tabWf p.cache = true →
    let n := f.toNat / 2 ^ 64 % 8192
    let held (q : Path) (k : Nat) : List (Fingerprint × Nat) := tabGetD q.cache k []
    let others := (held p n).filter fun w => w.1 ≠ f
    let becomes (q : Path) (ways : List (Fingerprint × Nat)) : Prop :=
      held q n = ways ∧ (∀ k, k ≠ n → held q k = held p k) ∧ { q with cache := p.cache } = p
    (∀ b, p.locate f = some b ↔ ∃ before after, held p n = before ++ (f, b) :: after ∧ ∀ w ∈ before, w.1 ≠ f) ∧
    (p.install f a).locate f = some a ∧
    (others.length < 8 → becomes (p.install f a) ((f, a) :: others)) ∧
    (∀ recent last, others = recent ++ [last] → others.length = 8 → becomes (p.install f a) ((f, a) :: recent)) ∧
    (∀ b, p.locate f = some b → (held p n).length ≤ 8 → becomes (p.touch f) ((f, b) :: others)) ∧
    becomes (p.dropWay f) others ∧
    becomes (p.invalidate f a) ((held p n).filter fun w => w ≠ (f, a))) ∧
  ∀ (s : State) (slot : Nat) (x : Context) (before after : List Item) (i : Item),
    let bytes := (x.window.drop (i.offset - x.releasePoint)).take i.length
    let f := Config.fingerprint bytes
    let digested := { i with fp := some f, check := some (checkWord bytes) }
    let y := { x with queue := before ++ digested :: after }
    let lookup (candidate : Option Nat) : LookupOp :=
      { slot := slot, ordinal := i.ordinal, offset := i.offset, length := i.length, fp := f, check := checkWord bytes
        mode := x.mode, confirm := x.policy.confirm, retention := x.policy.retention, cls := x.policy.cls
        holdTag := x.holdTag, branch := x.branch, candidate := candidate }
    let issued (p : Path) (candidate : Option Nat) := Path.bump { p with
      contexts := tabSet p.contexts slot (y.modItem i.ordinal fun j => { j with issued := true })
      lookups := p.lookups ++ [lookup candidate] } .lookupsIssued 1
    s.path.lostDrained → tabGet s.path.contexts slot = some x → x.queue = before ++ i :: after → i.fp = none →
    i.issued = false → (∀ j ∈ before, j.fp ≠ none) →
      ((∀ j ∈ before, j.issued = true) → x.state.reading = true →
        (s.path.locate f = none → Completes (.digestComplete slot) s (s.withPath (issued s.path none))) ∧
        (∀ a, s.path.locate f = some a →
          Completes (.digestComplete slot) s (s.withPath (issued ((s.path.touch f).bump .locatorHits 1) (some a))))) ∧
      (x.state.reading = false → Completes (.digestComplete slot) s (s.withPath (s.path.withCtx slot y)))

/-! ## Lookups and their results -/

/-- R88 to R97, R108: a lookup taken at its bucket. In a group that is not READY it is NEW-UNINDEXED, or MISSING for VERIFY.
STORE finds LIVE content: one more reference, retention and hold as the policy copy gives them, DUPLICATE; a PENDING entry
also takes a waiter, up to 8. Check words that differ under confirm are a collision: NEW-UNINDEXED, or MISSING. STORE that
finds nothing inserts a PENDING entry in the place claimed and takes a PET slot and a place in its class's container: NEW;
with bucket and bin full, or no PET slot, it is NEW-UNINDEXED; where no place can be given it is UNPLACED, and nothing is
inserted (R93, R102). VERIFY finds content or reports it MISSING. That the place of
a NEW chunk is found within the lookup's step is the model's choice (log 5). -/
def Obligations.LookupsAreJudged : Prop :=
  ∀ (s : State) (slot ordinal : Nat) (o : LookupOp),
    let x := s.idx
    let p := { s.path with lookups := s.path.lookups.eraseP fun q => q.slot = slot && q.ordinal = ordinal }
    let today := s.ctl.calendar.dayNumber
    let tag : Mask16 := if o.holdTag = 0 then 0 else s.ctl.holds &&& ((1 : Mask16) <<< o.holdTag)
    let gives (y : Index) (q : Path) (outcome : ChunkOutcome) (loc : Option Location) (pet : Option Nat) :=
      Completes (.lookup slot ordinal) s { s with
        idx := y
        path := { q with results := q.results ++ [⟨slot, ordinal, o.fp, outcome, loc, pet, x.staleCandidate o⟩] } }
    let referred (e : Entry) : Entry := { e with
      count := min 65535 (e.count + 1), untilDay := max e.untilDay (min 65535 (today + o.retention))
      holds := e.holds ||| tag }
    let counted (e : Entry) := if e.count = 65534 then p.bump .entriesPinned 1 else p
    let differ (e : Entry) := o.confirm = true ∧ o.check ≠ e.check
    let collided := (p.setFlag .collision).bump .collisions 1
    let names (a : Nat) (e : Entry) : Option Location := some ⟨a, e.container, e.offset, e.length⟩
    s.path.lostDrained → s.path.lookupAt slot ordinal = some o → s.path.lookupFirst x o = true →
      (x.readyPage (x.bucket o.fp) = none →
        gives x (p.bump .unmappedLookups 1) (if o.mode = .store then .newUnindexed else .missing) none none) ∧
      ∀ page, x.readyPage (x.bucket o.fp) = some page →
        (∀ a e, x.find o page = .held a e →
          (o.mode = .store →
            (differ e → gives (x.set a { e with collided := true }) collided .newUnindexed none none) ∧
            (¬ differ e → e.state = .live →
              gives (x.set a (referred e)) (counted e) .duplicate (names a e) none) ∧
            (¬ differ e → e.state = .pending → ∀ n ps, s.path.petOf a = some (n, ps) →
              (8 ≤ ps.waiters.length → gives x (p.bump .blockedWaiters 1) .newUnindexed none none) ∧
              (ps.waiters.length < 8 →
                gives (x.set a (referred e))
                  (Path.modCtx { counted e with
                      pet := tabSet p.pet n { ps with waiters := ps.waiters ++ [⟨o.slot, o.ordinal, o.offset, false⟩] } }
                    o.slot fun z => z.modItem o.ordinal fun i => { i with mark := .joined })
                  .duplicate (names a e) (some n)))) ∧
          (o.mode = .verify →
            (differ e → gives x collided .missing none none) ∧
            (¬ differ e → gives x p .found (names a e) none))) ∧
        ((∀ a e, x.find o page ≠ .held a e) →
          (o.mode = .verify → gives x p .missing none none) ∧
          (o.mode = .store →
            (x.claim page (x.bucket o.fp) = none →
              gives x ((p.setFlag .spillFull).bump .unindexedFull 1) .newUnindexed none none) ∧
            ∀ a y, x.claim page (x.bucket o.fp) = some (a, y) →
              (s.path.freePet = none → gives y ((p.setFlag .petFull).bump .unindexedPet 1) .newUnindexed none none) ∧
              ∀ n, s.path.freePet = some n → s.path.link.state ≠ .lost →
                let placed := p.placement o.slot o.cls o.length
                (∀ container offset, placed.2 = some (container, offset) →
                  gives
                    (y.fill a ⟨o.fp, o.check, .pending, container, offset, o.length, 1, min 65535 (today + o.retention), tag,
                      o.branch, false, false⟩)
                    { placed.1 with pet := tabSet p.pet n ⟨a, o.fp, []⟩ }
                    .new (some ⟨a, container, offset, o.length⟩) (some n)) ∧
                (placed.2 = none → gives y placed.1 .unplaced none none)))

/-- R93, R95, R100, R101, R106: a lookup's result is written into its item, and waits there while an older item is at the
head. The Locator Cache drops a way found stale, which is counted, and takes the locator of a NEW or a DUPLICATE result. A
NEW-UNINDEXED one asks for its place, which the container of its class that has room gives it, or a new container, the one
there was being set aside, and with no place to be had it is UNPLACED and its stream is told NO_CONTAINER (R141 to R143).
Then the resolved heads retire, one after another (`Path.Retires`, `Path.HandsOn`): each is counted by its outcome, a first
MISSING with its ordinal; NEW and NEW-UNINDEXED ask for the tag of their CHUNK message; a DUPLICATE is noted in the sight
list, and its REF joins the open batch, or waits in the PET where it is marked JOINED; marked LOST it makes no record;
UNPLACED is settled uncounted (R18, R102). The stream's records end, and the stream ends, if that was the last (R12, R15). A
result or a place for an item that is gone is dropped, and the cache does not change. That the placement request is a step
of its own only for NEW-UNINDEXED is the model's choice (log 5). That a stale result empties the way of its fingerprint even
where that way's address has changed since the lookup was issued (log 16), and that a FOUND result does not touch the way again
(log 17), are by inference. That an unsent PACE STOP is discarded too as a stream ends
is the model's choice (log 43). -/
def Obligations.ResultsAreTaken : Prop :=
  ∀ (s : State) (slot ordinal : Nat) (x : Context),
    let item := (tabGet s.path.contexts slot).bind fun y => y.item ordinal
    (∀ r : LookupResult, s.path.results.find? (fun q => q.slot = slot && q.ordinal = ordinal) = some r →
      let base := { s.path with results := s.path.results.eraseP fun q => q.slot = slot && q.ordinal = ordinal }
      let fresh := if r.stale then (base.dropWay r.fp).bump .staleLocators 1 else base
      let cached := match r.outcome, r.location with
        | .new, some l => fresh.install r.fp l.address
        | .duplicate, some l => fresh.install r.fp l.address
        | _, _ => fresh
      let takes (p : Path) := Completes (.lookupResult slot ordinal) s (s.withPath p)
      (item = none → s.path.lostDrained → takes base) ∧
      (∀ i, item = some i → tabGet s.path.contexts slot = some x →
        (r.outcome = .newUnindexed → s.path.lostDrained →
          takes { cached.withCtx slot (x.modItem ordinal fun j => { j with location := r.location, pet := r.pet }) with
            placements := s.path.placements ++ [⟨slot, ordinal, x.policy.cls, i.length⟩] }) ∧
        (r.outcome ≠ .newUnindexed → x.queue.length ≤ 32 →
          let resolved := cached.withCtx slot (x.modItem ordinal fun j => { j with
            location := r.location, pet := r.pet, outcome := some r.outcome })
          ∀ q, Path.Retires s.ctl slot resolved q → (q.endsIfDone s.ctl slot).lostDrained →
            takes (q.endsIfDone s.ctl slot)))) ∧
    (∀ r : PlaceReq, s.path.placements.find? (fun q => q.slot = slot && q.ordinal = ordinal) = some r →
      let base := { s.path with placements := s.path.placements.eraseP fun q => q.slot = slot && q.ordinal = ordinal }
      let takes (p : Path) := Completes (.placementRequest slot ordinal) s (s.withPath p)
      (item = none → s.path.lostDrained → takes base) ∧
      (∀ i, item = some i → tabGet s.path.contexts slot = some x → x.queue.length ≤ 32 →
        let placed := base.placement slot r.cls r.length
        ∀ y q, tabGet placed.1.contexts slot = some y →
          Path.Retires s.ctl slot (placed.1.withCtx slot (y.modItem ordinal fun j => { j with
            outcome := some (if placed.2 = none then .unplaced else .newUnindexed)
            placement := if placed.2 = none then j.placement else placed.2 })) q →
          (q.endsIfDone s.ctl slot).lostDrained → takes (q.endsIfDone s.ctl slot)))

/-! ## The store link's timers, tags and outcomes -/

/-- R171: the open REF batch closes when its timer runs out. R149, R150: with the link UP and the store address set, the
oldest request gets the lowest free tag, a RELEASE request with the oldest batch, whose leaving lets a waiting pass of the
sweeper go on (R121): its message has the tag's next serial, attempt 1, SENDING, and waits in its DATA queue, or in SIDE
with the time, or in SIDE's hold list where SIDE has no place (R166); else nothing happens. R153: an answer that does not
come puts its message in RETRY WAIT for 2 ms. R154: a resend that is due is made with the next serial while the retry limit
is not reached or under PERSIST, which sets STORE_RETRY; under GIVE_UP a message at the limit is counted, sets STORE_GIVEUP
and fails, with what R155 to R157 give its kind. The clock is the model's (log 3), and so is the RELEASE request that names
the queue's oldest batch (log 38); that a resend counts among the messages issued is by inference (log 18). The order in
which the contexts of a REF batch given up are told STORE_LOST and end (log 40), and that an unsent PACE STOP is discarded too
as a stream ends (log 43), are the model's choices. -/
def Obligations.LinkTimersAndTags : Prop :=
  ∀ s : State,
    let p := s.path
    let l := s.path.link
    let c := s.ctl
    let nextSerial (tag : Nat) := (tabGetD l.serials tag 0 + 1) % 256
    let serials (tag : Nat) := tabPut 0 l.serials tag (nextSerial tag)
    let withdrawn (tag : Nat) : SPort := { p.sPort with
      resend := p.sPort.resend.filter fun t => t ≠ tag
      chunkQ := p.sPort.chunkQ.filter fun t => t ≠ tag
      refQ := p.sPort.refQ.filter fun t => t ≠ tag
      fifo := p.sPort.fifo.filter fun x => !x.2.isMessageOf tag
      hold := p.sPort.hold.filter fun x => !x.isMessageOf tag }
    let resent (tag : Nat) : Path := Path.bump (Path.bump { p with
      sPort := { p.sPort with resend := p.sPort.resend ++ [tag] }
      link := { l with
        serials := serials tag
        inflight := l.inflight.map fun m => if m.tag = tag then { m with
          serial := nextSerial tag, phase := .sending, attempts := min 65535 (m.attempts + 1) } else m } }
      .messagesIssued 1) .resends 1
    let inSide (q : Path) (x : SItem) : Path :=
      if q.sPort.hold = [] ∧ q.sPort.fifo.length < 64 then
        { q with sPort := { q.sPort with fifo := q.sPort.fifo ++ [(c.now, x)] } }
      else { q with sPort := { q.sPort with hold := q.sPort.hold ++ [x] } }
    (∀ time, p.batch.timer = some time → p.batch.items ≠ [] → l.state ≠ .lost →
      Completes .refBatchTimerExpiry s
        { s with
          ctl := { c with now := max c.now time }
          path := Path.bump { p with
            batch := {}, link := { l with waiting := l.waiting ++ [.message (.refs p.batch.items)] } } .refBatchesMade 1 }) ∧
    (l.state ≠ .up ∨ c.tables.settings.storeAddr = none ∨ l.waiting = [] → exec .tagGrant s = .next s) ∧
    (∀ content rest tag w, l.state = .up → c.tables.settings.storeAddr ≠ none →
      (l.waiting = .message content :: rest ∧ w = p.sweeper ∨
        l.waiting = .oldestRelease :: rest ∧ p.sweeper.pass ≠ .waiting ∧
          ∃ b bs, content = .release b ∧ p.sweeper.batches = b :: bs ∧ w = { p.sweeper with batches := bs }) →
      tag < 64 → (∀ m ∈ l.inflight, m.tag ≠ tag) → (∀ k, k < tag → ∃ m ∈ l.inflight, m.tag = k) →
        let issued : Path := Path.bump { p with
          sweeper := w
          link := { l with
            waiting := rest, serials := serials tag
            inflight := l.inflight ++ [⟨tag, nextSerial tag, .sending, 1, c.now, content⟩] } } .messagesIssued 1
        Completes .tagGrant s (s.withPath (match content with
          | .chunk _ => { issued with sPort := { p.sPort with chunkQ := p.sPort.chunkQ ++ [tag] } }
          | .refs _ => { issued with sPort := { p.sPort with refQ := p.sPort.refQ ++ [tag] } }
          | _ => inSide issued (.message tag (nextSerial tag))))) ∧
    (∀ rest tag b bs, l.state = .up → c.tables.settings.storeAddr ≠ none → l.waiting = .oldestRelease :: rest →
      p.sweeper.batches = b :: bs → p.sweeper.pass = .waiting → ((p.sweeper.unbatched ++ bs.flatten).length < 256) →
      tag < 64 → (∀ m ∈ l.inflight, m.tag ≠ tag) → (∀ k, k < tag → ∃ m ∈ l.inflight, m.tag = k) →
        let issued : Path := Path.bump { p with
          link := { l with
            waiting := rest, serials := serials tag
            inflight := l.inflight ++ [⟨tag, nextSerial tag, .sending, 1, c.now, .release b⟩] } } .messagesIssued 1
        let q := inSide issued (.message tag (nextSerial tag))
        Completes .tagGrant s
          (s.withPath (Path.sweepOn { q with sweeper := { p.sweeper with batches := bs } } s.idx p.sweeper.pos))) ∧
    (∀ tag m time, p.message tag = some m → p.lostDrained →
      (m.phase = .awaiting time →
        Completes (.answerTimerExpiry tag) s
          { s with
            ctl := { c with now := max c.now time }
            path := Path.bump { p with
              sPort := withdrawn tag
              link := { l with inflight := l.inflight.map fun o =>
                if o.tag = tag then { o with phase := .retryWait (max c.now time + 50000) } else o } } .answerTimeouts 1 }) ∧
      (m.phase = .retryWait time →
        let due (q : Path) := Completes (.resendDue tag) s { s with ctl := { c with now := max c.now time }, path := q }
        (m.attempts < c.tables.settings.retryLimit → due (resent tag)) ∧
        (c.tables.settings.retryLimit ≤ m.attempts →
          (c.tables.settings.retryAction = .persist → due ((resent tag).setFlag .storeRetry)) ∧
          (c.tables.settings.retryAction = .giveUp →
            l.state ≠ .lost ∨ (∃ items, m.content = .release items) ∨ (∃ r, m.content = .seal r) →
              let failed : Path := Path.bump (Path.setFlag { p with
                sPort := withdrawn tag
                link := { l with inflight := l.inflight.filter fun o => o.tag ≠ tag } } .storeGiveUp) .giveUps 1
              due (failed.afterFail { c with now := max c.now time } m.content)))))

/-- R98: an accepted chunk's PENDING entry becomes LIVE and its PET slot is free; of its waiters, in list order, each that
has not retired is marked LIVE, and the waiting REF of each that has joins the open batch. R99: a failed chunk's PENDING
entry becomes FREE, its PET slot and its locator too; each waiter that has not retired is marked LOST, the waiting REF of
each that has is discarded as answered, every stream the waiters name is told STORE_LOST with its waiter of the lowest
ordinal, and the streams this brings to their end end. The order of several streams is the order in which the waiters first
name them (log 40). R123, R124: a RELEASING entry whose item was accepted or failed becomes FREE and its locator is gone,
counted as released with its bytes, or as leaked with LEAK set. All this holds whatever the state of the link, so too for the
outcomes that its loss makes: what a chunk's outcome asks for on a LOST link fails after it (R161; log 45). That an unsent PACE
STOP is discarded too as a stream ends is the model's choice (log 43). -/
def Obligations.OutcomesReachTheirBuckets : Prop :=
  (∀ s : State,
    (∀ before after pet address f e ps accepted,
      s.path.chunkOps = before ++ ⟨accepted, pet, address, f⟩ :: after →
      (∀ o ∈ before, o.accepted ≠ accepted ∨ o.pet ≠ pet) → tabGet s.path.pet pet = some ps →
      s.idx.entry address = some e → e.fp = f → e.state = .pending →
        let p := { s.path with chunkOps := before ++ after, pet := tabErase s.path.pet pet }
        let live := s.idx.set address { e with state := .live }
        let marked (m : WaiterMark) (q : Path) (w : Waiter) : Path :=
          q.modCtx w.slot fun x => x.modItem w.ordinal fun i => { i with mark := m }
        let branchOf (q : Path) (slot : Nat) : Nat := ((tabGet q.contexts slot).map (·.branch)).getD 0
        (accepted = true → CompletesDrained (.chunkAcceptAtBucket pet) s
          { s with
            idx := live
            path := ps.waiters.foldl (fun q w =>
              if w.held then q.refJoins s.ctl
                ⟨w.slot, w.ordinal, w.offset, e.fp, e.container, e.offset, e.length, branchOf q w.slot⟩
              else marked .live q w) p }) ∧
        (accepted = false →
          let answered := ps.waiters.foldl (fun q w => if w.held then q.recordAnswered w.slot else marked .lost q w) p
          let told := (waiterSlots ps.waiters).foldl (fun q n => match lowestWaiter ps.waiters n with
            | some w => q.storeLost n w.offset w.ordinal
            | none => q) answered
          CompletesDrained (.chunkFailAtBucket pet) s
            { s with
              idx := s.idx.release address f
              path := (waiterSlots ps.waiters).foldl (fun q n => q.endsIfDone s.ctl n) (told.invalidate f address) })) ∧
    (∀ before after accepted i e, s.path.lostDrained → s.path.releaseOps = before ++ ⟨accepted, i⟩ :: after →
      (∀ o ∈ before, o.item.address ≠ i.address) → s.idx.entry i.address = some e → e.fp = i.fp → e.state = .releasing →
        let p := Path.invalidate { s.path with releaseOps := before ++ after } i.fp i.address
        let takes (q : Path) := Completes (.releaseOutcomeAtBucket i.address) s
          { s with idx := s.idx.release i.address i.fp, path := q }
        (accepted = true → takes ((p.bump .entriesReleased 1).bump .releasedBytes i.length)) ∧
        (accepted = false → takes ((p.bump .leakedBytes i.length).setFlag .leak)))) ∧
  ∀ (l : List Waiter) (slot : Nat),
    (slot ∈ waiterSlots l ↔ ∃ w ∈ l, w.slot = slot) ∧ (waiterSlots l).Nodup ∧
      ∀ w, lowestWaiter l slot = some w → w ∈ l ∧ w.slot = slot ∧ ∀ v ∈ l, v.slot = slot → w.ordinal ≤ v.ordinal

/-- R115, R116, R119, R121: a visit of a bucket without LIVE entries goes on at the next bucket. A visit of one whose first
entry alone is LIVE and can be released, its count 0, its retention over and no active hold in its hold set, makes it
RELEASING, puts its item in the RELEASE queue and goes on. With any number of LIVE entries, from the entry where the pass
stands on, every one that can be released becomes RELEASING, its item joining the queue in the entries' order, and every
other stays LIVE without the tags that are not active; the other entries do not change. Where the items that are not yet a
batch then number 64, the oldest 64 become one (`Path.itemsJoin`). A visit that finds an entry to release and no place left
ends early: the pass waits at that entry, those after it are left, and the items that are not yet a batch become one; places
free by then let it go on at once (`Path.WaitsAt`). A bucket of a group that is not READY is passed over. R120: after the last
bucket the pass takes the marked buckets, by bin and then by number; a visit of one examines the entries of its bin that
belong to it, and releases them alike. R77: a mark is cleared after the visit where the bin holds no entry of the bucket.
R122: with no marked bucket left the pass ends, is counted, and its items become a batch; with the restart mark set the next
pass begins at once (`Path.SweepsOn`). What a batch asks for on a LOST link fails after the visit (R161; logs 40, 43 and 45).
That an IDLE sweeper's position is bucket 0, entry 0 of the phase BUCKETS is the model's choice (log 42). -/
def Obligations.BucketsAreVisited : Prop :=
  ∀ (s : State) (v : Visit) (b page : Nat),
    let x := s.idx
    let w := s.path.sweeper
    let place (i : Nat) := page * 4096 + b % 256 * 16 + i
    let inBin (i : Nat) := b % 4096 * 16 + i
    let expired (e : Entry) : Prop :=
      e.state = .live ∧ e.count = 0 ∧ e.holds &&& s.ctl.holds = 0 ∧ e.untilDay < s.ctl.calendar.dayNumber
    let item (e : Entry) (a : Nat) : RelItem := ⟨e.fp, e.container, e.offset, e.length, a⟩
    let goesOn (y : Index) (l : List RelItem) (pos : SweepPos) : Prop :=
      ∀ q, Path.SweepsOn y pos (s.path.itemsJoin l) q → CompletesDrained .sweeperVisit s { s with idx := y, path := q }
    let waits (y : Index) (l : List RelItem) (pos : SweepPos) : Prop :=
      ∀ q, Path.WaitsAt y pos (s.path.itemsJoin l) q → CompletesDrained .sweeperVisit s { s with idx := y, path := q }
    let due (addr : Nat → Nat) (mine : Entry → Bool) (k stop : Nat) (l : List Nat) : Prop :=
      l.Pairwise (· < ·) ∧
        (∀ i, i ∈ l ↔ k ≤ i ∧ i < 16 ∧ ∃ e, x.entry (addr i) = some e ∧ mine e = true ∧ expired e) ∧
        (stop = 16 ∧ l.length ≤ v.reserved ∨ l[v.reserved]? = some stop)
    let items (addr : Nat → Nat) (l : List Nat) : List RelItem :=
      (l.take v.reserved).filterMap fun i => (x.entry (addr i)).map fun e => item e (addr i)
    let examined (addr : Nat → Nat) (mine : Entry → Bool) (k stop : Nat) (l : List Nat) (y : Index) : Prop :=
      { y with dram := x.dram } = x ∧ (∀ a, (∀ i, k ≤ i → i < 16 → a ≠ addr i) → y.entry a = x.entry a) ∧
        ∀ i, k ≤ i → i < 16 → y.entry (addr i) = (x.entry (addr i)).map fun e =>
          if e.state = .live ∧ mine e = true ∧ i ≤ stop then
            if i ∈ l ∧ i < stop then { e with holds := 0, state := .releasing }
            else { e with holds := e.holds &&& s.ctl.holds }
          else e
    let belongs (e : Entry) : Bool := decide (x.bucket e.fp = b)
    let unmarked (g : Group) : Index := { x with
      marks := tabErase x.marks b, groups := tabSet x.groups (b / 256) { g with marked := g.marked - 1 } }
    w.visit = some v → v.bucket = b → x.readyPage b = some page → tabWf x.groups = true →
      (w.pos = .buckets b 0 → (∀ i e, 1 ≤ i → i < 16 → x.entry (place i) = some e → e.state ≠ .live) →
        ((∀ e, x.entry (place 0) = some e → e.state ≠ .live) → goesOn x [] (.buckets (b + 1) 0)) ∧
        (∀ e, x.entry (place 0) = some e → expired e → 1 ≤ v.reserved →
          goesOn (x.set (place 0) { e with holds := 0, state := .releasing }) [item e (place 0)] (.buckets (b + 1) 0))) ∧
      (∀ k e, w.pos = .buckets b k → k < 16 → x.entry (place k) = some e → expired e → v.reserved = 0 →
        waits (x.set (place k) { e with holds := 0 }) [] (.buckets b k)) ∧
      (w.pos = .bins (b % 4096) b 0 →
        (∀ i e, 1 ≤ i → i < 16 → x.entry (inBin i) = some e → x.bucket e.fp = b → e.state ≠ .live) →
        ((∀ e, x.entry (inBin 0) = some e → x.bucket e.fp = b → e.state ≠ .live) →
          ((∃ i e, i < 16 ∧ x.entry (inBin i) = some e ∧ x.bucket e.fp = b) ∨ x.marked b = false →
            goesOn x [] (.bins (b % 4096) (b + 4096) 0)) ∧
          ((∀ i e, i < 16 → x.entry (inBin i) = some e → x.bucket e.fp ≠ b) → x.marked b = true →
            ∀ g, tabGet x.groups (b / 256) = some g → goesOn (unmarked g) [] (.bins (b % 4096) (b + 4096) 0))) ∧
        (∀ e, x.entry (inBin 0) = some e → x.bucket e.fp = b → expired e → 1 ≤ v.reserved →
          goesOn (x.set (inBin 0) { e with holds := 0, state := .releasing }) [item e (inBin 0)]
            (.bins (b % 4096) (b + 4096) 0))) ∧
      (x.canonical = true → ∀ k stop l,
        (w.pos = .buckets b k → due place (fun _ => true) k stop l →
          ∃ y, examined place (fun _ => true) k stop l y ∧
            (stop = 16 → goesOn y (items place l) (.buckets (b + 1) 0)) ∧
            (stop < 16 → waits y (items place l) (.buckets b stop))) ∧
        (w.pos = .bins (b % 4096) b k → due inBin belongs k stop l →
          ∃ y, examined inBin belongs k stop l y ∧
            (stop = 16 → (∃ i e, i < 16 ∧ x.entry (inBin i) = some e ∧ x.bucket e.fp = b) ∨ x.marked b = false →
              goesOn y (items inBin l) (.bins (b % 4096) (b + 4096) 0)) ∧
            (stop = 16 → (∀ i e, i < 16 → x.entry (inBin i) = some e → x.bucket e.fp ≠ b) → x.marked b = true →
              ∀ g, tabGet x.groups (b / 256) = some g → goesOn (unmarked g) [] (.bins (b % 4096) (b + 4096) 0)) ∧
            (stop < 16 → waits y (items inBin l) (.bins (b % 4096) b stop))))

/-! ## Frames -/

/-- R202, R204, R205: the frame of a well-formed OPEN, DATA, CLOSE, ABORT or STORE ANSWER is read as that command, whatever
its destination and with its padding; a frame of another EtherType passes through. -/
def Obligations.StreamFramesAreReadBack : Prop :=
  ∀ (i : Instr) (port : Port) (dest : Mac) (etherType : Nat) (frame : List Byte), i.wf = true → etherType < 65536 →
    ((∃ source branch stream mode endMode expected, i = .openParcel port source branch stream mode endMode expected) ∨
      (∃ source branch stream seq payload, i = .dataParcel port source branch stream seq payload) ∨
      (∃ source branch stream final total, i = .closeParcel port source branch stream final total) ∨
      (∃ source branch stream, i = .abortParcel port source branch stream) ∨
      (∃ tag serial verdict, i = .storeAnswer port tag serial verdict)) →
    Wire.wireFrame dest etherType i = some frame →
      Wire.classifyFrame etherType port frame = i ∧
      ∀ other, other ≠ etherType → Wire.classifyFrame other port frame = .passThroughFrame port frame

/-- R189, R202, R203: the frame of a well-formed management request, whatever its kind and arguments, is read as that
request. The width of some arguments is read from R203 by inference (log 30). -/
def Obligations.ManagementFramesAreReadBack : Prop :=
  ∀ (port : Port) (source dest : Mac) (number etherType : Nat) (request : Request) (frame : List Byte),
    number < 65536 → request.wf = true → etherType < 65536 → frame.length ≤ 9212 →
    Wire.wireFrame dest etherType (.mgmtParcel port source number request) = some frame →
      Wire.classifyFrame etherType port frame = .mgmtParcel port source number request
end

