-- ==== Sys2Proof/Laws/State.lean ====
section
/-! SUPPORT. Every field after every update of one field: each true by unfolding the update. -/

namespace Sys2Proof.Machine

open Sys2Proof

variable (p : Path)

@[simp] theorem bump_flags (c : Counter) (n : Nat) : (p.bump c n).flags = p.flags := rfl
@[simp] theorem bump_contexts (c : Counter) (n : Nat) : (p.bump c n).contexts = p.contexts := rfl
@[simp] theorem bump_pet (c : Counter) (n : Nat) : (p.bump c n).pet = p.pet := rfl
@[simp] theorem bump_cache (c : Counter) (n : Nat) : (p.bump c n).cache = p.cache := rfl
@[simp] theorem bump_hotOps (c : Counter) (n : Nat) : (p.bump c n).hotOps = p.hotOps := rfl
@[simp] theorem bump_lookups (c : Counter) (n : Nat) : (p.bump c n).lookups = p.lookups := rfl
@[simp] theorem bump_results (c : Counter) (n : Nat) : (p.bump c n).results = p.results := rfl
@[simp] theorem bump_placements (c : Counter) (n : Nat) : (p.bump c n).placements = p.placements := rfl
@[simp] theorem bump_chunkOps (c : Counter) (n : Nat) : (p.bump c n).chunkOps = p.chunkOps := rfl
@[simp] theorem bump_releaseOps (c : Counter) (n : Nat) : (p.bump c n).releaseOps = p.releaseOps := rfl
@[simp] theorem bump_sweeper (c : Counter) (n : Nat) : (p.bump c n).sweeper = p.sweeper := rfl
@[simp] theorem bump_alloc (c : Counter) (n : Nat) : (p.bump c n).alloc = p.alloc := rfl
@[simp] theorem bump_link (c : Counter) (n : Nat) : (p.bump c n).link = p.link := rfl
@[simp] theorem bump_sPort (c : Counter) (n : Nat) : (p.bump c n).sPort = p.sPort := rfl
@[simp] theorem bump_iPort (c : Counter) (n : Nat) : (p.bump c n).iPort = p.iPort := rfl
@[simp] theorem bump_batch (c : Counter) (n : Nat) : (p.bump c n).batch = p.batch := rfl
@[simp] theorem bump_eor (c : Counter) (n : Nat) : (p.bump c n).eor = p.eor := rfl
@[simp] theorem bump_iQueue (c : Counter) (n : Nat) : (p.bump c n).iQueue = p.iQueue := rfl
@[simp] theorem bump_sQueue (c : Counter) (n : Nat) : (p.bump c n).sQueue = p.sQueue := rfl
@[simp] theorem bump_warm (c : Counter) (n : Nat) : (p.bump c n).warm = p.warm := rfl

@[simp] theorem setFlag_counters (f : Flag) : (p.setFlag f).counters = p.counters := rfl
@[simp] theorem setFlag_contexts (f : Flag) : (p.setFlag f).contexts = p.contexts := rfl
@[simp] theorem setFlag_pet (f : Flag) : (p.setFlag f).pet = p.pet := rfl
@[simp] theorem setFlag_cache (f : Flag) : (p.setFlag f).cache = p.cache := rfl
@[simp] theorem setFlag_hotOps (f : Flag) : (p.setFlag f).hotOps = p.hotOps := rfl
@[simp] theorem setFlag_lookups (f : Flag) : (p.setFlag f).lookups = p.lookups := rfl
@[simp] theorem setFlag_results (f : Flag) : (p.setFlag f).results = p.results := rfl
@[simp] theorem setFlag_placements (f : Flag) : (p.setFlag f).placements = p.placements := rfl
@[simp] theorem setFlag_chunkOps (f : Flag) : (p.setFlag f).chunkOps = p.chunkOps := rfl
@[simp] theorem setFlag_releaseOps (f : Flag) : (p.setFlag f).releaseOps = p.releaseOps := rfl
@[simp] theorem setFlag_sweeper (f : Flag) : (p.setFlag f).sweeper = p.sweeper := rfl
@[simp] theorem setFlag_alloc (f : Flag) : (p.setFlag f).alloc = p.alloc := rfl
@[simp] theorem setFlag_link (f : Flag) : (p.setFlag f).link = p.link := rfl
@[simp] theorem setFlag_sPort (f : Flag) : (p.setFlag f).sPort = p.sPort := rfl
@[simp] theorem setFlag_iPort (f : Flag) : (p.setFlag f).iPort = p.iPort := rfl
@[simp] theorem setFlag_batch (f : Flag) : (p.setFlag f).batch = p.batch := rfl
@[simp] theorem setFlag_eor (f : Flag) : (p.setFlag f).eor = p.eor := rfl
@[simp] theorem setFlag_iQueue (f : Flag) : (p.setFlag f).iQueue = p.iQueue := rfl
@[simp] theorem setFlag_sQueue (f : Flag) : (p.setFlag f).sQueue = p.sQueue := rfl
@[simp] theorem setFlag_warm (f : Flag) : (p.setFlag f).warm = p.warm := rfl

@[simp] theorem clearFlags_counters (m : Mask16) : (p.clearFlags m).counters = p.counters := rfl
@[simp] theorem clearFlags_contexts (m : Mask16) : (p.clearFlags m).contexts = p.contexts := rfl
@[simp] theorem clearFlags_pet (m : Mask16) : (p.clearFlags m).pet = p.pet := rfl
@[simp] theorem clearFlags_cache (m : Mask16) : (p.clearFlags m).cache = p.cache := rfl
@[simp] theorem clearFlags_hotOps (m : Mask16) : (p.clearFlags m).hotOps = p.hotOps := rfl
@[simp] theorem clearFlags_lookups (m : Mask16) : (p.clearFlags m).lookups = p.lookups := rfl
@[simp] theorem clearFlags_results (m : Mask16) : (p.clearFlags m).results = p.results := rfl
@[simp] theorem clearFlags_placements (m : Mask16) : (p.clearFlags m).placements = p.placements := rfl
@[simp] theorem clearFlags_chunkOps (m : Mask16) : (p.clearFlags m).chunkOps = p.chunkOps := rfl
@[simp] theorem clearFlags_releaseOps (m : Mask16) : (p.clearFlags m).releaseOps = p.releaseOps := rfl
@[simp] theorem clearFlags_sweeper (m : Mask16) : (p.clearFlags m).sweeper = p.sweeper := rfl
@[simp] theorem clearFlags_alloc (m : Mask16) : (p.clearFlags m).alloc = p.alloc := rfl
@[simp] theorem clearFlags_link (m : Mask16) : (p.clearFlags m).link = p.link := rfl
@[simp] theorem clearFlags_sPort (m : Mask16) : (p.clearFlags m).sPort = p.sPort := rfl
@[simp] theorem clearFlags_iPort (m : Mask16) : (p.clearFlags m).iPort = p.iPort := rfl
@[simp] theorem clearFlags_batch (m : Mask16) : (p.clearFlags m).batch = p.batch := rfl
@[simp] theorem clearFlags_eor (m : Mask16) : (p.clearFlags m).eor = p.eor := rfl
@[simp] theorem clearFlags_iQueue (m : Mask16) : (p.clearFlags m).iQueue = p.iQueue := rfl
@[simp] theorem clearFlags_sQueue (m : Mask16) : (p.clearFlags m).sQueue = p.sQueue := rfl
@[simp] theorem clearFlags_warm (m : Mask16) : (p.clearFlags m).warm = p.warm := rfl

@[simp] theorem modCtx_counters (n : Nat) (f : Context → Context) : (p.modCtx n f).counters = p.counters := rfl
@[simp] theorem modCtx_flags (n : Nat) (f : Context → Context) : (p.modCtx n f).flags = p.flags := rfl
@[simp] theorem modCtx_pet (n : Nat) (f : Context → Context) : (p.modCtx n f).pet = p.pet := rfl
@[simp] theorem modCtx_cache (n : Nat) (f : Context → Context) : (p.modCtx n f).cache = p.cache := rfl
@[simp] theorem modCtx_hotOps (n : Nat) (f : Context → Context) : (p.modCtx n f).hotOps = p.hotOps := rfl
@[simp] theorem modCtx_lookups (n : Nat) (f : Context → Context) : (p.modCtx n f).lookups = p.lookups := rfl
@[simp] theorem modCtx_results (n : Nat) (f : Context → Context) : (p.modCtx n f).results = p.results := rfl
@[simp] theorem modCtx_placements (n : Nat) (f : Context → Context) : (p.modCtx n f).placements = p.placements := rfl
@[simp] theorem modCtx_chunkOps (n : Nat) (f : Context → Context) : (p.modCtx n f).chunkOps = p.chunkOps := rfl
@[simp] theorem modCtx_releaseOps (n : Nat) (f : Context → Context) : (p.modCtx n f).releaseOps = p.releaseOps := rfl
@[simp] theorem modCtx_sweeper (n : Nat) (f : Context → Context) : (p.modCtx n f).sweeper = p.sweeper := rfl
@[simp] theorem modCtx_alloc (n : Nat) (f : Context → Context) : (p.modCtx n f).alloc = p.alloc := rfl
@[simp] theorem modCtx_link (n : Nat) (f : Context → Context) : (p.modCtx n f).link = p.link := rfl
@[simp] theorem modCtx_sPort (n : Nat) (f : Context → Context) : (p.modCtx n f).sPort = p.sPort := rfl
@[simp] theorem modCtx_iPort (n : Nat) (f : Context → Context) : (p.modCtx n f).iPort = p.iPort := rfl
@[simp] theorem modCtx_batch (n : Nat) (f : Context → Context) : (p.modCtx n f).batch = p.batch := rfl
@[simp] theorem modCtx_eor (n : Nat) (f : Context → Context) : (p.modCtx n f).eor = p.eor := rfl
@[simp] theorem modCtx_iQueue (n : Nat) (f : Context → Context) : (p.modCtx n f).iQueue = p.iQueue := rfl
@[simp] theorem modCtx_sQueue (n : Nat) (f : Context → Context) : (p.modCtx n f).sQueue = p.sQueue := rfl
@[simp] theorem modCtx_warm (n : Nat) (f : Context → Context) : (p.modCtx n f).warm = p.warm := rfl

@[simp] theorem askTag_counters (r : TagRequest) : (p.askTag r).counters = p.counters := rfl
@[simp] theorem askTag_flags (r : TagRequest) : (p.askTag r).flags = p.flags := rfl
@[simp] theorem askTag_contexts (r : TagRequest) : (p.askTag r).contexts = p.contexts := rfl
@[simp] theorem askTag_pet (r : TagRequest) : (p.askTag r).pet = p.pet := rfl
@[simp] theorem askTag_cache (r : TagRequest) : (p.askTag r).cache = p.cache := rfl
@[simp] theorem askTag_hotOps (r : TagRequest) : (p.askTag r).hotOps = p.hotOps := rfl
@[simp] theorem askTag_lookups (r : TagRequest) : (p.askTag r).lookups = p.lookups := rfl
@[simp] theorem askTag_results (r : TagRequest) : (p.askTag r).results = p.results := rfl
@[simp] theorem askTag_placements (r : TagRequest) : (p.askTag r).placements = p.placements := rfl
@[simp] theorem askTag_chunkOps (r : TagRequest) : (p.askTag r).chunkOps = p.chunkOps := rfl
@[simp] theorem askTag_releaseOps (r : TagRequest) : (p.askTag r).releaseOps = p.releaseOps := rfl
@[simp] theorem askTag_sweeper (r : TagRequest) : (p.askTag r).sweeper = p.sweeper := rfl
@[simp] theorem askTag_alloc (r : TagRequest) : (p.askTag r).alloc = p.alloc := rfl
@[simp] theorem askTag_sPort (r : TagRequest) : (p.askTag r).sPort = p.sPort := rfl
@[simp] theorem askTag_iPort (r : TagRequest) : (p.askTag r).iPort = p.iPort := rfl
@[simp] theorem askTag_batch (r : TagRequest) : (p.askTag r).batch = p.batch := rfl
@[simp] theorem askTag_eor (r : TagRequest) : (p.askTag r).eor = p.eor := rfl
@[simp] theorem askTag_iQueue (r : TagRequest) : (p.askTag r).iQueue = p.iQueue := rfl
@[simp] theorem askTag_sQueue (r : TagRequest) : (p.askTag r).sQueue = p.sQueue := rfl
@[simp] theorem askTag_warm (r : TagRequest) : (p.askTag r).warm = p.warm := rfl

@[simp] theorem makePace_counters (n : PaceNotice) : (p.makePace n).counters = p.counters := rfl
@[simp] theorem makePace_flags (n : PaceNotice) : (p.makePace n).flags = p.flags := rfl
@[simp] theorem makePace_contexts (n : PaceNotice) : (p.makePace n).contexts = p.contexts := rfl
@[simp] theorem makePace_pet (n : PaceNotice) : (p.makePace n).pet = p.pet := rfl
@[simp] theorem makePace_cache (n : PaceNotice) : (p.makePace n).cache = p.cache := rfl
@[simp] theorem makePace_hotOps (n : PaceNotice) : (p.makePace n).hotOps = p.hotOps := rfl
@[simp] theorem makePace_lookups (n : PaceNotice) : (p.makePace n).lookups = p.lookups := rfl
@[simp] theorem makePace_results (n : PaceNotice) : (p.makePace n).results = p.results := rfl
@[simp] theorem makePace_placements (n : PaceNotice) : (p.makePace n).placements = p.placements := rfl
@[simp] theorem makePace_chunkOps (n : PaceNotice) : (p.makePace n).chunkOps = p.chunkOps := rfl
@[simp] theorem makePace_releaseOps (n : PaceNotice) : (p.makePace n).releaseOps = p.releaseOps := rfl
@[simp] theorem makePace_sweeper (n : PaceNotice) : (p.makePace n).sweeper = p.sweeper := rfl
@[simp] theorem makePace_alloc (n : PaceNotice) : (p.makePace n).alloc = p.alloc := rfl
@[simp] theorem makePace_link (n : PaceNotice) : (p.makePace n).link = p.link := rfl
@[simp] theorem makePace_sPort (n : PaceNotice) : (p.makePace n).sPort = p.sPort := rfl
@[simp] theorem makePace_batch (n : PaceNotice) : (p.makePace n).batch = p.batch := rfl
@[simp] theorem makePace_eor (n : PaceNotice) : (p.makePace n).eor = p.eor := rfl
@[simp] theorem makePace_iQueue (n : PaceNotice) : (p.makePace n).iQueue = p.iQueue := rfl
@[simp] theorem makePace_sQueue (n : PaceNotice) : (p.makePace n).sQueue = p.sQueue := rfl
@[simp] theorem makePace_warm (n : PaceNotice) : (p.makePace n).warm = p.warm := rfl

@[simp] theorem dropPace_counters (n : Nat) : (p.dropPace n).counters = p.counters := rfl
@[simp] theorem dropPace_flags (n : Nat) : (p.dropPace n).flags = p.flags := rfl
@[simp] theorem dropPace_contexts (n : Nat) : (p.dropPace n).contexts = p.contexts := rfl
@[simp] theorem dropPace_pet (n : Nat) : (p.dropPace n).pet = p.pet := rfl
@[simp] theorem dropPace_cache (n : Nat) : (p.dropPace n).cache = p.cache := rfl
@[simp] theorem dropPace_hotOps (n : Nat) : (p.dropPace n).hotOps = p.hotOps := rfl
@[simp] theorem dropPace_lookups (n : Nat) : (p.dropPace n).lookups = p.lookups := rfl
@[simp] theorem dropPace_results (n : Nat) : (p.dropPace n).results = p.results := rfl
@[simp] theorem dropPace_placements (n : Nat) : (p.dropPace n).placements = p.placements := rfl
@[simp] theorem dropPace_chunkOps (n : Nat) : (p.dropPace n).chunkOps = p.chunkOps := rfl
@[simp] theorem dropPace_releaseOps (n : Nat) : (p.dropPace n).releaseOps = p.releaseOps := rfl
@[simp] theorem dropPace_sweeper (n : Nat) : (p.dropPace n).sweeper = p.sweeper := rfl
@[simp] theorem dropPace_alloc (n : Nat) : (p.dropPace n).alloc = p.alloc := rfl
@[simp] theorem dropPace_link (n : Nat) : (p.dropPace n).link = p.link := rfl
@[simp] theorem dropPace_sPort (n : Nat) : (p.dropPace n).sPort = p.sPort := rfl
@[simp] theorem dropPace_batch (n : Nat) : (p.dropPace n).batch = p.batch := rfl
@[simp] theorem dropPace_eor (n : Nat) : (p.dropPace n).eor = p.eor := rfl
@[simp] theorem dropPace_iQueue (n : Nat) : (p.dropPace n).iQueue = p.iQueue := rfl
@[simp] theorem dropPace_sQueue (n : Nat) : (p.dropPace n).sQueue = p.sQueue := rfl
@[simp] theorem dropPace_warm (n : Nat) : (p.dropPace n).warm = p.warm := rfl

@[simp] theorem setWays_counters (f : Fingerprint) (w : List (Fingerprint × Nat)) : (p.setWays f w).counters = p.counters := rfl
@[simp] theorem setWays_flags (f : Fingerprint) (w : List (Fingerprint × Nat)) : (p.setWays f w).flags = p.flags := rfl
@[simp] theorem setWays_contexts (f : Fingerprint) (w : List (Fingerprint × Nat)) : (p.setWays f w).contexts = p.contexts := rfl
@[simp] theorem setWays_pet (f : Fingerprint) (w : List (Fingerprint × Nat)) : (p.setWays f w).pet = p.pet := rfl
@[simp] theorem setWays_hotOps (f : Fingerprint) (w : List (Fingerprint × Nat)) : (p.setWays f w).hotOps = p.hotOps := rfl
@[simp] theorem setWays_lookups (f : Fingerprint) (w : List (Fingerprint × Nat)) : (p.setWays f w).lookups = p.lookups := rfl
@[simp] theorem setWays_results (f : Fingerprint) (w : List (Fingerprint × Nat)) : (p.setWays f w).results = p.results := rfl
@[simp] theorem setWays_placements (f : Fingerprint) (w : List (Fingerprint × Nat)) : (p.setWays f w).placements = p.placements := rfl
@[simp] theorem setWays_chunkOps (f : Fingerprint) (w : List (Fingerprint × Nat)) : (p.setWays f w).chunkOps = p.chunkOps := rfl
@[simp] theorem setWays_releaseOps (f : Fingerprint) (w : List (Fingerprint × Nat)) : (p.setWays f w).releaseOps = p.releaseOps := rfl
@[simp] theorem setWays_sweeper (f : Fingerprint) (w : List (Fingerprint × Nat)) : (p.setWays f w).sweeper = p.sweeper := rfl
@[simp] theorem setWays_alloc (f : Fingerprint) (w : List (Fingerprint × Nat)) : (p.setWays f w).alloc = p.alloc := rfl
@[simp] theorem setWays_link (f : Fingerprint) (w : List (Fingerprint × Nat)) : (p.setWays f w).link = p.link := rfl
@[simp] theorem setWays_sPort (f : Fingerprint) (w : List (Fingerprint × Nat)) : (p.setWays f w).sPort = p.sPort := rfl
@[simp] theorem setWays_iPort (f : Fingerprint) (w : List (Fingerprint × Nat)) : (p.setWays f w).iPort = p.iPort := rfl
@[simp] theorem setWays_batch (f : Fingerprint) (w : List (Fingerprint × Nat)) : (p.setWays f w).batch = p.batch := rfl
@[simp] theorem setWays_eor (f : Fingerprint) (w : List (Fingerprint × Nat)) : (p.setWays f w).eor = p.eor := rfl
@[simp] theorem setWays_iQueue (f : Fingerprint) (w : List (Fingerprint × Nat)) : (p.setWays f w).iQueue = p.iQueue := rfl
@[simp] theorem setWays_sQueue (f : Fingerprint) (w : List (Fingerprint × Nat)) : (p.setWays f w).sQueue = p.sQueue := rfl
@[simp] theorem setWays_warm (f : Fingerprint) (w : List (Fingerprint × Nat)) : (p.setWays f w).warm = p.warm := rfl

@[simp] theorem removeMessage_counters (tag : Nat) : (p.removeMessage tag).counters = p.counters := rfl
@[simp] theorem removeMessage_flags (tag : Nat) : (p.removeMessage tag).flags = p.flags := rfl
@[simp] theorem removeMessage_contexts (tag : Nat) : (p.removeMessage tag).contexts = p.contexts := rfl
@[simp] theorem removeMessage_pet (tag : Nat) : (p.removeMessage tag).pet = p.pet := rfl
@[simp] theorem removeMessage_cache (tag : Nat) : (p.removeMessage tag).cache = p.cache := rfl
@[simp] theorem removeMessage_hotOps (tag : Nat) : (p.removeMessage tag).hotOps = p.hotOps := rfl
@[simp] theorem removeMessage_lookups (tag : Nat) : (p.removeMessage tag).lookups = p.lookups := rfl
@[simp] theorem removeMessage_results (tag : Nat) : (p.removeMessage tag).results = p.results := rfl
@[simp] theorem removeMessage_placements (tag : Nat) : (p.removeMessage tag).placements = p.placements := rfl
@[simp] theorem removeMessage_chunkOps (tag : Nat) : (p.removeMessage tag).chunkOps = p.chunkOps := rfl
@[simp] theorem removeMessage_releaseOps (tag : Nat) : (p.removeMessage tag).releaseOps = p.releaseOps := rfl
@[simp] theorem removeMessage_sweeper (tag : Nat) : (p.removeMessage tag).sweeper = p.sweeper := rfl
@[simp] theorem removeMessage_alloc (tag : Nat) : (p.removeMessage tag).alloc = p.alloc := rfl
@[simp] theorem removeMessage_sPort (tag : Nat) : (p.removeMessage tag).sPort = p.sPort := rfl
@[simp] theorem removeMessage_iPort (tag : Nat) : (p.removeMessage tag).iPort = p.iPort := rfl
@[simp] theorem removeMessage_batch (tag : Nat) : (p.removeMessage tag).batch = p.batch := rfl
@[simp] theorem removeMessage_eor (tag : Nat) : (p.removeMessage tag).eor = p.eor := rfl
@[simp] theorem removeMessage_iQueue (tag : Nat) : (p.removeMessage tag).iQueue = p.iQueue := rfl
@[simp] theorem removeMessage_sQueue (tag : Nat) : (p.removeMessage tag).sQueue = p.sQueue := rfl
@[simp] theorem removeMessage_warm (tag : Nat) : (p.removeMessage tag).warm = p.warm := rfl

@[simp] theorem modMessage_counters (tag : Nat) (f : Message → Message) : (p.modMessage tag f).counters = p.counters := rfl
@[simp] theorem modMessage_flags (tag : Nat) (f : Message → Message) : (p.modMessage tag f).flags = p.flags := rfl
@[simp] theorem modMessage_contexts (tag : Nat) (f : Message → Message) : (p.modMessage tag f).contexts = p.contexts := rfl
@[simp] theorem modMessage_pet (tag : Nat) (f : Message → Message) : (p.modMessage tag f).pet = p.pet := rfl
@[simp] theorem modMessage_cache (tag : Nat) (f : Message → Message) : (p.modMessage tag f).cache = p.cache := rfl
@[simp] theorem modMessage_hotOps (tag : Nat) (f : Message → Message) : (p.modMessage tag f).hotOps = p.hotOps := rfl
@[simp] theorem modMessage_lookups (tag : Nat) (f : Message → Message) : (p.modMessage tag f).lookups = p.lookups := rfl
@[simp] theorem modMessage_results (tag : Nat) (f : Message → Message) : (p.modMessage tag f).results = p.results := rfl
@[simp] theorem modMessage_placements (tag : Nat) (f : Message → Message) : (p.modMessage tag f).placements = p.placements := rfl
@[simp] theorem modMessage_chunkOps (tag : Nat) (f : Message → Message) : (p.modMessage tag f).chunkOps = p.chunkOps := rfl
@[simp] theorem modMessage_releaseOps (tag : Nat) (f : Message → Message) : (p.modMessage tag f).releaseOps = p.releaseOps := rfl
@[simp] theorem modMessage_sweeper (tag : Nat) (f : Message → Message) : (p.modMessage tag f).sweeper = p.sweeper := rfl
@[simp] theorem modMessage_alloc (tag : Nat) (f : Message → Message) : (p.modMessage tag f).alloc = p.alloc := rfl
@[simp] theorem modMessage_sPort (tag : Nat) (f : Message → Message) : (p.modMessage tag f).sPort = p.sPort := rfl
@[simp] theorem modMessage_iPort (tag : Nat) (f : Message → Message) : (p.modMessage tag f).iPort = p.iPort := rfl
@[simp] theorem modMessage_batch (tag : Nat) (f : Message → Message) : (p.modMessage tag f).batch = p.batch := rfl
@[simp] theorem modMessage_eor (tag : Nat) (f : Message → Message) : (p.modMessage tag f).eor = p.eor := rfl
@[simp] theorem modMessage_iQueue (tag : Nat) (f : Message → Message) : (p.modMessage tag f).iQueue = p.iQueue := rfl
@[simp] theorem modMessage_sQueue (tag : Nat) (f : Message → Message) : (p.modMessage tag f).sQueue = p.sQueue := rfl
@[simp] theorem modMessage_warm (tag : Nat) (f : Message → Message) : (p.modMessage tag f).warm = p.warm := rfl

@[simp] theorem setQueue_counters (port : Port) (q : PortQueue) : (p.setQueue port q).counters = p.counters := by cases port <;> rfl
@[simp] theorem setQueue_flags (port : Port) (q : PortQueue) : (p.setQueue port q).flags = p.flags := by cases port <;> rfl
@[simp] theorem setQueue_contexts (port : Port) (q : PortQueue) : (p.setQueue port q).contexts = p.contexts := by cases port <;> rfl
@[simp] theorem setQueue_pet (port : Port) (q : PortQueue) : (p.setQueue port q).pet = p.pet := by cases port <;> rfl
@[simp] theorem setQueue_cache (port : Port) (q : PortQueue) : (p.setQueue port q).cache = p.cache := by cases port <;> rfl
@[simp] theorem setQueue_hotOps (port : Port) (q : PortQueue) : (p.setQueue port q).hotOps = p.hotOps := by cases port <;> rfl
@[simp] theorem setQueue_lookups (port : Port) (q : PortQueue) : (p.setQueue port q).lookups = p.lookups := by cases port <;> rfl
@[simp] theorem setQueue_results (port : Port) (q : PortQueue) : (p.setQueue port q).results = p.results := by cases port <;> rfl
@[simp] theorem setQueue_placements (port : Port) (q : PortQueue) : (p.setQueue port q).placements = p.placements := by cases port <;> rfl
@[simp] theorem setQueue_chunkOps (port : Port) (q : PortQueue) : (p.setQueue port q).chunkOps = p.chunkOps := by cases port <;> rfl
@[simp] theorem setQueue_releaseOps (port : Port) (q : PortQueue) : (p.setQueue port q).releaseOps = p.releaseOps := by cases port <;> rfl
@[simp] theorem setQueue_sweeper (port : Port) (q : PortQueue) : (p.setQueue port q).sweeper = p.sweeper := by cases port <;> rfl
@[simp] theorem setQueue_alloc (port : Port) (q : PortQueue) : (p.setQueue port q).alloc = p.alloc := by cases port <;> rfl
@[simp] theorem setQueue_link (port : Port) (q : PortQueue) : (p.setQueue port q).link = p.link := by cases port <;> rfl
@[simp] theorem setQueue_sPort (port : Port) (q : PortQueue) : (p.setQueue port q).sPort = p.sPort := by cases port <;> rfl
@[simp] theorem setQueue_iPort (port : Port) (q : PortQueue) : (p.setQueue port q).iPort = p.iPort := by cases port <;> rfl
@[simp] theorem setQueue_batch (port : Port) (q : PortQueue) : (p.setQueue port q).batch = p.batch := by cases port <;> rfl
@[simp] theorem setQueue_eor (port : Port) (q : PortQueue) : (p.setQueue port q).eor = p.eor := by cases port <;> rfl
@[simp] theorem setQueue_warm (port : Port) (q : PortQueue) : (p.setQueue port q).warm = p.warm := by cases port <;> rfl

@[simp] theorem setHead_counters (port : Port) (h : HeadState) : (p.setHead port h).counters = p.counters := by cases port <;> rfl
@[simp] theorem setHead_flags (port : Port) (h : HeadState) : (p.setHead port h).flags = p.flags := by cases port <;> rfl
@[simp] theorem setHead_contexts (port : Port) (h : HeadState) : (p.setHead port h).contexts = p.contexts := by cases port <;> rfl
@[simp] theorem setHead_pet (port : Port) (h : HeadState) : (p.setHead port h).pet = p.pet := by cases port <;> rfl
@[simp] theorem setHead_cache (port : Port) (h : HeadState) : (p.setHead port h).cache = p.cache := by cases port <;> rfl
@[simp] theorem setHead_hotOps (port : Port) (h : HeadState) : (p.setHead port h).hotOps = p.hotOps := by cases port <;> rfl
@[simp] theorem setHead_lookups (port : Port) (h : HeadState) : (p.setHead port h).lookups = p.lookups := by cases port <;> rfl
@[simp] theorem setHead_results (port : Port) (h : HeadState) : (p.setHead port h).results = p.results := by cases port <;> rfl
@[simp] theorem setHead_placements (port : Port) (h : HeadState) : (p.setHead port h).placements = p.placements := by cases port <;> rfl
@[simp] theorem setHead_chunkOps (port : Port) (h : HeadState) : (p.setHead port h).chunkOps = p.chunkOps := by cases port <;> rfl
@[simp] theorem setHead_releaseOps (port : Port) (h : HeadState) : (p.setHead port h).releaseOps = p.releaseOps := by cases port <;> rfl
@[simp] theorem setHead_sweeper (port : Port) (h : HeadState) : (p.setHead port h).sweeper = p.sweeper := by cases port <;> rfl
@[simp] theorem setHead_alloc (port : Port) (h : HeadState) : (p.setHead port h).alloc = p.alloc := by cases port <;> rfl
@[simp] theorem setHead_link (port : Port) (h : HeadState) : (p.setHead port h).link = p.link := by cases port <;> rfl
@[simp] theorem setHead_sPort (port : Port) (h : HeadState) : (p.setHead port h).sPort = p.sPort := by cases port <;> rfl
@[simp] theorem setHead_iPort (port : Port) (h : HeadState) : (p.setHead port h).iPort = p.iPort := by cases port <;> rfl
@[simp] theorem setHead_batch (port : Port) (h : HeadState) : (p.setHead port h).batch = p.batch := by cases port <;> rfl
@[simp] theorem setHead_eor (port : Port) (h : HeadState) : (p.setHead port h).eor = p.eor := by cases port <;> rfl
@[simp] theorem setHead_warm (port : Port) (h : HeadState) : (p.setHead port h).warm = p.warm := by cases port <;> rfl

@[simp] theorem popQueue_counters (port : Port) : (p.popQueue port).counters = p.counters := by cases port <;> rfl
@[simp] theorem popQueue_flags (port : Port) : (p.popQueue port).flags = p.flags := by cases port <;> rfl
@[simp] theorem popQueue_contexts (port : Port) : (p.popQueue port).contexts = p.contexts := by cases port <;> rfl
@[simp] theorem popQueue_pet (port : Port) : (p.popQueue port).pet = p.pet := by cases port <;> rfl
@[simp] theorem popQueue_cache (port : Port) : (p.popQueue port).cache = p.cache := by cases port <;> rfl
@[simp] theorem popQueue_hotOps (port : Port) : (p.popQueue port).hotOps = p.hotOps := by cases port <;> rfl
@[simp] theorem popQueue_lookups (port : Port) : (p.popQueue port).lookups = p.lookups := by cases port <;> rfl
@[simp] theorem popQueue_results (port : Port) : (p.popQueue port).results = p.results := by cases port <;> rfl
@[simp] theorem popQueue_placements (port : Port) : (p.popQueue port).placements = p.placements := by cases port <;> rfl
@[simp] theorem popQueue_chunkOps (port : Port) : (p.popQueue port).chunkOps = p.chunkOps := by cases port <;> rfl
@[simp] theorem popQueue_releaseOps (port : Port) : (p.popQueue port).releaseOps = p.releaseOps := by cases port <;> rfl
@[simp] theorem popQueue_sweeper (port : Port) : (p.popQueue port).sweeper = p.sweeper := by cases port <;> rfl
@[simp] theorem popQueue_alloc (port : Port) : (p.popQueue port).alloc = p.alloc := by cases port <;> rfl
@[simp] theorem popQueue_link (port : Port) : (p.popQueue port).link = p.link := by cases port <;> rfl
@[simp] theorem popQueue_sPort (port : Port) : (p.popQueue port).sPort = p.sPort := by cases port <;> rfl
@[simp] theorem popQueue_iPort (port : Port) : (p.popQueue port).iPort = p.iPort := by cases port <;> rfl
@[simp] theorem popQueue_batch (port : Port) : (p.popQueue port).batch = p.batch := by cases port <;> rfl
@[simp] theorem popQueue_eor (port : Port) : (p.popQueue port).eor = p.eor := by cases port <;> rfl
@[simp] theorem popQueue_warm (port : Port) : (p.popQueue port).warm = p.warm := by cases port <;> rfl

end Sys2Proof.Machine
end

