-- ==== Sys2Proof/Laws/Tables.lean ====
section
/-! SUPPORT. What the sparse tables' operations do: reads after writes, and the canonical form kept. -/

namespace Sys2Proof.Machine

open Sys2Proof

variable {α : Type}

/-! ## Reads after writes -/

@[simp] theorem tabGet_tabSet (t : Tab α) (i j : Nat) (a : α) :
    tabGet (tabSet t i a) j = if j = i then some a else tabGet t j := by
  induction t with
  | nil => simp [tabSet, tabGet]
  | cons kv t ih =>
    obtain ⟨k, v⟩ := kv
    simp only [tabSet]
    split
    · simp [tabGet]
    · split
      · subst_vars; simp only [tabGet]; split <;> rfl
      · simp only [tabGet, ih]; split
        · split <;> first | rfl | omega
        · rfl

theorem tabGet_tabErase_other (t : Tab α) {i j : Nat} (h : j ≠ i) : tabGet (tabErase t i) j = tabGet t j := by
  induction t with
  | nil => rfl
  | cons kv t ih =>
    obtain ⟨k, v⟩ := kv
    simp only [tabErase]
    split
    · subst_vars; simp [tabGet, h]
    · simp only [tabGet, ih]

/-! ## The canonical form -/

theorem tabWf_cons {k : Nat} {v : α} {t : Tab α} :
    tabWf ((k, v) :: t) = true ↔ (∀ e ∈ t, k < e.1) ∧ tabWf t = true := by
  induction t generalizing k v with
  | nil => simp [tabWf]
  | cons kv t ih =>
    obtain ⟨l, w⟩ := kv
    simp only [tabWf, Bool.and_eq_true, decide_eq_true_eq, List.mem_cons, forall_eq_or_imp]
    constructor
    · rintro ⟨h, hw⟩
      exact ⟨⟨h, fun e he => h.trans ((ih.1 hw).1 e he)⟩, hw⟩
    · rintro ⟨⟨h, -⟩, hw⟩
      exact ⟨h, hw⟩

theorem tabGet_none_of_lt {t : Tab α} {i : Nat} (h : ∀ e ∈ t, i < e.1) : tabGet t i = none := by
  induction t with
  | nil => rfl
  | cons kv t ih =>
    obtain ⟨k, v⟩ := kv
    have := h (k, v) (by simp)
    simp only [tabGet]
    split
    · simp at this; omega
    · exact ih fun e he => h e (by simp [he])

theorem tabGet_tabErase_same {t : Tab α} (h : tabWf t = true) (i : Nat) : tabGet (tabErase t i) i = none := by
  induction t with
  | nil => rfl
  | cons kv t ih =>
    obtain ⟨k, v⟩ := kv
    obtain ⟨hk, ht⟩ := tabWf_cons.1 h
    simp only [tabErase]
    split
    · subst_vars; exact tabGet_none_of_lt hk
    · rename_i hne
      simp only [tabGet, if_neg hne]; exact ih ht

theorem mem_tabSet {t : Tab α} {i : Nat} {a : α} {e : Nat × α} (h : e ∈ tabSet t i a) : e = (i, a) ∨ e ∈ t := by
  induction t with
  | nil => simpa [tabSet] using h
  | cons kv t ih =>
    obtain ⟨k, v⟩ := kv
    simp only [tabSet] at h
    split at h
    · simpa using h
    · split at h
      · simp only [List.mem_cons] at h ⊢
        rcases h with h | h
        · exact .inl h
        · exact .inr (.inr h)
      · simp only [List.mem_cons] at h ⊢
        rcases h with h | h
        · exact .inr (.inl h)
        · rcases ih h with h | h
          · exact .inl h
          · exact .inr (.inr h)

theorem mem_tabErase {t : Tab α} {i : Nat} {e : Nat × α} (h : e ∈ tabErase t i) : e ∈ t := by
  induction t with
  | nil => simp [tabErase] at h
  | cons kv t ih =>
    obtain ⟨k, v⟩ := kv
    simp only [tabErase] at h
    split at h
    · exact List.mem_cons_of_mem _ h
    · simp only [List.mem_cons] at h ⊢
      rcases h with h | h
      · exact .inl h
      · exact .inr (ih h)

theorem tabSet_wf {t : Tab α} (h : tabWf t = true) (i : Nat) (a : α) : tabWf (tabSet t i a) = true := by
  induction t with
  | nil => rfl
  | cons kv t ih =>
    obtain ⟨k, v⟩ := kv
    obtain ⟨hk, ht⟩ := tabWf_cons.1 h
    simp only [tabSet]
    split
    · rename_i hlt
      refine tabWf_cons.2 ⟨?_, h⟩
      rintro e he
      simp only [List.mem_cons] at he
      rcases he with rfl | he
      · exact hlt
      · exact hlt.trans (hk e he)
    · split
      · subst_vars; exact tabWf_cons.2 ⟨hk, ht⟩
      · refine tabWf_cons.2 ⟨fun e he => ?_, ih ht⟩
        rcases mem_tabSet he with rfl | he
        · simp; omega
        · exact hk e he

theorem tabErase_wf {t : Tab α} (h : tabWf t = true) (i : Nat) : tabWf (tabErase t i) = true := by
  induction t with
  | nil => rfl
  | cons kv t ih =>
    obtain ⟨k, v⟩ := kv
    obtain ⟨hk, ht⟩ := tabWf_cons.1 h
    simp only [tabErase]
    split
    · exact ht
    · exact tabWf_cons.2 ⟨fun e he => hk e (mem_tabErase he), ih ht⟩

theorem filter_wf {t : Tab α} (h : tabWf t = true) (f : Nat × α → Bool) : tabWf (t.filter f) = true := by
  induction t with
  | nil => rfl
  | cons kv t ih =>
    obtain ⟨k, v⟩ := kv
    obtain ⟨hk, ht⟩ := tabWf_cons.1 h
    simp only [List.filter_cons]
    split
    · exact tabWf_cons.2 ⟨fun e he => hk e (List.mem_of_mem_filter he), ih ht⟩
    · exact ih ht

theorem tabPut_wf [DecidableEq α] {t : Tab α} (h : tabWf t = true) (d : α) (i : Nat) (a : α) :
    tabWf (tabPut d t i a) = true := by
  unfold tabPut; split
  · exact tabErase_wf h i
  · exact tabSet_wf h i a

theorem tabUpdate_wf {t : Tab α} (h : tabWf t = true) (i : Nat) (f : α → α) : tabWf (tabUpdate t i f) = true := by
  unfold tabUpdate; split
  · exact h
  · exact tabSet_wf h i _

theorem tabGet_filter {t : Tab α} (f : Nat → Bool) (i : Nat) :
    tabGet (t.filter fun e => f e.1) i = if f i then tabGet t i else none := by
  induction t with
  | nil => simp [tabGet]
  | cons kv t ih =>
    obtain ⟨k, v⟩ := kv
    simp only [List.filter_cons]
    by_cases hik : i = k
    · subst hik
      cases hf : f i <;> simp [tabGet, hf, ih]
    · cases hf : f k <;> simp [tabGet, hik, ih]

theorem tabGet_tabUpdate (t : Tab α) (i j : Nat) (f : α → α) :
    tabGet (tabUpdate t i f) j = if j = i then (tabGet t i).map f else tabGet t j := by
  unfold tabUpdate
  cases h : tabGet t i with
  | none =>
    by_cases hj : j = i
    · subst hj; simp [h]
    · simp [hj]
  | some a => simp

theorem tabGetD_tabPut_same [DecidableEq α] {t : Tab α} (h : tabWf t = true) (d : α) (i : Nat) (a : α) :
    tabGetD (tabPut d t i a) i d = a := by
  unfold tabPut tabGetD
  split
  · subst_vars; rw [tabGet_tabErase_same h]; rfl
  · simp

theorem tabGetD_tabPut_other [DecidableEq α] (t : Tab α) (d : α) {i j : Nat} (h : j ≠ i) (a : α) :
    tabGetD (tabPut d t i a) j d = tabGetD t j d := by
  unfold tabPut tabGetD
  split
  · rw [tabGet_tabErase_other t h]
  · simp [h]

theorem tabGet_mem {t : Tab α} {i : Nat} {a : α} (h : tabGet t i = some a) : (i, a) ∈ t := by
  induction t with
  | nil => simp [tabGet] at h
  | cons kv t ih =>
    obtain ⟨k, v⟩ := kv
    simp only [tabGet] at h
    split at h
    · simp_all
    · exact List.mem_cons_of_mem _ (ih h)

/-- A number listed in a table of canonical form reads as what is listed. -/
theorem tabGet_of_mem {t : Tab α} (h : tabWf t = true) {i : Nat} {a : α} (hm : (i, a) ∈ t) : tabGet t i = some a := by
  induction t with
  | nil => cases hm
  | cons e t ih =>
    obtain ⟨k, v⟩ := e
    obtain ⟨h1, h2⟩ := tabWf_cons.1 h
    rcases List.mem_cons.1 hm with he | hm
    · cases he; simp [tabGet]
    · have hk := h1 _ hm
      simp only [tabGet]
      rw [if_neg (by dsimp only at hk; omega)]
      exact ih h2 hm

/-- What is found first in a table of canonical form has the lowest number of all that could be found. -/
theorem find_lowest {t : Tab α} (h : tabWf t = true) (f : Nat × α → Bool) {e : Nat × α} (hm : e ∈ t) (he : f e = true)
    (hl : ∀ o ∈ t, f o = true → e.1 ≤ o.1) : t.find? f = some e := by
  induction t with
  | nil => cases hm
  | cons o t ih =>
    obtain ⟨k, v⟩ := o
    obtain ⟨h1, h2⟩ := tabWf_cons.1 h
    rcases List.mem_cons.1 hm with rfl | hm
    · simp [he]
    · have hk := h1 _ hm
      have : f (k, v) = false := by
        cases hf : f (k, v) with
        | false => rfl
        | true => have := hl _ List.mem_cons_self hf; dsimp only at hk this; omega
      rw [List.find?_cons_of_neg (by simp [this])]
      exact ih h2 hm fun o ho => hl o (List.mem_cons_of_mem _ ho)

end Sys2Proof.Machine
end

