-- ==== Sys2Proof/Laws/Egress.lean ====
section
/-! SUPPORT. What the end of every command can do: the grants of the transmitters and the answers to unknown requests
leave the data path's core alone, lose no item, and raise no counter but the passing ones. -/

namespace Sys2Proof.Machine

open Sys2Proof

/-! ## Counters -/

theorem Counter.place_inj {c d : Counter} (h : c.place = d.place) : c = d := by
  have h2 := congrArg Counter.ofNat h
  simpa [Counter.place, Counter.ofNat_ctorIdx] using h2

theorem counter_bump_other (p : Path) {c d : Counter} (n : Nat) (h : d ≠ c) : (p.bump c n).counter d = p.counter d := by
  unfold Path.bump Path.counter Path.counterAt
  exact tabGetD_tabPut_other _ _ (fun e => h (Counter.place_inj e)) _

theorem counter_bump_succ (p : Path) (c : Counter) (n : Nat) :
    (p.bump c (n + 1)).counter c = add48 (p.counter c) (n + 1) := by
  have h : add48 (p.counter c) (n + 1) ≠ 0 := by unfold add48 max48; omega
  unfold Path.bump
  generalize hv : add48 (p.counter c) (n + 1) = v at h
  simp [Path.counter, Path.counterAt, tabPut, h, tabGetD]

theorem counter_bump_one (p : Path) (c : Counter) : (p.bump c 1).counter c = add48 (p.counter c) 1 :=
  counter_bump_succ p c 0

/-- Counters are read from the counter table alone. -/
theorem counter_congr {p q : Path} (h : q.counters = p.counters) (c : Counter) : q.counter c = p.counter c := by
  simp [Path.counter, Path.counterAt, h]

/-! ## What is kept

`Keeps` gathers what the end of a command leaves alone, as it follows from each of the things a command may end with. -/

/-- The counters that a grant or an answered request can raise at the end of any command. -/
def passing : List Counter := [.requestsHandled, .sidePromotions]

/-- A PACE notice is being sent by the I-port, or stands in the PACE list (R173). -/
def Path.paceHas (p : Path) (n : PaceNotice) : Prop := p.iPort.tx = some (.pace n) ∨ n ∈ p.iPort.pace

/-- A reply has been handed to its port (R189). -/
def Path.carries (p : Path) (port : Port) (r : Reply) : Prop :=
  match port with
  | .i => p.iHas (.reply r)
  | .s => p.sHas (.reply r)

/-- The tag of a store message is known to the S-port: it stands in DATA, or its message is an item of SIDE or is being
sent. -/
def Path.tagHas (p : Path) (tag : Nat) : Prop := p.dataHas tag ∨ ∃ serial, p.sHas (.message tag serial)

/-- A PACE notice is known to the I-port: it stands in the PACE list or is an item of the port. -/
def Path.paceKnown (p : Path) (n : PaceNotice) : Prop := n ∈ p.iPort.pace ∨ p.iHas (.pace n)

/-- From one data path to another no item is lost, none but a reply appears, what is being sent goes on being sent, nothing is
granted without a carrier, and the core, the carriers and all but the passing counters are the same. -/
structure Keeps (p q : Path) : Prop where
  core : q.core = p.core
  sHas : ∀ x, p.sHas x → q.sHas x
  sNew : ∀ x, q.sHas x → p.sHas x ∨ (∃ r, x = .reply r) ∨ ∃ tag serial, x = .message tag serial ∧ p.tagHas tag
  iHas : ∀ x, p.iHas x → q.iHas x
  iNew : ∀ x, q.iHas x → p.iHas x ∨ (∃ r, x = .reply r) ∨ ∃ n, x = .pace n ∧ p.paceKnown n
  dataHas : ∀ t, p.dataHas t → q.dataHas t
  tagNew : ∀ t, q.tagHas t → p.tagHas t
  paceHas : ∀ n, p.paceHas n → q.paceHas n
  paceNew : ∀ n, q.paceKnown n → p.paceKnown n
  sCarrier : q.sPort.carrier = p.sPort.carrier
  iCarrier : q.iPort.carrier = p.iPort.carrier
  sTx : p.sPort.tx ≠ none ∨ p.sPort.carrier = false → q.sPort.tx = p.sPort.tx
  iTx : p.iPort.tx ≠ none ∨ p.iPort.carrier = false → q.iPort.tx = p.iPort.tx
  queues : ∀ port, (q.queue port).reqs <:+ (p.queue port).reqs
  counters : p.countersKept q passing

theorem Keeps.refl (p : Path) : Keeps p p where
  core := rfl
  sHas _ h := h
  sNew _ h := .inl h
  iHas _ h := h
  iNew _ h := .inl h
  dataHas _ h := h
  tagNew _ h := h
  paceHas _ h := h
  paceNew _ h := h
  sCarrier := rfl
  iCarrier := rfl
  sTx _ := rfl
  iTx _ := rfl
  queues _ := List.suffix_refl _
  counters _ _ := rfl

theorem Keeps.trans {p q r : Path} (a : Keeps p q) (b : Keeps q r) : Keeps p r where
  core := b.core.trans a.core
  sHas x h := b.sHas x (a.sHas x h)
  sNew x h := by
    rcases b.sNew x h with h1 | h1 | ⟨t, k, h1, h2⟩
    · exact a.sNew x h1
    · exact .inr (.inl h1)
    · exact .inr (.inr ⟨t, k, h1, a.tagNew t h2⟩)
  iHas x h := b.iHas x (a.iHas x h)
  iNew x h := by
    rcases b.iNew x h with h1 | h1 | ⟨n, h1, h2⟩
    · exact a.iNew x h1
    · exact .inr (.inl h1)
    · exact .inr (.inr ⟨n, h1, a.paceNew n h2⟩)
  dataHas t h := b.dataHas t (a.dataHas t h)
  tagNew t h := a.tagNew t (b.tagNew t h)
  paceHas n h := b.paceHas n (a.paceHas n h)
  paceNew n h := a.paceNew n (b.paceNew n h)
  sCarrier := b.sCarrier.trans a.sCarrier
  iCarrier := b.iCarrier.trans a.iCarrier
  sTx h := by
    have h1 := a.sTx h
    rw [b.sTx (by rw [h1, a.sCarrier]; exact h), h1]
  iTx h := by
    have h1 := a.iTx h
    rw [b.iTx (by rw [h1, a.iCarrier]; exact h), h1]
  queues port := (b.queues port).trans (a.queues port)
  counters c h := (b.counters c h).trans (a.counters c h)

/-- A change of the request queues alone passes, where the requests that are left are the last of those there were. -/
theorem keeps_setQueue (p : Path) (port : Port) (q : PortQueue) (h : q.reqs <:+ (p.queue port).reqs) :
    Keeps p (p.setQueue port q) := by
  have hq : ∀ port', ((p.setQueue port q).queue port').reqs <:+ (p.queue port').reqs := by
    intro port'
    cases port <;> cases port' <;> first | exact h | exact List.suffix_refl _
  cases port <;>
    exact ⟨rfl, fun _ h => h, fun _ h => .inl h, fun _ h => h, fun _ h => .inl h, fun _ h => h, fun _ h => h, fun _ h => h,
      fun _ h => h, rfl, rfl, fun _ => rfl, fun _ => rfl, hq, fun _ _ => rfl⟩

theorem keeps_replyJoined (p : Path) (r : Reply) : Keeps p (p.replyJoined r) := by
  unfold Path.replyJoined Path.popQueue
  split
  · exact keeps_setQueue _ _ _ (List.tail_suffix _)
  · exact .refl p

theorem keeps_replyHeld (p : Path) (r : Reply) : Keeps p (p.replyHeld r) := by
  unfold Path.replyHeld Path.setHead
  split
  · exact keeps_setQueue _ _ _ (List.suffix_refl _)
  · exact .refl p

theorem Keeps.bump {p q : Path} (h : Keeps p q) {c : Counter} (n : Nat) (hc : c ∉ passing) :
    Keeps (p.bump c (n + 1)) (q.bump c (n + 1)) where
  core := h.core
  sHas := h.sHas
  sNew := h.sNew
  iHas := h.iHas
  iNew := h.iNew
  dataHas := h.dataHas
  tagNew := h.tagNew
  paceHas := h.paceHas
  paceNew := h.paceNew
  sCarrier := h.sCarrier
  iCarrier := h.iCarrier
  sTx := h.sTx
  iTx := h.iTx
  queues port := by cases port; exacts [h.queues .i, h.queues .s]
  counters d hd := by
    by_cases hx : d = c
    · subst hx; rw [counter_bump_succ, counter_bump_succ, h.counters d hc]
    · rw [counter_bump_other _ _ hx, counter_bump_other _ _ hx]; exact h.counters d hd

theorem keeps_bump (p : Path) {c : Counter} (n : Nat) (h : c ∈ passing) : Keeps p (p.bump c n) :=
  ⟨rfl, fun _ h => h, fun _ h => .inl h, fun _ h => h, fun _ h => .inl h, fun _ h => h, fun _ h => h, fun _ h => h,
    fun _ h => h, rfl, rfl, fun _ => rfl, fun _ => rfl, fun port => by cases port <;> exact List.suffix_refl _,
    fun d hd => counter_bump_other p n (by rintro rfl; exact hd h)⟩

/-- A change of the I-port alone passes if it loses no item and makes none but replies. -/
theorem keeps_iPort (p : Path) (q : IPort) (hc : q.carrier = p.iPort.carrier)
    (hx : p.iPort.tx ≠ none ∨ p.iPort.carrier = false → q.tx = p.iPort.tx)
    (hi : ∀ x, p.iHas x → Path.iHas { p with iPort := q } x)
    (hn : ∀ x, Path.iHas { p with iPort := q } x → p.iHas x ∨ (∃ r, x = .reply r) ∨ ∃ n, x = .pace n ∧ p.paceKnown n)
    (hp : ∀ n, p.paceHas n → Path.paceHas { p with iPort := q } n)
    (hk : ∀ n, Path.paceKnown { p with iPort := q } n → p.paceKnown n) : Keeps p { p with iPort := q } :=
  ⟨rfl, fun _ h => h, fun _ h => .inl h, hi, hn, fun _ h => h, fun _ h => h, hp, hk, rfl, hc,
    fun _ => rfl, hx, fun port => by cases port <;> exact List.suffix_refl _, fun _ _ => rfl⟩

/-- A change of the S-port alone passes if it loses no item and makes none but replies. -/
theorem keeps_sPort (p : Path) (q : SPort) (hc : q.carrier = p.sPort.carrier)
    (hx : p.sPort.tx ≠ none ∨ p.sPort.carrier = false → q.tx = p.sPort.tx)
    (hs : ∀ x, p.sHas x → Path.sHas { p with sPort := q } x)
    (hn : ∀ x, Path.sHas { p with sPort := q } x →
      p.sHas x ∨ (∃ r, x = .reply r) ∨ ∃ tag serial, x = .message tag serial ∧ p.tagHas tag)
    (hd : ∀ t, p.dataHas t → Path.dataHas { p with sPort := q } t)
    (ht : ∀ t, Path.tagHas { p with sPort := q } t → p.tagHas t) : Keeps p { p with sPort := q } :=
  ⟨rfl, hs, hn, fun _ h => h, fun _ h => .inl h, hd, ht, fun _ h => h, fun _ h => h, hc, rfl, hx,
    fun _ => rfl, fun port => by cases port <;> exact List.suffix_refl _, fun _ _ => rfl⟩

/-- Joining the notice FIFO is taking the place, and what a reply does to its queue. -/
theorem keeps_joinI (p : Path) (x : IItem) :
    Keeps { p with iPort := { p.iPort with fifo := p.iPort.fifo ++ [x] } } (p.joinI x) := by
  unfold Path.joinI
  cases x with
  | reply r => exact keeps_replyJoined _ r
  | _ => exact .refl _

theorem keeps_holdI (p : Path) (x : IItem) :
    Keeps { p with iPort := { p.iPort with hold := p.iPort.hold ++ [x] } } (p.holdI x) := by
  unfold Path.holdI
  cases x with
  | reply r => exact keeps_replyHeld _ r
  | _ => exact .refl _

theorem iHas_joinI (p : Path) (x : IItem) : (p.joinI x).iHas x :=
  (keeps_joinI p x).iHas _ (by simp [Path.iHas])

theorem iHas_holdI (p : Path) (x : IItem) : (p.holdI x).iHas x :=
  (keeps_holdI p x).iHas _ (by simp [Path.iHas])

theorem keeps_joinI_reply (p : Path) (r : Reply) : Keeps p (p.joinI (.reply r)) := by
  refine Keeps.trans ?_ (keeps_joinI p _)
  refine keeps_iPort p _ rfl (fun _ => rfl) ?_ ?_ ?_ ?_ <;>
    simp only [Path.iHas, Path.paceHas, Path.paceKnown, List.mem_append, List.mem_singleton] <;> aesop

theorem keeps_holdI_reply (p : Path) (r : Reply) : Keeps p (p.holdI (.reply r)) := by
  refine Keeps.trans ?_ (keeps_holdI p _)
  refine keeps_iPort p _ rfl (fun _ => rfl) ?_ ?_ ?_ ?_ <;>
    simp only [Path.iHas, Path.paceHas, Path.paceKnown, List.mem_append, List.mem_singleton] <;> aesop

theorem keeps_refillI (n : Nat) (p : Path) : Keeps p (Path.refillI n p) := by
  induction n generalizing p with
  | zero => exact .refl p
  | succ n ih =>
    unfold Path.refillI
    split
    · exact .refl p
    · rename_i x rest hh
      split
      · refine Keeps.trans (Keeps.trans ?_ (keeps_joinI _ x)) (ih _)
        refine keeps_iPort p { p.iPort with hold := rest, fifo := p.iPort.fifo ++ [x] } rfl (fun _ => rfl) ?_ ?_ ?_ ?_ <;>
          simp only [Path.iHas, Path.paceHas, Path.paceKnown, List.mem_append, hh, List.mem_cons] <;>
          aesop
      · exact .refl p

theorem keeps_grantI (p : Path) : Keeps p p.grantI := by
  unfold Path.grantI
  split
  · rename_i hg
    have ht : p.iPort.tx = none := by simp at hg; exact hg.2
    split
    · rename_i n rest hp
      refine keeps_iPort p _ rfl (by simp_all) ?_ ?_ ?_ ?_ <;>
        simp only [Path.iHas, Path.paceHas, Path.paceKnown, ht, hp, List.mem_cons] <;> aesop
    · split
      · rename_i hp _ x rest hf
        refine Keeps.trans ?_ (keeps_refillI 64 _)
        refine keeps_iPort p _ rfl (by simp_all) ?_ ?_ ?_ ?_ <;>
          simp only [Path.iHas, Path.paceHas, Path.paceKnown, ht, hp, hf, List.mem_cons] <;> aesop
      · exact .refl p
  · exact .refl p

theorem keeps_joinS (p : Path) (now : Nat) (x : SItem) :
    Keeps { p with sPort := { p.sPort with fifo := p.sPort.fifo ++ [(now, x)] } } (p.joinS now x) := by
  unfold Path.joinS
  cases x with
  | reply r => exact keeps_replyJoined _ r
  | _ => exact .refl _

theorem keeps_holdS (p : Path) (x : SItem) :
    Keeps { p with sPort := { p.sPort with hold := p.sPort.hold ++ [x] } } (p.holdS x) := by
  unfold Path.holdS
  cases x with
  | reply r => exact keeps_replyHeld _ r
  | _ => exact .refl _

theorem sHas_joinS (p : Path) (now : Nat) (x : SItem) : (p.joinS now x).sHas x :=
  (keeps_joinS p now x).sHas _ (by simp [Path.sHas])

theorem sHas_holdS (p : Path) (x : SItem) : (p.holdS x).sHas x :=
  (keeps_holdS p x).sHas _ (by simp [Path.sHas])

theorem sHas_offerS (p : Path) (now : Nat) (x : SItem) : (p.offerS now x).sHas x := by
  unfold Path.offerS; split
  · exact sHas_joinS p now x
  · exact sHas_holdS p x

theorem keeps_offerS_reply (p : Path) (now : Nat) (r : Reply) : Keeps p (p.offerS now (.reply r)) := by
  unfold Path.offerS; split
  · refine Keeps.trans ?_ (keeps_joinS p now _)
    refine keeps_sPort p _ rfl (fun _ => rfl) ?_ ?_ ?_ ?_ <;>
      simp only [Path.sHas, Path.dataHas, Path.tagHas, List.mem_append, List.mem_singleton] <;> aesop
  · refine Keeps.trans ?_ (keeps_holdS p _)
    refine keeps_sPort p _ rfl (fun _ => rfl) ?_ ?_ ?_ ?_ <;>
      simp only [Path.sHas, Path.dataHas, Path.tagHas, List.mem_append, List.mem_singleton] <;> aesop

theorem keeps_refillS (now n : Nat) (p : Path) : Keeps p (Path.refillS now n p) := by
  induction n generalizing p with
  | zero => exact .refl p
  | succ n ih =>
    unfold Path.refillS
    split
    · exact .refl p
    · rename_i x rest hh
      split
      · refine Keeps.trans (Keeps.trans ?_ (keeps_joinS _ now x)) (ih _)
        refine keeps_sPort p { p.sPort with hold := rest, fifo := p.sPort.fifo ++ [(now, x)] } rfl (fun _ => rfl) ?_ ?_ ?_ ?_ <;>
          simp only [Path.sHas, Path.dataHas, Path.tagHas, List.mem_append, hh, List.mem_cons] <;>
          aesop
      · exact .refl p

/-! ## The grants of the S-port -/

theorem oldestResend_mem {p : Path} {t : Nat} {rest : List Nat} (h : p.sPort.resend = t :: rest) :
    p.oldestResend t ∈ p.sPort.resend := by
  unfold Path.oldestResend
  cases hf : p.link.inflight.find? fun m => p.sPort.resend.contains m.tag with
  | none => simp [h]
  | some m => simpa using List.find?_some hf

/-- What leaves DATA is the tag granted: it stood there, the other tags stay and none is new, and the SIDE class is not
touched. -/
theorem pickData_cases {p : Path} {t : Nat} {q : SPort} (h : p.pickData = some (t, q)) :
    q.carrier = p.sPort.carrier ∧ q.tx = p.sPort.tx ∧ q.fifo = p.sPort.fifo ∧ q.hold = p.sPort.hold ∧
      q.rotation = p.sPort.rotation ∧ (t ∈ p.sPort.resend ∨ t ∈ p.sPort.chunkQ ∨ t ∈ p.sPort.refQ) ∧
      (∀ u, (u ∈ q.resend ∨ u ∈ q.chunkQ ∨ u ∈ q.refQ) → (u ∈ p.sPort.resend ∨ u ∈ p.sPort.chunkQ ∨ u ∈ p.sPort.refQ)) ∧
      ∀ u, u ≠ t → (u ∈ p.sPort.resend ∨ u ∈ p.sPort.chunkQ ∨ u ∈ p.sPort.refQ) →
        (u ∈ q.resend ∨ u ∈ q.chunkQ ∨ u ∈ q.refQ) := by
  unfold Path.pickData at h
  dsimp only at h
  split at h
  · cases h
    refine ⟨rfl, rfl, rfl, rfl, rfl, .inl (oldestResend_mem (by assumption)), fun u hm => ?_, fun u hu hm => ?_⟩
    · rcases hm with hm | hm
      · exact .inl (List.mem_of_mem_erase hm)
      · exact .inr hm
    · rcases hm with hm | hm
      · exact .inl ((List.mem_erase_of_ne hu).mpr hm)
      · exact .inr hm
  · rename_i h1 h2 h3
    split at h <;> cases h <;> refine ⟨rfl, rfl, rfl, rfl, rfl, ?_, fun u hm => ?_, fun u hu hm => ?_⟩ <;> simp_all <;>
      tauto
  · rename_i h1 h2 h3
    cases h
    refine ⟨rfl, rfl, rfl, rfl, rfl, ?_, fun u hm => ?_, fun u hu hm => ?_⟩ <;> simp_all
  · rename_i h1 h2 h3
    cases h
    refine ⟨rfl, rfl, rfl, rfl, rfl, ?_, fun u hm => ?_, fun u hu hm => ?_⟩ <;> simp_all
  · cases h

theorem keeps_grantData (c : Control) {p : Path} (hc : p.sPort.carrier = true) (ht : p.sPort.tx = none) :
    Keeps p (Path.grantData c p) := by
  unfold Path.grantData
  split
  · rename_i tag q hq
    obtain ⟨h1, -, h3, h4, -, h5, h6, h7⟩ := pickData_cases hq
    have hd : p.dataHas tag := .inr h5
    refine keeps_sPort p _ h1 (by simp_all) (fun x hx => ?_) (fun x hx => ?_) (fun u hu => ?_) (fun u hu => ?_)
    · simp only [Path.sHas, ht, h3, h4] at hx ⊢
      rcases hx with hx | hx
      · cases hx
      · exact .inr hx
    · simp only [Path.sHas, h3, h4] at hx ⊢
      rcases hx with hx | hx
      · cases hx; exact .inr (.inr ⟨_, _, rfl, .inl hd⟩)
      · exact .inl (.inr hx)
    · simp only [Path.dataHas, ht] at hu ⊢
      by_cases he : u = tag
      · exact .inl ⟨p.serialOf tag, by rw [he]⟩
      · rcases hu with ⟨_, hu⟩ | hu
        · cases hu
        · exact .inr (h7 u he hu)
    · rcases hu with (⟨k, hu⟩ | hu) | ⟨k, hu⟩
      · cases hu; exact .inl hd
      · exact .inl (.inr (h6 u hu))
      · simp only [Path.sHas, h3, h4] at hu
        rcases hu with hu | hu
        · cases hu; exact .inl hd
        · exact .inr ⟨k, .inr hu⟩
  · exact .refl p

theorem keeps_grantSide (c : Control) {p : Path} (hc : p.sPort.carrier = true) (ht : p.sPort.tx = none) :
    Keeps p (Path.grantSide c p) := by
  unfold Path.grantSide
  split
  · rename_i time x rest hf
    refine Keeps.trans ?_ (keeps_refillS c.now 64 _)
    refine keeps_sPort p _ rfl (by simp_all) ?_ ?_ ?_ ?_ <;>
      simp only [Path.sHas, Path.dataHas, Path.tagHas, ht, hf, List.mem_cons] <;> aesop
  · exact .refl p

theorem keeps_grantS (c : Control) (p : Path) : Keeps p (Path.grantS c p) := by
  unfold Path.grantS
  split
  · rename_i hg
    have hc : p.sPort.carrier = true := by simp at hg; exact hg.1
    have ht : p.sPort.tx = none := by simp at hg; exact hg.2
    split
    · exact keeps_grantData c hc ht
    · split
      · split
        · exact (keeps_bump p 1 (by decide)).trans (keeps_grantSide c hc ht)
        · exact keeps_grantSide c hc ht
      · split
        · exact keeps_grantSide c hc ht
        · split
          · exact keeps_grantSide c hc ht
          · exact keeps_grantData c hc ht
  · exact .refl p

/-! ## Replies -/

theorem keeps_sendReply (p : Path) (now : Nat) (port : Port) (r : Reply) : Keeps p (p.sendReply now port r) := by
  unfold Path.sendReply
  cases port with
  | i => dsimp only; split; exacts [keeps_joinI_reply p _, keeps_holdI_reply p _]
  | s => exact keeps_offerS_reply p now _

/-- A reply that is sent is carried. -/
theorem carries_sendReply (p : Path) (now : Nat) (port : Port) (r : Reply) : (p.sendReply now port r).carries port r := by
  unfold Path.sendReply Path.carries
  cases port with
  | i => dsimp only; split; exacts [iHas_joinI p _, iHas_holdI p _]
  | s => exact sHas_offerS p now _

theorem keeps_respond (p : Path) (now : Nat) (port : Port) (r : Req) (a : Answer) : Keeps p (p.respond now port r a) :=
  (keeps_bump p 1 (by decide)).trans (keeps_sendReply _ _ _ _)

theorem carries_respond (p : Path) (now : Nat) (port : Port) (r : Req) (a : Answer) :
    (p.respond now port r a).carries port (r.reply (some port) a) := carries_sendReply _ _ _ _

theorem Keeps.carries {p q : Path} (h : Keeps p q) {port : Port} {r : Reply} (hr : p.carries port r) :
    q.carries port r := by
  cases port with
  | i => exact h.iHas _ hr
  | s => exact h.sHas _ hr

theorem keeps_answerUnknown (c : Control) (x : Index) (port : Port) (n : Nat) (p : Path) :
    Keeps p (Path.answerUnknown c x port n p) := by
  induction n generalizing p with
  | zero => exact .refl p
  | succ n ih =>
    unfold Path.answerUnknown
    split
    · split
      · exact (keeps_respond p _ _ _ _).trans (ih _)
      · exact .refl p
    · exact .refl p

theorem keeps_answerUnknowns (p : Path) (c : Control) (x : Index) : Keeps p (p.answerUnknowns c x) :=
  (keeps_answerUnknown c x .i 8 p).trans (keeps_answerUnknown c x .s 8 _)

theorem keeps_grants (p : Path) (c : Control) : Keeps p (p.grants c) :=
  (keeps_grantS c p).trans (keeps_grantI _)

/-! ## The end of a command -/

theorem drainLost_of_drained (c : Control) (x : Index) (n : Nat) {p : Path} (h : p.lostDrained) :
    Path.drainLost c x n p = p := by
  cases n with
  | zero => rfl
  | succ n =>
    unfold Path.drainLost
    split
    · rename_i hl; rw [h hl]
    · rfl

/-- What follows the requests that fail on a LOST link passes. -/
theorem keeps_finish_tail (p : Path) (c : Control) (x : Index) :
    Keeps p ((((p.answerUnknowns c x).grants c).answerUnknowns c x).grants c) :=
  (((keeps_answerUnknowns p c x).trans (keeps_grants _ c)).trans (keeps_answerUnknowns _ c x)).trans
    (keeps_grants _ c)

/-- Where no request for a tag waits on a LOST link, the end of a command passes. -/
theorem keeps_finish {p : Path} (c : Control) (x : Index) (h : p.lostDrained) : Keeps p (p.finish c x) := by
  unfold Path.finish
  simp only [drainLost_of_drained c x _ h]
  exact keeps_finish_tail p c x

/-- The core holds the store link: what it says of the link is kept. -/
theorem Keeps.link {p q : Path} (h : Keeps p q) : q.link = p.link := by
  show q.core.link = p.core.link; rw [h.core]

theorem Keeps.lostDrained {p q : Path} (h : Keeps p q) (hp : p.lostDrained) : q.lostDrained := by
  unfold Path.lostDrained; rw [h.link]; exact hp

@[simp] theorem finish_ctl (s : State) : s.finish.ctl = s.ctl := rfl
@[simp] theorem finish_idx (s : State) : s.finish.idx = s.idx := rfl
@[simp] theorem finish_pending (s : State) : s.finish.pending = s.pending := rfl
@[simp] theorem finish_path (s : State) : s.finish.path = s.path.finish s.ctl s.idx := rfl
@[simp] theorem answer_ctl (s : State) (port : Port) (r : Req) (a : Answer) : (s.answer port r a).ctl = s.ctl := rfl
@[simp] theorem answer_idx (s : State) (port : Port) (r : Req) (a : Answer) : (s.answer port r a).idx = s.idx := rfl
@[simp] theorem answer_pending (s : State) (port : Port) (r : Req) (a : Answer) :
    (s.answer port r a).pending = s.pending := rfl
@[simp] theorem answer_path (s : State) (port : Port) (r : Req) (a : Answer) :
    (s.answer port r a).path = s.path.respond s.ctl.now port r a := rfl

/-! ## What passes -/

theorem Passes.one {c : Control} {x : Index} {p q : Path} (h : Passing c x p q) : Passes c x p q := .step p q .refl h

theorem Passes.trans {c : Control} {x : Index} {p q r : Path} (a : Passes c x p q) (b : Passes c x q r) : Passes c x p r := by
  induction b with
  | refl => exact a
  | step q r _ h ih => exact .step q r ih h

theorem sendReply_eq_handed (p : Path) (now : Nat) (port : Port) (r : Reply) :
    p.sendReply now port r = p.handed now port r := by
  cases port with
  | i =>
    simp only [Path.sendReply, Path.handed, IPort.room, Bool.and_eq_true, List.isEmpty_iff, decide_eq_true_eq]
    rfl
  | s =>
    simp only [Path.sendReply, Path.handed, Path.offerS, SPort.room, Bool.and_eq_true, List.isEmpty_iff,
      decide_eq_true_eq]
    rfl

theorem respond_eq_replied (p : Path) (now : Nat) (port : Port) (r : Req) (a : Answer) :
    p.respond now port r a = p.replied now port r a := sendReply_eq_handed _ _ _ _

theorem joinS_eq_placedS (p : Path) (now : Nat) (y : SItem) (rest : List SItem) :
    Path.joinS { p with sPort := { p.sPort with hold := rest } } now y = p.placedS now y rest := by
  cases y <;> rfl

theorem joinI_eq_placedI (p : Path) (y : IItem) (rest : List IItem) :
    Path.joinI { p with iPort := { p.iPort with hold := rest } } y = p.placedI y rest := by
  cases y <;> rfl

theorem passes_refillS (c : Control) (x : Index) (n : Nat) (p : Path) : Passes c x p (Path.refillS c.now n p) := by
  induction n generalizing p with
  | zero => exact .refl
  | succ n ih =>
    unfold Path.refillS
    split
    · exact .refl
    · rename_i y rest hh
      split
      · rw [joinS_eq_placedS]; exact (Passes.one (.placeS y rest hh (by assumption))).trans (ih _)
      · exact .refl

theorem passes_refillI (c : Control) (x : Index) (n : Nat) (p : Path) : Passes c x p (Path.refillI n p) := by
  induction n generalizing p with
  | zero => exact .refl
  | succ n ih =>
    unfold Path.refillI
    split
    · exact .refl
    · rename_i y rest hh
      split
      · rw [joinI_eq_placedI]; exact (Passes.one (.placeI y rest hh (by assumption))).trans (ih _)
      · exact .refl

theorem dataEmpty_iff (q : SPort) : q.dataEmpty = true ↔ q.noData := by
  simp [SPort.dataEmpty, SPort.noData, and_assoc]

theorem sideTurn_iff (c : Control) (p : Path) : p.sideTurn c = true ↔ p.sPort.sideTurn c := by
  simp [Path.sideTurn, SPort.sideTurn]

theorem promotionDue_iff (c : Control) {p : Path} {time : Nat} {y : SItem} {rest : List (Nat × SItem)}
    (h : p.sPort.fifo = (time, y) :: rest) : p.promotionDue c = true ↔ c.promotes time := by
  have e : usec (100 * c.tables.settings.promotion) = 2500 * c.tables.settings.promotion := by unfold usec; omega
  simp [Path.promotionDue, Control.promotes, h, e]

theorem oldestResend_first {p : Path} {t : Nat} (before : List Message) (m : Message) (after : List Message)
    (h : p.link.inflight = before ++ m :: after) (hm : m.tag ∈ p.sPort.resend) (hb : ∀ o ∈ before, o.tag ∉ p.sPort.resend) :
    p.oldestResend t = m.tag := by
  have hn : before.find? (fun m => decide (m.tag ∈ p.sPort.resend)) = none := by
    rw [List.find?_eq_none]; intro o ho; simpa using hb o ho
  simp [Path.oldestResend, h, List.find?_append, hn, hm]

/-- What leaves DATA is DATA's next message (R165). -/
theorem pickData_dataNext {p : Path} {t : Nat} {q : SPort} (h : p.pickData = some (t, q)) : p.dataNext t q := by
  unfold Path.pickData at h
  dsimp only at h
  split at h
  · rename_i h1
    cases h
    exact .inl ⟨oldestResend_mem h1, rfl, fun b m a e hm hb => oldestResend_first b m a e hm hb⟩
  · rename_i h1 h2 h3
    split at h <;> rename_i hm <;> cases h
    · exact .inr (.inl ⟨h1, _, h2, .inr hm, rfl⟩)
    · exact .inr (.inr ⟨h1, _, h3, .inr hm, rfl⟩)
  · rename_i h1 h2 h3
    cases h; exact .inr (.inl ⟨h1, _, h2, .inl h3, rfl⟩)
  · rename_i h1 h2 h3
    cases h; exact .inr (.inr ⟨h1, _, h3, .inl h2, rfl⟩)
  · cases h

theorem pickData_none {p : Path} (h : p.pickData = none) : p.sPort.noData := by
  unfold Path.pickData at h
  dsimp only at h
  split at h
  · cases h
  · split at h <;> cases h
  · cases h
  · cases h
  · exact ⟨by assumption, by assumption, by assumption⟩

/-- A grant to DATA is what an idle S-port takes, where it is not SIDE's. -/
theorem grantData_granted {c : Control} {p : Path}
    (h : ∀ time x rest, p.sPort.fifo = (time, x) :: rest → ¬ c.promotes time ∧ ¬ p.sPort.sideTurn c) :
    p.grantedS c (p.grantData c) ∨ p.grantData c = p := by
  unfold Path.grantData
  split
  · rename_i tag q hq
    refine .inl (.inr ⟨h, tag, p.serialOf tag, q, pickData_dataNext hq, ?_, rfl⟩)
    intro m hm; simp [Path.serialOf, hm]
  · exact .inr rfl

/-- A grant to SIDE is what an idle S-port takes, where it is SIDE's, and the places it frees. -/
theorem passes_grantSide {c : Control} (x : Index) {p : Path} {time : Nat} {y : SItem} {rest : List (Nat × SItem)}
    (hc : p.sPort.carrier = true) (ht : p.sPort.tx = none) (hf : p.sPort.fifo = (time, y) :: rest)
    (h : c.promotes time ∨ p.sPort.noData ∨ p.sPort.sideTurn c)
    (hn : ¬ (c.promotes time ∧ ¬ p.sPort.noData ∧ ¬ p.sPort.sideTurn c)) : Passes c x p (p.grantSide c) := by
  unfold Path.grantSide
  rw [hf]
  refine (Passes.one (.grantS _ hc ht (.inl ⟨time, y, rest, hf, h, .inr ⟨hn, rfl⟩⟩))).trans (passes_refillS c x 64 _)

theorem passes_grantS (c : Control) (x : Index) (p : Path) : Passes c x p (p.grantS c) := by
  unfold Path.grantS
  split
  · rename_i hg
    have hc : p.sPort.carrier = true := by simp at hg; exact hg.1
    have ht : p.sPort.tx = none := by simp at hg; exact hg.2
    have data (h : ∀ time x rest, p.sPort.fifo = (time, x) :: rest → ¬ c.promotes time ∧ ¬ p.sPort.sideTurn c) :
        Passes c x p (p.grantData c) := by
      rcases grantData_granted h with h | h
      · exact .one (.grantS _ hc ht h)
      · rw [h]; exact .refl
    cases hf : p.sPort.fifo with
    | nil => simp only [List.isEmpty_nil, if_true]; exact data (by simp [hf])
    | cons y rest =>
      obtain ⟨time, y⟩ := y
      simp only [List.isEmpty_cons, Bool.false_eq_true, if_false]
      by_cases hp : c.promotes time
      · rw [if_pos ((promotionDue_iff c hf).mpr hp)]
        by_cases hd : ¬ p.sPort.noData ∧ ¬ p.sPort.sideTurn c
        · have : (!p.sPort.dataEmpty && !p.sideTurn c) = true := by
            simpa [← dataEmpty_iff, ← sideTurn_iff] using hd
          rw [if_pos this]
          unfold Path.grantSide
          rw [show (p.bump .sidePromotions 1).sPort.fifo = (time, y) :: rest from hf]
          exact (Passes.one (.grantS _ hc ht (.inl ⟨time, y, rest, hf, .inl hp, .inl ⟨hp, hd.1, hd.2, rfl⟩⟩))).trans
            (passes_refillS c x 64 _)
        · have : ¬ (!p.sPort.dataEmpty && !p.sideTurn c) = true := by
            simpa [← dataEmpty_iff, ← sideTurn_iff] using hd
          rw [if_neg this]
          exact passes_grantSide x hc ht hf (.inl hp) (fun h => hd h.2)
      · rw [if_neg (fun h => hp ((promotionDue_iff c hf).mp h))]
        split
        · rename_i hd
          exact passes_grantSide x hc ht hf (.inr (.inl ((dataEmpty_iff _).mp hd))) (fun h => hp h.1)
        · split
          · rename_i hs
            exact passes_grantSide x hc ht hf (.inr (.inr ((sideTurn_iff c p).mp hs))) (fun h => hp h.1)
          · rename_i hs
            refine data fun t z r h => ?_
            rw [hf] at h
            cases h
            exact ⟨hp, fun h => hs ((sideTurn_iff c p).mpr h)⟩
  · exact .refl

theorem passes_grantI (c : Control) (x : Index) (p : Path) : Passes c x p p.grantI := by
  unfold Path.grantI
  split
  · rename_i hg
    have hc : p.iPort.carrier = true := by simp at hg; exact hg.1
    have ht : p.iPort.tx = none := by simp at hg; exact hg.2
    split
    · rename_i n rest hp
      exact .one (.grantI _ hc ht (.inl ⟨n, rest, hp, rfl⟩))
    · rename_i hp
      split
      · rename_i y rest hf
        exact (Passes.one (.grantI _ hc ht (.inr ⟨hp, y, rest, hf, rfl⟩))).trans (passes_refillI c x 64 _)
      · exact .refl
  · exact .refl

theorem passes_answerUnknown (c : Control) (x : Index) (port : Port) (n : Nat) (p : Path) :
    Passes c x p (Path.answerUnknown c x port n p) := by
  induction n generalizing p with
  | zero => exact .refl
  | succ n ih =>
    unfold Path.answerUnknown
    split
    · rename_i hh
      split
      · rename_i number source code rest hq
        rw [respond_eq_replied]
        exact (Passes.one (.unknown port _ rest hh hq rfl)).trans (ih _)
      · exact .refl
    · exact .refl

theorem passes_answerUnknowns (p : Path) (c : Control) (x : Index) : Passes c x p (p.answerUnknowns c x) :=
  (passes_answerUnknown c x .i 8 p).trans (passes_answerUnknown c x .s 8 _)

theorem passes_grants (p : Path) (c : Control) (x : Index) : Passes c x p (p.grants c) :=
  (passes_grantS c x p).trans (passes_grantI c x _)

/-- What follows the requests that fail on a LOST link passes. -/
theorem passes_finish_tail (p : Path) (c : Control) (x : Index) :
    Passes c x p ((((p.answerUnknowns c x).grants c).answerUnknowns c x).grants c) :=
  (((passes_answerUnknowns p c x).trans (passes_grants _ c x)).trans (passes_answerUnknowns _ c x)).trans
    (passes_grants _ c x)

/-- Where no request for a tag waits on a LOST link, the end of a command passes. -/
theorem passes_finish {p : Path} (c : Control) (x : Index) (h : p.lostDrained) : Passes c x p (p.finish c x) := by
  unfold Path.finish
  simp only [drainLost_of_drained c x _ h]
  exact passes_finish_tail p c x

/-- Data paths that differ only in how their counters are listed pass. -/
theorem passes_recount (c : Control) (x : Index) {p q : Path} (h : ∀ k, q.counter k = p.counter k)
    (hq : q = { p with counters := q.counters }) : Passes c x p q := by
  rw [hq]; exact .one (.recount _ fun k => by rw [← h k]; rfl)

/-! ## Completion -/

/-- A command whose meaning is the end of a state completes as that state. -/
theorem completes_finish {c : Instr} {s u : State} (h : exec c s = .next u.finish) (hp : u.pending = s.pending)
    (hl : u.path.lostDrained) : Completes c s u :=
  ⟨_, h, hp, rfl, rfl, passes_finish _ _ hl⟩

/-- A command whose meaning is the end of a state completes as that state, its requests for tags on a LOST link having
failed. -/
theorem completesDrained_finish {c : Instr} {s u : State} (h : exec c s = .next u.finish) (hp : u.pending = s.pending) :
    CompletesDrained c s u :=
  ⟨_, h, hp, rfl, rfl, passes_finish_tail _ _ _⟩

/-- A command whose meaning is the end of an answered state replies as that state, its requests for tags on a LOST link having
failed. -/
theorem repliesDrained_finish {c : Instr} {s u : State} {port : Port} {r : Req} {a : Answer}
    (h : exec c s = .next (u.answer port r a).finish) (hp : u.pending = s.pending) : RepliesDrained c s u port r a := by
  refine completesDrained_finish (u := { u with path := _ }) ?_ hp
  rw [← respond_eq_replied]; exact h

/-- Where no request for a tag waits on a LOST link, the command completes as the state itself. -/
theorem CompletesDrained.completes {c : Instr} {s u : State} (h : CompletesDrained c s u) (hl : u.path.lostDrained) :
    Completes c s u := by
  unfold CompletesDrained at h
  rw [drainLost_of_drained _ _ _ hl] at h
  exact h

/-- A command whose meaning is the end of a state that another passes to completes as that other. -/
theorem completes_passes {c : Instr} {s u v : State} (h : exec c s = .next v.finish) (hp : v.pending = s.pending)
    (hc : v.ctl = u.ctl) (hi : v.idx = u.idx) (hl : v.path.lostDrained) (hu : Passes u.ctl u.idx u.path v.path) :
    Completes c s u := by
  refine ⟨_, h, hp, hc, hi, hu.trans ?_⟩
  rw [← hc, ← hi]; exact passes_finish _ _ hl

/-- A command whose meaning is the end of an answered state replies as that state. -/
theorem replies_finish {c : Instr} {s u : State} {port : Port} {r : Req} {a : Answer}
    (h : exec c s = .next (u.answer port r a).finish) (hp : u.pending = s.pending) (hl : u.path.lostDrained) :
    Replies c s u port r a := by
  have hr := respond_eq_replied u.path u.ctl.now port r a
  refine completes_finish (u := { u with path := _ }) (by rw [← hr]; exact h) hp ?_
  show (u.path.replied u.ctl.now port r a).lostDrained
  rw [← hr]
  exact (keeps_respond _ _ _ _ _).lostDrained hl

/-- What every command may end with leaves the queue of a steady port alone. -/
theorem Passing.steady {c : Control} {x : Index} {p q : Path} (h : Passing c x p q) {port : Port} (hs : p.steady port) :
    q.steady port ∧ q.queue port = p.queue port := by
  cases h with
  | grantS q hc ht hg =>
    rcases hg with ⟨t, y, r, hf, hw, ⟨_, _, _, rfl⟩ | ⟨_, rfl⟩⟩ | ⟨_, tag, serial, d, hd, _, rfl⟩
    · cases port <;> exact ⟨hs, rfl⟩
    · cases port <;> exact ⟨hs, rfl⟩
    · have : d.hold = p.sPort.hold := by
        rcases hd with ⟨_, rfl, _⟩ | ⟨_, _, _, _, rfl⟩ | ⟨_, _, _, _, rfl⟩ <;> rfl
      refine ⟨⟨hs.1, fun r hr => hs.2 r ?_⟩, ?_⟩
      · simpa [this] using hr
      · cases port <;> rfl
  | grantI q hc ht hg =>
    rcases hg with ⟨n, r, _, rfl⟩ | ⟨_, y, r, _, rfl⟩ <;> cases port <;> exact ⟨hs, rfl⟩
  | placeS y rest hh hl =>
    unfold Path.placedS SItem.placed
    split
    · rename_i r
      have hr : r.answers ≠ some port := hs.2 r (.inl (by simp [hh]))
      unfold Path.replyPlaced
      split
      · rename_i o ho
        have : o ≠ port := fun e => hr (by rw [ho, e])
        cases o <;> cases port <;> first | exact absurd rfl this | skip
        all_goals refine ⟨⟨hs.1, fun r' hr' => hs.2 r' ?_⟩, rfl⟩
        all_goals (simp [Path.setQueue] at hr'; rcases hr' with h | h <;> simp [hh, h])
      · refine ⟨⟨by cases port <;> exact hs.1, fun r' hr' => hs.2 r' ?_⟩, by cases port <;> rfl⟩
        simp at hr'; rcases hr' with h | h <;> simp [hh, h]
    · refine ⟨⟨by cases port <;> exact hs.1, fun r' hr' => hs.2 r' ?_⟩, by cases port <;> rfl⟩
      simp at hr'; rcases hr' with h | h <;> simp [hh, h]
  | placeI y rest hh hl =>
    unfold Path.placedI IItem.placed
    split
    · rename_i r
      have hr : r.answers ≠ some port := hs.2 r (.inr (by simp [hh]))
      unfold Path.replyPlaced
      split
      · rename_i o ho
        have : o ≠ port := fun e => hr (by rw [ho, e])
        cases o <;> cases port <;> first | exact absurd rfl this | skip
        all_goals refine ⟨⟨hs.1, fun r' hr' => hs.2 r' ?_⟩, rfl⟩
        all_goals (simp [Path.setQueue] at hr'; rcases hr' with h | h <;> simp [hh, h])
      · refine ⟨⟨by cases port <;> exact hs.1, fun r' hr' => hs.2 r' ?_⟩, by cases port <;> rfl⟩
        simp at hr'; rcases hr' with h | h <;> simp [hh, h]
    · refine ⟨⟨by cases port <;> exact hs.1, fun r' hr' => hs.2 r' ?_⟩, by cases port <;> rfl⟩
      simp at hr'; rcases hr' with h | h <;> simp [hh, h]
  | unknown o r rest hh hq hk =>
    by_cases e : o = port
    · subst e
      have := hs.1 r (by rw [hq]) (by rw [hq]; rfl)
      rw [hk] at this; cases this
    · have ha : (r.reply (some o) (.refuse .badValue)).answers = some o := rfl
      have hne : ∀ r' : Reply, r' = r.reply (some o) (.refuse .badValue) → r'.answers ≠ some port := by
        rintro _ rfl; rw [ha]; simpa using e
      unfold Path.replied Path.handed
      split <;> split <;> (simp only [Path.replyPlaced, Path.replyWaits, ha]) <;> cases port
      all_goals first | exact absurd rfl e | skip
      all_goals refine ⟨⟨hs.1, fun r' hr' => ?_⟩, rfl⟩
      all_goals (simp [Path.setQueue, Path.bump] at hr')
      all_goals first
        | exact hs.2 r' (by simpa using hr')
        | (rcases hr' with h | h | h <;> first | exact hne r' h | exact hs.2 r' (by simp [h]))
        | (rcases hr' with (h | h) | h <;> first | exact hne r' h | exact hs.2 r' (by simp [h]))
  | recount l hk => cases port <;> exact ⟨hs, rfl⟩

theorem Passes.steady {c : Control} {x : Index} {p q : Path} (h : Passes c x p q) {port : Port} (hs : p.steady port) :
    q.steady port ∧ q.queue port = p.queue port := by
  induction h with
  | refl => exact ⟨hs, rfl⟩
  | step q r _ h ih => exact ⟨(h.steady ih.1).1, (h.steady ih.1).2.trans ih.2⟩

/-- A command that completes as a state whose port's queue is steady leaves that queue as the state's. -/
theorem Completes.atQueue {c : Instr} {s u : State} {port : Port} (h : Completes c s u)
    (hu : s.path.steady port → u.path.steady port) : CompletesAtQueue c s u port := by
  refine ⟨h, fun hs => ?_⟩
  obtain ⟨t, ht, _, _, _, hp⟩ := h
  exact ⟨t, ht, (hp.steady (hu hs)).2⟩

/-! ## Idle transmitters -/

theorem refillI_tx (n : Nat) (p : Path) : (Path.refillI n p).iPort.tx = p.iPort.tx := by
  induction n generalizing p with
  | zero => rfl
  | succ n ih =>
    unfold Path.refillI
    split
    · rfl
    · split
      · rw [ih]; unfold Path.joinI Path.replyJoined Path.popQueue Path.setQueue
        split <;> first | rfl | (split <;> first | rfl | (split <;> rfl))
      · rfl

theorem refillS_tx (now n : Nat) (p : Path) : (Path.refillS now n p).sPort.tx = p.sPort.tx := by
  induction n generalizing p with
  | zero => rfl
  | succ n ih =>
    unfold Path.refillS
    split
    · rfl
    · split
      · rw [ih]; unfold Path.joinS Path.replyJoined Path.popQueue Path.setQueue
        split <;> first | rfl | (split <;> first | rfl | (split <;> rfl))
      · rfl

theorem refillI_sPort (n : Nat) (p : Path) : (Path.refillI n p).sPort = p.sPort := by
  induction n generalizing p with
  | zero => rfl
  | succ n ih =>
    unfold Path.refillI
    split
    · rfl
    · split
      · rw [ih]; unfold Path.joinI Path.replyJoined Path.popQueue Path.setQueue
        split <;> first | rfl | (split <;> first | rfl | (split <;> rfl))
      · rfl

theorem grantI_sPort (p : Path) : p.grantI.sPort = p.sPort := by
  unfold Path.grantI
  split
  · split
    · rfl
    · split
      · exact refillI_sPort 64 _
      · rfl
  · rfl

end Sys2Proof.Machine
end

