-- ==== Sys2Proof/Laws/Link.lean ====
section
/-! SUPPORT. Requests for tags on a LOST link: what comes of one failed request never asks for more tags than the data path
still has to ask for, so the end of a command leaves none waiting. -/

namespace Sys2Proof.Machine

open Sys2Proof

/-- What can ask for a tag is the same in both data paths. -/
structure SameTags (p q : Path) : Prop where
  link : q.link = p.link
  alloc : q.alloc = p.alloc
  batch : q.batch = p.batch
  sweeper : q.sweeper = p.sweeper

/-- The link state is the same, and no more tags are left to be asked for. -/
structure TagsFall (p q : Path) : Prop where
  state : q.link.state = p.link.state
  work : q.tagWork ≤ p.tagWork

theorem SameTags.refl (p : Path) : SameTags p p := ⟨rfl, rfl, rfl, rfl⟩

theorem SameTags.trans {p q r : Path} (a : SameTags p q) (b : SameTags q r) : SameTags p r :=
  ⟨b.link.trans a.link, b.alloc.trans a.alloc, b.batch.trans a.batch, b.sweeper.trans a.sweeper⟩

theorem TagsFall.refl (p : Path) : TagsFall p p := ⟨rfl, Nat.le_refl _⟩

theorem TagsFall.trans {p q r : Path} (a : TagsFall p q) (b : TagsFall q r) : TagsFall p r :=
  ⟨b.state.trans a.state, b.work.trans a.work⟩

theorem SameTags.falls {p q : Path} (h : SameTags p q) : TagsFall p q :=
  ⟨by rw [h.link], by unfold Path.tagWork; rw [h.link, h.alloc, h.batch, h.sweeper]⟩

/-! ## Operations that ask for nothing -/

/-- What passes asks for nothing. -/
theorem Keeps.sameTags {p q : Path} (h : Keeps p q) : SameTags p q where
  link := h.link
  alloc := show q.core.alloc = p.core.alloc by rw [h.core]
  batch := show q.core.batch = p.core.batch by rw [h.core]
  sweeper := show q.core.sweeper = p.core.sweeper by rw [h.core]

theorem sameTags_joinI (p : Path) (x : IItem) : SameTags p (p.joinI x) :=
  ⟨(keeps_joinI p x).sameTags.link, (keeps_joinI p x).sameTags.alloc, (keeps_joinI p x).sameTags.batch,
    (keeps_joinI p x).sameTags.sweeper⟩

theorem sameTags_holdI (p : Path) (x : IItem) : SameTags p (p.holdI x) :=
  ⟨(keeps_holdI p x).sameTags.link, (keeps_holdI p x).sameTags.alloc, (keeps_holdI p x).sameTags.batch,
    (keeps_holdI p x).sameTags.sweeper⟩

theorem sameTags_sendNotice (p : Path) (n : Notice) : SameTags p (p.sendNotice n) := by
  unfold Path.sendNotice
  repeat' split
  exacts [sameTags_joinI p _, ⟨rfl, rfl, rfl, rfl⟩, sameTags_holdI p _]

theorem sameTags_testGo (p : Path) (slot before : Nat) : SameTags p (p.testGo slot before) := by
  unfold Path.testGo
  repeat' split
  all_goals exact ⟨rfl, rfl, rfl, rfl⟩

theorem sameTags_settle (p : Path) (slot ordinal : Nat) : SameTags p (p.settle slot ordinal) := by
  unfold Path.settle
  split
  · refine SameTags.trans ?_ (sameTags_testGo _ _ _)
    exact ⟨rfl, rfl, rfl, rfl⟩
  · exact .refl p

theorem sameTags_quiesce (p : Path) (slot : Nat) (cls : EndClass) (cause : Option Cause) (fp : Option (Nat × Nat)) :
    SameTags p (p.quiesce slot cls cause fp) := by
  unfold Path.quiesce
  repeat' split
  all_goals exact ⟨rfl, rfl, rfl, rfl⟩

theorem sameTags_chunkOutcome (p : Path) (r : ChunkRec) (a : Bool) : SameTags p (p.chunkOutcome r a) := by
  unfold Path.chunkOutcome
  split <;> exact ⟨rfl, rfl, rfl, rfl⟩

theorem sameTags_endStream (p : Path) (c : Control) (slot : Nat) (x : Context) (cls : EndClass) (cause : Option Cause) :
    SameTags p (p.endStream c slot x cls cause) := by
  have h := sameTags_sendNotice p (.summary x.source (x.closeSummary slot cls cause c.calendar))
  unfold Path.endStream Path.askRewrite
  dsimp only
  split <;> exact ⟨h.link, h.alloc, h.batch, h.sweeper⟩

theorem sameTags_endWork (p : Path) (c : Control) (slot : Nat) : SameTags p (p.endWork c slot) := by
  unfold Path.endWork
  repeat' split
  exacts [sameTags_endStream p _ _ _ _ _, sameTags_endStream p _ _ _ _ _, .refl p, .refl p]

theorem sameTags_foldl {α : Type} (f : Path → α → Path) (h : ∀ p a, SameTags p (f p a)) (l : List α) (p : Path) :
    SameTags p (l.foldl f p) := by
  induction l generalizing p with
  | nil => exact .refl p
  | cons a l ih => exact (h p a).trans (ih _)

theorem tagsFall_foldl {α : Type} (f : Path → α → Path) (h : ∀ p a, TagsFall p (f p a)) (l : List α) (p : Path) :
    TagsFall p (l.foldl f p) := by
  induction l generalizing p with
  | nil => exact .refl p
  | cons a l ih => exact (h p a).trans (ih _)

/-! ## Operations that may ask for a tag -/

theorem tagsFall_closeBatch (p : Path) : TagsFall p p.closeBatch := by
  unfold Path.closeBatch
  split
  · exact .refl p
  · rename_i items h
    refine ⟨rfl, ?_⟩
    have hb : p.batch.items ≠ [] := by intro e; exact h e
    have hw : ((Path.bump { p with batch := {} } .refBatchesMade 1).askTag (.message (.refs p.batch.items))).link.waiting =
        p.link.waiting ++ [.message (.refs p.batch.items)] := rfl
    have hb2 : ((Path.bump { p with batch := {} } .refBatchesMade 1).askTag (.message (.refs p.batch.items))).batch.items =
        [] := rfl
    unfold Path.tagWork
    rw [hw, hb2, if_pos rfl, if_neg hb, List.length_append]
    generalize hu : (if p.sweeper.unbatched = [] then 0 else 1 : Nat) = u
    change p.link.waiting.length + 1 + (p.alloc.slots.filter fun cs => !cs.2.box.sealIssued).length +
      (p.alloc.sealing.filter fun b => !b.sealIssued).length + 0 + (if p.sweeper.unbatched = [] then 0 else 1) ≤ _
    rw [hu]
    omega

theorem tagsFall_endRecords (p : Path) (slot : Nat) : TagsFall p (p.endRecords slot) := by
  unfold Path.endRecords
  repeat' split
  · refine TagsFall.trans ?_ (tagsFall_closeBatch _)
    exact ⟨rfl, Nat.le_refl _⟩
  · exact ⟨rfl, Nat.le_refl _⟩
  · exact .refl p
  · exact .refl p

theorem tagsFall_check (p : Path) (c : Control) (slot : Nat) : TagsFall p (p.check c slot) :=
  (tagsFall_endRecords p slot).trans (sameTags_endWork _ c slot).falls

theorem tagsFall_checkAll (p : Path) (c : Control) (l : List Nat) : TagsFall p (p.checkAll c l) :=
  tagsFall_foldl _ (fun q s => tagsFall_check q c s) l p

/-- The SEALs of containers join the requests that wait; nothing else changes. -/
theorem askSeals_eq (p : Path) (l : List SealRec) :
    p.askSeals l = { p with link := { p.link with waiting := p.link.waiting ++ l.map fun r => .message (.seal r) } } := by
  unfold Path.askSeals
  induction l generalizing p with
  | nil => simp
  | cons r l ih => rw [List.foldl_cons, ih]; simp [Path.askTag]

/-- A SEALING container's SEAL is made at most once: those made now and those still to be made are no more than there
were. -/
theorem trySeal_work (b : Container) :
    (if b.trySeal.1.sealIssued then 0 else 1) + b.trySeal.2.toList.length ≤ if b.sealIssued then 0 else 1 := by
  unfold Container.trySeal
  split
  · rename_i h; simp [h.2]
  · simp

theorem answer_box_work (b : Container) (id length : Nat) (failed : Bool) :
    (if (b.answer id length failed).1.sealIssued then 0 else 1) + (b.answer id length failed).2.toList.length ≤
      if b.sealIssued then 0 else 1 := by
  unfold Container.answer
  split
  · exact trySeal_work (b.answered length failed)
  · simp

theorem answer_slot_work (sl : Slot) (id length : Nat) (failed : Bool) :
    (if (sl.answer id length failed).1.box.sealIssued then 0 else 1) + (sl.answer id length failed).2.toList.length ≤
      if sl.box.sealIssued then 0 else 1 := by
  unfold Slot.answer
  split
  · dsimp only
    split
    · exact trySeal_work (sl.box.answered length failed)
    · show (if sl.box.sealIssued then 0 else 1) + 0 ≤ _
      omega
  · simp

/-- The same over a list of records. -/
theorem answered_work {α : Type} (f : α → α × Option SealRec) (issued : α → Bool)
    (h : ∀ a, (if issued (f a).1 then 0 else 1) + (f a).2.toList.length ≤ if issued a then 0 else 1) (l : List α) :
    ((l.map fun a => (f a).1).filter fun a => !issued a).length + (l.filterMap fun a => (f a).2).length ≤
      (l.filter fun a => !issued a).length := by
  induction l with
  | nil => simp
  | cons a l ih =>
    have ha := h a
    cases h1 : (f a).2 <;> cases h2 : issued (f a).1 <;> cases h3 : issued a <;>
      simp_all <;> omega

theorem tagsFall_containerAnswer (p : Path) (id length : Nat) (failed : Bool) :
    TagsFall p (p.containerAnswer id length failed) := by
  unfold Path.containerAnswer
  rw [askSeals_eq]
  refine ⟨rfl, ?_⟩
  have h1 := answered_work (fun cs : Nat × Slot => ((cs.1, (cs.2.answer id length failed).1), (cs.2.answer id length failed).2))
    (fun cs => cs.2.box.sealIssued) (fun cs => answer_slot_work cs.2 id length failed) p.alloc.slots
  have h2 := answered_work (fun b : Container => b.answer id length failed) (fun b => b.sealIssued)
    (fun b => answer_box_work b id length failed) p.alloc.sealing
  simp only [Path.tagWork, Alloc.answered, List.length_append, List.length_map] at *
  omega

theorem tagsFall_remove (p : Path) (id : Nat) : TagsFall p { p with alloc := p.alloc.remove id } := by
  refine ⟨rfl, ?_⟩
  have h1 : (((p.alloc.slots.filter fun cs => cs.2.box.id ≠ id).filter fun cs => !cs.2.box.sealIssued).length) ≤
      (p.alloc.slots.filter fun cs => !cs.2.box.sealIssued).length :=
    (List.Sublist.filter _ List.filter_sublist).length_le
  have h2 : (((p.alloc.sealing.filter fun b => b.id ≠ id).filter fun b => !b.sealIssued).length) ≤
      (p.alloc.sealing.filter fun b => !b.sealIssued).length :=
    (List.Sublist.filter _ List.filter_sublist).length_le
  simp only [Path.tagWork, Alloc.remove] at *
  omega

/-- A failed message asks for no more tags than were left to be asked for. -/
theorem tagsFall_fail (p : Path) (c : Control) (m : Content) : TagsFall p (p.fail c m) := by
  unfold Path.fail
  split
  · rename_i r
    refine TagsFall.trans ?_ (tagsFall_check _ c _)
    refine (tagsFall_containerAnswer p r.container r.length true).trans (SameTags.falls ?_)
    refine (sameTags_settle _ r.slot r.ordinal).trans ?_
    have h1 := sameTags_quiesce (((p.containerAnswer r.container r.length true).settle r.slot r.ordinal).answer r.slot)
      r.slot .abnormal (some .storeLost) (some (r.streamOffset, r.ordinal))
    have h2 := h1.trans (sameTags_chunkOutcome _ r false)
    exact ⟨h2.link, h2.alloc, h2.batch, h2.sweeper⟩
  · rename_i items
    refine TagsFall.trans (SameTags.falls ?_) (tagsFall_checkAll _ c _)
    have h1 : SameTags p (p.refsAnswered items) := sameTags_foldl (fun (q : Path) (i : RefItem) => q.answer i.slot) (fun q i => ⟨rfl, rfl, rfl, rfl⟩) items p
    have h2 : SameTags (p.refsAnswered items) ((p.refsAnswered items).refsLost items) := by
      refine sameTags_foldl _ (fun q s => ?_) (refSlots items) _
      split
      · exact sameTags_quiesce q _ _ _ _
      · exact .refl q
    have h3 := h1.trans h2
    exact ⟨h3.link, h3.alloc, h3.batch, h3.sweeper⟩
  · rename_i r
    exact (tagsFall_remove p r.container).trans (SameTags.falls ⟨rfl, rfl, rfl, rfl⟩)
  · exact SameTags.falls ⟨rfl, rfl, rfl, rfl⟩

/-- The unbatched items become a batch, whose request is one tag for them all. -/
theorem tagsFall_makeBatch_all (p : Path) : TagsFall p (p.makeBatch p.sweeper.unbatched.length) := by
  unfold Path.makeBatch
  split
  · exact .refl p
  · rename_i items h
    refine ⟨rfl, ?_⟩
    have hb : p.sweeper.unbatched ≠ [] := by rintro e; simp [e] at h
    simp [Path.tagWork, Path.askTag, hb]
    omega

theorem tagsFall_sweepFrom (x : Index) (n : Nat) (pos : SweepPos) (p : Path) : TagsFall p (Path.sweepFrom x n pos p) := by
  induction n generalizing pos p with
  | zero => exact .refl p
  | succ n ih =>
    unfold Path.sweepFrom
    split
    · exact ⟨rfl, Nat.le_refl _⟩
    · have h : TagsFall p ((p.makeBatch p.sweeper.unbatched.length).bump .sweepPasses 1) :=
        (tagsFall_makeBatch_all p).trans (SameTags.falls ⟨rfl, rfl, rfl, rfl⟩)
      dsimp only
      split
      · refine TagsFall.trans ?_ (ih _ _)
        exact ⟨h.state, h.work⟩
      · exact h.trans ⟨rfl, Nat.le_refl _⟩

theorem tagsFall_takeBatch (p : Path) (x : Index) : TagsFall p (p.takeBatch x) := by
  unfold Path.takeBatch Path.resumeSweep
  split
  · refine TagsFall.trans ?_ (tagsFall_sweepFrom x 2 _ _)
    exact ⟨rfl, Nat.le_refl _⟩
  · exact ⟨rfl, Nat.le_refl _⟩

theorem tagsFall_failRequest (p : Path) (c : Control) (x : Index) (r : TagRequest) : TagsFall p (p.failRequest c x r) := by
  unfold Path.failRequest
  split
  · exact tagsFall_fail p c _
  · split
    · exact (tagsFall_fail p c _).trans (tagsFall_takeBatch _ x)
    · exact .refl p

/-! ## The end of a command -/

theorem drainLost_lostDrained (c : Control) (x : Index) (n : Nat) (p : Path) (h : p.tagWork ≤ n) :
    (Path.drainLost c x n p).lostDrained := by
  induction n generalizing p with
  | zero =>
    intro _
    have : p.link.waiting.length = 0 := by unfold Path.tagWork at h; omega
    exact List.eq_nil_of_length_eq_zero this
  | succ n ih =>
    unfold Path.drainLost
    split
    · split
      · rename_i hw; exact fun _ => hw
      · rename_i r rest hw
        refine ih _ ?_
        have h1 := (tagsFall_failRequest { p with link := { p.link with waiting := rest } } c x r).work
        have h2 : Path.tagWork { p with link := { p.link with waiting := rest } } + 1 = p.tagWork := by
          simp only [Path.tagWork, hw, List.length_cons]; omega
        have h3 : (Path.bump (Path.failRequest { p with link := { p.link with waiting := rest } } c x r) .messagesLinkLost
          1).tagWork = (Path.failRequest { p with link := { p.link with waiting := rest } } c x r).tagWork := rfl
        omega
    · rename_i hs; exact fun e => absurd e hs

/-- The end of a command leaves no request for a tag waiting on a LOST link. -/
theorem finish_lostDrained (p : Path) (c : Control) (x : Index) : (p.finish c x).lostDrained :=
  (keeps_finish_tail _ c x).lostDrained (drainLost_lostDrained c x _ p (Nat.le_refl _))

end Sys2Proof.Machine
end

