-- ==== Sys2Proof/Laws/Ends.lean ====
section
/-! SUPPORT. The meanings of the ends of streams, of answers to store messages and of placements are what Safety.lean writes
out for the statements. -/

namespace Sys2Proof.Machine

open Sys2Proof

theorem tabSet_twice {α : Type} (t : Tab α) (i : Nat) (a b : α) : tabSet (tabSet t i a) i b = tabSet t i b := by
  induction t with
  | nil => simp [tabSet]
  | cons kv t ih =>
    obtain ⟨k, v⟩ := kv
    simp only [tabSet]
    split
    · simp [tabSet]
    · split
      · simp [tabSet]
      · simp only [tabSet, *, if_false]

theorem withCtx_twice (p : Path) (slot : Nat) (x y : Context) : (p.withCtx slot x).withCtx slot y = p.withCtx slot y := by
  simp [Path.withCtx, tabSet_twice]

@[simp] theorem withCtx_get (p : Path) (slot : Nat) (x : Context) : tabGet (p.withCtx slot x).contexts slot = some x := by
  simp [Path.withCtx]

theorem modCtx_get {p : Path} {slot : Nat} {x : Context} (h : tabGet p.contexts slot = some x) (f : Context → Context) :
    p.modCtx slot f = p.withCtx slot (f x) := by
  simp [Path.modCtx, tabUpdate, h, Path.withCtx]

theorem modCtx_free {p : Path} {slot : Nat} (h : tabGet p.contexts slot = none) (f : Context → Context) :
    p.modCtx slot f = p := by
  simp [Path.modCtx, tabUpdate, h]

/-! ## Ends of streams -/

theorem drainEnd_eq_verdict (x : Context) : x.drainEnd = x.verdict := by
  unfold Context.drainEnd Context.verdict
  by_cases h : x.total ≠ some x.inOrder
  · simp [h]
  · rw [if_neg h, if_neg h]
    cases hm : x.mode <;> cases he : x.endMode with
    | none => simp
    | some e => cases e <;> cases x.expected <;> simp

theorem endStream_eq_ends (p : Path) (c : Control) (slot : Nat) (x : Context) (v : EndClass × Option Cause) :
    p.endStream c slot x v.1 v.2 = p.ends c slot x v := by
  obtain ⟨cls, cause⟩ := v
  have h : ∀ q : Path, q.askRewrite x cls = { q with hotOps := q.hotOps ++
      if x.mode = .store ∧ cls = .normal ∧ 256 ≤ x.sight.length then [.rewrite x.branch x.sight] else [] } := by
    intro q
    unfold Path.askRewrite
    split
    · rfl
    · simp
  unfold Path.endStream Path.ends
  dsimp only
  rw [h]
  cases cls <;> rfl

theorem closeBatch_eq_batchClosed {p : Path} (h : p.batch.items ≠ []) : p.closeBatch = p.batchClosed := by
  unfold Path.closeBatch
  split
  · contradiction
  · rfl

/-- The test for the end of a context's records and of its stream, as R12, R15, R100 and R172 give it. -/
theorem check_eq_endsIfDone (p : Path) (c : Control) (slot : Nat) : p.check c slot = p.endsIfDone c slot := by
  unfold Path.check Path.endsIfDone Path.endRecords
  cases h : tabGet p.contexts slot with
  | none => simp only [Path.endWork, h]
  | some x =>
    dsimp only
    generalize hq : (if x.completed = true ∧ x.queue.isEmpty = true ∧ (x.state = .draining ∨ x.state = .quiescing) ∧
        ¬ p.eor.contains slot = true then _ else p : Path) = q
    have hg : tabGet q.contexts slot = some x := by
      rw [← hq]; split
      · split
        · unfold Path.closeBatch; split <;> exact h
        · exact h
      · exact h
    have hq' : (if x.completed = true ∧ x.queue = [] ∧ (x.state = .draining ∨ x.state = .quiescing) ∧ slot ∉ p.eor then
        (if ∃ i ∈ p.batch.items, i.slot = slot then Path.batchClosed { p with eor := slot :: p.eor }
          else { p with eor := slot :: p.eor }) else p : Path) = q := by
      rw [← hq]
      simp only [List.isEmpty_iff, List.contains_iff_mem, List.any_eq_true, decide_eq_true_eq]
      split
      · split
        · rename_i h1 h2
          obtain ⟨i, hi, _⟩ := h2
          exact (closeBatch_eq_batchClosed (p := { p with eor := slot :: p.eor }) (List.ne_nil_of_mem hi)).symm
        · rfl
      · rfl
    rw [hq']
    unfold Path.endWork
    rw [hg]
    dsimp only
    have hd : (x.state = .draining ∧ x.drained = true) ↔ (x.state = .draining ∧ x.final = some x.expectedSeq ∧
        x.chunker.status = .complete ∧ x.queue = [] ∧ x.releasePoint = x.inOrder ∧ x.unanswered = 0) := by
      simp [Context.drained, and_assoc]
    simp only [hd, List.isEmpty_iff, endStream_eq_ends, ← drainEnd_eq_verdict,
      ← endStream_eq_ends (v := (x.endClass.getD .abnormal, x.cause))]

/-- A context enters QUIESCING without a fail point as R13, R14 and R39 give it. -/
theorem quiesce_eq_parked (x : Context) (cls : EndClass) (cause : Option Cause) : x.quiesce cls cause none = x.parked cls cause :=
  rfl

/-- A stream that is ended early with no fail point: its context enters QUIESCING and its PACE notice goes. -/
theorem quiesce_parked {p : Path} {slot : Nat} {x : Context} (hx : tabGet p.contexts slot = some x)
    (ht : x.state.taking = true) (cls : EndClass) (cause : Option Cause) :
    p.quiesce slot cls cause none = (p.withCtx slot (x.parked cls cause)).dropPace slot := by
  unfold Path.quiesce
  rw [hx]
  exact if_pos ht

/-- What a QUIESCING context comes to as it is tested for its end (R12, R15, R172). -/
theorem endsIfDone_quiescing {p : Path} {c : Control} {slot : Nat} {x : Context} (hx : tabGet p.contexts slot = some x)
    (hs : x.state = .quiescing) :
    p.endsIfDone c slot =
      let q := if x.completed = true ∧ x.queue = [] then p.recordsEnd slot else p
      if x.queue = [] ∧ x.unanswered = 0 then q.ends c slot x (x.endClass.getD .abnormal, x.cause) else q := by
  unfold Path.endsIfDone Path.recordsEnd
  rw [hx]
  dsimp only
  rw [if_neg (fun h => by rw [hs] at h; cases h.1)]
  have hq : (if x.completed = true ∧ x.queue = [] ∧ (x.state = .draining ∨ x.state = .quiescing) ∧ slot ∉ p.eor then
      (if ∃ i ∈ p.batch.items, i.slot = slot then Path.batchClosed { p with eor := slot :: p.eor }
        else { p with eor := slot :: p.eor }) else p : Path) =
      (if x.completed = true ∧ x.queue = [] then (if slot ∈ p.eor then p else
        (if ∃ i ∈ p.batch.items, i.slot = slot then Path.batchClosed { p with eor := slot :: p.eor }
          else { p with eor := slot :: p.eor })) else p : Path) := by
    by_cases h1 : x.completed = true ∧ x.queue = []
    · rw [if_pos h1]
      by_cases h2 : slot ∈ p.eor
      · rw [if_neg (fun h => h.2.2.2 h2), if_pos h2]
      · rw [if_pos ⟨h1.1, h1.2, .inr hs, h2⟩, if_neg h2]
    · rw [if_neg (fun h => h1 ⟨h.1, h.2.1⟩), if_neg h1]
  rw [hq]
  by_cases he : x.queue = [] ∧ x.unanswered = 0
  · rw [if_pos ⟨hs, he⟩, if_pos he]
  · rw [if_neg (fun h => he h.2), if_neg he]

/-! ## The link's state -/

@[simp] theorem batchClosed_state (p : Path) : p.batchClosed.link.state = p.link.state := rfl

@[simp] theorem ends_link (p : Path) (c : Control) (slot : Nat) (x : Context) (v : EndClass × Option Cause) :
    (p.ends c slot x v).link = p.link :=
  (sameTags_sendNotice p _).link

/-- The end of a stream leaves the link's state alone. -/
@[simp] theorem endsIfDone_state (p : Path) (c : Control) (slot : Nat) :
    (p.endsIfDone c slot).link.state = p.link.state := by
  rw [← check_eq_endsIfDone]
  exact (tagsFall_check p c slot).state

/-- Operations that each leave the link's state alone leave it alone together. -/
theorem foldl_state {α : Type} (f : Path → α → Path) (h : ∀ p a, (f p a).link.state = p.link.state) (l : List α)
    (p : Path) : (l.foldl f p).link.state = p.link.state := by
  induction l generalizing p with
  | nil => rfl
  | cons a l ih => exact (ih _).trans (h p a)

/-! ## Answers to store messages -/

theorem chunkSettled_eq (p : Path) (slot ordinal : Nat) : (p.settle slot ordinal).answer slot = p.chunkSettled slot ordinal := by
  unfold Path.settle Path.chunkSettled Path.answer
  cases h : tabGet p.contexts slot with
  | none => simp [modCtx_free h]
  | some x =>
    dsimp only
    have e : ({ p with contexts := tabSet p.contexts slot (x.settle ordinal) } : Path) = p.withCtx slot (x.settle ordinal) := rfl
    rw [e]
    unfold Path.testGo
    rw [withCtx_get]
    dsimp only
    have hs : (x.settle ordinal).state = x.state := rfl
    have hp : (x.settle ordinal).pace = x.pace := rfl
    have hq : (x.settle ordinal).quota = x.quota := rfl
    rw [hs, hp, hq]
    by_cases hc : x.state.reading = true ∧ x.pace = .stop ∧ (x.settle ordinal).held < x.held ∧
        (x.settle ordinal).held ≤ x.quota / 2
    · rw [if_pos hc]
      refine Eq.trans ?_ (if_pos hc).symm
      refine (modCtx_get (p := (p.withCtx slot (x.settle ordinal)).paced slot _)
        (withCtx_get (p.withCtx slot (x.settle ordinal)) slot _) _).trans ?_
      simp only [Path.paced, Path.makePace, Path.withCtx, tabSet_twice, Context.paceNotice, Context.answer]
      rfl
    · rw [if_neg hc]
      refine Eq.trans ?_ (if_neg hc).symm
      rw [modCtx_get (withCtx_get _ _ _), withCtx_twice]
      rfl

theorem trySeal_eq_seals (b : Container) :
    b.trySeal = (b.seals.1, if b.pending = 0 ∧ b.sealIssued = false then some b.sealRec else none) := by
  unfold Container.trySeal Container.seals
  split <;> rfl

theorem seals_requests (b : Container) : b.seals.2 = b.trySeal.2.toList.map fun r => .message (.seal r) := by
  unfold Container.trySeal Container.seals
  split <;> rfl

theorem flatMap_toList {α β γ : Type} (l : List α) (f : α → Option β) (g : β → γ) :
    (l.flatMap fun a => (f a).toList.map g) = (l.filterMap f).map g := by
  induction l with
  | nil => rfl
  | cons a l ih => cases h : f a <;> simp [h, ih]

theorem containerAnswer_eq (p : Path) (r : ChunkRec) (failed : Bool) :
    p.containerAnswer r.container r.length failed = p.placementAnswered r failed := by
  unfold Path.containerAnswer Path.placementAnswered
  rw [askSeals_eq]
  unfold Alloc.answered
  dsimp only
  have h1 : ∀ b : Container, (b.trySeal.1 = b.seals.1) := fun b => by rw [trySeal_eq_seals]
  have hs : ∀ sl : Slot, (if sl.box.id ≠ r.container then (sl.box, ([] : List TagRequest))
      else if sl.sealing = true then
        ({ sl.box with pending := sl.box.pending - 1, holes := if failed = true then sl.box.holes + r.length else sl.box.holes } : Container).seals
      else ({ sl.box with pending := sl.box.pending - 1, holes := if failed = true then sl.box.holes + r.length else sl.box.holes }, [])) =
      ((sl.answer r.container r.length failed).1.box, (sl.answer r.container r.length failed).2.toList.map fun q => .message (.seal q)) := by
    intro sl
    unfold Slot.answer
    by_cases hid : sl.box.id = r.container
    · rw [if_neg (by simpa using hid), if_pos hid]
      by_cases hse : sl.sealing = true
      · simp only [hse, if_true, Container.answered]
        exact Prod.ext (h1 _).symm (seals_requests _)
      · simp only [hse]; rfl
    · rw [if_pos hid, if_neg hid]; rfl
  have ha : ∀ b : Container, (if b.id ≠ r.container then (b, ([] : List TagRequest))
      else ({ b with pending := b.pending - 1, holes := if failed = true then b.holes + r.length else b.holes } : Container).seals) =
      ((b.answer r.container r.length failed).1, (b.answer r.container r.length failed).2.toList.map fun q => .message (.seal q)) := by
    intro b
    unfold Container.answer
    by_cases hid : b.id = r.container
    · rw [if_neg (by simpa using hid), if_pos hid]
      simp only [Container.answered]
      exact Prod.ext (h1 _).symm (seals_requests _)
    · rw [if_pos hid, if_neg hid]; rfl
  have hsl : ∀ cs : Nat × Slot, (cs.1, (cs.2.answer r.container r.length failed).1) =
      (cs.1, { cs.2 with box := (cs.2.answer r.container r.length failed).1.box }) := by
    intro cs
    unfold Slot.answer
    split <;> rfl
  simp only [hs, ha, hsl, flatMap_toList, List.map_append]

theorem answer_eq_recordAnswered (p : Path) (slot : Nat) : p.answer slot = p.recordAnswered slot := by
  unfold Path.answer Path.recordAnswered
  cases h : tabGet p.contexts slot with
  | none => exact modCtx_free h _
  | some x => exact modCtx_get h _

theorem chunkOutcome_eq (p : Path) (r : ChunkRec) (accepted : Bool) : p.chunkOutcome r accepted = p.outcomeSent r accepted := by
  unfold Path.chunkOutcome Path.outcomeSent
  cases h : r.entry with
  | none => simp
  | some e => rfl

theorem checkAll_eq (p : Path) (c : Control) (l : List Nat) : p.checkAll c l = l.foldl (fun q n => q.endsIfDone c n) p := by
  unfold Path.checkAll
  simp only [check_eq_endsIfDone]

/-- What ACCEPT does to each kind of message, as R144, R147 and R152 give it. -/
theorem accept_eq_afterAccept (p : Path) (c : Control) (m : Content) : p.accept c m = p.afterAccept c m := by
  rcases m with r | items | r | items
  · simp only [Path.accept, Path.afterAccept, containerAnswer_eq, chunkSettled_eq, chunkOutcome_eq, check_eq_endsIfDone]
  · simp only [Path.accept, Path.afterAccept, checkAll_eq, Path.refsAnswered, answer_eq_recordAnswered]
  · rfl
  · rfl

/-- What a failure does to each kind of message, as R144, R147 and R155 to R157 give it. -/
theorem fail_eq_afterFail (p : Path) (c : Control) (m : Content) : p.fail c m = p.afterFail c m := by
  rcases m with r | items | r | items
  · simp only [Path.fail, Path.afterFail, containerAnswer_eq, chunkSettled_eq, chunkOutcome_eq, check_eq_endsIfDone]
  · have settled : Path.answer = Path.recordAnswered := funext fun q => funext fun n => answer_eq_recordAnswered q n
    exact (checkAll_eq _ c _).trans (congrArg (fun f : Path → Nat → Path =>
      (refSlots items).foldl (fun q n => q.endsIfDone c n)
        (((items.foldl (fun q i => f q i.slot) p).refsLost items).bump .refBatchesFailed 1)) settled)
  · rfl
  · rfl

/-! ## Placements -/

/-- What a placement request comes to, as R141 to R143 give it. -/
theorem place_eq_placement (p : Path) (slot cls length : Nat) : p.place slot cls length = p.placement slot cls length := by
  have hs : ∀ (l : List SealRec) (q : Path), q.askSeals l =
      { q with link := { q.link with waiting := q.link.waiting ++ l.map fun r => .message (.seal r) } } :=
    fun l q => askSeals_eq q l
  unfold Path.place Path.placement Alloc.request
  dsimp only
  cases h : tabGet p.alloc.slots cls with
  | none =>
    unfold Alloc.openFor
    cases hn : p.alloc.nextId <;> first | rfl | (simp only [hs, Container.place, idAfter]; simp)
  | some sl =>
    dsimp only
    by_cases hf : sl.sealing = false ∧ sl.box.fill + length ≤ 4194304
    · have hf' : sl.sealing = false ∧ sl.box.fill + length ≤ containerSize := hf
      simp only [if_pos hf, if_pos hf']
      rfl
    · have hf' : ¬ (sl.sealing = false ∧ sl.box.fill + length ≤ containerSize) := hf
      simp only [if_neg hf, if_neg hf']
      unfold Alloc.setAside Alloc.openFor
      cases hn : p.alloc.nextId with
      | unset => rfl
      | exhausted => rfl
      | id v =>
        dsimp only
        by_cases h8 : 8 ≤ p.alloc.sealing.length
        · simp only [if_pos h8]
          rfl
        · simp only [if_neg h8, hs, Container.place, idAfter, seals_requests, trySeal_eq_seals]
          simp

end Sys2Proof.Machine
end

