-- ==== Sys2Proof/Laws/Index.lean ====
section
/-! SUPPORT. The stacked DRAM: every operation of the Index Controller keeps its canonical form, and reads of its entries and
hot lists after their writes. -/

namespace Sys2Proof.Machine

open Sys2Proof

/-! ## Fields that no index write of a mark or a group touches -/

@[simp] theorem modGroup_dram (x : Index) (b : Nat) (f : Group → Group) : (x.modGroup b f).dram = x.dram := rfl
@[simp] theorem modGroup_geometry (x : Index) (b : Nat) (f : Group → Group) : (x.modGroup b f).geometry = x.geometry := rfl
@[simp] theorem modGroup_marks (x : Index) (b : Nat) (f : Group → Group) : (x.modGroup b f).marks = x.marks := rfl
@[simp] theorem modGroup_entry (x : Index) (b : Nat) (f : Group → Group) (a : Nat) :
    (x.modGroup b f).entry a = x.entry a := rfl

@[simp] theorem setMark_dram (x : Index) (b : Nat) : (x.setMark b).dram = x.dram := by
  unfold Index.setMark; split <;> rfl

@[simp] theorem clearMark_dram (x : Index) (b : Nat) : (x.clearMark b).dram = x.dram := by
  unfold Index.clearMark; split <;> rfl

@[simp] theorem markCheck_dram (x : Index) (b : Nat) : (x.markCheck b).dram = x.dram := by
  unfold Index.markCheck
  split
  · rfl
  · dsimp only; split
    · exact clearMark_dram x b
    · rfl

@[simp] theorem setMark_entry (x : Index) (b a : Nat) : (x.setMark b).entry a = x.entry a := by
  unfold Index.entry; rw [setMark_dram]

@[simp] theorem markCheck_entry (x : Index) (b a : Nat) : (x.markCheck b).entry a = x.entry a := by
  unfold Index.entry; rw [markCheck_dram]

/-- A claim writes no entry, and what it claims is FREE (R75). -/
theorem claim_cases {x y : Index} {page bucket a : Nat} (h : x.claim page bucket = some (a, y)) :
    x.free a = true ∧ y.dram = x.dram := by
  unfold Index.claim at h
  split at h
  · rename_i b hb
    cases h
    exact ⟨List.find?_some hb, rfl⟩
  · split at h
    · rename_i b hb
      cases h
      exact ⟨List.find?_some hb, setMark_dram x bucket⟩
    · cases h

/-! ## A read after a write -/

@[simp] theorem set_entry (x : Index) (a b : Nat) (e : Entry) :
    (x.set a e).entry b = if b = a then some e else x.entry b := tabGet_tabSet x.dram a b e

@[simp] theorem fill_dram (x : Index) (a : Nat) (e : Entry) : (x.fill a e).dram = tabSet x.dram a e := by
  unfold Index.fill; dsimp only; split <;> rfl

@[simp] theorem fill_entry (x : Index) (a b : Nat) (e : Entry) :
    (x.fill a e).entry b = if b = a then some e else x.entry b := by
  unfold Index.entry; rw [fill_dram]; exact tabGet_tabSet x.dram a b e

@[simp] theorem release_dram (x : Index) (a : Nat) (f : Fingerprint) : (x.release a f).dram = tabErase x.dram a := by
  unfold Index.release; dsimp only; split <;> rfl

/-- A released entry is FREE. -/
theorem release_entry_same {x : Index} (h : Memory.wf x.dram = true) (a : Nat) (f : Fingerprint) :
    (x.release a f).entry a = none := by
  unfold Index.entry; rw [release_dram]; exact tabGet_tabErase_same h a

/-- A release leaves every other entry alone. -/
theorem release_entry_other (x : Index) {a b : Nat} (h : b ≠ a) (f : Fingerprint) :
    (x.release a f).entry b = x.entry b := by
  unfold Index.entry; rw [release_dram]; exact tabGet_tabErase_other x.dram h

theorem releaseIf_entry_other (x : Index) {a b : Nat} (h : b ≠ a) (f : Fingerprint) (st : EntryState) :
    (x.releaseIf a f st).entry b = x.entry b := by
  unfold Index.releaseIf
  split
  · split
    · exact release_entry_other x h f
    · rfl
  · rfl

/-- A wipe frees the entries at the addresses it names, and leaves the others alone. -/
theorem wipe_entry (x : Index) (here : Nat → Bool) (a : Nat) :
    (x.wipe here).entry a = if here a then none else x.entry a := by
  have h := tabGet_filter (t := x.dram) (fun b => !here b) a
  unfold Index.entry Index.wipe
  rw [h]
  cases here a <;> rfl

/-! ## The canonical form is kept -/

theorem set_wf {x : Index} (h : Memory.wf x.dram = true) (a : Nat) (e : Entry) : Memory.wf (x.set a e).dram = true :=
  tabSet_wf h a e

theorem fill_wf {x : Index} (h : Memory.wf x.dram = true) (a : Nat) (e : Entry) : Memory.wf (x.fill a e).dram = true := by
  rw [fill_dram]; exact tabSet_wf h a e

theorem release_wf {x : Index} (h : Memory.wf x.dram = true) (a : Nat) (f : Fingerprint) :
    Memory.wf (x.release a f).dram = true := by
  rw [release_dram]; exact tabErase_wf h a

theorem releaseIf_wf {x : Index} (h : Memory.wf x.dram = true) (a : Nat) (f : Fingerprint) (st : EntryState) :
    Memory.wf (x.releaseIf a f st).dram = true := by
  unfold Index.releaseIf
  split
  · split
    · exact release_wf h a f
    · exact h
  · exact h

theorem wipe_wf {x : Index} (h : Memory.wf x.dram = true) (here : Nat → Bool) : Memory.wf (x.wipe here).dram = true :=
  filter_wf h _

theorem markCheck_wf {x : Index} (h : Memory.wf x.dram = true) (b : Nat) : Memory.wf (x.markCheck b).dram = true := by
  rw [markCheck_dram]; exact h

/-- A visit of the sweeper keeps the canonical form. -/
theorem visit_wf (holds : Mask16) (today : Nat) (l : List (Nat × Nat)) :
    ∀ (room : Nat) (x : Index), Memory.wf x.dram = true → Memory.wf (Index.visit holds today room l x).idx.dram = true := by
  induction l with
  | nil => intro room x h; simpa [Index.visit] using h
  | cons ia l ih =>
    intro room x h
    obtain ⟨i, a⟩ := ia
    unfold Index.visit
    split
    · split
      · dsimp only
        split
        · cases room with
          | zero => exact set_wf h _ _
          | succ room => exact ih _ _ (set_wf h _ _)
        · exact ih _ _ (set_wf h _ _)
      · exact ih _ _ h
    · exact ih _ _ h

/-- A RESTORE item keeps the canonical form. -/
theorem restoreAt_wf {x : Index} (h : Memory.wf x.dram = true) (i : RestoreEntry) :
    Memory.wf (restoreAt x i).1.dram = true := by
  unfold restoreAt
  split
  · exact h
  · split
    · exact h
    · split
      · exact h
      · rename_i hc
        exact fill_wf (by rw [(claim_cases hc).2]; exact h) _ _

/-- A RETIRE item keeps the canonical form. -/
theorem retireAt_wf {x : Index} (h : Memory.wf x.dram = true) (f : Fingerprint) (c : Nat) :
    Memory.wf (retireAt x f c).idx.dram = true := by
  unfold retireAt
  repeat' split
  all_goals first | exact h | exact set_wf h _ _

/-- A lookup keeps the canonical form. -/
theorem judge_wf {x : Index} (h : Memory.wf x.dram = true) (c : Control) (p : Path) (o : LookupOp) :
    Memory.wf (judge c x p o).idx.dram = true := by
  unfold judge judgeHeld judgeMiss judgeVerify
  repeat' split
  all_goals first
    | exact h
    | exact set_wf h _ _
    | (rw [(claim_cases (by assumption)).2]; exact h)
    | exact fill_wf (by rw [(claim_cases (by assumption)).2]; exact h) _ _

/-! ## Branch hot lists -/

/-- The hot lists lie one after another: 2048 slots for each branch. -/
theorem hotSlot_eq (branch i : Nat) : hotSlot branch i = 131072 + 2048 * branch + i := by
  unfold hotSlot hotListPage hotListOffset; omega

theorem mem_numbered {α : Type} {i : Nat} {l : List α} {e : Nat × α} (h : e ∈ numbered i l) :
    i ≤ e.1 ∧ e.1 < i + l.length := by
  induction l generalizing i with
  | nil => simp [numbered] at h
  | cons a l ih =>
    simp only [numbered, List.mem_cons, List.length_cons] at h ⊢
    rcases h with rfl | h
    · exact ⟨Nat.le_refl _, by simp⟩
    · have := ih h; omega

theorem numbered_wf {α : Type} (i : Nat) (l : List α) : tabWf (numbered i l) = true := by
  induction l generalizing i with
  | nil => rfl
  | cons a l ih => exact tabWf_cons.2 ⟨fun e he => by have := mem_numbered he; omega, ih _⟩

@[simp] theorem numbered_values {α : Type} (i : Nat) (l : List α) : (numbered i l).map (·.2) = l := by
  induction l generalizing i with
  | nil => rfl
  | cons a l ih => simp [numbered, ih]

theorem append_wf {α : Type} {a b : Tab α} (ha : tabWf a = true) (hb : tabWf b = true)
    (h : ∀ e ∈ a, ∀ f ∈ b, e.1 < f.1) : tabWf (a ++ b) = true := by
  induction a with
  | nil => exact hb
  | cons kv t ih =>
    obtain ⟨k, v⟩ := kv
    obtain ⟨hk, ht⟩ := tabWf_cons.1 ha
    refine tabWf_cons.2 ⟨fun e he => ?_, ih ht fun e he f hf => h e (by simp [he]) f hf⟩
    rcases List.mem_append.1 he with h1 | h1
    · exact hk e h1
    · exact h (k, v) (by simp) e h1

/-- Every slot a rewrite fills is one of the branch's. -/
theorem mem_sights {branch : Nat} {l : List (Fingerprint × Nat)} {e : Nat × (Fingerprint × Nat)}
    (h : e ∈ numbered (hotSlot branch 0) (l.take hotSlots)) :
    131072 + 2048 * branch ≤ e.1 ∧ e.1 < 131072 + 2048 * branch + 2048 := by
  have h1 := mem_numbered h
  have h2 : (l.take hotSlots).length ≤ 2048 := List.length_take_le ..
  rw [hotSlot_eq] at h1
  omega

@[simp] theorem writeHotList_dram (x : Index) (b : Nat) (l : List (Fingerprint × Nat)) : (x.writeHotList b l).dram = x.dram :=
  rfl
@[simp] theorem writeHotList_groups (x : Index) (b : Nat) (l : List (Fingerprint × Nat)) :
    (x.writeHotList b l).groups = x.groups := rfl
@[simp] theorem writeHotList_marks (x : Index) (b : Nat) (l : List (Fingerprint × Nat)) :
    (x.writeHotList b l).marks = x.marks := rfl
@[simp] theorem writeHotList_geometry (x : Index) (b : Nat) (l : List (Fingerprint × Nat)) :
    (x.writeHotList b l).geometry = x.geometry := rfl
@[simp] theorem writeHotList_exclusions (x : Index) (b : Nat) (l : List (Fingerprint × Nat)) :
    (x.writeHotList b l).exclusions = x.exclusions := rfl

/-- A rewrite keeps the canonical form of the hot-list slots. -/
theorem writeHotList_wf {x : Index} (h : tabWf x.hot = true) (branch : Nat) (l : List (Fingerprint × Nat)) :
    tabWf (x.writeHotList branch l).hot = true := by
  refine append_wf (append_wf (filter_wf h _) (numbered_wf _ _) ?_) (filter_wf h _) ?_ <;>
    intro e he f hf <;>
    simp only [List.mem_append, List.mem_filter, decide_eq_true_eq, hotSlot_eq, hotSlots] at he hf
  · have := mem_numbered hf; omega
  · rcases he with h1 | h1
    · omega
    · have := mem_sights (l := l) (by simpa [hotSlot_eq, hotSlots] using h1); omega

/-- A list read after its rewrite: the sights that its slots hold. -/
theorem hotList_writeHotList_same (x : Index) (branch : Nat) (l : List (Fingerprint × Nat)) :
    (x.writeHotList branch l).hotList branch = l.take hotSlots := by
  have hs : (numbered (hotSlot branch 0) (l.take hotSlots)).filter
      (fun e => decide (hotSlot branch 0 ≤ e.1) && decide (e.1 < hotSlot branch hotSlots)) =
        numbered (hotSlot branch 0) (l.take hotSlots) := by
    refine List.filter_eq_self.2 fun e he => ?_
    have := mem_sights he
    simp only [hotSlot_eq, hotSlots, Bool.and_eq_true, decide_eq_true_eq]; omega
  unfold Index.hotList Index.writeHotList
  simp only [List.filter_append, hs, List.filter_filter, List.map_append, numbered_values]
  rw [List.filter_eq_nil_iff.2 (fun e _ => ?_), List.filter_eq_nil_iff.2 (fun e _ => ?_)]
  · simp
  · simp only [Bool.and_eq_true, decide_eq_true_eq]; omega
  · simp only [Bool.and_eq_true, decide_eq_true_eq]; omega

/-- A rewrite leaves the other branches' lists alone. -/
theorem hotList_writeHotList_other (x : Index) {a b : Nat} (h : b ≠ a) (l : List (Fingerprint × Nat)) :
    (x.writeHotList a l).hotList b = x.hotList b := by
  have hs : (numbered (hotSlot a 0) (l.take hotSlots)).filter
      (fun e => decide (hotSlot b 0 ≤ e.1) && decide (e.1 < hotSlot b hotSlots)) = [] := by
    refine List.filter_eq_nil_iff.2 fun e he => ?_
    have := mem_sights he
    simp only [hotSlot_eq, hotSlots, Bool.and_eq_true, decide_eq_true_eq]; omega
  unfold Index.hotList Index.writeHotList
  simp only [List.filter_append, hs, List.append_nil, List.filter_filter]
  simp only [hotSlot_eq, hotSlots]
  congr 1
  rcases Nat.lt_or_gt_of_ne h with hb | hb
  · conv_lhs => rhs; rw [List.filter_eq_nil_iff.2 (fun e _ => by
      simp only [Bool.and_eq_true, decide_eq_true_eq]; omega)]
    rw [List.append_nil]
    refine List.filter_congr fun e _ => ?_
    rw [Bool.eq_iff_iff]; simp only [Bool.and_eq_true, decide_eq_true_eq]; omega
  · rw [List.filter_eq_nil_iff.2 (fun e _ => ?_), List.nil_append]
    · refine List.filter_congr fun e _ => ?_
      rw [Bool.eq_iff_iff]; simp only [Bool.and_eq_true, decide_eq_true_eq]; omega
    · simp only [Bool.and_eq_true, decide_eq_true_eq]; omega
end Sys2Proof.Machine
end

