-- ==== Sys2Proof/Laws/Pieces.lean ====
section
/-! SUPPORT. What becomes of the frames being sent: fields that the operations on them leave alone, the frames of a message
that leaves SENDING, and the frames that a change of the settings leaves as they are. -/

namespace Sys2Proof.Machine

open Sys2Proof

/-! ## Fields -/

@[simp] theorem modTx_core (p : Path) (f : SItem → SItem) : (p.modTx f).core = p.core := rfl
@[simp] theorem modTx_counters (p : Path) (f : SItem → SItem) : (p.modTx f).counters = p.counters := rfl
@[simp] theorem modTx_link (p : Path) (f : SItem → SItem) : (p.modTx f).link = p.link := rfl
@[simp] theorem modTx_contexts (p : Path) (f : SItem → SItem) : (p.modTx f).contexts = p.contexts := rfl
@[simp] theorem modTx_iPort (p : Path) (f : SItem → SItem) : (p.modTx f).iPort = p.iPort := rfl
@[simp] theorem modTx_queue (p : Path) (f : SItem → SItem) (port : Port) : (p.modTx f).queue port = p.queue port := by
  cases port <;> rfl
@[simp] theorem modTx_fifo (p : Path) (f : SItem → SItem) : (p.modTx f).sPort.fifo = p.sPort.fifo := rfl
@[simp] theorem modTx_hold (p : Path) (f : SItem → SItem) : (p.modTx f).sPort.hold = p.sPort.hold := rfl
@[simp] theorem modTx_tx (p : Path) (f : SItem → SItem) : (p.modTx f).sPort.tx = p.sPort.tx.map f := rfl
@[simp] theorem stamp_core (p : Path) (e : Nat) : (p.stamp e).core = p.core := rfl
@[simp] theorem stamp_counters (p : Path) (e : Nat) : (p.stamp e).counters = p.counters := rfl
@[simp] theorem stamp_queue (p : Path) (e : Nat) (port : Port) : (p.stamp e).queue port = p.queue port := by
  cases port <;> rfl
@[simp] theorem keepFrames_core (p : Path) (c : Control) (g : Settings) : (p.keepFrames c g).core = p.core := by
  simp only [Path.keepFrames]; split <;> split <;> rfl
@[simp] theorem keepFrames_counters (p : Path) (c : Control) (g : Settings) :
    (p.keepFrames c g).counters = p.counters := by
  simp only [Path.keepFrames]; split <;> split <;> rfl
@[simp] theorem keepFrames_queue (p : Path) (c : Control) (g : Settings) (port : Port) :
    (p.keepFrames c g).queue port = p.queue port := by
  simp only [Path.keepFrames]; split <;> split <;> simp

/-- Settings with the same EtherType and store address leave every frame alone. -/
theorem keepFrames_same (p : Path) (c : Control) {g : Settings} (he : g.etherType = c.tables.settings.etherType)
    (ha : g.storeAddr = c.tables.settings.storeAddr) : p.keepFrames c g = p := by simp [Path.keepFrames, he, ha]

/-! ## Frames -/

/-- Fixing what has been begun of a message that goes no further leaves a beginning of its frames. -/
theorem frames_fixed_prefix (p q : Path) (c : Control) (g : Settings) (x : SItem) {tag serial : Nat} {made}
    (h : x.sending = some (tag, serial, made)) :
    (x.fixed p c false).frames q g <+: x.frames p c.tables.settings := by
  unfold SItem.fixed
  rw [h]
  simp only [Bool.false_eq_true, if_false, SItem.frames, Path.begun]
  unfold SItem.sending at h
  split at h
  · cases h
    simpa using List.take_prefix _ _
  · cases h
    simp only
    refine (List.prefix_append_right_inj _).2 ?_
    rw [List.drop_take]
    exact List.take_prefix _ _
  · cases h

/-- An item that has been stamped gives the same frames under any settings as it gave under those it was made under. -/
@[simp] theorem IItem.frames_stamp (x : IItem) (g h : Settings) : (x.stamp g.etherType).frames h = x.frames g := by
  cases x <;> rfl

end Sys2Proof.Machine
end

