-- ==== Sys2Proof/Laws/Retire.lean ====
section
/-! SUPPORT. Head retirement and the joining of reorder entries are what Safety.lean writes out for the statements. -/

namespace Sys2Proof.Machine

open Sys2Proof

theorem statusSettled_eq_settleStatus (x : Context) : x.statusSettled = x.settleStatus := by
  unfold Context.statusSettled Context.settleStatus Context.complete Context.cut Context.finished
  split
  · rfl
  · split
    · split
      · by_cases h : x.chunker.n = 0
        · simp [h]
        · simp [h, Nat.one_le_iff_ne_zero]
      · rfl
    · split <;> rfl

theorem withFall_eq_testGo (p : Path) (slot : Nat) (y : Context) (before : Nat) :
    p.withFall slot y before = Path.testGo (p.withCtx slot y) slot before := by
  unfold Path.withFall Path.testGo
  rw [withCtx_get]
  split <;> rename_i h
  · simp only [h, and_self, if_true]
    unfold Path.withPaced Path.paced; rw [← withCtx_twice p slot y]; rfl
  · simp only [h, if_false]

theorem settledAt_eq_settle (p : Path) (slot o : Nat) : p.settledAt slot o = p.settle slot o := by
  unfold Path.settledAt Path.settle
  cases tabGet p.contexts slot with
  | none => rfl
  | some x => exact withFall_eq_testGo _ _ _ _

theorem heldSettled_eq_unhold (p : Path) (slot : Nat) : p.heldSettled slot = p.modCtx slot Context.unhold := by
  unfold Path.heldSettled
  split
  · rename_i x h; rw [modCtx_get h]; unfold Context.unhold; rw [statusSettled_eq_settleStatus]
  · rename_i h; rw [modCtx_free h]

theorem refJoins_eq_joinBatch (p : Path) (c : Control) (i : RefItem) : p.refJoins c i = p.joinBatch c i := by
  unfold Path.refJoins Path.joinBatch fenceReached Path.closeBatch Path.batchClosed
  simp only [Bool.or_eq_true, decide_eq_true_eq, or_assoc, List.contains_iff_mem]
  split
  · cases hi : p.batch.items <;> rfl
  · rfl

theorem counted_eq_count (m : Summary) (i : Item) (o : ChunkOutcome) : m.counted i o = m.count i o := by
  cases o <;> simp [Summary.counted, Summary.count, add48]
  cases m.firstMissing <;> simp

theorem retire_duplicate {x : Context} {i : Item} {f : Fingerprint} {l : Location} (rest : List Item) (hm : x.mode = .store)
    (h1 : i.fp = some f) (h2 : i.location = some l) :
    x.retire i rest .duplicate =
      { x with queue := rest, summary := x.summary.counted i .duplicate, sight := x.sighted f l.address } := by
  have hc : ((x.sight.any fun w => decide (w.1 = f)) = true ∨ 2048 ≤ x.sight.length) ↔
      (f ∈ x.sight.map (·.1) ∨ 2048 ≤ x.sight.length) := by simp
  simp only [Context.retire, hm, counted_eq_count, sightWith, h1, h2, Context.sighted, and_self, if_true, hc]

theorem handsOn_eq_handOn {c : Control} {slot : Nat} {i : Item} {x : Context} {rest : List Item} {o : ChunkOutcome}
    {p q : Path} (h : Path.HandsOn c slot i { x with queue := rest, summary := x.summary.counted i o } p o q) :
    Path.handOn (p.withCtx slot (x.retire i rest o)) c slot x i o = q := by
  have hrec (y : Context) : (p.withCtx slot y).modCtx slot Context.record =
      p.withCtx slot { y with unanswered := y.unanswered + 1 } := by
    rw [modCtx_get (withCtx_get _ _ _), withCtx_twice]; rfl
  cases h with
  | new f k l n h1 h2 h3 h4 =>
    simp only [Path.handOn, hrec, Path.askTag, chunkRecOf, h1, h2, h3, h4, Context.retire, counted_eq_count]
    simp [Path.withCtx]
  | unindexed f k container offset h1 h2 h3 =>
    simp only [Path.handOn, hrec, Path.askTag, chunkRecOf, h1, h2, h3, Context.retire, counted_eq_count]
    simp [Path.withCtx]
  | ref f l hm h1 h2 h3 =>
    have hh : Path.handOn (p.withCtx slot (x.retire i rest .duplicate)) c slot x i .duplicate =
        (((p.withCtx slot (x.retire i rest .duplicate)).modCtx slot Context.record).joinBatch c (refItemOf slot x i)).settle
          slot i.ordinal := by
      rcases h3 with h3 | h3 <;> simp [Path.handOn, h3]
    rw [hh, hrec, settledAt_eq_settle, refJoins_eq_joinBatch, retire_duplicate (x := x) rest hm h1 h2]
    simp [refItemOf, h1, h2, Context.sighted]
  | joined f l n ps hm h1 h2 h3 h4 h5 =>
    have hh : Path.handOn (p.withCtx slot (x.retire i rest .duplicate)) c slot x i .duplicate =
        (((p.withCtx slot (x.retire i rest .duplicate)).modCtx slot Context.record).holdRef (i.pet.getD 0) slot
          i.ordinal).settle slot i.ordinal := by
      simp [Path.handOn, h3]
    rw [hh, hrec, settledAt_eq_settle, retire_duplicate (x := x) rest hm h1 h2, h4]
    have hp (y : Context) : tabGet (p.withCtx slot y).pet n = some ps := h5
    simp only [Path.holdRef, Option.getD_some, tabUpdate, hp]
    rfl
  | lost f l hm h1 h2 h3 =>
    rw [settledAt_eq_settle, retire_duplicate (x := x) rest hm h1 h2]; simp [Path.handOn, h3, Context.sighted]
  | others o h =>
    have e : x.retire i rest o = { x with queue := rest, summary := x.summary.counted i o } := by
      rcases h with rfl | rfl | rfl <;> simp [Context.retire, counted_eq_count]
    rw [settledAt_eq_settle, e]; rcases h with rfl | rfl | rfl <;> rfl

theorem withFall_get (p : Path) (slot : Nat) (y : Context) (before : Nat) :
    ∃ z, tabGet (p.withFall slot y before).contexts slot = some z ∧ z.queue = y.queue := by
  unfold Path.withFall; split
  · exact ⟨_, withCtx_get _ _ _, rfl⟩
  · exact ⟨_, withCtx_get _ _ _, rfl⟩

theorem settledAt_get {p : Path} {slot : Nat} {x : Context} (o : Nat) (h : tabGet p.contexts slot = some x) :
    ∃ z, tabGet (p.settledAt slot o).contexts slot = some z ∧ z.queue = x.queue := by
  unfold Path.settledAt; rw [h]; exact withFall_get _ _ _ _

theorem refJoins_contexts (p : Path) (c : Control) (i : RefItem) : (p.refJoins c i).contexts = p.contexts := by
  unfold Path.refJoins; simp only; split <;> rfl

theorem handsOn_queue {c : Control} {slot : Nat} {i : Item} {y : Context} {p q : Path} {o : ChunkOutcome}
    (h : Path.HandsOn c slot i y p o q) : ∃ z, tabGet q.contexts slot = some z ∧ z.queue = y.queue := by
  have key (r : Path) (w : Context) (hw : tabGet r.contexts slot = some w) (e : w.queue = y.queue) :
      ∃ z, tabGet (r.settledAt slot i.ordinal).contexts slot = some z ∧ z.queue = y.queue := by
    obtain ⟨z, hz, hq⟩ := settledAt_get i.ordinal hw
    exact ⟨z, hz, hq.trans e⟩
  cases h with
  | new => exact ⟨_, withCtx_get _ _ _, rfl⟩
  | unindexed => exact ⟨_, withCtx_get _ _ _, rfl⟩
  | ref f l =>
    exact key _ { y with unanswered := y.unanswered + 1, sight := y.sighted f l.address }
      (by rw [refJoins_contexts]; exact withCtx_get _ _ _) rfl
  | joined => exact key _ _ (withCtx_get _ _ _) rfl
  | lost => exact key _ _ (withCtx_get _ _ _) rfl
  | others => exact key _ _ (withCtx_get _ _ _) rfl

/-- How many items of a context's queue are resolved. -/
def resolved (x : Context) : Nat := (x.queue.filter fun i => i.outcome.isSome).length

theorem statusSettled_resolved (x : Context) : resolved x.statusSettled = resolved x := by
  unfold Context.statusSettled Context.finished resolved
  split
  · rfl
  · split
    · split
      · by_cases h : x.chunker.n = 0 <;> simp [h]
      · rfl
    · rfl

/-- The retirements written out for the statements are those of the meaning, which takes at most as many as are resolved. -/
theorem retires_eq_retireHeads {c : Control} {slot : Nat} {p q : Path} (h : Path.Retires c slot p q) :
    ∀ n, (∀ x, tabGet p.contexts slot = some x → resolved x ≤ n) → Path.retireHeads c slot n p = q := by
  induction h with
  | stop p x hx hh =>
    intro n _
    cases n with
    | zero => rfl
    | succ n =>
      unfold Path.retireHeads; rw [hx]; simp only
      cases hq : x.queue with
      | nil => rfl
      | cons i l => have := hh i (by simp [hq]); simp [this]
  | head p q r x i rest o hx hq ho hh hr ih =>
    intro n hn
    have hn' := hn x hx
    have hc : resolved x = (rest.filter fun i => i.outcome.isSome).length + 1 := by
      unfold resolved; rw [hq]; simp [ho]
    cases n with
    | zero => omega
    | succ n =>
      unfold Path.retireHeads; rw [hx]; simp only [hq, ho]
      rw [show ({ p with contexts := tabSet p.contexts slot (x.retire i rest o) } : Path) =
        p.withCtx slot (x.retire i rest o) from rfl, handsOn_eq_handOn hh, ← heldSettled_eq_unhold]
      refine ih n fun z hz => ?_
      obtain ⟨w, hw, hwq⟩ := handsOn_queue hh
      unfold Path.heldSettled at hz
      rw [hw] at hz; simp only [withCtx_get] at hz
      cases hz
      have : resolved w = (rest.filter fun i => i.outcome.isSome).length := by unfold resolved; rw [hwq]
      split
      · rw [statusSettled_resolved]; omega
      · omega

/-! ## Reorder entries that join -/
theorem stopOld_eq_stopRecent (x : Context) (now : Nat) : x.stopOld now = !x.stopRecent now := by
  unfold Context.stopOld Context.stopRecent msec
  cases x.lastStop with
  | none => rfl
  | some t => simp only [Option.any_some]; rw [← decide_not]; congr 1; simp only [Nat.not_lt]

theorem paced_eq_withPaced (p : Path) (slot : Nat) (y z : Context) :
    (p.withCtx slot y).paced slot z = p.withPaced slot z := by
  unfold Path.withPaced Path.paced Path.withCtx Context.paceNotice; simp only [tabSet_twice]

theorem withRise_eq_tests (p : Path) (c : Control) (slot : Nat) (y : Context) (before : Nat) (h : y.state.taking = true) :
    p.withRise c slot y before = ((p.withCtx slot y).testStop c slot before).testGo slot before := by
  unfold Path.withRise Path.testStop stopThreshold
  rw [withCtx_get]
  simp only [h, true_and]
  split
  · rename_i hs
    unfold Path.testGo
    rw [paced_eq_withPaced]
    have hg : tabGet (p.withPaced slot { y with pace := .stop, lastStop := some c.now }).contexts slot =
        some { y with pace := .stop, lastStop := some c.now } := withCtx_get _ _ _
    rw [hg]
    have hh : ({ y with pace := .stop, lastStop := some c.now } : Context).held = y.held := rfl
    simp only [hh]
    rw [if_neg (by omega)]
  · exact withFall_eq_testGo _ _ _ _

theorem testGo_bump (p : Path) (slot before : Nat) (k : Counter) :
    (p.bump k 1).testGo slot before = (p.testGo slot before).bump k 1 := by
  unfold Path.testGo
  rw [show (p.bump k 1).contexts = p.contexts from rfl]
  split
  · split <;> rfl
  · rfl

theorem withQuotaStop_eq_quotaStop (p : Path) (c : Control) (slot : Nat) (y : Context) (before : Nat) :
    (p.withQuotaStop c slot y before).bump .quotaOverruns 1 =
      (((p.withCtx slot y).bump .quotaOverruns 1).quotaStop c slot).testGo slot before := by
  have hq : ((p.withCtx slot y).bump .quotaOverruns 1).quotaStop c slot =
      ((p.withCtx slot y).quotaStop c slot).bump .quotaOverruns 1 := by
    unfold Path.quotaStop Path.repeatStop
    rw [show ((p.withCtx slot y).bump .quotaOverruns 1).contexts = (p.withCtx slot y).contexts from rfl]
    split
    · split
      · rfl
      · simp only
        split <;> rfl
    · rfl
  rw [hq, testGo_bump]
  congr 1
  have again (z : Context) : Path.testGo (p.withPaced slot z) slot before = (p.withPaced slot z).withFall slot z before := by
    rw [withFall_eq_testGo]
    congr 1
    unfold Path.withPaced Path.withCtx Path.makePace; simp only [tabSet_twice]
  unfold Path.withQuotaStop Path.quotaStop Path.repeatStop
  rw [withCtx_get]
  simp only [stopOld_eq_stopRecent, paced_eq_withPaced]
  cases hp : y.pace with
  | go => simp [again]
  | stop =>
    cases hr : y.stopRecent c.now with
    | true => simp [withFall_eq_testGo]
    | false => simp [again]

/-- The joins written out for the statements are those of the meaning, which makes at most as many as entries wait. -/
theorem joins_eq_joinReorder {c : Control} {slot : Nat} {p q : Path} (h : Path.Joins c slot p q) :
    ∀ n, (∀ x, tabGet p.contexts slot = some x → x.state.taking = true ∧ x.reorder.length ≤ n) →
      Path.joinReorder c slot n p = q := by
  induction h with
  | none p x hx hh =>
    intro n _
    cases n with
    | zero => rfl
    | succ n =>
      unfold Path.joinReorder; rw [hx]; simp only
      cases hr : x.reorder with
      | nil => rfl
      | cons e l => simp only; rw [if_pos (hh e (by simp [hr]))]
  | join p q x left y e rest would hx hr he hl hw h1 h2 hy hj ih =>
    intro n hn
    obtain ⟨ht, hlen⟩ := hn x hx
    cases n with
    | zero => rw [hr] at hlen; simp at hlen
    | succ n =>
      unfold Path.joinReorder; rw [hx]; simp only [hr, he, ne_eq, not_true, if_false]
      subst hl; subst hw
      have hc : placeCheck x.quota (Path.freeBlocks { p with contexts := tabSet p.contexts slot { x with reorder := rest } })
          ({ x with reorder := rest } : Context).held (x.heldAfter rest e.payload.length) = .fits := by
        unfold placeCheck Context.heldAfter
        rw [if_neg (by omega), if_neg (by exact Nat.not_lt.mpr h2)]
      rw [hc]
      simp only
      have hyt : y.state.taking = true := by subst hy; exact ht
      rw [← ih n ?_, withRise_eq_tests _ _ _ _ _ hyt]
      · subst hy; rfl
      · intro z hz
        have : ∃ w, tabGet (p.withRise c slot y x.held).contexts slot = some w ∧ w.state = y.state ∧
            w.reorder = y.reorder := by
          unfold Path.withRise Path.withFall; split
          · exact ⟨_, withCtx_get _ _ _, rfl, rfl⟩
          · split
            · exact ⟨_, withCtx_get _ _ _, rfl, rfl⟩
            · exact ⟨_, withCtx_get _ _ _, rfl, rfl⟩
        obtain ⟨w, hw, h3, h4⟩ := this
        rw [hw] at hz; cases hz
        rw [h3, h4]; subst hy; rw [hr] at hlen; exact ⟨ht, by simpa using hlen⟩
  | quota p x left e rest hx hr he hl hw =>
    intro n hn
    obtain ⟨ht, hlen⟩ := hn x hx
    cases n with
    | zero => rw [hr] at hlen; simp at hlen
    | succ n =>
      unfold Path.joinReorder; rw [hx]; simp only [hr, he, ne_eq, not_true, if_false]
      have hc : placeCheck x.quota (Path.freeBlocks { p with contexts := tabSet p.contexts slot { x with reorder := rest } })
          ({ x with reorder := rest } : Context).held (x.heldAfter rest e.payload.length) = .quota := by
        unfold placeCheck Context.heldAfter
        rw [if_pos hw]
      rw [hc, withQuotaStop_eq_quotaStop]
      simp only [Path.overrun]
      have := modCtx_get (withCtx_get p slot { x with reorder := rest })
        fun x => { x with overrunCount := add48 x.overrunCount 1 }
      rw [withCtx_twice] at this
      subst hl
      unfold Path.withCtx at this
      rw [this]; rfl
  | pool p x left e rest would hx hr he hl hw h1 h2 =>
    intro n hn
    obtain ⟨ht, hlen⟩ := hn x hx
    cases n with
    | zero => rw [hr] at hlen; simp at hlen
    | succ n =>
      unfold Path.joinReorder; rw [hx]; simp only [hr, he, ne_eq, not_true, if_false]
      have hc : placeCheck x.quota (Path.freeBlocks { p with contexts := tabSet p.contexts slot { x with reorder := rest } })
          ({ x with reorder := rest } : Context).held (x.heldAfter rest e.payload.length) = .pool := by
        unfold placeCheck Context.heldAfter
        rw [if_neg (by omega)]
        subst hl; subst hw
        rw [if_pos (by exact h2)]
      rw [hc, withFall_eq_testGo]
      simp only [Path.overrun]
      have hm := modCtx_get (withCtx_get p slot { x with reorder := rest })
        fun x => { x with overrunCount := add48 x.overrunCount 1 }
      rw [withCtx_twice] at hm
      subst hl
      have hf (q : Path) : Path.testGo ((q.bump .poolOverruns 1).setFlag .stagingExhausted) slot x.held =
          ((q.testGo slot x.held).bump .poolOverruns 1).setFlag .stagingExhausted := by
        unfold Path.testGo
        rw [show ((q.bump .poolOverruns 1).setFlag .stagingExhausted).contexts = q.contexts from rfl]
        split
        · split <;> rfl
        · rfl
      rw [hf]
      unfold Path.withCtx at hm
      rw [hm]; rfl

end Sys2Proof.Machine
end

