-- ==== Sys2Proof/Laws/Shape.lean ====
section
/-! SUPPORT. What every command does: it answers a next state, and that state is the one before it, the state of a cold
reset, or a state brought to the end of a command. -/

namespace Sys2Proof.Machine

open Sys2Proof

/-- What a command can come to. -/
inductive Shape (s : State) : Step → Prop where
  | same : Shape s (.next s)
  | cold : Shape s (.next s.coldReset)
  | finish (u : State) (h : u.pending = s.pending) : Shape s (.next u.finish)

theorem execColdReset_shape (s : State) : Shape s (execColdReset s) := .cold

theorem execReservedPageClearingComplete_shape (s : State) : Shape s (execReservedPageClearingComplete s) := by
  unfold execReservedPageClearingComplete
  repeat' split
  all_goals first | exact .same | exact .finish _ rfl

theorem execSPortCarrierDown_shape (s : State) : Shape s (execSPortCarrierDown s) := by
  unfold execSPortCarrierDown
  repeat' split
  all_goals first | exact .same | exact .finish _ rfl

theorem execSPortCarrierUp_shape (s : State) : Shape s (execSPortCarrierUp s) := by
  unfold execSPortCarrierUp
  repeat' split
  all_goals first | exact .same | exact .finish _ rfl

theorem execLossTimerExpiry_shape (s : State) : Shape s (execLossTimerExpiry s) := by
  unfold execLossTimerExpiry
  repeat' split
  all_goals first | exact .same | exact .finish _ rfl

theorem execIPortCarrierDown_shape (s : State) : Shape s (execIPortCarrierDown s) := by
  unfold execIPortCarrierDown
  repeat' split
  all_goals first | exact .same | exact .finish _ rfl

theorem execIPortCarrierUp_shape (s : State) : Shape s (execIPortCarrierUp s) := by
  unfold execIPortCarrierUp
  repeat' split
  all_goals first | exact .same | exact .finish _ rfl

theorem execOpen_shape (port : Port) (source : Mac) (branch stream mode endMode expected : Nat) (s : State) :
    Shape s (execOpen port source branch stream mode endMode expected s) := .finish _ rfl

theorem execData_shape (port : Port) (source : Mac) (branch stream seq : Nat) (payload : List Byte) (s : State) :
    Shape s (execData port source branch stream seq payload s) := .finish _ rfl

theorem execClose_shape (port : Port) (source : Mac) (branch stream final total : Nat) (s : State) :
    Shape s (execClose port source branch stream final total s) := .finish _ rfl

theorem execAbort_shape (port : Port) (source : Mac) (branch stream : Nat) (s : State) :
    Shape s (execAbort port source branch stream s) := .finish _ rfl

theorem execMgmt_shape (port : Port) (source : Mac) (number : Nat) (request : Request) (s : State) :
    Shape s (execMgmt port source number request s) := .finish _ rfl

theorem execStoreAnswer_shape (port : Port) (tag serial : Nat) (verdict : Verdict) (s : State) :
    Shape s (execStoreAnswer port tag serial verdict s) := .finish _ rfl

theorem execPassThrough_shape (port : Port) (frame : List Byte) (s : State) :
    Shape s (execPassThrough port frame s) := .finish _ rfl

theorem execFcsError_shape (port : Port) (s : State) : Shape s (execFcsError port s) := .finish _ rfl

theorem execMalformed_shape (port : Port) (s : State) : Shape s (execMalformed port s) := .finish _ rfl

theorem execWrongDirection_shape (port : Port) (s : State) : Shape s (execWrongDirection port s) := .finish _ rfl

theorem execIdentify_shape (port : Port) (s : State) : Shape s (execIdentify port s) := by
  unfold execIdentify
  repeat' split
  all_goals first | exact .same | exact .finish _ rfl

theorem execReadStatus_shape (port : Port) (s : State) : Shape s (execReadStatus port s) := by
  unfold execReadStatus
  repeat' split
  all_goals first | exact .same | exact .finish _ rfl

theorem execClearFlags_shape (port : Port) (s : State) : Shape s (execClearFlags port s) := by
  unfold execClearFlags
  repeat' split
  all_goals first | exact .same | exact .finish _ rfl

theorem execReadCounters_shape (port : Port) (s : State) : Shape s (execReadCounters port s) := by
  unfold execReadCounters
  repeat' split
  all_goals first | exact .same | exact .finish _ rfl

theorem execSetSettings_shape (port : Port) (s : State) : Shape s (execSetSettings port s) := by
  unfold execSetSettings
  split
  · dsimp only; split <;> exact .finish _ rfl
  · exact .same

theorem execSetGeometry_shape (port : Port) (s : State) : Shape s (execSetGeometry port s) := by
  unfold execSetGeometry
  repeat' split
  all_goals first | exact .same | exact .finish _ rfl

theorem execMapGroup_shape (port : Port) (s : State) : Shape s (execMapGroup port s) := by
  unfold execMapGroup
  repeat' split
  all_goals first | exact .same | exact .finish _ rfl

theorem execUnmapGroup_shape (port : Port) (s : State) : Shape s (execUnmapGroup port s) := by
  unfold execUnmapGroup
  repeat' split
  all_goals first | exact .same | exact .finish _ rfl

theorem execSetExclusion_shape (port : Port) (s : State) : Shape s (execSetExclusion port s) := by
  unfold execSetExclusion
  repeat' split
  all_goals first | exact .same | exact .finish _ rfl

theorem execLoadTable_shape (port : Port) (s : State) : Shape s (execLoadTable port s) := by
  unfold execLoadTable
  repeat' split
  all_goals first | exact .same | exact .finish _ rfl

theorem execReadTable_shape (port : Port) (s : State) : Shape s (execReadTable port s) := by
  unfold execReadTable
  repeat' split
  all_goals first | exact .same | exact .finish _ rfl

theorem execSwapBanks_shape (port : Port) (s : State) : Shape s (execSwapBanks port s) := by
  unfold execSwapBanks
  repeat' split
  all_goals first | exact .same | exact .finish _ rfl

theorem execSetDate_shape (port : Port) (s : State) : Shape s (execSetDate port s) := by
  unfold execSetDate
  repeat' split
  all_goals first | exact .same | exact .finish _ rfl

theorem execNudge_shape (port : Port) (s : State) : Shape s (execNudge port s) := by
  unfold execNudge
  repeat' split
  all_goals first | exact .same | exact .finish _ rfl

theorem execSetHold_shape (port : Port) (s : State) : Shape s (execSetHold port s) := by
  unfold execSetHold
  repeat' split
  all_goals first | exact .same | exact .finish _ rfl

theorem execRetire_shape (port : Port) (s : State) : Shape s (execRetire port s) := by
  unfold execRetire
  repeat' split
  all_goals first | exact .same | exact .finish _ rfl

theorem execRetireItem_shape (port : Port) (index : Nat) (s : State) : Shape s (execRetireItem port index s) := by
  unfold execRetireItem
  repeat' split
  all_goals first | exact .same | exact .finish _ rfl

theorem execSweepNow_shape (port : Port) (s : State) : Shape s (execSweepNow port s) := by
  unfold execSweepNow
  repeat' split
  all_goals first | exact .same | exact .finish _ rfl

theorem execSetContainerBase_shape (port : Port) (s : State) : Shape s (execSetContainerBase port s) := by
  unfold execSetContainerBase
  repeat' split
  all_goals first | exact .same | exact .finish _ rfl

theorem execSealContainers_shape (port : Port) (s : State) : Shape s (execSealContainers port s) := by
  unfold execSealContainers
  repeat' split
  all_goals first | exact .same | exact .finish _ rfl

theorem execSetMode_shape (port : Port) (s : State) : Shape s (execSetMode port s) := by
  unfold execSetMode
  repeat' split
  all_goals first | exact .same | exact .finish _ rfl

theorem execRestoreEntries_shape (port : Port) (s : State) : Shape s (execRestoreEntries port s) := by
  unfold execRestoreEntries
  repeat' split
  all_goals first | exact .same | exact .finish _ rfl

theorem execRestoreItem_shape (port : Port) (index : Nat) (s : State) : Shape s (execRestoreItem port index s) := by
  unfold execRestoreItem
  repeat' split
  all_goals first | exact .same | exact .finish _ rfl

theorem execReadEntry_shape (port : Port) (s : State) : Shape s (execReadEntry port s) := by
  unfold execReadEntry
  repeat' split
  all_goals first | exact .same | exact .finish _ rfl

theorem execReadStream_shape (port : Port) (s : State) : Shape s (execReadStream port s) := by
  unfold execReadStream
  repeat' split
  all_goals first | exact .same | exact .finish _ rfl

theorem execForceEnd_shape (port : Port) (s : State) : Shape s (execForceEnd port s) := by
  unfold execForceEnd
  repeat' split
  all_goals first | exact .same | exact .finish _ rfl

theorem execSetManagementSources_shape (port : Port) (s : State) : Shape s (execSetManagementSources port s) := by
  unfold execSetManagementSources
  repeat' split
  all_goals first | exact .same | exact .finish _ rfl

theorem execWarmReset_shape (port : Port) (s : State) : Shape s (execWarmReset port s) := by
  unfold execWarmReset
  repeat' split
  all_goals first | exact .same | exact .finish _ rfl

theorem execWarmResetComplete_shape (s : State) : Shape s (execWarmResetComplete s) := by
  unfold execWarmResetComplete
  repeat' split
  all_goals first | exact .same | exact .finish _ rfl

theorem execWarmUpExpiry_shape (slot : Nat) (s : State) : Shape s (execWarmUpExpiry slot s) := by
  unfold execWarmUpExpiry
  repeat' split
  all_goals first | exact .same | exact .finish _ rfl

theorem execHotListLoadComplete_shape (branch : Nat) (s : State) : Shape s (execHotListLoadComplete branch s) := by
  unfold execHotListLoadComplete
  repeat' split
  all_goals first | exact .same | exact .finish _ rfl

theorem execHotListRewriteComplete_shape (branch : Nat) (s : State) : Shape s (execHotListRewriteComplete branch s) :=
  by
  unfold execHotListRewriteComplete
  repeat' split
  all_goals first | exact .same | exact .finish _ rfl

theorem execLingerExpiry_shape (slot : Nat) (s : State) : Shape s (execLingerExpiry slot s) := by
  unfold execLingerExpiry
  repeat' split
  all_goals first | exact .same | exact .finish _ rfl

theorem execGapTick_shape (s : State) : Shape s (execGapTick s) := .finish _ rfl

theorem execSecondsTick_shape (s : State) : Shape s (execSecondsTick s) := .finish _ rfl

theorem execTakeByte_shape (slot : Nat) (s : State) : Shape s (execTakeByte slot s) := by
  unfold execTakeByte
  repeat' split
  all_goals first | exact .same | exact .finish _ rfl

theorem execDigestComplete_shape (slot : Nat) (s : State) : Shape s (execDigestComplete slot s) := by
  unfold execDigestComplete
  repeat' split
  all_goals first | exact .same | exact .finish _ rfl

theorem execLookup_shape (slot ordinal : Nat) (s : State) : Shape s (execLookup slot ordinal s) := by
  unfold execLookup
  repeat' split
  all_goals first | exact .same | exact .finish _ rfl

theorem execPlacementRequest_shape (slot ordinal : Nat) (s : State) : Shape s (execPlacementRequest slot ordinal s) :=
  by
  unfold execPlacementRequest
  repeat' split
  all_goals first | exact .same | exact .finish _ rfl

theorem execLookupResult_shape (slot ordinal : Nat) (s : State) : Shape s (execLookupResult slot ordinal s) := by
  unfold execLookupResult
  repeat' split
  all_goals first | exact .same | exact .finish _ rfl

theorem execRefBatchTimerExpiry_shape (s : State) : Shape s (execRefBatchTimerExpiry s) := by
  unfold execRefBatchTimerExpiry
  repeat' split
  all_goals first | exact .same | exact .finish _ rfl

theorem execTagGrant_shape (s : State) : Shape s (execTagGrant s) := by
  unfold execTagGrant
  repeat' split
  all_goals first | exact .same | exact .finish _ rfl

theorem execSPortTransmitDone_shape (s : State) : Shape s (execSPortTransmitDone s) := by
  unfold execSPortTransmitDone
  repeat' split
  all_goals first | exact .same | exact .finish _ rfl

theorem execIPortTransmitDone_shape (s : State) : Shape s (execIPortTransmitDone s) := by
  unfold execIPortTransmitDone
  repeat' split
  all_goals first | exact .same | exact .finish _ rfl

theorem execAnswerTimerExpiry_shape (tag : Nat) (s : State) : Shape s (execAnswerTimerExpiry tag s) := by
  unfold execAnswerTimerExpiry
  repeat' split
  all_goals first | exact .same | exact .finish _ rfl

theorem execResendDue_shape (tag : Nat) (s : State) : Shape s (execResendDue tag s) := by
  unfold execResendDue
  repeat' split
  all_goals first | exact .same | exact .finish _ rfl

theorem execChunkAcceptAtBucket_shape (slot : Nat) (s : State) : Shape s (execChunkAcceptAtBucket slot s) := by
  unfold execChunkAcceptAtBucket
  repeat' split
  all_goals first | exact .same | exact .finish _ rfl

theorem execChunkFailAtBucket_shape (slot : Nat) (s : State) : Shape s (execChunkFailAtBucket slot s) := by
  unfold execChunkFailAtBucket
  repeat' split
  all_goals first | exact .same | exact .finish _ rfl

theorem execReleaseOutcomeAtBucket_shape (address : Nat) (s : State) :
    Shape s (execReleaseOutcomeAtBucket address s) := by
  unfold execReleaseOutcomeAtBucket
  repeat' split
  all_goals first | exact .same | exact .finish _ rfl

theorem execSweeperVisit_shape (s : State) : Shape s (execSweeperVisit s) := by
  unfold execSweeperVisit
  dsimp only
  repeat' split
  all_goals first | exact .same | exact .finish _ rfl

theorem execGroupInitialisationComplete_shape (group : Nat) (s : State) :
    Shape s (execGroupInitialisationComplete group s) := by
  unfold execGroupInitialisationComplete
  repeat' split
  all_goals first | exact .same | exact .finish _ rfl

theorem execBankCopyComplete_shape (s : State) : Shape s (execBankCopyComplete s) := by
  unfold execBankCopyComplete
  repeat' split
  all_goals first | exact .same | exact .finish _ rfl

/-- What every command comes to. -/
theorem exec_shape (c : Instr) (s : State) : Shape s (exec c s) := by
  cases c with
  | coldReset => exact execColdReset_shape s
  | reservedPageClearingComplete => exact execReservedPageClearingComplete_shape s
  | sPortCarrierDown => exact execSPortCarrierDown_shape s
  | sPortCarrierUp => exact execSPortCarrierUp_shape s
  | lossTimerExpiry => exact execLossTimerExpiry_shape s
  | iPortCarrierDown => exact execIPortCarrierDown_shape s
  | iPortCarrierUp => exact execIPortCarrierUp_shape s
  | openParcel port source branch stream mode endMode expected => exact execOpen_shape port source branch stream mode endMode expected s
  | dataParcel port source branch stream seq payload => exact execData_shape port source branch stream seq payload s
  | closeParcel port source branch stream final total => exact execClose_shape port source branch stream final total s
  | abortParcel port source branch stream => exact execAbort_shape port source branch stream s
  | mgmtParcel port source number request => exact execMgmt_shape port source number request s
  | storeAnswer port tag serial verdict => exact execStoreAnswer_shape port tag serial verdict s
  | passThroughFrame port frame => exact execPassThrough_shape port frame s
  | fcsErrorFrame port => exact execFcsError_shape port s
  | malformedFrame port => exact execMalformed_shape port s
  | wrongDirectionFrame port => exact execWrongDirection_shape port s
  | identify port => exact execIdentify_shape port s
  | readStatus port => exact execReadStatus_shape port s
  | clearFlags port => exact execClearFlags_shape port s
  | readCounters port => exact execReadCounters_shape port s
  | setSettings port => exact execSetSettings_shape port s
  | setGeometry port => exact execSetGeometry_shape port s
  | mapGroup port => exact execMapGroup_shape port s
  | unmapGroup port => exact execUnmapGroup_shape port s
  | setExclusion port => exact execSetExclusion_shape port s
  | loadTable port => exact execLoadTable_shape port s
  | readTable port => exact execReadTable_shape port s
  | swapBanks port => exact execSwapBanks_shape port s
  | setDate port => exact execSetDate_shape port s
  | nudge port => exact execNudge_shape port s
  | setHold port => exact execSetHold_shape port s
  | retire port => exact execRetire_shape port s
  | retireItem port index => exact execRetireItem_shape port index s
  | sweepNow port => exact execSweepNow_shape port s
  | setContainerBase port => exact execSetContainerBase_shape port s
  | sealContainers port => exact execSealContainers_shape port s
  | setMode port => exact execSetMode_shape port s
  | restoreEntries port => exact execRestoreEntries_shape port s
  | restoreItem port index => exact execRestoreItem_shape port index s
  | readEntry port => exact execReadEntry_shape port s
  | readStream port => exact execReadStream_shape port s
  | forceEnd port => exact execForceEnd_shape port s
  | setManagementSources port => exact execSetManagementSources_shape port s
  | warmReset port => exact execWarmReset_shape port s
  | warmResetComplete => exact execWarmResetComplete_shape s
  | warmUpExpiry slot => exact execWarmUpExpiry_shape slot s
  | hotListLoadComplete branch => exact execHotListLoadComplete_shape branch s
  | hotListRewriteComplete branch => exact execHotListRewriteComplete_shape branch s
  | lingerExpiry slot => exact execLingerExpiry_shape slot s
  | gapTick => exact execGapTick_shape s
  | secondsTick => exact execSecondsTick_shape s
  | takeByte slot => exact execTakeByte_shape slot s
  | digestComplete slot => exact execDigestComplete_shape slot s
  | lookup slot ordinal => exact execLookup_shape slot ordinal s
  | placementRequest slot ordinal => exact execPlacementRequest_shape slot ordinal s
  | lookupResult slot ordinal => exact execLookupResult_shape slot ordinal s
  | refBatchTimerExpiry => exact execRefBatchTimerExpiry_shape s
  | tagGrant => exact execTagGrant_shape s
  | sPortTransmitDone => exact execSPortTransmitDone_shape s
  | iPortTransmitDone => exact execIPortTransmitDone_shape s
  | answerTimerExpiry tag => exact execAnswerTimerExpiry_shape tag s
  | resendDue tag => exact execResendDue_shape tag s
  | chunkAcceptAtBucket slot => exact execChunkAcceptAtBucket_shape slot s
  | chunkFailAtBucket slot => exact execChunkFailAtBucket_shape slot s
  | releaseOutcomeAtBucket address => exact execReleaseOutcomeAtBucket_shape address s
  | sweeperVisit => exact execSweeperVisit_shape s
  | groupInitialisationComplete group => exact execGroupInitialisationComplete_shape group s
  | bankCopyComplete => exact execBankCopyComplete_shape s

end Sys2Proof.Machine
end

