-- ==== Sys2Proof/Laws/Sweep.lean ====
section
/-! SUPPORT. What a visit of the sweeper finds nothing in, which bucket the BINS phase takes next: the first marked one
in the order of bins and then of numbers; and that the sweeper goes its way as Safety.lean writes it out for the statements. -/

namespace Sys2Proof.Machine

open Sys2Proof

/-- A visit of entries that are not LIVE changes nothing and releases nothing. -/
theorem visit_idle (holds : Mask16) (today room : Nat) (l : List (Nat × Nat)) (x : Index)
    (h : ∀ ia ∈ l, ∀ e, x.entry ia.2 = some e → e.state ≠ .live) : Index.visit holds today room l x = ⟨x, [], none⟩ := by
  induction l with
  | nil => rfl
  | cons ia l ih =>
    have hl := ih fun b hb => h b (List.mem_cons_of_mem _ hb)
    unfold Index.visit
    cases hx : x.entry ia.2 with
    | none => simpa using hl
    | some e => simp only [h ia List.mem_cons_self e hx, if_false]; exact hl

/-- A bucket comes no later than another in the order of bins and then of numbers (R120). -/
def comesFirst (a b : Nat) : Prop := a % 4096 < b % 4096 ∨ a % 4096 = b % 4096 ∧ a ≤ b

/-- The fold finds the first of its buckets. -/
theorem foldl_firstInBins (l : List Nat) (a : Nat) :
    ∃ z, l.foldl firstInBins (some a) = some z ∧ z ∈ a :: l ∧ ∀ o ∈ a :: l, comesFirst z o := by
  induction l generalizing a with
  | nil => exact ⟨a, rfl, List.mem_cons_self, by simp [comesFirst]⟩
  | cons b l ih =>
    by_cases h : binOf b < binOf a ∨ (binOf b = binOf a ∧ b < a)
    · obtain ⟨z, hz, hm, hf⟩ := ih b
      refine ⟨z, by rw [List.foldl_cons, show firstInBins (some a) b = some b from if_pos h, hz],
        List.mem_cons_of_mem _ hm, fun o ho => ?_⟩
      rcases List.mem_cons.1 ho with rfl | ho
      · have := hf b List.mem_cons_self
        unfold binOf at h
        unfold comesFirst at this ⊢
        omega
      · exact hf o ho
    · obtain ⟨z, hz, hm, hf⟩ := ih a
      refine ⟨z, by rw [List.foldl_cons, show firstInBins (some a) b = some a from if_neg h, hz], ?_, fun o ho => ?_⟩
      · rcases List.mem_cons.1 hm with hm | hm <;> simp [hm]
      · rcases List.mem_cons.1 ho with rfl | ho
        · exact hf o List.mem_cons_self
        · rcases List.mem_cons.1 ho with rfl | ho
          · have := hf a List.mem_cons_self
            unfold binOf at h
            unfold comesFirst at this ⊢
            omega
          · exact hf o (List.mem_cons_of_mem _ ho)

/-- The buckets among which the BINS phase finds the next: marked, below 2^m, at or after a bin and bucket. -/
theorem mem_toCome (x : Index) (bin bucket b : Nat) :
    b ∈ ((x.marks.map (·.1)).filter fun b => decide (b < 2 ^ x.geometry) && atOrAfter bin bucket b) ↔
      (b ∈ x.marks.map (·.1) ∧ b < 2 ^ x.geometry) ∧ (bin < b % 4096 ∨ bin = b % 4096 ∧ bucket ≤ b) := by
  rw [List.mem_filter]
  simp only [Bool.and_eq_true, atOrAfter, Bool.or_eq_true, decide_eq_true_eq, and_assoc]
  exact Iff.rfl

/-- The BINS phase ends where no marked bucket is left. -/
theorem nextMarked_none (x : Index) (bin bucket : Nat)
    (h : ∀ z, z ∈ x.marks.map (·.1) ∧ z < 2 ^ x.geometry → ¬ (bin < z % 4096 ∨ bin = z % 4096 ∧ bucket ≤ z)) :
    x.nextMarked bin bucket = none := by
  unfold Index.nextMarked
  rw [List.eq_nil_iff_forall_not_mem.2 fun z hz => h z ((mem_toCome x bin bucket z).1 hz).1
    ((mem_toCome x bin bucket z).1 hz).2]
  rfl

/-- The BINS phase takes the first of the marked buckets that are left. -/
theorem nextMarked_some (x : Index) (bin bucket z : Nat) (hz : z ∈ x.marks.map (·.1) ∧ z < 2 ^ x.geometry)
    (ha : bin < z % 4096 ∨ bin = z % 4096 ∧ bucket ≤ z)
    (h : ∀ o, o ∈ x.marks.map (·.1) ∧ o < 2 ^ x.geometry → (bin < o % 4096 ∨ bin = o % 4096 ∧ bucket ≤ o) →
      comesFirst z o) : x.nextMarked bin bucket = some z := by
  have hm := (mem_toCome x bin bucket z).2 ⟨hz, ha⟩
  have hf := fun o ho => h o ((mem_toCome x bin bucket o).1 ho).1 ((mem_toCome x bin bucket o).1 ho).2
  unfold Index.nextMarked
  generalize ((x.marks.map (·.1)).filter _) = l at hm hf
  cases l with
  | nil => cases hm
  | cons a l =>
    obtain ⟨w, hw, hwm, hwf⟩ := foldl_firstInBins l a
    have h1 := hwf z hm
    have h2 := hf w hwm
    unfold comesFirst at h1 h2
    rw [List.foldl_cons, show firstInBins none a = some a from rfl, hw]
    congr 1
    omega

/-! ## The RELEASE queue -/

/-- 64 unbatched items or more make one batch of the oldest 64. -/
theorem makeBatch_64 (q : Path) (h : 64 ≤ q.sweeper.unbatched.length) : q.makeBatch 64 = { q with
    sweeper := { q.sweeper with
      unbatched := q.sweeper.unbatched.drop 64, batches := q.sweeper.batches ++ [q.sweeper.unbatched.take 64] }
    link := { q.link with waiting := q.link.waiting ++ [.oldestRelease] } } := by
  unfold Path.makeBatch
  cases hu : q.sweeper.unbatched.take 64 with
  | nil =>
    have := congrArg List.length hu
    rw [List.length_take, List.length_nil] at this
    omega
  | cons a r => rfl

/-- The items of a visit join the RELEASE queue as R116 and R121 give it. -/
theorem joinRelease_eq_itemsJoin (p : Path) (l : List RelItem) : p.joinRelease l = p.itemsJoin l := by
  unfold Path.itemsJoin
  dsimp only
  by_cases h : (p.sweeper.unbatched ++ l).length < 64
  · rw [if_pos h]
    cases l with
    | nil => exact if_neg (Nat.not_le.2 h)
    | cons a l => exact if_neg (Nat.not_le.2 h)
  · rw [if_neg h]
    cases l with
    | nil => exact (if_pos (Nat.le_of_not_lt h)).trans (makeBatch_64 _ (Nat.le_of_not_lt h))
    | cons a l => exact (if_pos (Nat.le_of_not_lt h)).trans (makeBatch_64 _ (Nat.le_of_not_lt h))

/-- The items left become a batch as R121 and R122 give it. -/
theorem makeBatch_eq_restBatched (p : Path) : p.makeBatch p.sweeper.unbatched.length = p.restBatched := by
  unfold Path.makeBatch Path.restBatched
  cases h : p.sweeper.unbatched with
  | nil => rfl
  | cons a l => simp [Path.askTag]

/-! ## The sweeper's way -/

theorem nextReady_some {x : Index} (hw : tabWf x.groups = true) {b g : Nat} (hg : x.readyAfter b g)
    (hl : ∀ h, x.readyAfter b h → g ≤ h) : x.nextReady (b + 1) = some g := by
  obtain ⟨h1, h2, e, h3, h4⟩ := hg
  unfold Index.nextReady
  rw [find_lowest hw _ (tabGet_mem h3) (by simp [Index.groupCount, h2, h4]; omega) fun o ho hf => ?_]
  · rfl
  · simp only [Bool.and_eq_true, decide_eq_true_eq] at hf
    exact hl o.1 ⟨hf.1.1, hf.1.2, o.2, tabGet_of_mem hw ho, hf.2⟩

theorem nextReady_none {x : Index} (hw : tabWf x.groups = true) {b : Nat} (hl : ∀ h, ¬ x.readyAfter b h) :
    x.nextReady (b + 1) = none := by
  unfold Index.nextReady
  rw [List.find?_eq_none.2 fun o ho hf => ?_]
  · rfl
  · simp only [Bool.and_eq_true, decide_eq_true_eq] at hf
    exact hl o.1 ⟨hf.1.1, hf.1.2, o.2, tabGet_of_mem hw ho, hf.2⟩

/-- A pass at two positions with the same next visit comes to the same. -/
theorem sweepFrom_congr {x : Index} {a b : SweepPos} (h : x.nextVisit a = x.nextVisit b) (n : Nat) (p : Path) :
    Path.sweepFrom x n a p = Path.sweepFrom x n b p := by
  cases n with
  | zero => rfl
  | succ n => simp only [Path.sweepFrom, h]

theorem issueVisit_eq_visits (p : Path) (pos : SweepPos) (b : Nat) : p.issueVisit pos b = p.visits pos b := rfl

/-- A pass goes on as R119, R120 and R122 give it. -/
theorem sweepFrom_eq {x : Index} (hw : tabWf x.groups = true) {pos : SweepPos} {p q : Path} (h : Path.SweepsOn x pos p q) :
    ∀ n, 1 ≤ n → (p.sweeper.restart = true → 2 ≤ n) → Path.sweepFrom x n pos p = q := by
  induction h with
  | bucket p b k hb hr =>
    intro n hn _
    obtain ⟨n, rfl⟩ := Nat.exists_eq_succ_of_ne_zero (Nat.ne_of_gt hn)
    simp only [Path.sweepFrom, Index.nextVisit, if_pos hb, if_pos hr, issueVisit_eq_visits]
  | group p q b k g hb hr hg hl _ ih =>
    intro n hn h2
    rw [← ih n hn h2]
    refine sweepFrom_congr ?_ n p
    have hn : x.nextReady (groupOf b + 1) = some g := nextReady_some hw hg hl
    obtain ⟨h1, h2, e, h3, h4⟩ := hg
    have hge : 8 ≤ x.geometry := by
      rcases Nat.lt_or_ge x.geometry 8 with hlt | hge
      · rw [Nat.sub_eq_zero_of_le (Nat.le_of_lt hlt)] at h2; simp at h2; omega
      · exact hge
    have hlt : 256 * g < 2 ^ x.geometry := by
      have : 2 ^ x.geometry = 256 * 2 ^ (x.geometry - 8) := by
        rw [show (256 : Nat) = 2 ^ 8 from rfl, ← Nat.pow_add]; congr 1; omega
      omega
    have hrp : x.readyPage (256 * g) = some e.page := by
      unfold Index.readyPage groupOf
      rw [Nat.mul_div_cancel_left _ (by decide), h3]; simp [h4]
    simp only [Index.nextVisit, if_pos hb, hr, hn, if_pos hlt, hrp]; rfl
  | bins p q b k hb _ ih =>
    intro n hn h2
    rw [← ih n hn h2]
    refine sweepFrom_congr ?_ n p
    have hz : (x.nextMarked 0 0).map (fun y => (SweepPos.bins (binOf y) y 0, y)) = x.nextVisit (.bins 0 0 0) := by
      show _ = (x.nextMarked 0 0).map fun y => if y = 0 then (SweepPos.bins 0 0 0, 0) else (SweepPos.bins (binOf y) y 0, y)
      congr 1
      funext y
      split
      · subst_vars; rfl
      · rfl
    rw [← hz]
    unfold Index.nextVisit
    dsimp only
    split
    · rename_i hlt
      obtain ⟨hr, hh⟩ := hb hlt
      have hn : x.nextReady (groupOf b + 1) = none := nextReady_none hw hh
      simp only [hr, hn]; rfl
    · rfl
  | marked p bin b k z hz ha hf hb =>
    intro n hn _
    obtain ⟨n, rfl⟩ := Nat.exists_eq_succ_of_ne_zero (Nat.ne_of_gt hn)
    have : x.nextMarked bin b = some z := nextMarked_some x bin b z hz ha hf
    simp only [Path.sweepFrom, Index.nextVisit, this, Option.map_some]
    by_cases he : z = b
    · subst he
      rw [if_pos rfl, if_pos rfl, hb rfl]; rfl
    · rw [if_neg he, if_neg he]; rfl
  | idle p bin b k hz hr =>
    intro n hn _
    obtain ⟨n, rfl⟩ := Nat.exists_eq_succ_of_ne_zero (Nat.ne_of_gt hn)
    have : x.nextMarked bin b = none := nextMarked_none x bin b hz
    simp only [Path.sweepFrom, Index.nextVisit, this, Option.map_none, makeBatch_eq_restBatched]
    have hr' : p.restBatched.sweeper.restart = false := by unfold Path.restBatched; split <;> exact hr
    exact if_neg (by show ¬ p.restBatched.sweeper.restart = true; rw [hr']; decide)
  | again p q bin b k hz hr _ ih =>
    intro n hn h2
    obtain ⟨n, rfl⟩ := Nat.exists_eq_succ_of_ne_zero (Nat.ne_of_gt hn)
    have : x.nextMarked bin b = none := nextMarked_none x bin b hz
    rw [← ih n (by have := h2 hr; omega) (fun h => by cases h)]
    simp only [Path.sweepFrom, Index.nextVisit, this, Option.map_none, makeBatch_eq_restBatched]
    have hr' : p.restBatched.sweeper.restart = true := by unfold Path.restBatched; split <;> exact hr
    exact if_pos hr'

theorem sweepOn_eq {x : Index} (hw : tabWf x.groups = true) {pos : SweepPos} {p q : Path} (h : Path.SweepsOn x pos p q) :
    p.sweepOn x pos = q := sweepFrom_eq hw h 2 (by decide) fun _ => Nat.le_refl 2

/-- A pass whose visit has ended early waits, or goes on at once, as R119 and R121 give it. -/
theorem waitSweep_eq {x : Index} (hw : tabWf x.groups = true) {pos : SweepPos} {p q : Path} (h : Path.WaitsAt x pos p q) :
    p.waitSweep x pos = q := by
  have hload : p.restBatched.sweeper.load = p.sweeper.load := by
    unfold Path.restBatched Sweeper.load; split
    · rfl
    · simp; omega
  unfold Path.waitSweep Path.resumeSweep
  rw [makeBatch_eq_restBatched]
  have hf : ∀ (w : Sweeper) (pos : SweepPos), Sweeper.freePlaces { w with pass := .waiting, pos := pos } = 256 - w.load :=
    fun _ _ => rfl
  rcases h with ⟨hl, rfl⟩ | ⟨hl, hs⟩
  · rw [if_neg (by dsimp only; rw [hf, hload]; omega)]
  · rw [if_pos (by dsimp only; rw [hf, hload]; exact ⟨rfl, by omega⟩)]
    exact sweepOn_eq hw hs

end Sys2Proof.Machine
end

