-- ==== Sys2Proof/Tests/Slice0.lean ====
section
/-! SUPPORT. The model's own tests: the checks of WellFormed, frames written out byte by byte from chapter 12, worked
cases of the manual, and for each statement with hypotheses a state and operands that meet them. -/

namespace Sys2Proof.Tests.Slice0

open Sys2Proof Sys2Proof.Machine

/-! ## WellFormed: an ill-formed command for each check -/

theorem test_wf_branch_of_13_bits : (Instr.abortParcel .i 0 4096 0).wf = false := by decide
theorem test_wf_stream_of_9_bits : (Instr.abortParcel .i 0 1 256).wf = false := by decide
theorem test_wf_open_mode : (Instr.openParcel .i 0 1 0 256 1 0).wf = false := by decide
theorem test_wf_open_end_mode : (Instr.openParcel .i 0 1 0 1 256 0).wf = false := by decide
theorem test_wf_open_expected : (Instr.openParcel .i 0 1 0 1 1 16777216).wf = false := by decide
theorem test_wf_data_sequence : (Instr.dataParcel .i 0 1 0 4294967296 [0]).wf = false := by decide
theorem test_wf_data_empty : (Instr.dataParcel .i 0 1 0 0 []).wf = false := by decide
theorem test_wf_data_long (payload : List Byte) (h : payload.length = 8193) :
    (Instr.dataParcel .i 0 1 0 0 payload).wf = false := by simp [Instr.wf, h]
theorem test_wf_close_final : (Instr.closeParcel .i 0 1 0 4294967296 0).wf = false := by decide
theorem test_wf_close_total : (Instr.closeParcel .i 0 1 0 0 281474976710656).wf = false := by decide
theorem test_wf_mgmt_number : (Instr.mgmtParcel .i 0 65536 .identify).wf = false := by decide
theorem test_wf_answer_tag : (Instr.storeAnswer .s 256 0 .accept).wf = false := by decide
theorem test_wf_answer_serial : (Instr.storeAnswer .s 0 256 .accept).wf = false := by decide
theorem test_wf_forwarded_frame (frame : List Byte) (h : frame.length = 9213) :
    (Instr.passThroughFrame .i frame).wf = false := by simp [Instr.wf, h]
theorem test_wf_items : (Instr.retireItem .i 64).wf = false ∧ (Instr.restoreItem .i 32).wf = false := by decide
theorem test_wf_slots : (Instr.gapTick).wf = true ∧ (Instr.takeByte 0).wf = false ∧ (Instr.lingerExpiry 385).wf = false ∧
    (Instr.lookup 0 0).wf = false := by decide
theorem test_wf_hot_branches : (Instr.hotListLoadComplete 0).wf = false ∧
    (Instr.hotListRewriteComplete 4096).wf = false := by decide
theorem test_wf_tags_and_places : (Instr.resendDue 64).wf = false ∧ (Instr.chunkAcceptAtBucket 4096).wf = false ∧
    (Instr.releaseOutcomeAtBucket 536870912).wf = false ∧ (Instr.groupInitialisationComplete 65536).wf = false := by
  decide
theorem test_wf_requests : (Request.setGeometry 4294967296).wf = false ∧ (Request.nudge 2147483648).wf = false ∧
    (Request.retire [(0, 256)]).wf = false ∧ (Request.setMode 256).wf = false ∧ (Request.unknown 1).wf = false ∧
    (Request.setDate 0 0 0 0 65536).wf = false ∧ (Request.loadTable (.unknown 3)).wf = false ∧
    (Request.readTable (.policy 256 0 1)).wf = false ∧ (Request.setSettings [.unknown 10]).wf = false ∧
    (Request.setSettings [.unknown 11, .fence 0]).wf = false ∧ (Request.setSettings [.fence 4294967296]).wf = false ∧
    (Request.restoreEntries [⟨0, 0, 4294967296, 0, 1, 0, 0, 0⟩]).wf = false ∧
    (Request.loadTable (.policy 0 [⟨4294967296, 2048, 16384, 0, 1, 30, 0, 4, 4⟩])).wf = false ∧
    (Request.loadTable (.branch 0 [⟨1, 0, 0, 2, 4294967296, 2, 2⟩])).wf = false := by decide

/-! ## Frames (R202, R204, R205, R207), from their tables -/

/-- Destination, source 02:00:00:00:00:AB, type 0xB7A5, and then the content given, with padding. -/
def sent (content : List Byte) : List Byte :=
  [0x02, 0, 0, 0, 0, 1, 0x02, 0, 0, 0, 0, 0xAB, 0xB7, 0xA5] ++ content ++ List.replicate (46 - content.length) 0

theorem test_frame_open : Wire.classifyFrame 0xB7A5 .i
    (sent [0x01, 1, 0x00, 0x07, 0x03, 0, 0x00, 0x08, 0x02, 0x01, 0x00, 0x01, 0x00, 0, 0, 0]) =
      .openParcel .i 0x0200000000AB 7 3 2 1 256 := by decide
theorem test_frame_data : Wire.classifyFrame 0xB7A5 .i
    (sent [0x02, 1, 0x0F, 0xFF, 0x0F, 0, 0x00, 0x06, 0x00, 0x00, 0x01, 0x02, 0xAA, 0xBB]) =
      .dataParcel .i 0x0200000000AB 4095 15 258 [0xAA, 0xBB] := by decide
theorem test_frame_close : Wire.classifyFrame 0xB7A5 .i
    (sent [0x03, 1, 0x00, 0x07, 0x03, 0, 0x00, 0x0A, 0x00, 0x00, 0x00, 0x02, 0x00, 0x00, 0x00, 0x00, 0x03, 0x84]) =
      .closeParcel .i 0x0200000000AB 7 3 2 900 := by decide
theorem test_frame_abort : Wire.classifyFrame 0xB7A5 .s (sent [0x04, 1, 0x00, 0x07, 0x03, 0, 0x00, 0x00]) =
    .abortParcel .s 0x0200000000AB 7 3 := by decide
theorem test_frame_nudge : Wire.classifyFrame 0xB7A5 .s
    (sent [0x05, 1, 0, 0, 0, 0, 0x00, 0x08, 0x12, 0x34, 0x0F, 0, 0xFF, 0xFF, 0xFF, 0xFB]) =
      .mgmtParcel .s 0x0200000000AB 0x1234 (.nudge (-5)) := by decide
theorem test_frame_set_hold : Wire.classifyFrame 0xB7A5 .i
    (sent [0x05, 1, 0, 0, 0, 0, 0x00, 0x09, 0, 9, 0x10, 0, 0, 0, 0, 15, 1]) =
      .mgmtParcel .i 0x0200000000AB 9 (.setHold 15 true) := by decide
/-- R196, R203: the clear option of READ COUNTERS is a position code of one byte. -/
theorem test_frame_read_counters : Wire.classifyFrame 0xB7A5 .i
    (sent [0x05, 1, 0, 0, 0, 0, 0x00, 0x05, 0, 9, 0x04, 0, 2]) = .mgmtParcel .i 0x0200000000AB 9 (.readCounters 2) := by
  decide
/-- R178, R180, R203: a branch entry's values, each of 4 bytes, an on-off one with the code 1 or 2. -/
theorem test_frame_load_branch : Wire.classifyFrame 0xB7A5 .i
    (sent [0x05, 1, 0, 0, 0, 0, 0x00, 0x29, 0, 9, 0x0A, 0, 2, 0, 0, 0, 7, 0, 0, 0, 1, 0, 0, 0, 1, 0, 0, 0, 2, 0, 0, 0, 3,
      0, 0, 0, 4, 0, 0, 0, 5, 0, 0, 0, 2, 0, 0, 0, 1]) =
      .mgmtParcel .i 0x0200000000AB 9 (.loadTable (.branch 7 [⟨1, 2, 3, 4, 5, 2, 1⟩])) := by decide
theorem test_frame_answer : Wire.classifyFrame 0xB7A5 .s (sent [0x88, 1, 0x3F, 0x05, 0x03, 0, 0, 0]) =
    .storeAnswer .s 63 5 .fail := by decide
theorem test_frame_malformed :
    Wire.classifyFrame 0xB7A5 .i (sent [0x04, 2, 0x00, 0x07, 0x03, 0, 0x00, 0x00]) = .malformedFrame .i ∧
    Wire.classifyFrame 0xB7A5 .i (sent [0x06, 1, 0x00, 0x07, 0x03, 0, 0x00, 0x00]) = .malformedFrame .i ∧
    Wire.classifyFrame 0xB7A5 .i (sent [0x04, 1, 0x00, 0x07, 0x03, 0, 0x00, 0x01]) = .malformedFrame .i ∧
    Wire.classifyFrame 0xB7A5 .i (sent [0x05, 1, 0x00, 0x01, 0, 0, 0x00, 0x04, 0, 9, 0x01, 0]) = .malformedFrame .i ∧
    Wire.classifyFrame 0xB7A5 .s (sent [0x88, 1, 0x3F, 0x05, 0x04, 0, 0, 0]) = .malformedFrame .s := by decide
theorem test_frame_wrong_direction :
    Wire.classifyFrame 0xB7A5 .i (sent [0x41, 1, 0x00, 0x07, 0x03, 0, 0x00, 0x04, 0, 0, 0, 1]) = .wrongDirectionFrame .i ∧
    Wire.classifyFrame 0xB7A5 .s (sent [0x83, 1, 0, 0, 0, 1, 0, 0]) = .wrongDirectionFrame .s := by decide
theorem test_frame_passes_through : Wire.classifyFrame 0x0800 .i (sent []) = .passThroughFrame .i (sent []) := by decide

/-! ## Worked cases of the manual -/

/-- Chapter 03, worked case "the first bytes of a chunk". -/
theorem test_roll : roll (roll 0 0x9E3779B9) 0x7F4A7C15 = 0xBBB96F87 := by decide
/-- Chapter 03, the same case: at n = 5000 under k = 12 the loose mask applies, and H = 0x0031F00E is a cut. -/
theorem test_boundary : boundary {} 5000 0x0031F00E = true ∧ boundary {} 4000 0x0031F00E = false := by decide
/-- Chapter 03, worked case "a check word". -/
theorem test_check_word : checkWord [1, 2, 3] = 0x000E0006 := by decide
/-- Chapter 03, worked case "bucket and set numbers". -/
theorem test_positions : bucketOf 20 0x9C4E21B75D03A6F20000000000000000 = 926135 ∧
    bucketOf 16 0x9C4E21B75D03A6F20000000000000000 = 8631 ∧ groupOf 926135 = 3617 ∧ binOf 926135 = 439 ∧ binOf 8631 = 439 ∧
    cacheSet 0x9C4E21B75D03A6F20000000000000000 = 1778 := by decide
/-- Chapter 10, worked cases of clamping: k 13, MIN 3000, MAX 70000 are stored as 13, 2944, 65536. -/
theorem test_clamped : PolicyEntry.clamped { k := 13, min := 3000, max := 70000 } = { k := 13, min := 2944, max := 65536 } := by
  decide
/-- R130: 31 November rolls over to 1 December, 29 February of year 1 to 1 March. -/
theorem test_rollover : (Calendar.rollover ⟨0, 11, 31, 0, 5, true⟩) = ⟨0, 12, 1, 0, 6, true⟩ ∧
    (Calendar.rollover ⟨1, 2, 29, 0, 65535, true⟩) = ⟨1, 3, 1, 0, 65535, true⟩ := by decide
/-- Chapter 07, worked case: a NUDGE of 45 from second 86390 of 31 December, year 99, is applied as 30. -/
theorem test_nudge : (Calendar.nudge ⟨99, 12, 31, 86390, 12000, true⟩ (nudgeAmount 45)) =
    (⟨0, 1, 1, 20, 12001, true⟩, true) := by decide
theorem test_reset_idles : step State.reset = .next { State.reset with ctl := { now := 1 } } := rfl

/-! ## States that the statements speak of -/

/-- A branch table entry that lets branch 1 open and verify. -/
def branch1 : BranchEntry := { enabled := true, verifyAllowed := true }

/-- A part in SERVING: the pages cleared, group 0 READY in page 1040, group 1 INITIALISING in page 1041, the
calendar SET, the store address and the next container id set, branch 1 enabled. -/
def serving : State where
  ctl := { mode := .serving, calendar := ⟨26, 10, 9, 100, 500, true⟩
           tables := { bankA := { branches := [(1, branch1)] }, settings := { storeAddr := some 0x0A } } }
  idx := { clearing := false, groups := [(0, ⟨.ready, 1040, 0, 0⟩), (1, ⟨.initialising, 1041, 0, 0⟩)] }
  path := { alloc := { nextId := .id 7 } }

/-- A request at the head of a port's queue. -/
def asked (s : State) (port : Port) (r : Request) : State := s.withPath (s.path.setQueue port { reqs := [⟨5, 0xAB, r⟩] })

/-- A STORE stream of branch 1. -/
def stream : Context :=
  { branch := 1, stream := 3, source := 0xAB, mode := .store, endMode := none, expected := none, state := .active
    policy := {}, holdTag := 0, quota := 64, chunker := { status := .starved } }

/-- The part with a context in slot 1. -/
def open1 (x : Context) : State := serving.withPath (serving.path.withCtx 1 x)

/-- The part with another link. -/
def linked (l : Link) : State := serving.withPath { serving.path with link := l }

/-- A SEAL in flight under tag 0. -/
def message (phase : Phase) (content : Content) : Message := ⟨0, 9, phase, 1, 0, content⟩

/-- A state whose link is not LOST holds no request that R161 fails. -/
theorem drained {p : Path} (h : p.link.state ≠ .lost) : p.lostDrained := fun l => absurd l h

/-- The fingerprint of bucket 0. -/
def fp0 : Fingerprint := 0

/-- A LIVE entry of bucket 0. -/
def live : Entry := ⟨fp0, 7, .live, 3, 100, 64, 1, 400, 0, 1, false, false⟩

/-- The first entry address of bucket 0 in page 1040. -/
def place0 : Nat := 4259840

/-- The part with entries in the index. -/
def holding (l : List (Nat × Entry)) : State := serving.withIdx { serving.idx with dram := l }

/-- An index that lists one entry has counts in their range if that entry's is. -/
theorem countsFit_one {x : Index} {k : Nat} {e : Entry} (h : x.dram = [(k, e)]) (hc : e.count ≤ 65535) : x.countsFit := by
  intro a f hf
  simp only [Index.entry, h, tabGet] at hf
  split at hf <;> cases hf
  exact hc

/-! ## The hypotheses of the statements are met -/

theorem witness_StepRunsTheFrontCommand : ({ serving with pending := [.gapTick] } : State).pending = .gapTick :: [] ∧
    serving.pending = [] := ⟨rfl, rfl⟩

theorem witness_LostLinkHoldsNoRequest : (linked { state := .lost }).path.lostDrained ∧
    ∃ t, step (linked { state := .lost }) = .next t := ⟨fun _ => rfl, _, rfl⟩

theorem witness_NoIdleTransmitterWaits : serving.path.working ∧ ∃ t, step serving = .next t :=
  ⟨⟨fun _ _ => ⟨rfl, rfl⟩, fun _ _ => ⟨rfl, rfl⟩⟩, _, rfl⟩

theorem witness_IndexStaysCanonical : (holding [(place0, live), (4259841, live)]).idx.canonical = true ∧
    (∃ t, step (holding [(place0, live), (4259841, live)]) = .next t) ∧ (holding [(place0, live)]).idx.countsFit ∧
    (holding [(place0, live)]).idx.canonical = true :=
  ⟨by decide, ⟨_, rfl⟩, countsFit_one rfl (by decide), by decide⟩

theorem witness_ContextSlotsStayCanonical : tabWf (open1 stream).path.contexts = true ∧
    ∃ t, step (open1 stream) = .next t := ⟨by decide, _, rfl⟩

theorem witness_RegistersStayLegal :
    let s : State := { asked serving .i (.setDate 99 12 31 86399 65535) with
      pending := [.mgmtParcel .s 0xAB 6 (.setDate 0 1 1 0 65535)] }
    (s.ctl.legal = true ∧ s.idx.legal = true ∧ s.daysFit) ∧ ∃ t, step s = .next t :=
  ⟨⟨by decide, by decide, fun port => by cases port <;> decide, by decide⟩, _, rfl⟩

theorem witness_EntriesChangeOnlyInPlace : Instr.tagGrant ≠ .coldReset ∧ (holding [(place0, live)]).idx.canonical = true ∧
    (∃ t, exec .tagGrant (holding [(place0, live)]) = .next t ∧ t.idx.entry place0 = some live) ∧
    (holding [(place0, live)]).idx.entry place0 = some live ∧ (holding [(place0, live)]).idx.countsFit :=
  ⟨by decide, by decide, ⟨_, rfl, by decide⟩, by decide, countsFit_one rfl (by decide)⟩

/-- A LIVE entry that a visit releases loses its inactive tags, and one that a RETIRE item reaches a reference. -/
theorem witness_EntriesBecomeReleasing :
    let gone : Entry := { live with count := 0, holds := 8 }
    let s := (holding [(place0, gone)]).withPath { serving.path with
      sweeper := { pass := .running, pos := .buckets 0 0, visit := some ⟨0, 16⟩ } }
    let r := (holding [(place0, live)]).withPath { serving.path with
      iQueue := { reqs := [⟨5, 0xAB, .retire [(fp0, 1)]⟩], head := .retiring [none] } }
    (∃ t, exec .sweeperVisit s = .next t ∧ t.idx.entry place0 = some { gone with holds := 0, state := .releasing }) ∧
    (∃ t, exec (.retireItem .i 0) r = .next t ∧ t.idx.entry place0 = some { live with count := 0 }) ∧
    s.idx.countsFit ∧ r.idx.countsFit :=
  ⟨⟨_, rfl, by decide⟩, ⟨_, rfl, by decide⟩, countsFit_one rfl (by decide), countsFit_one rfl (by decide)⟩

theorem witness_ModeAndCalendarChangeOnlyByTheirCommands :
    (∃ t, exec .coldReset serving = .next t ∧ t.ctl.mode ≠ serving.ctl.mode ∧ t.ctl.calendar ≠ serving.ctl.calendar) ∧
    ∃ t, exec .secondsTick serving = .next t ∧ t.ctl.calendar ≠ serving.ctl.calendar :=
  ⟨⟨_, rfl, by decide, by decide⟩, _, rfl, by decide⟩

theorem witness_InitialisationsComplete : State.reset.path.lostDrained ∧ State.reset.idx.clearing = true ∧
    serving.path.lostDrained ∧ tabGet serving.idx.groups 1 = some ⟨.initialising, 1041, 0, 0⟩ :=
  ⟨drained (by decide), by decide, drained (by decide), by decide⟩

theorem witness_SCarrierDown : serving.path.sPort.carrier = true ∧
    let s := serving.withPath { serving.path with sPort := { tx := some (.frame [1]) } }
    s.path.sPort.carrier = true ∧ s.path.sPort.tx = some (.frame [1]) ∧ (SItem.frame [1]).sending = none := by decide

/-- R169, R173: a frame in progress is finished after the carrier is down, a PACE notice being counted then, and no other
item is taken. -/
theorem test_carrier_down_finishes_the_frame :
    let n : PaceNotice := ⟨1, 1, 3, 0xAB, .stop, none⟩
    let s := serving.withPath { serving.path with
      sPort := { tx := some (.frame [1]), fifo := [(0, .frame [2])] }, iPort := { tx := some (.pace n), fifo := [.frame [3]] } }
    (∃ t, exec .sPortCarrierDown s = .next t ∧ t.path.sPort.tx = some (.frame [1]) ∧
      ∃ u, exec .sPortTransmitDone t = .next u ∧ u.path.sPort.tx = none ∧ u.path.sPort.fifo = [(0, .frame [2])]) ∧
    ∃ t, exec .iPortCarrierDown s = .next t ∧ t.path.iPort.tx = some (.pace n) ∧ t.path.counter .paceNotices = 0 ∧
      ∃ u, exec .iPortTransmitDone t = .next u ∧ u.path.iPort.tx = none ∧ u.path.counter .paceNotices = 1 :=
  ⟨⟨_, rfl, rfl, _, rfl, rfl, rfl⟩, _, rfl, rfl, rfl, _, rfl, rfl, rfl⟩

/-- The part without an S-port carrier. -/
def dark (l : Link) : State :=
  serving.withPath { serving.path with link := l, sPort := { carrier := false } }

theorem witness_SCarrierUp :
    let m : Message := message .suspended (.release [])
    let last : Message := { message .suspended (.release []) with tag := 1, attempts := 4 }
    let l : Link := { state := .down, inflight := [m, last] }
    ((dark { state := .lost }).path.sPort.carrier = false ∧ (dark { state := .lost }).path.link.state = .lost) ∧
    (dark l).path.sPort.carrier = false ∧ (dark l).path.link.state = .down ∧ (l.inflight.map (·.tag)).Nodup ∧
    m.attempts < serving.ctl.tables.settings.retryLimit ∧ serving.ctl.tables.settings.retryLimit ≤ last.attempts ∧
    serving.ctl.tables.settings.retryAction ≠ .persist := by
  decide

theorem witness_LossTimerFailsEverything :
    let l : Link := { state := .down, lossTimer := some 5, inflight := [message .suspended (.seal ⟨7, 64, 0, 1⟩)]
                      waiting := [.message (.release [])] }
    (dark l).path.link.lossTimer = some 5 ∧
    (∃ m ∈ (dark l).path.link.inflight, m.content = .seal ⟨7, 64, 0, 1⟩) ∧
    .message (.release []) ∈ (dark l).path.link.waiting := by
  decide

/-- The part sending an item on each port. -/
def sending (x : SItem) (y : IItem) : State :=
  serving.withPath { serving.path with sPort := { tx := some x }, iPort := { tx := some y } }

theorem witness_TransmissionsEnd :
    let s := sending (.message 0 9) (.pace ⟨1, 1, 3, 0xAB, .stop, none⟩)
    let r := sending (.part [[1]] (some (0, 9))) (.frame [2])
    let q := sending (.part [[1]] none) (.frame [2])
    s.path.lostDrained ∧ (s.path.sPort.tx = some (.message 0 9) ∧ (SItem.message 0 9).sending = some (0, 9, [])) ∧
    (r.path.sPort.tx = some (.part [[1]] (some (0, 9))) ∧
      (SItem.part [[1]] (some (0, 9))).sending = some (0, 9, [[1]])) ∧
    (q.path.sPort.tx = some (.part [[1]] none) ∧ (SItem.part [[1]] none).sending = none) ∧
    q.path.iPort.tx ≠ none ∧ q.path.iPort.carrier = true ∧
    (serving.withPath { serving.path with iPort := { carrier := false } }).path.iPort.carrier = false :=
  ⟨drained (by decide), by decide⟩

/-- Grants after a transmission: SIDE with no DATA, at its turn, and when it is due for promotion; DATA's resend of the
message issued first, and of its queues the one the mark names; the two kinds of the I-port; nothing at all. -/
theorem witness_TransmissionsGrant :
    let m : Message := message .sending (.refs [])
    let chunk : Message := { message .sending (.release []) with tag := 3 }
    let fast : Control := { now := 5001, tables := { settings := { promotion := 2 } } }
    let p (q : SPort) : Path := { serving.path with link := { inflight := [chunk, m] }, sPort := q }
    let s := sending (.part [[1]] none) (.pace ⟨1, 1, 3, 0xAB, .stop, none⟩)
    (s.path.working ∧ ∀ port, ∀ r ∈ (s.path.queue port).reqs, Request.known r.request = true) ∧
    ({ fifo := [(0, .frame [1])] } : SPort).noData ∧ fast.promotes 0 ∧ ¬ fast.promotes 1 ∧
    ({ rotation := 2 } : SPort).sideTurn serving.ctl ∧ ¬ ({ rotation := 1 } : SPort).sideTurn serving.ctl ∧
    (p { resend := [0, 3], mark := .ref }).dataNext 3 { resend := [0], mark := .ref } ∧
    (p { chunkQ := [3], refQ := [0] }).dataNext 3 { refQ := [0], mark := .ref } ∧
    (p { chunkQ := [3], refQ := [0], mark := .ref }).dataNext 0 { chunkQ := [3], mark := .chunk } ∧
    (p {}).message 3 = some chunk := by
  refine ⟨⟨⟨(fun _ h => nomatch h), (fun _ h => nomatch h)⟩, fun port => by cases port <;> decide⟩, ⟨rfl, rfl, rfl⟩,
    ⟨by decide, by decide⟩, fun h => absurd h.2 (by decide), ⟨by decide, by decide⟩, fun h => absurd h.2 (by decide),
    .inl ⟨by decide, rfl, ?_⟩, .inr (.inl ⟨rfl, [], rfl, .inr rfl, rfl⟩), .inr (.inr ⟨rfl, [], rfl, .inr rfl, rfl⟩), rfl⟩
  intro before m after h hm hb
  cases before with
  | nil => cases h; rfl
  | cons o l => obtain ⟨rfl, _⟩ := List.cons.inj h; exact absurd (by decide) (hb _ (List.mem_cons_self))

theorem witness_OpenAccepted :
    (serving.path.lostDrained ∧ serving.path.warm = none ∧ serving.ctl.mode = .serving ∧ 1 ≠ 0 ∧ 15 ≤ 15 ∧
      serving.ctl.tables.activeBank.branch 1 = branch1 ∧ branch1.enabled = true ∧ branch1.verifyAllowed = true ∧
      serving.path.findCtx 1 15 = none ∧ serving.path.openCount 1 < branch1.streamLimit ∧
      tabGet serving.path.contexts 1 = none ∧ ∀ n, 1 ≤ n → n < 1 → (tabGet serving.path.contexts n).isSome = true) ∧
    (∃ x, (open1 { stream with state := .linger }).path.findCtx 1 3 = some (1, x) ∧ x.state = .linger) ∧
    ((open1 { stream with state := .linger }).path.freeCtx 1).openCount 1 < branch1.streamLimit :=
  ⟨⟨drained (by decide), by decide, by decide, by decide, by decide, by decide, by decide, by decide, by decide, by decide,
    by decide, fun n h g => absurd g (by omega)⟩, ⟨_, rfl, rfl⟩, by decide⟩

/-- An OPEN whose identity is in LINGER, which frees it, and whose branch is at its limit by another context. -/
theorem witness_OpenRefusedAfterLinger :
    let x : Context := { stream with state := .linger }
    let p : Path := { serving.path with contexts := [(1, x), (2, { stream with stream := 4 })] }
    p.findCtx 1 3 = some (1, x) ∧ x.state = .linger ∧ (p.freeCtx 1).contexts = [(2, { stream with stream := 4 })] ∧
    ({ enabled := true, streamLimit := 1 } : BranchEntry).streamLimit ≤ (p.freeCtx 1).openCount 1 := by decide

/-- A branch entry with other values. -/
def banked (b : BranchEntry) (s : State) : State :=
  { s with ctl := { s.ctl with tables := { s.ctl.tables with bankA := { branches := [(1, b)] } } } }

/-- 384 contexts of other branches. -/
def crowd : Tab Context := (List.range 384).map fun n => (n + 1, { stream with branch := n + 100 })

/-- The part with branch 1 letting a DATA parcel open a stream, with a quota of 16 blocks and so a STOP threshold of 8. -/
def implying : State := { serving with
  ctl := { serving.ctl with tables := { serving.ctl.tables with
    bankA := { branches := [(1, { branch1 with impliedOpen := true, quota := 16 })] } } } }

theorem witness_ImpliedOpenAccepted :
    let b := implying.ctl.tables.activeBank.branch 1
    (implying.path.lostDrained ∧ implying.path.warm = none ∧ implying.ctl.mode = .serving ∧ b.enabled = true ∧
      b.impliedOpen = true ∧ implying.path.findCtx 1 15 = none ∧ implying.path.openCount 1 < b.streamLimit ∧
      tabGet implying.path.contexts 1 = none ∧ ∀ n, 1 ≤ n → n < 1 → (tabGet implying.path.contexts n).isSome = true) ∧
    blocksCovering 0 1 < max 1 (b.quota - 8) ∧ blocksCovering 0 32768 ≤ b.quota ∧
    blocksCovering 0 32768 ≤ implying.path.freeBlocks ∧ max 1 (b.quota - 8) ≤ blocksCovering 0 32768 :=
  ⟨⟨drained (by decide), by decide, by decide, by decide, by decide, by decide, by decide, by decide,
    fun n h g => absurd g (by omega)⟩, by decide⟩

theorem witness_ImpliedOpenRefused :
    serving.path.lostDrained ∧ serving.path.warm = none ∧ serving.path.findCtx 1 3 = none ∧ serving.ctl.mode = .serving ∧
    ¬ (1 = 0 ∨ 15 < 3) ∧ (serving.ctl.tables.activeBank.branch 1).impliedOpen = false :=
  ⟨drained (by decide), by decide, by decide, by decide, by decide, by decide⟩

theorem witness_OpenRefused :
    State.reset.ctl.mode ≠ .serving ∧ serving.path.lostDrained ∧ serving.path.warm = none ∧ serving.ctl.mode = .serving ∧
    (1 = 0 ∨ 15 < 16) ∧ (serving.ctl.tables.activeBank.branch 2).enabled = false ∧
    ((banked { enabled := true } serving).ctl.tables.activeBank.branch 1).verifyAllowed = false ∧
    (∃ x, (open1 stream).path.findCtx 1 3 = some (1, x) ∧ x.state ≠ .linger) ∧
    ((banked { enabled := true, streamLimit := 1 } (open1 stream)).ctl.tables.activeBank.branch 1).streamLimit ≤
      (open1 stream).path.openCount 1 ∧
    crowd.length = 384 :=
  ⟨by decide, drained (by decide), by decide, by decide, by decide, by decide, by decide, ⟨_, rfl, by decide⟩, by decide,
    by simp [crowd]⟩

theorem witness_ParcelsWithoutStream : serving.path.lostDrained ∧
    (serving.withPath { serving.path with warm := some ⟨.s, []⟩ }).path.warm ≠ none ∧
    serving.path.findCtx 1 3 = none ∧ (1 : Nat) ≠ 0 := ⟨drained (by decide), by decide, by decide, by decide⟩

theorem witness_LateParcels :
    ((open1 { stream with state := .quiescing }).path.lostDrained ∧
      (open1 { stream with state := .quiescing }).path.warm = none ∧
      (open1 { stream with state := .quiescing }).path.findCtx 1 3 = some (1, { stream with state := .quiescing })) ∧
    (open1 { stream with state := .linger }).path.findCtx 1 3 = some (1, { stream with state := .linger }) :=
  ⟨⟨drained (by decide), by decide, rfl⟩, rfl⟩

theorem witness_InOrderDataIsStaged :
    (open1 stream).path.lostDrained ∧ (open1 stream).path.warm = none ∧ (open1 stream).path.findCtx 1 3 = some (1, stream) ∧
    tabGet (open1 stream).path.contexts 1 = some stream ∧ stream.state.taking = true ∧ stream.expectedSeq ≠ 0xFFFFFFFF ∧
    (∀ n, stream.final = some n → stream.expectedSeq < n) ∧ stream.reorder = [] ∧ stream.completed = false ∧
    stream.countDone = false ∧ stream.readOffset < stream.inOrder + ([1, 2] : List Byte).length ∧
    blocksCovering stream.releasePoint (stream.inOrder + ([1, 2] : List Byte).length) ≤ stream.quota ∧
    blocksCovering stream.releasePoint (stream.inOrder + ([1, 2] : List Byte).length) ≤
      (open1 stream).path.freeBlocks + stream.held :=
  ⟨drained (by decide), by decide, rfl, by decide, by decide, by decide, (fun _ h => nomatch h), by decide⟩

/-- In-order data that brings a GO stream with a quota of 16 to its STOP threshold of 8: 28,672 bytes are held, and one
more byte opens an eighth block. -/
theorem witness_InOrderDataStops :
    let x : Context := { stream with quota := 16, inOrder := 28672, window := [] }
    x.pace = .go ∧ max 1 (x.quota - 8) ≤ blocksCovering x.releasePoint (x.inOrder + 1) := by decide

/-- A waiting parcel that the missing one lets join, in GO below the threshold, and in STOP, where its joining frees a block:
two payloads of one byte each share a block once both are in the window. -/
theorem witness_InOrderDataJoins :
    let x : Context := { stream with reorder := [⟨1, [7]⟩, ⟨3, [9]⟩] }
    let y : Context := { stream with reorder := [⟨1, [7]⟩], pace := .stop, lastStop := some 0, quota := 4 }
    (x.reorder = [⟨1, [7]⟩] ++ [⟨3, [9]⟩] ∧
      ([⟨1, [7]⟩] : List Early).map (·.seq) = (List.range 1).map (fun i => 0 + 1 + i) ∧ (3 : Nat) ≠ 0 + 1 + 1 ∧
      tabWf (open1 x).path.contexts = true ∧ x.releasePoint + x.window.length = x.inOrder ∧
      blocksCovering 0 (1 + 1) + reorderBlocks x.reorder ≤ x.quota ∧
      blocksCovering 0 (1 + 1) + reorderBlocks x.reorder + (heldBlocks (open1 x).path.contexts - x.held) ≤ 2048 ∧
      x.pace = .go ∧ blocksCovering 0 (1 + 1) + reorderBlocks x.reorder < max 1 (x.quota - 8)) ∧
    (y.reorder = [⟨1, [7]⟩] ++ [] ∧ y.pace = .stop ∧ y.lastStop = some 0 ∧ (open1 y).ctl.now < 0 + 25000 ∧
      y.state ≠ .opening ∧ blocksCovering 0 (1 + 1) + reorderBlocks y.reorder ≤ y.quota ∧
      ({ y with window := [1, 7], reorder := [] } : Context).held < blocksCovering 0 1 + reorderBlocks y.reorder ∧
      ({ y with window := [1, 7], reorder := [] } : Context).held ≤ y.quota / 2) := by decide

/-- The same in the steps of `Path.Joins`: a waiting parcel that joins, one that the quota cannot take, one that the pool
cannot. -/
theorem witness_ReorderJoins :
    let x : Context := { stream with expectedSeq := 1, inOrder := 1, window := [1], reorder := [⟨1, [7]⟩] }
    let small : Context := { x with quota := 0 }
    let other : Context := { stream with branch := 2, reorder := List.replicate 64 ⟨9, [0]⟩ }
    let bare : Context := { x with releasePoint := 1, window := [] }
    let full : Path := { (open1 bare).path with contexts := (1, bare) :: (List.range 32).map fun n => (n + 2, other) }
    (∃ q, Path.Joins serving.ctl 1 (open1 x).path q) ∧ (∃ q, Path.Joins serving.ctl 1 (open1 small).path q) ∧
    ∃ q, Path.Joins serving.ctl 1 full q :=
  ⟨⟨_, .join _ _ _ _ _ _ _ _ rfl rfl rfl rfl rfl (by decide) (by decide) rfl (.none _ _ rfl (fun _ h => nomatch h))⟩,
    ⟨_, .quota _ _ _ _ _ rfl rfl rfl rfl (by decide)⟩, ⟨_, .pool _ _ _ _ _ _ rfl rfl rfl rfl rfl (by decide) (by decide)⟩⟩

theorem witness_DataOutOfOrderIsHeldOrDropped :
    (open1 stream).path.lostDrained ∧ (open1 stream).path.warm = none ∧ (open1 stream).path.findCtx 1 3 = some (1, stream) ∧
    tabGet (open1 stream).path.contexts 1 = some stream ∧ stream.state.taking = true ∧
    (0 < ({ stream with expectedSeq := 1 } : Context).expectedSeq) ∧
    (stream.expectedSeq < 2 ∧ (∀ e ∈ stream.reorder, e.seq ≠ 2) ∧ 2 ≠ 0xFFFFFFFF ∧ ∀ n, stream.final = some n → 2 < n) ∧
    8 ≤ ({ stream with reorder := (List.range 8).map fun n => ⟨n + 3, [0]⟩ } : Context).reorder.length ∧
    stream.held + blocksOf ([1] : List Byte).length ≤ stream.quota ∧
    blocksOf ([1] : List Byte).length ≤ (open1 stream).path.freeBlocks ∧ stream.pace = .go :=
  ⟨drained (by decide), by decide, rfl, by decide, by decide, by decide,
    ⟨by decide, by decide, by decide, (fun _ h => nomatch h)⟩, by decide, by decide, by decide, by decide⟩

/-- The same in STOP, the last STOP being 1 ms old and more recent. -/
theorem witness_EarlyDataInStop :
    let x (t : Nat) : Context := { stream with pace := .stop, lastStop := some t }
    (x 0).pace = .stop ∧ (∃ t, (x 0).lastStop = some t ∧ 24999 < t + 25000) ∧
    ¬ ∃ t, (x 0).lastStop = some t ∧ 25000 < t + 25000 :=
  ⟨rfl, ⟨0, rfl, by decide⟩, by rintro ⟨_, h, g⟩; cases h; exact absurd g (by decide)⟩

theorem witness_OverrunDataIsDropped :
    let x : Context := { stream with state := .opening, quota := 0 }
    let s := open1 x
    s.path.lostDrained ∧ s.path.warm = none ∧ s.path.findCtx 1 3 = some (1, x) ∧ tabGet s.path.contexts 1 = some x ∧
    x.state = .opening ∧ (∀ e ∈ x.reorder, e.seq ≠ 0) ∧ (∀ n, x.final = some n → 0 < n) ∧
    x.quota < blocksCovering x.releasePoint (x.inOrder + 1) + reorderBlocks x.reorder ∧ x.pace = .go ∧
    (2048 : Nat) - 2048 + 0 < blocksCovering 0 1 :=
  ⟨drained (by decide), by decide, rfl, by decide, by decide, by decide, (fun _ h => nomatch h), by decide, by decide,
    by decide⟩

/-- The same in states that read: with bytes to take, with none, and with the stream's work done; in STOP with a recent
STOP and without; and of an early parcel. -/
theorem witness_OverrunWhileReading :
    let x : Context := { stream with quota := 0, inOrder := 1, window := [0] }
    let d : Context := { stream with
      state := .draining, mode := .verify, endMode := some .count, expected := some 0, completed := true, quota := 0
      chunker := { status := .complete } }
    (x.state.taking = true ∧ x.state ≠ .opening ∧ x.expectedSeq = 0 ∧ x.completed = false ∧ x.countDone = false ∧
      x.readOffset ≠ x.inOrder ∧ x.quota < blocksCovering x.releasePoint (x.inOrder + 1) + reorderBlocks x.reorder) ∧
    (({ stream with quota := 0 } : Context).readOffset = 0 ∧ stream.chunker.ended = false) ∧
    ((open1 d).path.findCtx 1 3 = some (1, d) ∧ d.completed = true ∧ d.countDone = true ∧ d.chunker.status = .complete ∧
      d.readOffset = d.inOrder ∧ (open1 d).path.link.state ≠ .lost ∧ d.quota < blocksCovering 0 1 + reorderBlocks d.reorder) ∧
    ((∃ t, ({ x with pace := .stop, lastStop := some 0 } : Context).lastStop = some t ∧ serving.ctl.now < t + 25000) ∧
      ¬ ∃ t, ({ x with pace := .stop } : Context).lastStop = some t ∧ serving.ctl.now < t + 25000) ∧
    (x.expectedSeq < 2 ∧ x.reorder.length < 8 ∧ x.quota < x.held + blocksOf 1) := by
  refine ⟨by decide, by decide, by decide, ⟨⟨0, rfl, by decide⟩, ?_⟩, by decide⟩
  rintro ⟨_, h, _⟩; cases h

theorem witness_CloseIsTaken :
    let o : Context := { stream with state := .opening }
    let d : Context := { stream with state := .draining }
    (open1 stream).path.lostDrained ∧ (open1 stream).path.warm = none ∧
    ((open1 o).path.findCtx 1 3 = some (1, o) ∧ tabGet (open1 o).path.contexts 1 = some o ∧ o.expectedSeq ≤ 0) ∧
    ((open1 stream).path.findCtx 1 3 = some (1, stream) ∧ stream.state = .active ∧ stream.expectedSeq < 2 ∧
      stream.completed = false ∧ stream.countDone = false) ∧
    (stream.expectedSeq = 0 ∧ stream.readOffset = stream.inOrder ∧ (open1 stream).path.link.state ≠ .lost) ∧
    (open1 d).path.findCtx 1 3 = some (1, d) :=
  ⟨drained (by decide), by decide, ⟨rfl, by decide, by decide⟩, ⟨rfl, by decide⟩, by decide, rfl⟩

theorem witness_EarlyEndWithNothingInFlight :
    let x : Context := { stream with expectedSeq := 3 }
    let d : Context := { stream with state := .draining, completed := true, chunker := { status := .complete } }
    let s := open1 x
    s.path.warm = none ∧ tabGet s.path.contexts 1 = some x ∧ x.state.taking = true ∧
    (∀ i ∈ x.queue, i.issued = false) ∧ x.unanswered = 0 ∧ s.path.findCtx 1 3 = some (1, x) ∧
    (x.state ≠ .draining ∧ 2 < x.expectedSeq) ∧
    ((asked s .s (.forceEnd 1)).headRequest .s = some ⟨5, 0xAB, .forceEnd 1⟩ ∧
      tabGet (asked s .s (.forceEnd 1)).path.contexts 1 = some x) ∧
    ((open1 d).path.warm = none ∧ tabGet (open1 d).path.contexts 1 = some d ∧ d.state.taking = true ∧
      (∀ i ∈ d.queue, i.issued = false) ∧ d.unanswered = 0 ∧ (open1 d).path.findCtx 1 3 = some (1, d)) := by decide

theorem witness_AbortQuiesces :
    let x : Context := { stream with unanswered := 1, expectedSeq := 3 }
    let i : Item := { ordinal := 0, offset := 0, length := 64, issued := true }
    let d : Context := { stream with
      state := .draining, completed := true, chunker := { status := .complete }, queue := [i] }
    let s := asked (open1 x) .s (.forceEnd 1)
    ((open1 x).path.warm = none ∧ (open1 x).path.findCtx 1 3 = some (1, x) ∧ tabGet (open1 x).path.contexts 1 = some x ∧
      x.state.taking = true ∧ x.unanswered ≠ 0 ∧ x.state ≠ .draining ∧ 2 < x.expectedSeq) ∧
    (s.headRequest .s = some ⟨5, 0xAB, .forceEnd 1⟩ ∧ tabGet s.path.contexts 1 = some x) ∧
    ((open1 d).path.warm = none ∧ (open1 d).path.findCtx 1 3 = some (1, d) ∧ tabGet (open1 d).path.contexts 1 = some d ∧
      d.state.taking = true ∧ d.unanswered = 0 ∧ ∃ j ∈ d.queue, j.issued = true) := by decide

/-- The part with a full request queue at a port, and perhaps a full notice FIFO. -/
def crowded (notices : Nat) : State :=
  serving.withPath { serving.path with
    iQueue := { reqs := List.replicate 8 ⟨1, 0xAB, .identify⟩, head := .replying }
    iPort := { carrier := false, fifo := List.replicate notices (.frame []) } }

theorem witness_RequestsArrive : serving.path.lostDrained ∧
    (({ serving with ctl := { serving.ctl with sources := [0x0C] } } : State).ctl.sources ≠ [] ∧
      (0xAB : Mac) ∉ ([0x0C] : List Mac)) ∧
    (serving.ctl.sources = [] ∧ (serving.path.queue .i).reqs.length < 8) ∧
    (8 ≤ ((crowded 0).path.queue .i).reqs.length ∧ (crowded 0).path.replyRoom .i = true) ∧
    (crowded 64).path.replyRoom .i = false :=
  ⟨drained (by decide), by decide, by decide, by decide, by decide⟩

/-- Nothing that every command may end with changes the queue of a part that holds no reply: at a head of a known kind, and
at an empty queue. -/
theorem witness_QueueIsSteady : serving.path.steady .i ∧ (asked serving .i (.retire [(fp0, 1)])).path.steady .i ∧
    (asked serving .s (.restoreEntries [])).path.steady .s :=
  ⟨⟨(fun _ _ h => nomatch h), fun _ h => h.elim (fun h => nomatch h) (fun h => nomatch h)⟩,
    ⟨fun _ _ h => by cases h; rfl, fun _ h => h.elim (fun h => nomatch h) (fun h => nomatch h)⟩,
    ⟨fun _ _ h => by cases h; rfl, fun _ h => h.elim (fun h => nomatch h) (fun h => nomatch h)⟩⟩

/-- A RELEASE item. -/
def item : RelItem := ⟨fp0, 3, 100, 64, place0⟩

/-- A store message in flight that is being sent. -/
def transmitting (content : Content) : State :=
  (linked { inflight := [message .sending content] }).withPath
    { (linked { inflight := [message .sending content] }).path with sPort := { tx := some (.message 0 9) } }

theorem witness_StoreAnswersAreTaken :
    let chunk : Content := .chunk ⟨1, 0, 0, 64, fp0, 7, 3, 100, 1, some (place0, 0)⟩
    let refs : Content := .refs [⟨1, 0, 0, fp0, 7, 0, 64, 1⟩]
    serving.path.lostDrained ∧ (∀ o, serving.path.message 0 = some o → o.serial ≠ 9 ∨ o.phase.answerable = false) ∧
    ((transmitting chunk).path.message 0 = some (message .sending chunk) ∧ (message .sending chunk).serial = 9 ∧
      (message .sending chunk).phase.answerable = true ∧ (transmitting chunk).path.link.state ≠ .lost) ∧
    ((transmitting refs).path.sPort.tx = some (.message 0 9) ∧ (SItem.message 0 9).sends 0 9 = true) ∧
    (lowestRef [⟨1, 2, 0, fp0, 7, 0, 64, 1⟩, ⟨1, 1, 0, fp0, 7, 0, 64, 1⟩] 1).isSome = true ∧
    (message (.awaiting 3) (.seal ⟨7, 64, 0, 1⟩)).phase.answerable = true :=
  ⟨drained (by decide), (fun _ h => nomatch h), by decide⟩

theorem witness_FramesPassOrAreCounted : serving.path.lostDrained ∧ serving.path.sPort.room = true ∧
    serving.path.iPort.room = true ∧ (crowded 64).path.iPort.room = false ∧
    ({ fifo := List.replicate 64 (0, .frame []) } : SPort).room = false ∧
    (14 ≤ (sent []).length ∧ (sent []).length ≤ 9212 ∧
      256 * ((sent []).getD 12 0).toNat + ((sent []).getD 13 0).toNat ≠ 0x0800) :=
  ⟨drained (by decide), by decide, by decide, by decide, by decide, by decide⟩

/-! Requests: each stands at the head of a port's queue while the part handles requests. -/

theorem witness_ThePartIsRead :
    (asked serving .i .identify).path.lostDrained ∧
    (asked serving .i .identify).headRequest .i = some ⟨5, 0xAB, .identify⟩ ∧
    (asked serving .s .readStatus).headRequest .s = some ⟨5, 0xAB, .readStatus⟩ ∧
    serving.path.contexts.length ≤ 384 ∧
    ((asked serving .i (.readCounters 1)).headRequest .i = some ⟨5, 0xAB, .readCounters 1⟩ ∧
      (List.replicate 65 0).length = 65) ∧
    ((asked serving .i (.clearFlags 0x0180)).headRequest .i = some ⟨5, 0xAB, .clearFlags 0x0180⟩ ∧
      (0x0180 : Mask16) &&& 0xFE00 = 0) ∧ (0x0200 : Mask16) &&& 0xFE00 ≠ 0 :=
  ⟨drained (by decide), by decide⟩

/-- IDENTIFY where its reply finds a place, and where it waits: no transmitter is idle while an item waits. -/
theorem witness_IdentifyLeavesItsQueue :
    let s := asked serving .i .identify
    let r := asked (crowded 64) .i .identify
    (s.path.working ∧ s.path.replyRoom .i = true) ∧ (r.path.working ∧ r.path.replyRoom .i = false) ∧
    (∀ port, ∀ q ∈ (s.path.queue port).reqs, Request.known q.request = true) ∧
    r.headRequest .i = some ⟨5, 0xAB, .identify⟩ :=
  ⟨⟨⟨fun _ _ => ⟨rfl, rfl⟩, fun _ _ => ⟨rfl, rfl⟩⟩, by decide⟩,
    ⟨⟨fun _ _ => ⟨rfl, rfl⟩, fun h => absurd h (by decide)⟩, by decide⟩, fun port => by cases port <;> decide, by decide⟩

/-- At reset every counter is 0, so that 65 zeros are the values READ COUNTERS answers. -/
theorem witness_CountersRead (c : Counter) : (List.replicate 65 0)[c.place]? = some (serving.path.counter c) := by
  revert c; intro c; cases c <;> rfl

theorem witness_EntriesStreamsAndTablesAreRead :
    (asked (holding [(place0, live)]) .i (.readEntry fp0)).headRequest .i = some ⟨5, 0xAB, .readEntry fp0⟩ ∧
    (holding [(place0, live)]).idx.readyPage ((holding [(place0, live)]).idx.bucket fp0) = some 1040 ∧
    (holding [(place0, live)]).idx.search 1040 0 fp0 = .held place0 live ∧
    (holding [(place0, { live with state := .releasing })]).idx.search 1040 0 fp0 =
      .releasing place0 { live with state := .releasing } ∧
    serving.idx.search 1040 0 fp0 = .absent ∧ State.reset.idx.readyPage 0 = none ∧
    (asked serving .i (.readStream 384)).headRequest .i = some ⟨5, 0xAB, .readStream 384⟩ ∧
    (asked serving .i (.readTable (.policy 2 31 1))).headRequest .i = some ⟨5, 0xAB, .readTable (.policy 2 31 1)⟩ ∧
    (31 + 1 ≤ 32 ∧ serving.ctl.tables.copying = false) ∧
    (asked serving .i (.readTable (.branch 1 4095 1))).headRequest .i = some ⟨5, 0xAB, .readTable (.branch 1 4095 1)⟩ ∧
    (asked serving .i (.readTable (.branch 3 0 65))).headRequest .i = some ⟨5, 0xAB, .readTable (.branch 3 0 65)⟩ ∧
    (asked serving .i (.readTable (.gear 3 192 64))).headRequest .i = some ⟨5, 0xAB, .readTable (.gear 3 192 64)⟩ ∧
    (asked serving .i (.readTable (.gear 4 192 65))).headRequest .i = some ⟨5, 0xAB, .readTable (.gear 4 192 65)⟩ ∧
    (asked serving .i (.readTable (.unknown 4))).headRequest .i = some ⟨5, 0xAB, .readTable (.unknown 4)⟩ := by decide

theorem witness_SettingsAreSet :
    (asked serving .i (.setSettings [.unknown 11])).headRequest .i = some ⟨5, 0xAB, .setSettings [.unknown 11]⟩ ∧
    (∃ w ∈ [SettingWrite.unknown 11], SettingWrite.known w = false ∨ SettingWrite.inRange w = false) ∧
    (asked serving .i (.setSettings [.fence 0, .gapSteps 255])).headRequest .i =
      some ⟨5, 0xAB, .setSettings [.fence 0, .gapSteps 255]⟩ ∧ serving.path.link.state ≠ .lost ∧
    ∀ w ∈ [SettingWrite.fence 0, .gapSteps 255], SettingWrite.known w = true ∧ SettingWrite.inRange w = true := by decide

theorem witness_PoliciesAreLoaded :
    let rows : List PolicyRow := [⟨7, 100, 70000, 0, 1, 30, 0, 4, 4⟩]
    let bad : List PolicyRow := [⟨7, 100, 70000, 0, 3, 30, 0, 4, 4⟩]
    let s := asked serving .i (.loadTable (.policy 31 rows))
    s.path.lostDrained ∧ s.ctl.legal = true ∧ s.headRequest .i = some ⟨5, 0xAB, .loadTable (.policy 31 rows)⟩ ∧
    s.ctl.tables.copying = false ∧ rows ≠ [] ∧ 31 + rows.length ≤ 32 ∧
    (∃ e ∈ bad, 3 < e.gear ∨ 7 < e.cls ∨ 15 < e.warmUp ∨ 15 < e.linger ∨ e.confirm ≠ 1 ∧ e.confirm ≠ 2) ∧
    (∀ e ∈ rows, e.gear ≤ 3 ∧ e.cls ≤ 7 ∧ e.warmUp ≤ 15 ∧ e.linger ≤ 15 ∧ e.retention ≤ 65535 ∧
      (e.confirm = 1 ∨ e.confirm = 2)) ∧
    [({ k := 8, min := 64, max := 65536 } : PolicyEntry)] = [({ k := 7, min := 100, max := 70000 } : PolicyEntry)].map
      (fun e =>
        let k := max 8 (min 16 e.k)
        { e with
          k := k, min := max 64 (min (2 ^ k) (e.min / 64 * 64)), max := max (2 ^ k) (min 65536 (e.max / 64 * 64)) }) :=
  ⟨drained (by decide), by decide⟩

theorem witness_BranchesAndGearsAreLoaded :
    let rows : List BranchRow := [⟨1, 31, 15, 9, 0, 2, 1⟩]
    let bad : List BranchRow := [⟨1, 31, 15, 9, 0, 0, 1⟩]
    let s := asked serving .i (.loadTable (.branch 4095 rows))
    let t := asked (open1 stream) .i (.loadTable (.gear 0 255 [1]))
    s.path.lostDrained ∧ s.ctl.legal = true ∧ s.headRequest .i = some ⟨5, 0xAB, .loadTable (.branch 4095 rows)⟩ ∧
    4095 + rows.length ≤ 4096 ∧ s.ctl.tables.copying = false ∧
    (∃ e ∈ bad, 31 < e.policy ∨ 15 < e.holdTag ∨ e.enabled ≠ 1 ∧ e.enabled ≠ 2 ∨
      e.impliedOpen ≠ 1 ∧ e.impliedOpen ≠ 2 ∨ e.verifyAllowed ≠ 1 ∧ e.verifyAllowed ≠ 2) ∧
    (∀ e ∈ rows, e.policy ≤ 31 ∧ e.holdTag ≤ 15 ∧ (e.enabled = 1 ∨ e.enabled = 2) ∧
      (e.impliedOpen = 1 ∨ e.impliedOpen = 2) ∧ (e.verifyAllowed = 1 ∨ e.verifyAllowed = 2)) ∧
    t.headRequest .i = some ⟨5, 0xAB, .loadTable (.gear 0 255 [1])⟩ ∧
    (∃ sc ∈ t.path.contexts, sc.2.state ≠ .linger ∧ sc.2.policy.gear = 0) ∧
    (∀ sc ∈ t.path.contexts, sc.2.state = .linger ∨ sc.2.policy.gear ≠ 1) :=
  ⟨drained (by decide), by decide⟩

/-- A load of policies while the banks are copied, and loads that no table has a place for. -/
theorem witness_LoadsAreRefused :
    let row : PolicyRow := ⟨7, 100, 70000, 0, 1, 30, 0, 4, 4⟩
    let copying : State := { serving with ctl := { serving.ctl with tables := { copying := true } } }
    let asks (s : State) (l : TableLoad) : Prop := (asked s .i (.loadTable l)).headRequest .i = some ⟨5, 0xAB, .loadTable l⟩
    (asks copying (.policy 31 [row]) ∧ copying.ctl.tables.copying = true ∧ copying.ctl.legal = true ∧
      copying.path.link.state ≠ .lost ∧ 31 + [row].length ≤ 32) ∧
    asks serving (.policy 32 [row]) ∧ asks serving (.branch 0 []) ∧ asks serving (.gear 4 256 [1]) ∧
    asks serving (.unknown 4) ∧
    (asks serving (.gear 0 0 (List.replicate 65 1)) ∧ 64 < (List.replicate 65 1).length) := by decide

theorem witness_BanksAreSwappedAndCopied :
    let copying : State := { serving with ctl := { serving.ctl with tables := { copying := true } } }
    serving.path.lostDrained ∧ (asked serving .s .swapBanks).headRequest .s = some ⟨5, 0xAB, .swapBanks⟩ ∧
    serving.ctl.tables.copying = false ∧ (asked copying .s .swapBanks).headRequest .s = some ⟨5, 0xAB, .swapBanks⟩ ∧
    copying.ctl.tables.copying = true := ⟨drained (by decide), by decide⟩

theorem witness_TheCalendarIsSetAndNudged :
    let dated : State := asked serving .i (.setDate 99 12 31 86399 65535)
    dated.headRequest .i = some ⟨5, 0xAB, .setDate 99 12 31 86399 65535⟩ ∧ dated.path.lostDrained ∧
    ¬ (99 ≤ 99 ∧ 1 ≤ 13 ∧ 13 ≤ 12) ∧
    (asked serving .i (.nudge (-31))).headRequest .i = some ⟨5, 0xAB, .nudge (-31)⟩ ∧
    (-30 : Int) = max (-30) (min 30 (-31)) ∧ serving.ctl.calendar.isSet = true ∧ serving.ctl.calendar.legal = true ∧
    ((serving.ctl.calendar.seconds : Int) + -30 < 86400) ∧ State.reset.ctl.calendar.isSet = false ∧
    ((86370 : Int) + 30 ≥ 86400) ∧ serving.path.link.state ≠ .lost :=
  ⟨by decide, drained (by decide), by decide⟩

theorem witness_TheCalendarTicks : State.reset.ctl.calendar.isSet = false ∧ State.reset.path.lostDrained ∧
    serving.ctl.calendar.isSet = true ∧ serving.ctl.calendar.seconds ≠ 86399 ∧ serving.path.link.state ≠ .lost ∧
    (⟨0, 1, 1, 86399, 0, true⟩ : Calendar).seconds = 86399 :=
  ⟨by decide, drained (by decide), by decide⟩

theorem witness_RolloverAdvancesTheDate : (⟨99, 12, 31, 0, 65535, true⟩ : Calendar).legal = true ∧
    (⟨1, 2, 31, 0, 0, true⟩ : Calendar).legal = true ∧ (⟨0, 2, 28, 0, 0, true⟩ : Calendar).legal = true := by decide

theorem witness_GeometryIsSetAndGroupsUnmapped :
    (asked serving .i (.setGeometry 24)).path.lostDrained ∧
    (asked serving .i (.setGeometry 24)).headRequest .i = some ⟨5, 0xAB, .setGeometry 24⟩ ∧
    serving.ctl.mode ≠ .cold ∧ State.reset.ctl.mode = .cold ∧ State.reset.idx.groups = [] ∧
    (asked serving .i (.unmapGroup 0)).headRequest .i = some ⟨5, 0xAB, .unmapGroup 0⟩ ∧
    tabGet serving.idx.groups 0 = some ⟨.ready, 1040, 0, 0⟩ ∧ tabGet serving.idx.groups 2 = none :=
  ⟨drained (by decide), by decide⟩

theorem witness_GroupsAreMappedAndPagesExcluded :
    (asked serving .i (.mapGroup 2 131071)).path.lostDrained ∧
    (asked serving .i (.mapGroup 2 131071)).headRequest .i = some ⟨5, 0xAB, .mapGroup 2 131071⟩ ∧
    tabGet serving.idx.groups 2 = none ∧
    (asked serving .i (.setExclusion 3 1040 131071 true)).headRequest .i = some ⟨5, 0xAB, .setExclusion 3 1040 131071 true⟩ :=
  ⟨drained (by decide), by decide⟩

theorem witness_HoldTagsAreSet :
    (asked serving .i (.setHold 15 true)).path.lostDrained ∧
    (asked serving .i (.setHold 15 true)).headRequest .i = some ⟨5, 0xAB, .setHold 15 true⟩ ∧
    (asked serving .i (.setHold 16 true)).headRequest .i = some ⟨5, 0xAB, .setHold 16 true⟩ :=
  ⟨drained (by decide), by decide⟩

/-- The part with a RETIRE or RESTORE ENTRIES under way at the I-port. -/
def underWay (s : State) (r : Request) (h : HeadState) : State :=
  s.withPath { s.path with iQueue := { reqs := [⟨5, 0xAB, r⟩], head := h } }

theorem witness_ReferencesAreRetired :
    let items : List (Fingerprint × Nat) := [(fp0, 1), (fp0, 255)]
    let s := underWay (holding [(place0, live)]) (.retire items) (.retiring [none, none])
    s.path.lostDrained ∧ (asked serving .i (.retire items)).headRequest .i = some ⟨5, 0xAB, .retire items⟩ ∧
    (asked serving .i (.retire [])).headRequest .i = some ⟨5, 0xAB, .retire []⟩ ∧
    s.path.handling s.idx = true ∧ s.path.queue .i = ⟨[⟨5, 0xAB, .retire items⟩], .retiring [none, none]⟩ ∧
    items[0]? = some (fp0, 1) ∧ ([none, none] : List (Option (RetireAnswer × Option Nat)))[0]? = some none ∧
    (s.idx.readyPage (s.idx.bucket fp0)).map (fun page => s.idx.search page (s.idx.bucket fp0) fp0) =
      some (.held place0 live) ∧
    none ∈ ([none, none] : List (Option (RetireAnswer × Option Nat))).set 0 (some (.done, some 0)) ∧
    ([some (.done, some 0), none] : List (Option (RetireAnswer × Option Nat))).set 1 (some (.underflow, some 0)) =
      [(.done, some 0), (.underflow, some 0)].map some :=
  ⟨drained (by decide), by decide⟩

theorem witness_EntriesAreRestored :
    let i : RestoreEntry := ⟨fp0, 7, 3, 4194303, 1, 65535, 65535, 0xFFFF⟩
    let s := underWay { serving with ctl := { serving.ctl with mode := .restoring } } (.restoreEntries [i]) (.restoring [none])
    s.path.lostDrained ∧ s.ctl.mode = .restoring ∧ serving.ctl.mode ≠ .restoring ∧
    (asked serving .i (.restoreEntries [i])).headRequest .i = some ⟨5, 0xAB, .restoreEntries [i]⟩ ∧
    s.path.handling s.idx = true ∧ s.path.queue .i = ⟨[⟨5, 0xAB, .restoreEntries [i]⟩], .restoring [none]⟩ ∧
    i.count ≤ 65535 ∧ i.untilDay ≤ 65535 ∧ s.idx.readyPage (s.idx.bucket i.fp) = some 1040 ∧
    s.idx.search 1040 (s.idx.bucket i.fp) i.fp = .absent ∧ s.idx.claim 1040 (s.idx.bucket i.fp) = some (place0, s.idx) ∧
    ([none] : List (Option RestoreAnswer)).set 0 (some .inserted) = [.inserted].map some :=
  ⟨drained (by decide), by decide⟩

theorem witness_SweepsStart :
    let s := asked serving .i .sweepNow
    s.path.lostDrained ∧ s.headRequest .i = some ⟨5, 0xAB, .sweepNow⟩ ∧ s.ctl.calendar.isSet = true ∧
    s.path.sweeper.pass = .idle ∧ (∃ g, tabGet s.idx.groups 0 = some g ∧ g.state = .ready) ∧
    ({ pass := .waiting } : Sweeper).pass ≠ .idle ∧ (∀ g ∈ State.reset.idx.groups, g.2.state = .initialising) ∧
    s.path.sweeper.unbatched = [] ∧ s.path.sweeper.restart = false :=
  ⟨drained (by decide), by decide, by decide, by decide, ⟨_, rfl, rfl⟩, by decide⟩

/-- The part with container 7 OPEN in slot 0, holding 64 bytes. -/
def filling : State := serving.withPath { serving.path with
  alloc := { slots := [(0, ⟨false, { id := 7, fill := 64, chunks := 1 }⟩)], nextId := .id 8 } }

theorem witness_ContainersAreBasedAndSealed :
    (asked serving .i (.setContainerBase 4294967295)).headRequest .i = some ⟨5, 0xAB, .setContainerBase 4294967295⟩ ∧
    serving.path.lostDrained ∧ serving.path.alloc.slots = [] ∧ serving.path.alloc.sealing = [] ∧
    filling.path.alloc.slots ≠ [] ∧ (asked filling .i .sealContainers).headRequest .i = some ⟨5, 0xAB, .sealContainers⟩ ∧
    filling.path.link.state ≠ .lost :=
  ⟨by decide, drained (by decide), by decide⟩

theorem witness_TheModeIsSet :
    (asked serving .i (.setMode 2)).path.lostDrained ∧
    (asked serving .i (.setMode 2)).headRequest .i = some ⟨5, 0xAB, .setMode 2⟩ ∧
    (asked serving .s (.setMode 4)).headRequest .s = some ⟨5, 0xAB, .setMode 4⟩ ∧
    ¬ (∀ g ∈ serving.idx.groups, g.2.state ≠ .ready) ∧ serving.path.contexts = [] ∧ (open1 stream).path.contexts ≠ [] :=
  ⟨drained (by decide), by decide⟩

theorem witness_SourcesAreSetAndEndsForced :
    let s := asked serving .i (.setManagementSources [0x0A, 0x0A])
    s.path.lostDrained ∧ s.headRequest .i = some ⟨5, 0xAB, .setManagementSources [0x0A, 0x0A]⟩ ∧
    (¬ ∃ a ∈ ([0x0A, 0x0A] : List Mac), a = 0 ∨ a.getLsbD 40 = true) ∧
    (∃ a ∈ ([0x010000000000] : List Mac), a = 0 ∨ a.getLsbD 40 = true) ∧
    (asked serving .i (.forceEnd 384)).headRequest .i = some ⟨5, 0xAB, .forceEnd 384⟩ ∧
    tabGet serving.path.contexts 384 = none ∧
    (asked (open1 { stream with state := .quiescing }) .i (.forceEnd 1)).headRequest .i = some ⟨5, 0xAB, .forceEnd 1⟩ ∧
    (tabGet (open1 { stream with state := .quiescing }).path.contexts 1).map (·.state) = some .quiescing :=
  ⟨drained (by decide), by decide, by simp, by simp, by decide⟩

theorem witness_WarmReset :
    let s := (holding [(place0, { live with state := .releasing }), (place0 + 1, { live with state := .pending })])
    let t := asked (s.withPath { s.path with
      releaseOps := [⟨true, item⟩], pet := [(0, ⟨place0 + 1, fp0, []⟩)]
      hotOps := [.rewrite 1 [], .rewrite 1 [], .load 2 none] }) .i .warmReset
    t.headRequest .i = some ⟨5, 0xAB, .warmReset⟩ ∧ t.idx.canonical = true ∧
    (∃ i ∈ (t.path.releaseOps.filter (·.accepted)).map (·.item), i.address = place0 ∧ i.fp = fp0) ∧
    ∃ ps ∈ t.path.pet, ps.2.address = place0 + 1 ∧ ps.2.fp = fp0 := by decide

/-- R84, R105: an accepted release in the queue of the bucket is taken and counted, a PENDING entry is FREE, and of the
hot-list operations the rewrite that has begun stays. -/
theorem test_warm_reset :
    let s := (holding [(place0, { live with state := .releasing }), (place0 + 1, { live with state := .pending })])
    let t := asked (s.withPath { s.path with
      releaseOps := [⟨true, item⟩], pet := [(0, ⟨place0 + 1, fp0, []⟩)]
      hotOps := [.rewrite 1 [], .rewrite 1 [], .load 2 none] }) .i .warmReset
    ∃ u, exec (.warmReset .i) t = .next u ∧ u.idx.dram = [] ∧ u.path.counter .entriesReleased = 1 ∧
      u.path.counter .releasedBytes = 64 ∧ u.path.hotOps = [.rewrite 1 []] :=
  ⟨_, rfl, by decide⟩

theorem witness_WarmResetCompletes :
    let s := underWay (serving.withPath { serving.path with warm := some ⟨.i, [7]⟩ }) .warmReset .replying
    s.path.lostDrained ∧ s.path.warm = some ⟨.i, [7]⟩ ∧ s.path.queue .i = ⟨⟨5, 0xAB, .warmReset⟩ :: [], .replying⟩ :=
  ⟨drained (by decide), by decide⟩

theorem witness_OpeningAndLingerEnd :
    let x : Context := { stream with state := .opening, warmUp := some 5, chunker := {} }
    let closed : Context := { x with closePending := true, chunker := { ended := true } }
    let s := (open1 x).withPath { (open1 x).path with hotOps := [.load 1 (some 1), .rewrite 2 []] }
    s.path.lostDrained ∧ tabGet s.path.contexts 1 = some x ∧ x.state = .opening ∧ x.warmUp = some 5 ∧
    (x.completed = false ∧ x.countDone = false ∧ (x.readOffset = x.inOrder → x.chunker.ended = false)) ∧
    (closed.completed = false ∧ closed.countDone = false ∧ closed.readOffset = closed.inOrder ∧
      closed.chunker.ended = true ∧ (open1 closed).path.link.state ≠ .lost) ∧
    s.path.hotOps = [] ++ .load 1 (some 1) :: [.rewrite 2 []] ∧ s.path.hotOps = [.load 1 (some 1)] ++ .rewrite 2 [] :: [] ∧
    (∀ o ∈ [HotOp.load 1 (some 1)], HotOp.branchOf o ≠ 2) ∧ tabWf s.idx.hot = true ∧
    ({ stream with state := .linger, linger := some 9 } : Context).linger = some 9 :=
  ⟨drained (by decide), by decide⟩

/-- R62: branch 7's list is in page 17, from byte 3 * 65,536 of the page on; its last slot is the last of the page. -/
theorem test_hot_slots : hotSlot 7 0 * 32 = 17 * 262144 + 3 * 65536 ∧ (hotSlot 7 2047 + 1) * 32 = 18 * 262144 ∧
    hotSlot 0 0 * 32 = 16 * 262144 := by decide

theorem witness_GapTicksAreCounted :
    let first : Context := { stream with final := some 1 }
    let second : Context := { first with gapCount := 1 }
    let busy : Context := { second with unanswered := 1 }
    let asking : Context := { second with queue := [{ ordinal := 0, offset := 0, length := 64, issued := true }] }
    let s := serving.withPath { serving.path with
      contexts := [(1, first), (2, busy), (3, second), (4, stream), (5, asking)] }
    tabWf s.path.contexts = true ∧ s.path.lostDrained ∧
    (first.state.taking = true ∧ first.waiting = true ∧ first.gapCount = 0 ∧ 1 ≤ second.gapCount ∧ stream.waiting = false) ∧
    (tabGet s.path.contexts 1 = some first ∧ tabGet s.path.contexts 2 = some busy ∧ busy.unanswered ≠ 0 ∧
      tabGet s.path.contexts 5 = some asking ∧ ∃ i ∈ asking.queue, i.issued = true) ∧
    (tabGet s.path.contexts 3 = some second ∧ second.unanswered = 0 ∧ (∀ i ∈ second.queue, i.issued = false)) ∧
    (∀ sc ∈ (open1 first).path.contexts, sc.2.waiting = true → sc.2.gapCount = 0) :=
  ⟨by decide, drained (by decide), by decide⟩

/-- R30, R13, R15: of two streams at their second tick, one with an unanswered record is QUIESCING and one with none has
ended; one at its first tick has only counted it. -/
theorem test_gap_tick_of_several :
    let first : Context := { stream with final := some 1 }
    let second : Context := { first with gapCount := 1 }
    let s := serving.withPath { serving.path with
      contexts := [(1, first), (2, { second with unanswered := 1 }), (3, second)] }
    ∃ t, exec .gapTick s = .next t ∧
      t.path.contexts.map (fun sc => (sc.1, sc.2.state, sc.2.gapCount, sc.2.cause)) =
        [(1, .active, 1, none), (2, .quiescing, 2, some .gap), (3, .linger, 2, some .gap)] := ⟨_, rfl, by decide⟩

/-- An ACTIVE stream whose Chunker has one byte to take. -/
def reading : Context := { stream with inOrder := 1, window := [0x41], chunker := { status := .running } }

theorem witness_BytesAreTaken :
    let last : Context := { reading with chunker := { status := .running, ended := true } }
    let fixed : Context := { reading with
      policy := { k := 8, min := 64, max := 256 }, inOrder := 256, chunker := { status := .running, n := 255 } }
    let one : Context := { fixed with mode := .verify, endMode := some .count, expected := some 1 }
    let done : Context := { stream with
      mode := .verify, endMode := some .count, expected := some 0, chunker := { status := .complete } }
    (open1 reading).path.lostDrained ∧ tabGet (open1 reading).path.contexts 1 = some reading ∧
    reading.chunker.status = .running ∧ reading.state.reading = true ∧ PolicyEntry.legal reading.policy = true ∧
    reading.completed = false ∧ reading.countDone = false ∧ reading.chunker.ended = false ∧
    boundary reading.policy 1 0 = false ∧
    (tabGet (open1 fixed).path.contexts 1 = some fixed ∧ PolicyEntry.legal fixed.policy = true ∧
      boundary fixed.policy 256 0xFFFFFFFF = true ∧ fixed.countDone = false) ∧
    (tabGet (open1 last).path.contexts 1 = some last ∧ last.chunker.ended = true ∧
      last.chunker.start + (last.chunker.n + 1) = last.inOrder) ∧
    (one.countDone = false ∧ one.chunker.start + 256 = one.inOrder ∧
      ({ one with chunker := { one.chunker with nextOrdinal := 1 } } : Context).countDone = true ∧
      one.chunker.start + 256 < ({ one with inOrder := 257 } : Context).inOrder ∧ (open1 one).path.link.state ≠ .lost) ∧
    ((open1 done).path.findCtx 1 3 = some (1, done) ∧ tabGet (open1 done).path.contexts 1 = some done ∧
      done.state.reading = true ∧ done.countDone = true ∧ done.expectedSeq ≠ 0xFFFFFFFF ∧ done.final = none ∧
      done.reorder = [] ∧ done.pace = .go ∧ done.readOffset < 0 + 1 ∧ blocksCovering done.releasePoint 1 ≤ done.quota ∧
      blocksCovering done.releasePoint 1 ≤ (open1 done).path.freeBlocks + done.held ∧
      ({ done with window := [5] } : Context).held < max 1 (done.quota - 8)) :=
  ⟨drained (by decide), by decide⟩

theorem witness_DigestsAreTakenAndLookupsIssued :
    let i : Item := { ordinal := 0, offset := 0, length := 1 }
    let x : Context := { reading with queue := [i] }
    (open1 x).path.lostDrained ∧ tabGet (open1 x).path.contexts 1 = some x ∧ x.queue = [] ++ i :: [] ∧ i.fp = none ∧
    i.issued = false ∧ x.state.reading = true ∧ (∀ f, (open1 x).path.locate f = none) ∧
    ({ x with state := .quiescing } : Context).state.reading = false :=
  ⟨drained (by decide), by decide, rfl, by decide, by decide, by decide, fun _ => rfl, by decide⟩

/-- A locator that the cache holds. -/
theorem witness_LocatorHit : (serving.path.install fp0 place0).locate fp0 = some place0 := by decide

/-- The Locator Cache: a set with room, and one with eight other ways, of which the last is the least recently used. -/
theorem witness_CacheKeepsItsWays :
    let ways : List (Fingerprint × Nat) := (List.range 8).map fun n => (BitVec.ofNat 128 (n + 1), n)
    let p : Path := { serving.path with cache := [(0, ways)] }
    tabWf serving.path.cache = true ∧ tabWf p.cache = true ∧ ((tabGetD p.cache 0 []).filter fun w => w.1 ≠ fp0).length = 8 ∧
    (tabGetD p.cache 0 []).length ≤ 8 ∧ p.locate 8 = some 7 ∧ p.locate fp0 = none ∧ (p.install fp0 9).locate fp0 = some 9 ∧
    (p.install fp0 9).locate 8 = none ∧ ((p.touch 8).install fp0 9).locate 8 = some 7 ∧
    (p.invalidate 8 6).locate 8 = some 7 ∧ (p.invalidate 8 7).locate 8 = none := by decide

/-- A lookup of slot 1's first chunk. -/
def lookup (mode : StreamMode) (check : Word32) : LookupOp :=
  ⟨1, 0, 0, 64, fp0, check, mode, true, 30, 0, 0, 1, none⟩

/-- The part with a lookup waiting and entries in the index. -/
def looking (o : LookupOp) (l : List (Nat × Entry)) : State :=
  (filling.withPath { filling.path with lookups := [o], pet := [(0, ⟨place0, fp0, []⟩)] }).withIdx (holding l).idx

theorem witness_LookupsAreJudged :
    let o := lookup .store 7
    let s := looking o [(place0, live)]
    let pending : Entry := { live with state := .pending }
    s.path.lostDrained ∧ s.path.lookupAt 1 0 = some o ∧ s.path.lookupFirst s.idx o = true ∧
    State.reset.idx.readyPage (State.reset.idx.bucket fp0) = none ∧ s.idx.readyPage (s.idx.bucket o.fp) = some 1040 ∧
    (s.idx.find o 1040 = .held place0 live ∧ o.check = live.check) ∧
    ((looking (lookup .store 8) [(place0, live)]).idx.find (lookup .store 8) 1040 = .held place0 live ∧
      (lookup .store 8).check ≠ live.check) ∧
    ((looking o [(place0, pending)]).idx.find o 1040 = .held place0 pending ∧
      (looking o [(place0, pending)]).path.petOf place0 = some (0, ⟨place0, fp0, []⟩)) ∧
    ((looking o []).idx.find o 1040 = .absent ∧ (looking o []).idx.claim 1040 0 = some (place0, (looking o []).idx) ∧
      (looking o []).path.freePet = some 1 ∧ (looking o []).path.link.state ≠ .lost ∧
      ((looking o []).path.placement o.slot o.cls o.length).2 = some (7, 64) ∧
      (({ (looking o []).path with alloc := {} } : Path).placement o.slot o.cls o.length).2 = none) :=
  ⟨drained (by decide), by decide⟩

/-- Placements: with no container OPEN one is opened; with one too full, it is set aside; with no next id there is none. -/
theorem witness_Placements :
    let full : Path := { serving.path with
      alloc := { slots := [(0, ⟨false, { id := 6, fill := 4194304, chunks := 1 }⟩)], nextId := .id 7 } }
    let none : Path := { serving.path with alloc := {} }
    (serving.path.placement 1 0 64).2 = some (7, 0) ∧ (full.placement 1 0 64).2 = some (7, 0) ∧
    (full.placement 1 0 64).1.alloc.sealing.map (·.id) = [6] ∧ (filling.path.placement 1 0 64).2 = some (7, 64) ∧
    (none.placement 1 0 64).2 = .none := by decide

/-- A chunk whose lookup has been issued. -/
def issued (ordinal : Nat) : Item :=
  { ordinal := ordinal, offset := 64 * ordinal, length := 64, fp := some fp0, check := some 7, issued := true }

/-- The part with slot 1's items, a lookup's result and a placement request. -/
def answering (l : List Item) (o : ChunkOutcome) (loc : Option Location) (pet : Option Nat) : State :=
  let s := (open1 { stream with queue := l, sight := [(fp0, place0)] })
  s.withPath { s.path with
    results := [⟨1, 1, fp0, o, loc, pet, false⟩], placements := [⟨1, 1, 0, 64⟩], alloc := filling.path.alloc }

theorem witness_ResultsAreTaken :
    let two := answering [issued 0, issued 1] .missing none none
    let one := answering [issued 1] .new (some ⟨place0, 7, 0, 64⟩) (some 3)
    (serving.path.lostDrained ∧
      (serving.withPath { serving.path with results := [⟨1, 1, fp0, .new, none, none, false⟩] }).path.results.find?
        (fun q => q.slot = 1 && q.ordinal = 1) = some ⟨1, 1, fp0, .new, none, none, false⟩ ∧
      ((tabGet serving.path.contexts 1).bind fun y => y.item 1) = none) ∧
    (((tabGet two.path.contexts 1).bind fun y => y.item 1) = some (issued 1) ∧ (issued 0).ordinal ≠ 1 ∧
      (issued 0).outcome = none) ∧
    ((tabGet one.path.contexts 1).map (·.queue) = some [issued 1] ∧ (issued 1).ordinal = 1 ∧ (issued 1).fp = some fp0 ∧
      (issued 1).check = some 7 ∧ (issued 1).mark = .none ∧ one.path.link.state ≠ .lost ∧
      ∃ g ∈ [(fp0, place0)], g.1 = fp0) ∧
    ((answering [issued 1] .unplaced none none).path.results.find? (fun q => q.slot = 1 && q.ordinal = 1)).map (·.outcome) =
      some .unplaced ∧ ({ stream with queue := [issued 1] } : Context).chunker.status ≠ .held ∧
    two.path.placements.find? (fun q => q.slot = 1 && q.ordinal = 1) = some ⟨1, 1, 0, 64⟩ ∧ (issued 0).issued = true ∧
    (two.path.placement 1 0 64).2 = some (7, 64) :=
  ⟨⟨drained (by decide), by decide⟩, by decide⟩

/-- Resolved heads of every outcome and mark retire: each hands on what R101 and R102 give it. -/
theorem witness_HeadsHandOn :
    let p := { (open1 stream).path with pet := [(0, ⟨place0, fp0, [⟨1, 1, 64, false⟩]⟩)] }
    let l : Location := ⟨place0, 7, 0, 64⟩
    let i : Item := { issued 1 with location := some l, pet := some 0, placement := some (7, 64) }
    let hands (j : Item) (o : ChunkOutcome) : Prop := ∃ q, Path.HandsOn serving.ctl 1 j stream p o q
    hands i .new ∧ hands i .newUnindexed ∧ hands i .duplicate ∧ hands { i with mark := .live } .duplicate ∧
    hands { i with mark := .joined } .duplicate ∧ hands { i with mark := .lost } .duplicate ∧ hands i .found ∧
    hands i .missing ∧ hands i .unplaced :=
  ⟨⟨_, .new _ _ _ _ rfl rfl rfl rfl⟩, ⟨_, .unindexed _ _ _ _ rfl rfl rfl⟩, ⟨_, .ref _ _ rfl rfl rfl (.inl rfl)⟩,
    ⟨_, .ref _ _ rfl rfl rfl (.inr rfl)⟩, ⟨_, .joined _ _ _ _ rfl rfl rfl rfl rfl rfl⟩, ⟨_, .lost _ _ rfl rfl rfl rfl⟩,
    ⟨_, .others _ (.inl rfl)⟩, ⟨_, .others _ (.inr (.inl rfl))⟩, ⟨_, .others _ (.inr (.inr rfl))⟩⟩

/-- Two resolved heads in a row retire, and the item behind them stays. -/
theorem witness_HeadsRetire :
    let found (n : Nat) : Item := { issued n with outcome := some .missing }
    let x : Context := { stream with mode := .verify, queue := [found 0, found 1, issued 2] }
    ∃ q, Path.Retires serving.ctl 1 (open1 x).path q ∧ (q.endsIfDone serving.ctl 1).lostDrained ∧
      (tabGet q.contexts 1).map (fun y => (y.queue, y.summary.missing, y.summary.firstMissing)) =
        some ([issued 2], 2, some 0) :=
  ⟨_, .head _ _ _ _ _ _ _ rfl rfl rfl (.others _ (.inr (.inl rfl))) (.head _ _ _ _ _ _ _ rfl rfl rfl
    (.others _ (.inr (.inl rfl))) (.stop _ _ rfl (fun _ h => by cases h; rfl))), drained (by decide), by decide⟩

theorem witness_LinkTimersAndTags :
    let r : RefItem := ⟨1, 0, 0, fp0, 7, 0, 64, 1⟩
    let w := linked { waiting := [.message (.refs [r])] }
    let v := (linked { waiting := [.oldestRelease] }).withPath { (linked { waiting := [.oldestRelease] }).path with
      sweeper := { batches := [[item]] } }
    let u : Sweeper := { pass := .waiting, pos := .buckets 0 3, batches := [[item]] }
    let m := message (.retryWait 5) (.release [item])
    ((⟨[r], some 5⟩ : RefBatch).timer = some 5 ∧ (⟨[r], some 5⟩ : RefBatch).items ≠ []) ∧ serving.path.link.waiting = [] ∧
    (w.path.link.state = .up ∧ w.ctl.tables.settings.storeAddr ≠ none ∧
      w.path.link.waiting = .message (.refs [r]) :: [] ∧ ∀ o ∈ w.path.link.inflight, o.tag ≠ 0) ∧
    (v.path.link.waiting = .oldestRelease :: [] ∧ v.path.sweeper.pass ≠ .waiting ∧ v.path.sweeper.batches = [item] :: []) ∧
    (u.pass = .waiting ∧ u.batches = [item] :: [] ∧ (u.unbatched ++ ([] : List (List RelItem)).flatten).length < 256) ∧
    (linked { inflight := [message (.awaiting 5) (.release [])] }).path.message 0 = some (message (.awaiting 5) (.release [])) ∧
    ((linked { inflight := [m] }).path.message 0 = some m ∧ m.phase = .retryWait 5 ∧
      m.attempts < serving.ctl.tables.settings.retryLimit) ∧
    (serving.ctl.tables.settings.retryLimit ≤ ({ m with attempts := 4 } : Message).attempts ∧
      serving.ctl.tables.settings.retryAction = .giveUp ∧ serving.path.link.state ≠ .lost) := by decide

theorem witness_OutcomesReachTheirBuckets :
    let pending : Entry := { live with state := .pending }
    let s := looking (lookup .store 7) [(place0, pending)]
    let l : List Waiter := [⟨1, 2, 128, true⟩, ⟨2, 0, 0, false⟩, ⟨1, 0, 0, false⟩]
    (s.path.link.state ≠ .lost ∧ (linked { state := .lost }).path.lostDrained) ∧
    ({ s.path with chunkOps := [⟨true, 0, place0, fp0⟩] } : Path).chunkOps = [] ++ ⟨true, 0, place0, fp0⟩ :: [] ∧
    tabGet s.path.pet 0 = some ⟨place0, fp0, []⟩ ∧ s.idx.entry place0 = some pending ∧ pending.fp = fp0 ∧
    pending.state = .pending ∧ (waiterSlots l = [1, 2] ∧ lowestWaiter l 1 = some ⟨1, 0, 0, false⟩) ∧
    ({ s.path with releaseOps := [⟨false, item⟩] } : Path).releaseOps = [] ++ ⟨false, item⟩ :: [] ∧
    (holding [(place0, { live with state := .releasing })]).idx.entry item.address =
      some { live with state := .releasing } := ⟨⟨by decide, fun _ => rfl⟩, by decide⟩

theorem witness_BucketsAreVisited :
    let gone : Entry := { live with count := 0 }
    let s := (holding [(place0, gone)]).withPath { serving.path with
      sweeper := { pass := .running, pos := .buckets 0 0, visit := some ⟨0, 16⟩ } }
    s.path.sweeper.visit = some ⟨0, 16⟩ ∧ s.path.sweeper.pos = .buckets 0 0 ∧ s.idx.readyPage 0 = some 1040 ∧
    tabWf s.idx.groups = true ∧ s.idx.canonical = true ∧
    (∀ i ∈ List.range 16, 1 ≤ i → ∀ e ∈ (s.idx.entry (1040 * 4096 + 0 % 256 * 16 + i)).toList, e.state ≠ .live) ∧
    (s.idx.entry (1040 * 4096 + 0 % 256 * 16 + 0) = some gone ∧ gone.state = .live ∧ gone.count = 0 ∧
      gone.holds &&& s.ctl.holds = 0 ∧ gone.untilDay < s.ctl.calendar.dayNumber) ∧
    serving.idx.entry place0 = none := by decide

/-- A visit's item that makes 64: a batch of the oldest 64, which asks for a tag; one of which 63 others are not yet a batch
waits with them. -/
theorem witness_ItemsJoin :
    let p (n : Nat) : Path := { serving.path with sweeper := { pass := .running, unbatched := List.replicate n item } }
    (((p 63).itemsJoin [{ item with length := 9 }]).sweeper.batches = [List.replicate 63 item ++ [{ item with length := 9 }]] ∧
      ((p 63).itemsJoin [item]).sweeper.unbatched = [] ∧ ((p 63).itemsJoin [item]).link.waiting = [.oldestRelease]) ∧
    ((p 62).itemsJoin [item]).sweeper.unbatched.length = 63 ∧ ((p 62).itemsJoin [item]).link.waiting = [] := by decide

/-- Where a pass goes on: at a bucket of a READY group; from a bucket of another over the marked bucket 5 of the BINS phase;
and past the last bucket with none marked to its end, where a restart begins the next. -/
theorem witness_SweepsOn :
    let x := serving.idx
    let m : Index := { x with marks := [(5, ())] }
    let p (restart : Bool) : Path := { serving.path with sweeper := { pass := .running, restart := restart, unbatched := [item] } }
    Path.SweepsOn x (.buckets 1 0) (p false) ((p false).visits (.buckets 1 0) 1) ∧
    Path.SweepsOn m (.buckets 256 0) (p false) ((p false).visits (.bins 5 5 0) 5) ∧
    (∃ q, Path.SweepsOn x (.buckets 1048576 0) (p false) q ∧ q.sweeper.pass = .idle ∧ q.sweeper.batches = [[item]]) ∧
    ∃ q, Path.SweepsOn x (.buckets 1048576 0) (p true) q ∧ q.sweeper.pass = .running ∧ q.sweeper.visit = some ⟨0, 16⟩ := by
  have h1 : ∀ g, ¬ serving.idx.readyAfter 1 g := fun g ⟨h, _, e, he, hs⟩ => by
    have : tabGet serving.idx.groups g = none := by
      have : g ≠ 0 ∧ g ≠ 1 := by omega
      simp [serving, tabGet, this]
    simp [this] at he
  have hx : ∀ z, ¬ serving.idx.due z := fun z hz => by simpa [serving] using hz.1
  refine ⟨.bucket _ _ _ (by decide) (by decide), ?_, ?_, ?_⟩
  · refine .bins _ _ _ _ (fun _ => ⟨by decide, h1⟩) (.marked _ 0 0 0 5 ⟨by decide, by decide⟩ ?_ ?_ (by omega))
    · simp [comesAfter]
    · intro o ho _
      have : o = 5 := by simpa using ho.1
      subst this; simp [comesAfter]
  · exact ⟨_, .bins _ _ _ _ (fun h => absurd h (by decide)) (.idle _ _ _ _ (fun z hz => absurd hz (hx z)) rfl), rfl, rfl⟩
  · exact ⟨_, .bins _ _ _ _ (fun h => absurd h (by decide)) (.again _ _ _ _ _ (fun z hz => absurd hz (hx z)) rfl
      (.bucket _ _ _ (by decide) (by decide))), rfl, by decide⟩

/-- A pass that waits: with the RELEASE queue full it stays at its entry, with a free place it goes on at once. -/
theorem witness_WaitsAt :
    let full : Path := { serving.path with sweeper := { pass := .running, batches := List.replicate 4 (List.replicate 64 item) } }
    (∃ q, Path.WaitsAt serving.idx (.buckets 0 3) full q ∧ q.sweeper.pass = .waiting) ∧
    ∃ q, Path.WaitsAt serving.idx (.buckets 0 3) serving.path q ∧ q.sweeper.visit = some ⟨0, 16⟩ :=
  ⟨⟨_, .inl ⟨by decide, rfl⟩, rfl⟩, _, .inr ⟨by decide, .bucket _ _ _ (by decide) (by decide)⟩, by decide⟩

/-- The BINS phase at bucket 5 of bin 5: an entry of the bin that is the bucket's and can be released, one that is
another bucket's, and none; a visit with no place left in a full RELEASE queue; a pass at its last bucket. -/
theorem witness_BinsAreVisited :
    let f : Fingerprint := 0x00000005000000000000000000000000
    let gone : Entry := { live with fp := f, count := 0 }
    let w : Sweeper := { pass := .running, pos := .bins 5 5 0, visit := some ⟨5, 1⟩ }
    let x : Index := { serving.idx with dram := [(80, gone)], marks := [(5, ())] }
    let full : Sweeper := { pass := .running, pos := .buckets 0 0, visit := some ⟨0, 0⟩
                            batches := List.replicate 4 (List.replicate 64 item) }
    (w.visit = some ⟨5, 1⟩ ∧ x.readyPage 5 = some 1040 ∧ w.pos = .bins (5 % 4096) 5 0 ∧
      x.entry (5 % 4096 * 16 + 0) = some gone ∧ x.bucket gone.fp = 5 ∧ gone.state = .live ∧ x.marked 5 = true ∧
      tabGet x.groups (5 / 256) = some ⟨.ready, 1040, 0, 0⟩ ∧ serving.path.link.state ≠ .lost) ∧
    (full.visit = some ⟨0, 0⟩ ∧ full.pos = .buckets 0 0 ∧ tabWf x.groups = true ∧
      256 ≤ full.unbatched.length + (full.batches.map List.length).sum) ∧
    ((65535 + 1 = 2 ^ ({ x with geometry := 16 } : Index).geometry) ∧ ({ w with restart := true } : Sweeper).restart = true ∧
      (x.readyPage 0).isSome = true ∧ 5 ∈ x.marks.map (·.1) ∧ 5 < 2 ^ x.geometry) := by decide

/-- Bucket 0 with three entries that can be released and one that a tag holds: with places for all, and with places for
two, where the visit stops at the third. -/
theorem witness_SeveralEntriesAreDue :
    let gone : Entry := { live with count := 0 }
    let kept : Entry := { live with count := 0, holds := 12 }
    let s := (holding [(place0, gone), (place0 + 1, kept), (place0 + 4, gone), (place0 + 15, gone)])
    let x := s.idx
    let held : Mask16 := 4
    (∀ i, i ∈ [0, 4, 15] ↔ 0 ≤ i ∧ i < 16 ∧ ∃ e, x.entry (place0 + i) = some e ∧
      (e.state = .live ∧ e.count = 0 ∧ e.holds &&& held = 0 ∧ e.untilDay < s.ctl.calendar.dayNumber)) ∧
    ([0, 4, 15] : List Nat).Pairwise (· < ·) ∧ ([0, 4, 15] : List Nat).length ≤ 16 ∧
    ([0, 4, 15] : List Nat)[2]? = some 15 ∧ x.canonical = true ∧ s.path.link.state ≠ .lost ∧
    kept.holds &&& held = 4 := by
  refine ⟨fun i => ⟨fun h => ?_, fun ⟨_, h, e, he, hx⟩ => ?_⟩, by decide⟩
  · simp only [List.mem_cons, List.not_mem_nil, or_false] at h
    rcases h with rfl | rfl | rfl <;> exact ⟨by decide, by decide, _, rfl, by decide⟩
  · rcases i with _|_|_|_|_|_|_|_|_|_|_|_|_|_|_|_|i <;> first
      | decide
      | omega
      | (simp [holding, State.withIdx, Index.entry, tabGet, place0] at he; subst he; exact absurd hx (by decide))
      | (simp [holding, State.withIdx, Index.entry, tabGet, place0] at he)

theorem witness_StreamFramesAreReadBack :
    (Instr.openParcel .i 0xAB 4095 255 255 255 16777215).wf = true ∧
    (Wire.wireFrame 0x0A 0xB7A5 (.openParcel .i 0xAB 4095 255 255 255 16777215)).isSome = true ∧
    (Instr.storeAnswer .s 255 255 .busy).wf = true ∧ (Instr.dataParcel .i 0xAB 1 0 4294967295 [1]).wf = true ∧
    (Instr.closeParcel .i 0xAB 1 0 4294967295 281474976710655).wf = true ∧ (Instr.abortParcel .i 0xAB 0 0).wf = true := by
  decide

theorem witness_ManagementFramesAreReadBack :
    let r : Request := .setExclusion 3 1040 131071 true
    r.wf = true ∧ (Wire.wireFrame 0x0A 0xB7A5 (.mgmtParcel .i 0xAB 65535 r)).isSome = true ∧
    ((Wire.wireFrame 0x0A 0xB7A5 (.mgmtParcel .i 0xAB 65535 r)).getD []).length ≤ 9212 := by decide

end Sys2Proof.Tests.Slice0
end

section
/-! PROOFS. The completion of a warm reset, and lemmas about the request queues. -/

namespace Sys2Proof.Machine.ParcelOrder

open Sys2Proof

/-! ## Queues of the two ports -/

@[simp] theorem queue_bump (p : Path) (c : Counter) (n : Nat) (port : Port) : (p.bump c n).queue port = p.queue port := by
  cases port <;> rfl

@[simp] theorem queue_setQueue_same (p : Path) (port : Port) (q : PortQueue) : (p.setQueue port q).queue port = q := by
  cases port <;> rfl

theorem queue_setQueue_ne (p : Path) {port o : Port} (h : port ≠ o) (q : PortQueue) :
    (p.setQueue o q).queue port = p.queue port := by
  cases port <;> cases o
  exacts [absurd rfl h, rfl, rfl, absurd rfl h]

theorem ne_other (port : Port) : port ≠ Port.other port := by cases port <;> decide

/-- Whether requests for tags are drained on a LOST link depends on the link alone. -/
theorem lostDrained_of_link {p q : Path} (h : p.lostDrained) (hl : q.link = p.link) : q.lostDrained := by
  unfold Path.lostDrained
  rw [hl]
  exact h

/-! ## The completion of a warm reset (R200, R201) -/

/-- A request that leaves the other port's queue leaves this port's alone. -/
theorem popDiscarded_other_queue (p : Path) (port : Port) : (p.popDiscarded (Port.other port)).queue port = p.queue port := by
  unfold Path.popDiscarded Path.popQueue
  split
  · exact queue_setQueue_ne p (ne_other port) _
  · rfl

/-- The WARM RESET at the head of its queue is answered with the containers there were. -/
theorem answerWarm_eq {p : Path} {w : WarmReset} {r : Req} {rest : List Req} {h : HeadState}
    (hq : p.queue w.port = ⟨r :: rest, h⟩) (now : Nat) :
    p.answerWarm now w = p.respond now w.port r (.done (.containers w.containers)) := by
  unfold Path.answerWarm
  rw [hq]

/-- Settles O49: the meaning is the end of the answered state, the answer being to the head of a queue that no discarded
request of the other port touches. -/
theorem warmResetCompletes : Obligations.WarmResetCompletes := by
  intro s w r rest h hl hw hq base other q
  have hgap : s.ctl.tables.settings.gapInterval = 250000 * s.ctl.tables.settings.gapSteps := by
    unfold Settings.gapInterval msec
    omega
  have hbase (port : Port) : base.queue port = s.path.queue port := by cases port <;> rfl
  have hpop : base.popDiscarded other =
      if q.head = .discarded then base.setQueue other ⟨q.reqs.tail, .waiting⟩ else base := by
    unfold Path.popDiscarded Path.popQueue
    rw [hbase]
  have hpath : s.path.warmComplete s.ctl.now w = (base.popDiscarded other).respond s.ctl.now w.port r
      (.done (.containers w.containers)) :=
    answerWarm_eq (by rw [popDiscarded_other_queue, hbase, hq]) _
  refine replies_finish ?_ rfl (lostDrained_of_link hl ?_)
  · show execWarmResetComplete s = _
    unfold execWarmResetComplete State.answer
    rw [hw]
    dsimp only
    rw [hgap, hpath, hpop]
  · dsimp only
    split <;> simp [base]

end Sys2Proof.Machine.ParcelOrder
end

section
/-! PROOFS. What a change of the settings makes of the frames that have been made or begun, and SET SETTINGS. -/

namespace Sys2Proof.Machine.ParcelOrder

open Sys2Proof

/-! ## What a change of the settings leaves as it is (R186, R202) -/

/-- Frames of the I-port depend on the settings by their EtherType alone. -/
theorem iFrames_congr {g h : Settings} (e : g.etherType = h.etherType) (x : IItem) : x.frames g = x.frames h := by
  cases x <;> simp [IItem.frames, e]

/-- Where the EtherType stays, nothing that has been made is stamped. -/
theorem keepFrames_of_etherType {p : Path} {c : Control} {g : Settings} (he : g.etherType = c.tables.settings.etherType) :
    p.keepFrames c g =
      if g.storeAddr = c.tables.settings.storeAddr then p else p.modTx (SItem.fixed p c true) := by
  simp [Path.keepFrames, he]

/-- Where the EtherType changes, what is being sent is fixed and all that has been made is stamped. -/
theorem keepFrames_of_ne {p : Path} {c : Control} {g : Settings} (he : g.etherType ≠ c.tables.settings.etherType) :
    p.keepFrames c g = (p.modTx (SItem.fixed p c true)).stamp c.tables.settings.etherType := by
  simp [Path.keepFrames, he]

/-- Every item the I-port has made. -/
def iMade (q : IPort) : List IItem := q.tx.toList ++ q.pace.map .pace ++ q.fifo ++ q.hold

theorem iMade_stamp (p : Path) (e : Nat) : iMade (p.stamp e).iPort = (iMade p.iPort).map (IItem.stamp e) := by
  cases h : p.iPort.tx <;> simp [iMade, Path.stamp, IItem.stamp, h, Function.comp_def]

/-- The items of the I-port keep the frames they were made with. -/
theorem keepFrames_iFrames (p : Path) (c : Control) (g : Settings) :
    (iMade (p.keepFrames c g).iPort).map (IItem.frames g) = (iMade p.iPort).map (IItem.frames c.tables.settings) := by
  by_cases he : g.etherType = c.tables.settings.etherType
  · have hq : (p.keepFrames c g).iPort = p.iPort := by
      rw [keepFrames_of_etherType he]
      split <;> rfl
    rw [hq]
    exact List.map_congr_left fun x _ => iFrames_congr he x
  · rw [keepFrames_of_ne he, iMade_stamp, modTx_iPort, List.map_map]
    exact List.map_congr_left fun x _ => IItem.frames_stamp x _ _

/-- The frames of an item of the S-port that is no store message. -/
def otherFrames (p : Path) (g : Settings) (x : SItem) : List (List Byte) :=
  match x.sending with
  | some _ => []
  | none => x.frames p g

/-- Every item that stands in the S-port's transmitter, in SIDE or in its hold list. -/
def sMade (q : SPort) : List SItem := q.tx.toList ++ q.fifo.map (·.2) ++ q.hold

/-- A reply or a forwarded frame depends on the settings by their EtherType alone. -/
theorem otherFrames_congr {g h : Settings} (e : g.etherType = h.etherType) (p q : Path) (x : SItem) :
    otherFrames p g x = otherFrames q h x := by
  cases x with
  | part made rest => rcases rest with _ | ⟨tag, serial⟩ <;> rfl
  | _ => simp [otherFrames, SItem.sending, SItem.frames, e]

/-- A stamped reply gives under any settings the frame it gave under those it was made under. -/
theorem otherFrames_stamp (p q : Path) (g h : Settings) (x : SItem) :
    otherFrames p h (x.stamp g.etherType) = otherFrames q g x := by
  cases x with
  | part made rest => rcases rest with _ | ⟨tag, serial⟩ <;> rfl
  | _ => rfl

/-- Fixing what is being sent leaves a reply and a forwarded frame as they are. -/
theorem otherFrames_fixed (p q r : Path) (c : Control) (g : Settings) (x : SItem) :
    otherFrames q g (x.fixed p c true) = otherFrames r g x := by
  cases x with
  | part made rest => rcases rest with _ | ⟨tag, serial⟩ <;> rfl
  | _ => rfl

theorem sMade_stamp (p : Path) (e : Nat) : sMade (p.stamp e).sPort = (sMade p.sPort).map (SItem.stamp e) := by
  cases h : p.sPort.tx <;> simp [sMade, Path.stamp, h, Function.comp_def]

/-- Fixing what is being sent leaves the frames of the items that are no store messages. -/
theorem sMade_fixed (p q r : Path) (c : Control) (g : Settings) :
    (sMade (p.modTx (SItem.fixed p c true)).sPort).map (otherFrames q g) = (sMade p.sPort).map (otherFrames r g) := by
  have hall : otherFrames q g = otherFrames r g := funext fun x => otherFrames_congr rfl q r x
  cases h : p.sPort.tx with
  | none => simp [sMade, h, hall]
  | some x => simp [sMade, h, hall, otherFrames_fixed p r r c g x]

/-- The replies and forwarded frames of the S-port keep the frames they were made with. -/
theorem keepFrames_sFrames (p : Path) (c : Control) (g : Settings) :
    (sMade (p.keepFrames c g).sPort).map (otherFrames (p.keepFrames c g) g) =
      (sMade p.sPort).map (otherFrames p c.tables.settings) := by
  by_cases he : g.etherType = c.tables.settings.etherType
  · have hg (q : Path) (l : List SItem) : l.map (otherFrames q g) = l.map (otherFrames p c.tables.settings) :=
      List.map_congr_left fun x _ => otherFrames_congr he q p x
    rw [keepFrames_of_etherType he]
    split
    · exact hg _ _
    · rw [sMade_fixed, hg p]
  · rw [keepFrames_of_ne he, sMade_stamp, List.map_map]
    rw [← sMade_fixed p (p.modTx (SItem.fixed p c true)) p c c.tables.settings]
    exact List.map_congr_left fun x _ => otherFrames_stamp _ _ _ _ x

/-- Whether a message has frames does not depend on the settings. -/
theorem messageFrames_nil {p : Path} {g : Settings} {tag serial : Nat} (h : p.messageFrames g tag serial = [])
    (g' : Settings) : p.messageFrames g' tag serial = [] := by
  unfold Path.messageFrames at h ⊢
  split at h
  · split at h
    · rename_i hm
      simp only [List.map_eq_nil_iff] at h
      rw [if_pos hm, h]
      rfl
    · rw [if_neg (by assumption)]
  · rfl

/-- The frames of an item that is sending a store message: those fixed, and then the others of the message. -/
theorem frames_of_sending {x : SItem} {tag serial : Nat} {made : List (List Byte)}
    (h : x.sending = some (tag, serial, made)) (p : Path) (g : Settings) :
    x.frames p g = made ++ (p.messageFrames g tag serial).drop made.length := by
  unfold SItem.sending at h
  split at h <;> cases h <;> rfl

/-- The frames begun, and after them the others made under any settings, are the first old frames and the later new ones;
the first is old. -/
theorem begun_split (p : Path) (c : Control) (g : Settings) (tag serial : Nat) (made : List (List Byte)) :
    ∃ k, 1 ≤ k ∧
      p.begun c tag serial made ++ (p.messageFrames g tag serial).drop (p.begun c tag serial made).length =
        (made ++ (p.messageFrames c.tables.settings tag serial).drop made.length).take k ++
          (p.messageFrames g tag serial).drop k := by
  unfold Path.begun
  dsimp only
  generalize hF : p.messageFrames c.tables.settings tag serial = F
  generalize hj : 1 + Config.piecesBegun c.now tag serial % F.length = j
  refine ⟨max j made.length, by omega, ?_⟩
  rcases List.eq_nil_or_concat F with h0 | ⟨_, _, h0⟩
  · subst h0
    rw [messageFrames_nil hF]
    simp [List.take_of_length_le]
  · have hF0 : 0 < F.length := by rw [h0]; simp
    have hle : j ≤ F.length := by
      have := Nat.mod_lt (Config.piecesBegun c.now tag serial) hF0
      omega
    have hb : (made ++ F.drop made.length).take (max j made.length) = made ++ (F.take j).drop made.length := by
      rw [List.take_append, List.take_of_length_le (by omega), List.drop_take]
      congr 2
      omega
    rw [hb]
    congr 2
    simp
    omega

/-- Of the store message being sent the pieces begun, the first among them, stay as they are, and the other pieces are those
made under the new settings. -/
theorem keepFrames_sending {p : Path} {c : Control} {x : SItem} {tag serial : Nat} {made : List (List Byte)}
    (ht : p.sPort.tx = some x) (hs : x.sending = some (tag, serial, made)) (g : Settings) :
    ∃ y k, (p.keepFrames c g).sPort.tx = some y ∧ 1 ≤ k ∧
      y.frames (p.keepFrames c g) g =
        (x.frames p c.tables.settings).take k ++ (p.messageFrames g tag serial).drop k := by
  have hfix : x.fixed p c true = .part (p.begun c tag serial made) (some (tag, serial)) := by
    unfold SItem.fixed
    rw [hs]
    rfl
  rw [frames_of_sending hs]
  obtain ⟨k, hk, hb⟩ := begun_split p c g tag serial made
  by_cases he : g.etherType = c.tables.settings.etherType
  · rw [keepFrames_of_etherType he]
    split
    · rename_i ha
      have hg : p.messageFrames g tag serial = p.messageFrames c.tables.settings tag serial := by
        unfold Path.messageFrames
        rw [he, ha]
      refine ⟨x, max 1 made.length, ht, by omega, ?_⟩
      rw [frames_of_sending hs, hg, List.take_append, List.take_of_length_le (by omega), List.append_assoc]
      congr 1
      rcases made with _ | ⟨m, l⟩
      · exact (List.take_append_drop 1 _).symm
      · simp
    · exact ⟨_, k, by rw [modTx_tx, ht]; rfl, hk, by rw [hfix]; exact hb⟩
  · rw [keepFrames_of_ne he]
    refine ⟨(x.fixed p c true).stamp c.tables.settings.etherType, k, ?_, hk, by rw [hfix]; exact hb⟩
    simp only [Path.stamp, modTx_tx, ht, Option.map_some]

/-! ## SET SETTINGS (R187) -/

theorem settingsGood_iff (writes : List SettingWrite) :
    settingsGood writes = true ↔ ∀ w ∈ writes, SettingWrite.known w = true ∧ SettingWrite.inRange w = true := by
  simp [settingsGood]

/-- The open batch closes where the new fence is met, and nothing else comes of a fence. -/
theorem refence_eq (p : Path) (fence : Nat) :
    p.refence fence =
      if p.batch.items ≠ [] ∧ (fence = 0 ∨ fence ≤ p.batch.items.length) then p.batchClosed else p := by
  unfold Path.refence fenceReached
  simp only [Bool.or_eq_true, decide_eq_true_eq]
  by_cases hi : p.batch.items = []
  · have hc : p.closeBatch = p := by
      unfold Path.closeBatch
      rw [hi]
    simp [hi, hc]
  · simp only [hi, ne_eq, not_false_eq_true, true_and, closeBatch_eq_batchClosed hi]

theorem keepFrames_batch (p : Path) (c : Control) (g : Settings) : (p.keepFrames c g).batch = p.batch := by
  show (p.keepFrames c g).core.batch = p.core.batch
  rw [keepFrames_core]

theorem keepFrames_link (p : Path) (c : Control) (g : Settings) : (p.keepFrames c g).link = p.link := by
  show (p.keepFrames c g).core.link = p.core.link
  rw [keepFrames_core]

theorem withSettings_ctl_eq (c : Control) (g : Settings) : c.withSettings g =
    { c with
      tables := { c.tables with settings := g }
      gapTimer := if g.gapSteps = c.tables.settings.gapSteps then c.gapTimer else c.now + 250000 * g.gapSteps } := by
  have hgap : g.gapInterval = 250000 * g.gapSteps := by
    unfold Settings.gapInterval msec
    omega
  unfold Control.withSettings
  rw [hgap]

/-- The rotation count comes down to N, and the open batch closes where it meets the new fence. -/
theorem withSettings_path_eq (p : Path) (c : Control) (g : Settings) :
    p.withSettings c g =
      let kept := p.keepFrames c g
      let path := { kept with sPort := { kept.sPort with rotation := min kept.sPort.rotation g.rotation } }
      if p.batch.items ≠ [] ∧ (g.fence = 0 ∨ g.fence ≤ p.batch.items.length) then path.batchClosed else path := by
  unfold Path.withSettings
  rw [refence_eq]
  have hb : ((p.keepFrames c g).rotateTo g.rotation).batch = p.batch := keepFrames_batch p c g
  rw [hb]
  rfl

theorem withSettings_link_state (p : Path) (c : Control) (g : Settings) :
    (p.withSettings c g).link.state = p.link.state := by
  have hr : ((p.keepFrames c g).rotateTo g.rotation).link = p.link := keepFrames_link p c g
  unfold Path.withSettings
  rw [refence_eq]
  split
  · rw [batchClosed_state, hr]
  · rw [hr]

/-- Settles O32: the two cases of R187 are the two ends of the meaning, and what was made keeps its frames by the lemmas
about `keepFrames`. -/
theorem settingsAreSet : Obligations.SettingsAreSet := by
  intro s port n src writes old new ctl kept path frames replies hh
  refine ⟨fun hl hbad => ?_, fun hl hgood => ?_, keepFrames_core _ _ _, keepFrames_counters _ _ _, keepFrames_same _ _, ?_,
    ?_, fun x tag serial made ht hs => keepFrames_sending ht hs new⟩
  · have hg : ¬ settingsGood writes = true := by
      rw [settingsGood_iff]
      obtain ⟨w, hw, hb⟩ := hbad
      intro h
      rcases hb with hb | hb
      · rw [(h w hw).1] at hb; cases hb
      · rw [(h w hw).2] at hb; cases hb
    refine replies_finish ?_ rfl hl
    show execSetSettings port s = _
    unfold execSetSettings
    rw [hh]
    simp only [hg, Bool.false_eq_true, if_false]
    rfl
  · have hu : ctl = s.ctl.withSettings new := (withSettings_ctl_eq _ _).symm
    have hp : (if s.path.batch.items ≠ [] ∧ (new.fence = 0 ∨ new.fence ≤ s.path.batch.items.length) then
        path.batchClosed else path) = s.path.withSettings s.ctl new := (withSettings_path_eq _ _ _).symm
    rw [hu, hp]
    refine replies_finish ?_ rfl ?_
    · show execSetSettings port s = _
      unfold execSetSettings
      rw [hh]
      simp only [(settingsGood_iff writes).2 hgood, if_true]
      rfl
    · intro h
      rw [withSettings_link_state] at h
      exact absurd h hl
  · have := keepFrames_iFrames s.path s.ctl new
    simpa [frames, iMade, kept, Function.comp_def] using this
  · exact keepFrames_sFrames s.path s.ctl new

end Sys2Proof.Machine.ParcelOrder
end

section
/-! PROOFS. DATA parcels: their classes, the parcels that wait in the reorder list or are dropped, and the in-order parcels
with the reorder entries that they let follow. -/

namespace Sys2Proof.Machine.ParcelOrder

open Sys2Proof

/-! ## The classes of a DATA parcel (R25) -/

theorem classify_duplicate {x : Context} {seq : Nat}
    (h : seq < x.expectedSeq ∨ (∃ e ∈ x.reorder, e.seq = seq) ∨ seq = 0xFFFFFFFF ∨ ∃ n, x.final = some n ∧ n ≤ seq) :
    x.classify seq = .duplicate := by
  unfold Context.classify
  split
  · rfl
  · rename_i h1
    split
    · rfl
    · rename_i h2
      rw [if_pos]
      simp only [List.any_eq_true, decide_eq_true_eq, not_or] at h1
      rcases h with h | h | h | ⟨n, hn, hle⟩
      · exact absurd h h1.1
      · exact absurd h h1.2
      · exact absurd h h2
      · simpa [hn] using hle

/-- A parcel that is none of the dropped kinds is in order or early, by its number. -/
theorem classify_taken {x : Context} {seq : Nat} (he : x.expectedSeq ≤ seq) (hw : ∀ e ∈ x.reorder, e.seq ≠ seq)
    (hm : seq ≠ 0xFFFFFFFF) (hn : ∀ n, x.final = some n → seq < n) :
    x.classify seq = if seq = x.expectedSeq then .inOrder else .early := by
  unfold Context.classify
  rw [if_neg, if_neg hm, if_neg]
  · cases hf : x.final with
    | none => simp
    | some n => simpa using hn n hf
  · simp only [List.any_eq_true, decide_eq_true_eq, not_or, not_exists, not_and]
    exact ⟨by omega, hw⟩

/-- A DATA parcel for a context that takes parcels is judged by its class (R10, R25). -/
theorem dataArrives_eq {p : Path} {c : Control} {source : Mac} {branch stream slot seq : Nat} {payload : List Byte}
    {x : Context} (hw : p.warm = none) (hf : p.findCtx branch stream = some (slot, x)) (ht : x.state.taking = true) :
    p.dataArrives c .i source branch stream seq payload = p.takeData c slot x seq payload := by
  have hd : p.dropsStreams .i = false := by simp [Path.dropsStreams, hw]
  unfold Path.dataArrives
  simp [hd, hf, ht]

/-- A DATA parcel for a context that takes parcels completes as what its class makes of it, the link being left alone. -/
theorem completes_data {s : State} {source : Mac} {branch stream slot seq : Nat} {payload : List Byte} {x : Context}
    {p : Path} (hl : s.path.lostDrained) (hw : s.path.warm = none)
    (hf : s.path.findCtx branch stream = some (slot, x)) (ht : x.state.taking = true)
    (hp : s.path.takeData s.ctl slot x seq payload = p) (hk : p.link = s.path.link) :
    Completes (.dataParcel .i source branch stream seq payload) s (s.withPath p) := by
  refine completes_finish ?_ rfl (lostDrained_of_link hl hk)
  show execData .i source branch stream seq payload s = _
  unfold execData
  rw [dataArrives_eq hw hf ht, hp]

/-! ## Placement checks and the pace state (R35, R36, R40, R41) -/

theorem placeCheck_fits {quota free present count : Nat} (hq : count ≤ quota) (hp : count ≤ free + present) :
    placeCheck quota free present count = .fits := by
  unfold placeCheck
  rw [if_neg (by omega), if_neg (by omega)]

theorem stopRecent_iff (x : Context) (now : Nat) :
    x.stopRecent now = true ↔ ∃ t, x.lastStop = some t ∧ now < t + 25000 := by
  simp [Context.stopRecent, Option.any_eq_true]

/-- A context makes a PACE STOP as it takes a parcel: in GO where its held blocks rise to the STOP threshold, in STOP where
its last STOP is 1 ms old. -/
def stopsAt (c : Control) (y : Context) (before : Nat) : Prop :=
  (y.pace = .go ∧ before < y.held ∧ max 1 (y.quota - c.tables.settings.paceMargin) ≤ y.held) ∨
    (y.pace = .stop ∧ ¬ y.stopRecent c.now = true)

/-- What becomes of the pace state of a context that takes a parcel. -/
def paceTested (p : Path) (c : Control) (slot : Nat) (y : Context) (before : Nat) : Path :=
  if y.pace = .stop then (p.withCtx slot y).repeatStop c slot else (p.withCtx slot y).testStop c slot before

theorem paceTested_stops {c : Control} {y : Context} {before : Nat} (hs : stopsAt c y before)
    (ht : y.state.taking = true) (p : Path) (slot : Nat) :
    paceTested p c slot y before = p.withPaced slot { y with pace := .stop, lastStop := some c.now } := by
  unfold paceTested
  rcases hs with ⟨hg, hr⟩ | ⟨hp, hr⟩
  · rw [if_neg (by rw [hg]; decide)]
    unfold Path.testStop
    rw [withCtx_get]
    exact (if_pos ⟨ht, hg, hr⟩).trans (paced_eq_withPaced _ _ _ _)
  · rw [if_pos hp]
    unfold Path.repeatStop
    rw [withCtx_get]
    dsimp only
    rw [if_pos ⟨hp, by simpa [stopOld_eq_stopRecent] using hr⟩, paced_eq_withPaced, hp]

theorem paceTested_quiet {c : Control} {y : Context} {before : Nat} (hs : ¬ stopsAt c y before)
    (p : Path) (slot : Nat) : paceTested p c slot y before = p.withCtx slot y := by
  unfold paceTested
  split
  · rename_i hp
    unfold Path.repeatStop
    rw [withCtx_get]
    refine if_neg fun h => hs (.inr ⟨hp, ?_⟩)
    simpa [stopOld_eq_stopRecent] using h.2
  · unfold Path.testStop
    rw [withCtx_get]
    exact if_neg fun h => hs (.inl ⟨h.2.1, h.2.2⟩)

/-! ## Parcels dropped, and early parcels (R27, R28) -/

theorem takeData_duplicate {p : Path} {c : Control} {slot seq : Nat} {payload : List Byte} {x : Context}
    (hx : tabGet p.contexts slot = some x) (hc : x.classify seq = .duplicate) :
    p.takeData c slot x seq payload =
      (p.withCtx slot { x with dupCount := min max48 (x.dupCount + 1) }).bump .duplicateParcels 1 := by
  unfold Path.takeData Path.takeDuplicate
  rw [hc, modCtx_get hx]
  rfl

theorem takeEarly_full {p : Path} {c : Control} {slot seq : Nat} {payload : List Byte} {x : Context}
    (hx : tabGet p.contexts slot = some x) (h8 : 8 ≤ x.reorder.length) :
    p.takeEarly c slot x seq payload =
      (p.withCtx slot { x with overflowCount := min max48 (x.overflowCount + 1) }).bump .reorderOverflows 1 := by
  unfold Path.takeEarly
  rw [if_pos h8, modCtx_get hx]
  rfl

/-- An early parcel that quota and pool take waits in the list, and the pace state is tested. -/
theorem takeEarly_fits {p : Path} {c : Control} {slot seq : Nat} {payload : List Byte} {x : Context}
    (h8 : x.reorder.length < 8) (hq : x.held + blocksOf payload.length ≤ x.quota)
    (hp : blocksOf payload.length ≤ p.freeBlocks) :
    p.takeEarly c slot x seq payload =
      paceTested p c slot { x with reorder := insertEarly ⟨seq, payload⟩ x.reorder } x.held := by
  unfold Path.takeEarly
  rw [if_neg (by omega), placeCheck_fits hq (by omega)]
  rfl

/-- Settles O22: the classes of R25 one by one, and the pace state of an early parcel by `paceTested`. -/
theorem dataOutOfOrderIsHeldOrDropped : Obligations.DataOutOfOrderIsHeldOrDropped := by
  intro s source branch stream seq slot payload x y stopped recent stops early takes hl hw hf hx ht
  have hearly (h : early) : s.path.takeData s.ctl slot x seq payload = s.path.takeEarly s.ctl slot x seq payload := by
    obtain ⟨hlt, hnot, hmax, hfin⟩ := h
    unfold Path.takeData
    rw [classify_taken (Nat.le_of_lt hlt) hnot hmax hfin, if_neg (by omega)]
  refine ⟨fun h => ?_, fun he h8 => ?_, fun he h8 hq hp => ?_⟩
  · exact completes_data hl hw hf ht (takeData_duplicate hx (classify_duplicate h)) rfl
  · exact completes_data hl hw hf ht ((hearly he).trans (takeEarly_full hx h8)) rfl
  · have htake := (hearly he).trans (takeEarly_fits h8 hq hp)
    have hiff : stops ↔ stopsAt s.ctl y x.held := by
      have : recent ↔ y.stopRecent s.ctl.now = true := (stopRecent_iff y _).symm
      unfold stopsAt
      rw [← this]
    exact ⟨fun h => completes_data hl hw hf ht (htake.trans (paceTested_stops (hiff.1 h) ht _ _)) rfl,
      fun h => completes_data hl hw hf ht (htake.trans (paceTested_quiet (fun g => h (hiff.2 g)) _ _)) rfl⟩

end Sys2Proof.Machine.ParcelOrder
end

section
/-! PROOFS. In-order DATA: the parcel and the reorder entries it lets follow join the window, and the Chunker settles its
status. -/

namespace Sys2Proof.Machine.ParcelOrder

open Sys2Proof

/-! ## What the Chunker is told of (R45, R50) -/

/-- A context whose Chunker, if it reads, is RUNNING or HELD, by its queue. -/
def settledAs (x y : Context) : Context :=
  if x.state = .opening then y else y.setStatus (if x.chunker.n = 0 ∧ 32 ≤ x.queue.length then .held else .running)

/-- The end is signalled where the next parcel would be N (R50). -/
def signalled (z : Context) : Context :=
  { z with chunker := { z.chunker with ended := decide (z.final = some z.expectedSeq) || z.chunker.ended } }

theorem signal_eq (z : Context) : z.signal = signalled z := by
  unfold Context.signal signalled
  split
  · rename_i h
    simp [h]
  · rename_i h
    simp [h]

@[simp] theorem settledAs_held (x y : Context) : (settledAs x y).held = y.held := by
  unfold settledAs
  split <;> rfl

/-- Of the states in which a context takes parcels, all but OPENING are those in which its Chunker reads. -/
theorem reading_of_taking {st : CtxState} (ht : st.taking = true) (ho : st ≠ .opening) : st.reading = true := by
  cases st with
  | active => rfl
  | draining => rfl
  | opening => exact absurd rfl ho
  | quiescing => cases ht
  | linger => cases ht

/-- A stream whose Chunker is not COMPLETE and that is not QUIESCING does not end. -/
theorem endsIfDone_unfinished {p : Path} {slot : Nat} {x : Context} (c : Control) (hx : tabGet p.contexts slot = some x)
    (ht : x.state.taking = true) (hc : x.completed = false) (hs : x.state = .draining → x.chunker.status ≠ .complete) :
    p.endsIfDone c slot = p := by
  have hq : x.state ≠ .quiescing := by rintro h; rw [h] at ht; cases ht
  unfold Path.endsIfDone
  rw [hx]
  dsimp only
  rw [if_neg (fun ⟨hd, _, hcomplete, _⟩ => hs hd hcomplete), if_neg (fun ⟨hd, _⟩ => hq hd),
    if_neg (fun ⟨hd, _⟩ => by rw [hc] at hd; cases hd)]

/-- A Chunker with bytes left to read settles its status to HELD or RUNNING. -/
theorem settleStatus_unread {x : Context} (hd : x.countDone = false) (hr : x.readOffset < x.inOrder) :
    x.settleStatus = x.setStatus (if x.chunker.n = 0 ∧ 32 ≤ x.queue.length then .held else .running) := by
  unfold Context.settleStatus
  rw [hd, if_neg Bool.false_ne_true, if_neg (Nat.ne_of_lt hr)]
  split <;> rfl

/-- Where bytes are left to be read, telling the Chunker of them settles its status and ends nothing. -/
theorem runChunker_unread {p : Path} {slot : Nat} {x : Context} (c : Control) (hx : tabGet p.contexts slot = some x)
    (ht : x.state.taking = true) (hc : x.completed = false) (hd : x.countDone = false) (hr : x.readOffset < x.inOrder) :
    p.runChunker c slot = p.withCtx slot (settledAs x x) := by
  have hy : (if x.state.reading then x.settleStatus else x) = settledAs x x := by
    unfold settledAs
    by_cases ho : x.state = .opening
    · rw [if_pos ho, if_neg (by rw [ho]; decide)]
    · rw [if_neg ho, if_pos (reading_of_taking ht ho), settleStatus_unread hd hr]
  have hfields : (settledAs x x).state = x.state ∧ (settledAs x x).countDone = x.countDone ∧
      (settledAs x x).completed = x.completed := by
    unfold settledAs
    split <;> exact ⟨rfl, rfl, rfl⟩
  obtain ⟨hstate, hcount, hcompl⟩ := hfields
  have hover : (settledAs x x).overlong = false := by simp [Context.overlong, hcount, hd]
  have hlate : (p.withCtx slot (settledAs x x)).testOverlength slot = p.withCtx slot (settledAs x x) := by
    unfold Path.testOverlength
    rw [withCtx_get]
    simp [hover]
  unfold Path.runChunker
  rw [modCtx_get hx, hy, hlate, check_eq_endsIfDone]
  refine endsIfDone_unfinished c (withCtx_get _ _ _) (hstate ▸ ht) (hcompl ▸ hc) fun h => ?_
  have ho : x.state ≠ .opening := by rw [← hstate, h]; decide
  unfold settledAs Context.setStatus
  rw [if_neg ho]
  dsimp only
  split <;> decide

/-! ## The parcel itself (R26, R35) -/

/-- The context with the in-order parcel in its window. -/
def parcelTaken (x : Context) (payload : List Byte) : Context := { x.append payload with gapCount := 0 }

/-- The data path with the in-order parcel taken, before any reorder entry follows it. -/
def firstTaken (p : Path) (c : Control) (slot : Nat) (x : Context) (payload : List Byte) : Path :=
  paceTested p c slot (parcelTaken x payload) x.held

theorem takeInOrder_fits {p : Path} {c : Control} {slot : Nat} {x : Context} {payload : List Byte}
    (hq : x.heldAfter x.reorder payload.length ≤ x.quota)
    (hp : x.heldAfter x.reorder payload.length ≤ p.freeBlocks + x.held) :
    p.takeInOrder c slot x payload =
      (Path.joinReorder c slot 8 (firstTaken p c slot x payload)).modCtx slot Context.signal := by
  unfold Path.takeInOrder
  rw [placeCheck_fits hq hp]
  rfl

/-- A rise of a context in GO is tested for a PACE STOP alone. -/
theorem paceTested_go {y : Context} (h : y.pace = .go) (p : Path) (c : Control) (slot before : Nat)
    (ht : y.state.taking = true) : paceTested p c slot y before = p.withRise c slot y before := by
  have hn : y.pace ≠ .stop := by rw [h]; decide
  by_cases hs : y.pace = .go ∧ before < y.held ∧ max 1 (y.quota - c.tables.settings.paceMargin) ≤ y.held
  · rw [paceTested_stops (.inl hs) ht]
    exact (if_pos hs).symm
  · rw [paceTested_quiet (fun g => g.elim hs fun g => hn g.1)]
    unfold Path.withRise Path.withFall
    rw [if_neg hs, if_neg (fun g => hn g.2.1)]

/-- The pace state after the in-order parcel, as R40 and R41 give it. -/
theorem firstTaken_eq (p : Path) (c : Control) (slot : Nat) (x : Context) (payload : List Byte)
    (ht : x.state.taking = true) :
    firstTaken p c slot x payload =
      (let y := parcelTaken x payload
       if x.pace = .go then p.withRise c slot y x.held
       else if x.stopRecent c.now then p.withCtx slot y
       else p.withPaced slot { y with lastStop := some c.now }) := by
  dsimp only
  split
  · rename_i h
    exact paceTested_go (y := parcelTaken x payload) h p c slot x.held ht
  · rename_i h
    have hp : (parcelTaken x payload).pace = .stop := by
      show x.pace = .stop
      cases hx : x.pace with
      | stop => rfl
      | go => exact absurd hx h
    split
    · rename_i hr
      refine paceTested_quiet (fun g => ?_) p slot
      exact g.elim (fun g => h g.1) fun g => g.2 hr
    · rename_i hr
      refine (paceTested_stops (.inr ⟨hp, hr⟩) ht p slot).trans ?_
      rw [← hp]

/-! ## The reorder entries that follow (R26, R36) -/

/-- From one context to another only parcels have been taken: what the Chunker goes by is the same, and no byte is lost. -/
structure Follows (x z : Context) : Prop where
  state : z.state = x.state
  chunker : z.chunker = x.chunker
  queue : z.queue = x.queue
  completed : z.completed = x.completed
  countDone : z.countDone = x.countDone
  inOrder : x.inOrder ≤ z.inOrder

theorem Follows.trans {x y z : Context} (a : Follows x y) (b : Follows y z) : Follows x z where
  state := b.state.trans a.state
  chunker := b.chunker.trans a.chunker
  queue := b.queue.trans a.queue
  completed := b.completed.trans a.completed
  countDone := b.countDone.trans a.countDone
  inOrder := a.inOrder.trans b.inOrder

/-- Data paths that took a context in a slot: the link is the same, and the context in the slot follows it. -/
structure Holds (p q : Path) (slot : Nat) (y : Context) : Prop where
  link : q.link = p.link
  ctx : ∃ z, tabGet q.contexts slot = some z ∧ Follows y z ∧ z.reorder = y.reorder

theorem holds_withCtx (p : Path) (slot : Nat) (y : Context) : Holds p (p.withCtx slot y) slot y :=
  ⟨rfl, y, withCtx_get _ _ _, ⟨rfl, rfl, rfl, rfl, rfl, Nat.le_refl _⟩, rfl⟩

/-- A PACE notice changes the pace state of the context and nothing that the Chunker goes by. -/
theorem holds_withPaced (p : Path) (slot : Nat) (y : Context) (pace : Pace) (last : Option Nat) :
    Holds p (p.withPaced slot { y with pace := pace, lastStop := last }) slot y :=
  ⟨rfl, _, withCtx_get _ _ _, ⟨rfl, rfl, rfl, rfl, rfl, Nat.le_refl _⟩, rfl⟩

theorem holds_withFall (p : Path) (slot : Nat) (y : Context) (before : Nat) : Holds p (p.withFall slot y before) slot y := by
  unfold Path.withFall
  split
  · exact holds_withPaced p slot y .go y.lastStop
  · exact holds_withCtx p slot y

theorem holds_withRise (p : Path) (c : Control) (slot : Nat) (y : Context) (before : Nat) :
    Holds p (p.withRise c slot y before) slot y := by
  unfold Path.withRise
  split
  · exact holds_withPaced p slot y .stop (some c.now)
  · exact holds_withFall p slot y before

theorem holds_withQuotaStop (p : Path) (c : Control) (slot : Nat) (y : Context) (before : Nat) :
    Holds p (p.withQuotaStop c slot y before) slot y := by
  unfold Path.withQuotaStop
  split
  · exact holds_withFall p slot y before
  · obtain ⟨hl, z, hz, hf, hr⟩ := holds_withFall (p.withPaced slot { y with pace := .stop, lastStop := some c.now }) slot
      { y with pace := .stop, lastStop := some c.now } before
    exact ⟨hl, z, hz, ⟨hf.state, hf.chunker, hf.queue, hf.completed, hf.countDone, hf.inOrder⟩, hr⟩

theorem holds_firstTaken (p : Path) (c : Control) (slot : Nat) (x : Context) (payload : List Byte)
    (ht : x.state.taking = true) : Holds p (firstTaken p c slot x payload) slot (parcelTaken x payload) := by
  unfold firstTaken
  by_cases hs : stopsAt c (parcelTaken x payload) x.held
  · rw [paceTested_stops hs ht]
    exact holds_withPaced _ _ _ _ _
  · rw [paceTested_quiet hs]
    exact holds_withCtx _ _ _

/-- However many reorder entries join, and however the joining ends, the context follows the one there was. -/
theorem joins_follow {c : Control} {slot : Nat} {p q : Path} (h : Path.Joins c slot p q) :
    q.link = p.link ∧ ∀ x z, tabGet p.contexts slot = some x → tabGet q.contexts slot = some z → Follows x z := by
  have last {p q : Path} {x y : Context} (hx : tabGet p.contexts slot = some x) (hh : Holds p q slot y)
      (hf : Follows x y) : q.link = p.link ∧
        ∀ x z, tabGet p.contexts slot = some x → tabGet q.contexts slot = some z → Follows x z := by
    obtain ⟨hl, w, hw, hyw, -⟩ := hh
    refine ⟨hl, fun x' z hx' hz => ?_⟩
    rw [hx] at hx'
    rw [hw] at hz
    cases hx'
    cases hz
    exact hf.trans hyw
  induction h with
  | none p x hx _ =>
    exact last hx ⟨rfl, x, hx, ⟨rfl, rfl, rfl, rfl, rfl, Nat.le_refl _⟩, rfl⟩ ⟨rfl, rfl, rfl, rfl, rfl, Nat.le_refl _⟩
  | join p q x left y e rest would hx _ _ hleft _ _ _ hy _ ih =>
    obtain ⟨hl, w, hw, hyw, -⟩ := holds_withRise p c slot y x.held
    refine ⟨ih.1.trans hl, fun x' z hx' hz => ?_⟩
    rw [hx] at hx'
    cases hx'
    have hxy : Follows x y := by
      subst hy hleft
      exact ⟨rfl, rfl, rfl, rfl, rfl, Nat.le_add_right _ _⟩
    exact (hxy.trans hyw).trans (ih.2 w z hw hz)
  | quota p x left e rest hx _ _ hleft _ =>
    subst hleft
    obtain ⟨hl, hh⟩ := holds_withQuotaStop p c slot
      { x with reorder := rest, overrunCount := min max48 (x.overrunCount + 1) } x.held
    exact last hx ⟨hl, hh⟩ ⟨rfl, rfl, rfl, rfl, rfl, Nat.le_refl _⟩
  | pool p x left e rest would hx _ _ hleft _ _ _ =>
    subst hleft
    obtain ⟨hl, hh⟩ := holds_withFall p slot
      { x with reorder := rest, overrunCount := min max48 (x.overrunCount + 1) } x.held
    exact last hx ⟨hl, hh⟩ ⟨rfl, rfl, rfl, rfl, rfl, Nat.le_refl _⟩

/-- Where the reorder list has no entry that is next, none joins. -/
theorem joinReorder_none {p : Path} {slot : Nat} {x : Context} (c : Control) (n : Nat) (hx : tabGet p.contexts slot = some x)
    (hn : ∀ e, x.reorder.head? = some e → e.seq ≠ x.expectedSeq) : Path.joinReorder c slot n p = p := by
  cases n with
  | zero => rfl
  | succ n =>
    unfold Path.joinReorder
    rw [hx]
    cases hr : x.reorder with
    | nil => simp only [hr]
    | cons e rest => simp only [hr, if_pos (hn e (by rw [hr]; rfl))]

/-- The next entry joins where quota and pool take the blocks it makes, its own being given up for the check. -/
theorem joinReorder_join {p : Path} {slot : Nat} {x : Context} {e : Early} {rest : List Early} (c : Control) (n : Nat)
    (hx : tabGet p.contexts slot = some x) (ht : x.state.taking = true) (hr : x.reorder = e :: rest)
    (he : e.seq = x.expectedSeq) (hq : x.heldAfter rest e.payload.length ≤ x.quota)
    (hp : x.heldAfter rest e.payload.length ≤
      (p.withCtx slot { x with reorder := rest }).freeBlocks + ({ x with reorder := rest } : Context).held) :
    Path.joinReorder c slot (n + 1) p = Path.joinReorder c slot n
      (p.withRise c slot (({ x with reorder := rest } : Context).append e.payload) x.held) := by
  have hy : (({ x with reorder := rest } : Context).append e.payload).state.taking = true := ht
  rw [withRise_eq_tests _ _ _ _ _ hy]
  conv_lhs => unfold Path.joinReorder
  rw [hx]
  simp only [hr, he, ne_eq, not_true, if_false]
  have hc := placeCheck_fits hq hp
  unfold Path.withCtx at hc
  rw [hc]
  rfl

/-! ## Joins that make no PACE notice -/

/-- A context with the first entries of its reorder list in its window, the others being `rest`. -/
def joined (y : Context) (joins rest : List Early) : Context := { y with
  window := y.window ++ joins.flatMap (·.payload), inOrder := y.inOrder + (joins.map (·.payload.length)).sum
  expectedSeq := y.expectedSeq + joins.length, reorder := rest }

theorem joined_nil (y : Context) : joined y [] y.reorder = y := by
  simp [joined]

theorem joined_cons (y : Context) (e : Early) (joins rest tail : List Early) :
    joined (({ y with reorder := tail } : Context).append e.payload) joins rest = joined y (e :: joins) rest := by
  simp only [joined, Context.append, List.flatMap_cons, List.map_cons, List.sum_cons, List.length_cons, List.append_assoc,
    Nat.add_assoc, Nat.add_comm 1]

theorem blocksCovering_mono (a : Nat) {b b' : Nat} (h : b ≤ b') : blocksCovering a b ≤ blocksCovering a b' := by
  have := Nat.div_le_div_right (c := 4096) (Nat.sub_le_sub_right h 1)
  unfold blocksCovering
  split
  · omega
  · rw [if_neg (by omega)]
    omega

theorem reorderBlocks_append (l m : List Early) : reorderBlocks (l ++ m) = reorderBlocks l + reorderBlocks m := by
  simp [reorderBlocks]

/-- The held blocks of a context whose window ends at its in-order byte count (R33, R34). -/
theorem held_eq {y : Context} (h : y.releasePoint + y.window.length = y.inOrder) :
    y.held = blocksCovering y.releasePoint y.inOrder + reorderBlocks y.reorder := by
  unfold Context.held Context.stagedEnd
  rw [h]

/-- No joining moves the pace state of a context whose held blocks stay within `most`, its reorder list coming to `rest`:
they stay below the STOP threshold in GO, and above half the quota in STOP. -/
def Quiet (c : Control) (most : Nat) (rest : List Early) (y : Context) : Prop :=
  y.pace = .go ∧ most < max 1 (y.quota - c.tables.settings.paceMargin) ∨
    y.pace = .stop ∧
      (y.state = .opening ∨ y.quota / 2 < blocksCovering y.releasePoint y.inOrder + reorderBlocks rest)

theorem withRise_quiet {c : Control} {most : Nat} {joins rest : List Early} {y : Context} (hq : Quiet c most rest y)
    (hw : y.releasePoint + y.window.length = y.inOrder) (hr : y.reorder = joins ++ rest) (hm : y.held ≤ most)
    (p : Path) (slot before : Nat) : p.withRise c slot y before = p.withCtx slot y := by
  have hheld := held_eq hw
  rw [hr, reorderBlocks_append] at hheld
  unfold Path.withRise Path.withFall
  rcases hq with ⟨hg, ht⟩ | ⟨hp, hs⟩
  · rw [if_neg (fun h => by omega), if_neg (fun h => by rw [hg] at h; cases h.2.1)]
  · rw [if_neg (fun h => by rw [hp] at h; cases h.1), if_neg]
    rintro ⟨hread, -, -, hle⟩
    rcases hs with hs | hs
    · rw [hs] at hread; cases hread
    · omega

/-- Entries of consecutive numbers that quota and pool take all join, and where the pace state is quiet nothing else comes
of it; the entries after them stay. -/
theorem joinReorder_quiet {p : Path} {c : Control} {slot most : Nat} {rest : List Early}
    (hroom : ∀ l, most ≤ (p.withCtx slot l).freeBlocks + l.held) :
    ∀ (joins : List Early) (n : Nat) (y : Context), joins.length ≤ n → y.reorder = joins ++ rest →
      joins.map (·.seq) = (List.range joins.length).map (fun i => y.expectedSeq + i) →
      (∀ r, rest.head? = some r → r.seq ≠ y.expectedSeq + joins.length) → y.state.taking = true →
      y.releasePoint + y.window.length = y.inOrder →
      blocksCovering y.releasePoint (y.inOrder + (joins.map (·.payload.length)).sum) + reorderBlocks y.reorder ≤ most →
      most ≤ y.quota → Quiet c most rest y →
        Path.joinReorder c slot n (p.withCtx slot y) = p.withCtx slot (joined y joins rest) := by
  intro joins
  induction joins with
  | nil =>
    intro n y _ hr _ hh _ _ _ _ _
    rw [joinReorder_none c n (withCtx_get p slot y) (by rw [hr]; exact hh), ← show y.reorder = rest from hr, joined_nil]
  | cons e joins ih =>
    intro n y hn hr hseq hh ht hw hm hq hquiet
    obtain ⟨n, rfl⟩ : ∃ k, n = k + 1 := ⟨n - 1, by simp at hn; omega⟩
    simp only [List.length_cons, List.range_succ_eq_map, List.map_cons, List.map_map, List.cons.injEq, Nat.add_zero]
      at hseq
    obtain ⟨he, hseq⟩ := hseq
    simp only [List.map_cons, List.sum_cons] at hm
    have hsplit : reorderBlocks y.reorder = blocksOf e.payload.length + reorderBlocks (joins ++ rest) := by
      rw [hr]
      rfl
    let z : Context := ({ y with reorder := joins ++ rest } : Context).append e.payload
    have hzw : z.releasePoint + z.window.length = z.inOrder := by
      show y.releasePoint + (y.window ++ e.payload).length = y.inOrder + e.payload.length
      rw [List.length_append]
      omega
    have hafter : y.heldAfter (joins ++ rest) e.payload.length ≤ most := by
      have := blocksCovering_mono y.releasePoint
        (show y.inOrder + e.payload.length ≤ y.inOrder + (e.payload.length + (joins.map (·.payload.length)).sum) by omega)
      unfold Context.heldAfter
      omega
    have hzheld : z.held ≤ most := by
      rw [held_eq hzw]
      exact hafter
    have hzquiet : Quiet c most rest z := by
      refine hquiet.imp_right fun ⟨hp, hs⟩ => ⟨hp, hs.imp_right fun hs => ?_⟩
      have := blocksCovering_mono y.releasePoint (show y.inOrder ≤ y.inOrder + e.payload.length by omega)
      exact Nat.lt_of_lt_of_le hs (Nat.add_le_add_right this _)
    rw [joinReorder_join c n (withCtx_get p slot y) ht (by rw [hr]; rfl) he (hafter.trans hq)
      (by rw [withCtx_twice]; exact hafter.trans (hroom _))]
    rw [withRise_quiet hzquiet hzw rfl hzheld, withCtx_twice, ih n z (by simpa using hn) rfl ?_ ?_ ht hzw ?_ hq hzquiet]
    · rw [joined_cons]
    · rw [hseq]
      refine List.map_congr_left fun i _ => ?_
      show y.expectedSeq + (i + 1) = y.expectedSeq + 1 + i
      omega
    · intro r hrh
      have := hh r hrh
      show r.seq ≠ y.expectedSeq + 1 + joins.length
      simp only [List.length_cons] at this
      omega
    · show blocksCovering y.releasePoint (y.inOrder + e.payload.length + (joins.map (·.payload.length)).sum) +
        reorderBlocks (joins ++ rest) ≤ most
      rw [Nat.add_assoc]
      omega

/-! ## The room in the pool (R32) -/

theorem heldBlocks_tabSet {t : Tab Context} {slot : Nat} {x : Context} (hw : tabWf t = true)
    (hx : tabGet t slot = some x) (l : Context) : heldBlocks (tabSet t slot l) + x.held = heldBlocks t + l.held := by
  induction t with
  | nil => cases hx
  | cons kv t ih =>
    obtain ⟨k, v⟩ := kv
    obtain ⟨hk, ht⟩ := tabWf_cons.1 hw
    simp only [tabGet] at hx
    unfold heldBlocks at ih ⊢
    simp only [tabSet]
    split at hx
    · cases hx
      subst_vars
      simp
      omega
    · rename_i hne
      have hlt := hk _ (tabGet_mem hx)
      dsimp only at hlt
      have := ih ht hx
      rw [if_neg (by omega), if_neg hne]
      simp only [List.map_cons, List.sum_cons]
      omega

/-- What a context may hold of the pool, the other contexts holding what they hold, whatever it holds now. -/
theorem freeBlocks_withCtx {p : Path} {slot most : Nat} {x : Context} (hw : tabWf p.contexts = true)
    (hx : tabGet p.contexts slot = some x) (hm : most + (heldBlocks p.contexts - x.held) ≤ 2048) (l : Context) :
    most ≤ (p.withCtx slot l).freeBlocks + l.held := by
  have := heldBlocks_tabSet hw hx l
  unfold Path.freeBlocks Path.withCtx
  dsimp only
  omega

/-! ## The whole parcel -/

/-- A DATA parcel in order for a context that takes parcels, whose quota takes its blocks and whose Chunker has not finished
and finds bytes to read. -/
structure InOrderParcel (s : State) (branch stream slot : Nat) (payload : List Byte) (x : Context) : Prop where
  drained : s.path.lostDrained
  noReset : s.path.warm = none
  found : s.path.findCtx branch stream = some (slot, x)
  listed : tabGet s.path.contexts slot = some x
  taking : x.state.taking = true
  notLast : x.expectedSeq ≠ 0xFFFFFFFF
  belowFinal : ∀ n, x.final = some n → x.expectedSeq < n
  notWaiting : ∀ r ∈ x.reorder, r.seq ≠ x.expectedSeq
  notCompleted : x.completed = false
  notDone : x.countDone = false
  unread : x.readOffset < x.inOrder + payload.length
  inQuota : x.heldAfter x.reorder payload.length ≤ x.quota

section

variable {s : State} {branch stream slot : Nat} {payload : List Byte} {x : Context}

/-- The pool takes the blocks of a parcel. -/
def inPool (s : State) (payload : List Byte) (x : Context) : Prop :=
  x.heldAfter x.reorder payload.length ≤ s.path.freeBlocks + x.held

/-- The end of the stream is signalled and the Chunker settles its status, whatever joined after the parcel. -/
theorem InOrderParcel.completes (h : InOrderParcel s branch stream slot payload x) (hp : inPool s payload x) {q : Path}
    {z : Context} (hj : Path.joinReorder s.ctl slot 8 (firstTaken s.path s.ctl slot x payload) = q) (hl : q.link = s.path.link)
    (hz : tabGet q.contexts slot = some z) (hf : Follows (parcelTaken x payload) z) (source : Mac) :
    Completes (.dataParcel .i source branch stream x.expectedSeq payload) s
      (s.withPath (q.withCtx slot (settledAs x (signalled z)))) := by
  obtain ⟨hstate, hchunker, hqueue, hcompleted, hcount, hinOrder⟩ := hf
  refine completes_data h.drained h.noReset h.found h.taking ?_ hl
  have hunread : (signalled z).readOffset < (signalled z).inOrder := by
    have hr : (signalled z).readOffset = x.readOffset := by
      show z.chunker.start + z.chunker.n = _
      rw [hchunker]
      rfl
    rw [hr]
    exact Nat.lt_of_lt_of_le h.unread hinOrder
  have hsettled : settledAs (signalled z) (signalled z) = settledAs x (signalled z) := by
    have h1 : (signalled z).state = x.state := hstate
    have h2 : (signalled z).chunker.n = x.chunker.n := by
      show z.chunker.n = _
      rw [hchunker]
      rfl
    have h3 : (signalled z).queue = x.queue := hqueue
    unfold settledAs
    rw [h1, h2, h3]
  unfold Path.takeData
  rw [classify_taken (Nat.le_refl _) h.notWaiting h.notLast h.belowFinal, if_pos rfl]
  dsimp only
  rw [takeInOrder_fits h.inQuota hp]
  have ht : (signalled z).state.taking = true := by
    show z.state.taking = true
    rw [hstate]
    exact h.taking
  rw [hj, modCtx_get hz, signal_eq, runChunker_unread (x := signalled z) s.ctl (withCtx_get _ _ _) ht
    (hcompleted.trans h.notCompleted) (hcount.trans h.notDone) hunread, withCtx_twice, hsettled]

/-- The Chunker settles its status after a PACE notice as before it. -/
theorem withPaced_settledAs (p : Path) (slot : Nat) (x z : Context) (pace : Pace) (last : Option Nat) :
    (p.withPaced slot { z with pace := pace, lastStop := last }).withCtx slot
        (settledAs x (signalled { z with pace := pace, lastStop := last })) =
      Path.makePace (p.withCtx slot { settledAs x (signalled z) with pace := pace, lastStop := last })
        ⟨slot, z.branch, z.stream, z.source, pace, none⟩ := by
  unfold settledAs
  split <;> exact congrArg (Path.makePace · _) (withCtx_twice _ _ _ _)

/-- Where no reorder entry waits, the parcel joins alone, and the pace state is tested. -/
theorem InOrderParcel.completes_alone (h : InOrderParcel s branch stream slot payload x) (hp : inPool s payload x)
    (hr : x.reorder = []) (source : Mac) :
    let y := settledAs x (signalled (parcelTaken x payload))
    (stopsAt s.ctl (parcelTaken x payload) x.held →
      Completes (.dataParcel .i source branch stream x.expectedSeq payload) s
        (s.withPath (Path.makePace (s.path.withCtx slot { y with pace := .stop, lastStop := some s.ctl.now })
          ⟨slot, x.branch, x.stream, x.source, .stop, none⟩))) ∧
    (¬ stopsAt s.ctl (parcelTaken x payload) x.held →
      Completes (.dataParcel .i source branch stream x.expectedSeq payload) s (s.withPath (s.path.withCtx slot y))) := by
  have alone {q : Path} {z : Context} (hq : firstTaken s.path s.ctl slot x payload = q) (hl : q.link = s.path.link)
      (hz : tabGet q.contexts slot = some z) (hf : Follows (parcelTaken x payload) z) (hzr : z.reorder = []) :
      Completes (.dataParcel .i source branch stream x.expectedSeq payload) s
        (s.withPath (q.withCtx slot (settledAs x (signalled z)))) :=
    h.completes hp (by rw [hq]; exact joinReorder_none _ _ hz (by rw [hzr]; exact fun _ g => nomatch g)) hl hz hf source
  refine ⟨fun hs => ?_, fun hs => ?_⟩
  · have := alone (paceTested_stops hs h.taking s.path slot) rfl (withCtx_get _ _ _)
      ⟨rfl, rfl, rfl, rfl, rfl, Nat.le_refl _⟩ hr
    rwa [withPaced_settledAs s.path slot x (parcelTaken x payload) .stop (some s.ctl.now)] at this
  · have := alone (paceTested_quiet hs s.path slot) rfl (withCtx_get _ _ _) ⟨rfl, rfl, rfl, rfl, rfl, Nat.le_refl _⟩ hr
    rwa [withCtx_twice] at this

/-- Where the joins are those of `Path.Joins`, the parcel comes to what they come to. -/
theorem InOrderParcel.completes_joins (h : InOrderParcel s branch stream slot payload x) (hp : inPool s payload x)
    (h8 : x.reorder.length ≤ 8) {q : Path} {z : Context} (hj : Path.Joins s.ctl slot (firstTaken s.path s.ctl slot x payload) q)
    (hz : tabGet q.contexts slot = some z) (source : Mac) :
    Completes (.dataParcel .i source branch stream x.expectedSeq payload) s
      (s.withPath (q.withCtx slot (settledAs x (signalled z)))) := by
  obtain ⟨hl, w, hw, hf, hr⟩ := holds_firstTaken s.path s.ctl slot x payload h.taking
  obtain ⟨hlq, hfollow⟩ := joins_follow hj
  have hcount : ∀ y, tabGet (firstTaken s.path s.ctl slot x payload).contexts slot = some y →
      y.state.taking = true ∧ y.reorder.length ≤ 8 := by
    intro y hy
    obtain rfl : w = y := Option.some.inj (hw.symm.trans hy)
    exact ⟨hf.state ▸ h.taking, by rw [hr]; exact h8⟩
  exact h.completes hp (joins_eq_joinReorder hj 8 hcount) (hlq.trans hl) hz (hf.trans (hfollow w z hw hz)) source

/-- Reorder entries that join change nothing that the Chunker goes by. -/
theorem follows_joined (y : Context) (joins rest : List Early) : Follows y (joined y joins rest) :=
  ⟨rfl, rfl, rfl, rfl, rfl, Nat.le_add_right _ _⟩

/-- A window that ends at the in-order byte count does so with the parcel in it (R33). -/
theorem parcelTaken_window (hw : x.releasePoint + x.window.length = x.inOrder) :
    (parcelTaken x payload).releasePoint + (parcelTaken x payload).window.length = (parcelTaken x payload).inOrder := by
  show x.releasePoint + (x.window ++ payload).length = x.inOrder + payload.length
  rw [List.length_append]
  omega

theorem parcelTaken_held (hw : x.releasePoint + x.window.length = x.inOrder) :
    (parcelTaken x payload).held = x.heldAfter x.reorder payload.length := held_eq (parcelTaken_window hw)

/-- Where the joins leave the pace state alone, no PACE notice is made. -/
theorem InOrderParcel.completes_quiet (h : InOrderParcel s branch stream slot payload x) (hp : inPool s payload x)
    {most : Nat} {joins rest : List Early} (hr : x.reorder = joins ++ rest) (h8 : joins.length ≤ 8)
    (hseq : joins.map (·.seq) = (List.range joins.length).map fun i => x.expectedSeq + 1 + i)
    (hhead : ∀ r, rest.head? = some r → r.seq ≠ x.expectedSeq + 1 + joins.length)
    (hw : x.releasePoint + x.window.length = x.inOrder)
    (hm : x.heldAfter x.reorder (payload.length + (joins.map (·.payload.length)).sum) ≤ most) (hq : most ≤ x.quota)
    (hroom : ∀ l, most ≤ (s.path.withCtx slot l).freeBlocks + l.held)
    (hstop : ¬ stopsAt s.ctl (parcelTaken x payload) x.held) (hquiet : Quiet s.ctl most rest (parcelTaken x payload))
    (source : Mac) :
    Completes (.dataParcel .i source branch stream x.expectedSeq payload) s
      (s.withPath (s.path.withCtx slot (settledAs x (signalled (joined (parcelTaken x payload) joins rest))))) := by
  have hw' := parcelTaken_window hw (payload := payload)
  have hm' : blocksCovering x.releasePoint
      ((parcelTaken x payload).inOrder + (joins.map (·.payload.length)).sum) + reorderBlocks x.reorder ≤ most := by
    show blocksCovering x.releasePoint (x.inOrder + payload.length + _) + _ ≤ most
    rw [Nat.add_assoc]
    exact hm
  have hj : Path.joinReorder s.ctl slot 8 (firstTaken s.path s.ctl slot x payload) =
      s.path.withCtx slot (joined (parcelTaken x payload) joins rest) := by
    rw [show firstTaken s.path s.ctl slot x payload = s.path.withCtx slot (parcelTaken x payload) from paceTested_quiet hstop _ _]
    exact joinReorder_quiet hroom joins 8 (parcelTaken x payload) h8 hr hseq hhead h.taking hw' hm' hq hquiet
  have := h.completes hp hj rfl (withCtx_get _ _ _) (follows_joined _ _ _) source
  rwa [withCtx_twice] at this

/-- Where one entry joins a context in STOP and its held blocks fall to half the quota, a PACE GO is made. -/
theorem InOrderParcel.completes_go (h : InOrderParcel s branch stream slot payload x) (hp : inPool s payload x)
    {join : Early} {rest : List Early} (hr : x.reorder = join :: rest) (hseq : join.seq = x.expectedSeq + 1)
    (hhead : ∀ r, rest.head? = some r → r.seq ≠ x.expectedSeq + 1 + 1)
    (hq : x.heldAfter x.reorder (payload.length + join.payload.length) ≤ x.quota)
    (hroom : ∀ l, x.heldAfter x.reorder (payload.length + join.payload.length) ≤
      (s.path.withCtx slot l).freeBlocks + l.held)
    (hpace : x.pace = .stop) (hrecent : x.stopRecent s.ctl.now = true) (hstate : x.state ≠ .opening)
    (hfall : (joined (parcelTaken x payload) [join] rest).held < (parcelTaken x payload).held)
    (hhalf : (joined (parcelTaken x payload) [join] rest).held ≤ x.quota / 2) (source : Mac) :
    Completes (.dataParcel .i source branch stream x.expectedSeq payload) s
      (s.withPath (Path.makePace (s.path.withCtx slot
          { settledAs x (signalled (joined (parcelTaken x payload) [join] rest)) with pace := .go })
        ⟨slot, x.branch, x.stream, x.source, .go, none⟩)) := by
  let y := parcelTaken x payload
  let z := joined y [join] rest
  have hstop : ¬ stopsAt s.ctl y x.held := fun g =>
    g.elim (fun g => by rw [show y.pace = .stop from hpace] at g; cases g.1) fun g => g.2 hrecent
  have hnext : y.heldAfter rest join.payload.length ≤ x.heldAfter x.reorder (payload.length + join.payload.length) := by
    show blocksCovering x.releasePoint (x.inOrder + payload.length + join.payload.length) + reorderBlocks rest ≤
      blocksCovering x.releasePoint (x.inOrder + (payload.length + join.payload.length)) + reorderBlocks x.reorder
    have : reorderBlocks x.reorder = blocksOf join.payload.length + reorderBlocks rest := by
      rw [hr]
      rfl
    rw [this, Nat.add_assoc]
    omega
  have hreading : x.state.reading = true := reading_of_taking h.taking hstate
  have hz : (({ y with reorder := rest } : Context).append join.payload) = z := by
    simp [z, joined, Context.append]
  have hrise : (s.path.withCtx slot y).withRise s.ctl slot z y.held = s.path.withPaced slot { z with pace := .go } := by
    have hzp : z.pace = .stop := hpace
    unfold Path.withRise Path.withFall
    rw [if_neg (fun g => by rw [hzp] at g; cases g.1), if_pos ⟨hreading, hzp, hfall, hhalf⟩]
    exact congrArg (Path.makePace · _) (withCtx_twice _ _ _ _)
  have hj : Path.joinReorder s.ctl slot 8 (firstTaken s.path s.ctl slot x payload) = s.path.withPaced slot { z with pace := .go } := by
    rw [show firstTaken s.path s.ctl slot x payload = s.path.withCtx slot y from paceTested_quiet hstop _ _]
    rw [joinReorder_join s.ctl 7 (withCtx_get s.path slot y) h.taking hr hseq (hnext.trans hq)
      (by rw [withCtx_twice]; exact hnext.trans (hroom _)), hz, hrise]
    exact joinReorder_none s.ctl 7 (withCtx_get _ _ _) hhead
  have := h.completes hp hj rfl (withCtx_get _ _ _) ((follows_joined y [join] rest).trans
    ⟨rfl, rfl, rfl, rfl, rfl, Nat.le_refl _⟩) source
  rw [withPaced_settledAs s.path slot x z .go z.lastStop] at this
  unfold settledAs at this ⊢
  rw [if_neg hstate] at this ⊢
  exact this

end

/-- Settles O21: the parcel alone, with the joins of `Path.Joins`, and with joins written out that leave the pace state alone
or make a PACE GO. -/
theorem inOrderDataIsStaged : Obligations.InOrderDataIsStaged := by
  intro s source branch stream slot payload x e length takes settled staged threshold recent firstOf present hl hw hf hx ht
    hmax hfin hnot hcomp hcount hread hquota
  have h : InOrderParcel s branch stream slot payload x :=
    ⟨hl, hw, hf, hx, ht, hmax, hfin, hnot, hcomp, hcount, hread, hquota⟩
  have hrecent : recent ↔ x.stopRecent s.ctl.now = true := (stopRecent_iff x _).symm
  have hstaged (joins rest : List Early) :
      staged joins rest = settledAs x (signalled (joined (parcelTaken x payload) joins rest)) := rfl
  refine ⟨fun hr hp => ?_, fun q z hp h8 hj hz => ?_, ?_⟩
  · have hy : staged [] [] = settledAs x (signalled (parcelTaken x payload)) := by
      have hnil := joined_nil (parcelTaken x payload)
      rw [show (parcelTaken x payload).reorder = [] from hr] at hnil
      rw [hstaged, hnil]
    have hheld : (staged [] []).held = (parcelTaken x payload).held := by
      rw [hy, settledAs_held]
      rfl
    intro y stopped stops
    have hstops : stops ↔ stopsAt s.ctl (parcelTaken x payload) x.held := by
      show ((x.pace = .go ∧ x.held < (staged [] []).held ∧ threshold ≤ (staged [] []).held) ∨
        (x.pace = .stop ∧ ¬ recent)) ↔ _
      rw [hheld, hrecent]
      rfl
    obtain ⟨hyes, hno⟩ := h.completes_alone hp hr source
    rw [← hy] at hyes hno
    exact ⟨fun g => hyes (hstops.1 g), fun g => hno fun k => g (hstops.2 k)⟩
  · refine h.completes_joins hp h8 ?_ hz source
    have := firstTaken_eq s.path s.ctl slot x payload ht
    rw [show firstTaken s.path s.ctl slot x payload = firstOf from this]
    exact hj
  · intro joins rest hr h8 hseq hhead hwf hwin most hmq hpool
    have hroom := freeBlocks_withCtx hwf hx hpool
    have hmost : x.heldAfter x.reorder (payload.length + (joins.map (·.payload.length)).sum) = most := by
      show blocksCovering x.releasePoint (x.inOrder + (payload.length + _)) + _ =
        blocksCovering x.releasePoint (x.inOrder + payload.length + _) + _
      rw [Nat.add_assoc]
    have hpresent : (parcelTaken x payload).held ≤ most := by
      rw [parcelTaken_held hwin]
      exact Nat.add_le_add_right (blocksCovering_mono _ (Nat.le_add_right _ _)) _
    have hin : inPool s payload x := by
      have hfree : (s.path.withCtx slot x).freeBlocks = s.path.freeBlocks := by
        have hsame := heldBlocks_tabSet hwf hx x
        unfold Path.freeBlocks Path.withCtx
        dsimp only
        omega
      unfold inPool
      rw [← hfree, ← parcelTaken_held hwin]
      exact hpresent.trans (hroom x)
    rw [hstaged]
    refine ⟨fun hq => ?_, fun join hone hpace hrec hstate hfall hhalf => ?_⟩
    · refine h.completes_quiet hin hr h8 hseq hhead hwin (Nat.le_of_eq hmost) hmq hroom ?_ ?_ source
      · rintro (⟨hg, -, hle⟩ | ⟨hp, hnr⟩)
        · rcases hq with ⟨-, hlt⟩ | ⟨hp, -⟩
          · exact absurd (hle.trans hpresent) (Nat.not_le.2 hlt)
          · exact absurd (hp.symm.trans hg) (by decide)
        · rcases hq with ⟨hg, -⟩ | ⟨-, hr, -⟩
          · exact absurd (hg.symm.trans hp) (by decide)
          · exact hnr (hrecent.1 hr)
      · exact hq.imp_right fun ⟨hp, _, hs⟩ => ⟨hp, hs⟩
    · subst hone
      have hsum : x.heldAfter x.reorder (payload.length + join.payload.length) = most := hmost
      rw [settledAs_held] at hfall hhalf
      refine h.completes_go hin hr ?_ hhead (hsum ▸ hmq) (hsum ▸ hroom) hpace (hrecent.1 hrec) hstate ?_ hhalf source
      · simpa using hseq
      · rw [parcelTaken_held hwin]
        exact hfall

end Sys2Proof.Machine.ParcelOrder
end

section
/-! PROOFS. The ends of transmissions: what an idle transmitter takes, the places that held items take after it, and that
nothing else happens where every waiting request is known and the other transmitter has nothing to take. -/

namespace Sys2Proof.Machine.ParcelOrder

open Sys2Proof

/-! ## Held items take the places that are free (R166, R174) -/

/-- A reply that takes a place changes the request queues and nothing else. -/
theorem replyPlaced_eq (p : Path) (r : Reply) :
    p.replyPlaced r = { p with iQueue := (p.replyPlaced r).iQueue, sQueue := (p.replyPlaced r).sQueue } := by
  unfold Path.replyPlaced
  rcases r.answers with _ | _ | _ <;> rfl

/-- What a placed reply makes of the request queues depends on them alone. -/
theorem replyPlaced_queue {p q : Path} (h : ∀ port, q.queue port = p.queue port) (r : Reply) (port : Port) :
    (q.replyPlaced r).queue port = (p.replyPlaced r).queue port := by
  unfold Path.replyPlaced
  cases r.answers with
  | none => exact h port
  | some o =>
    dsimp only
    by_cases hp : port = o
    · rw [hp, queue_setQueue_same, queue_setQueue_same, h]
    · rw [queue_setQueue_ne _ hp, queue_setQueue_ne _ hp, h]

/-- Items that take places, replies or not, change the request queues and nothing else. -/
theorem placedList_eq {α : Type} (f : Path → α → Path)
    (hf : ∀ p y, f p y = { p with iQueue := (f p y).iQueue, sQueue := (f p y).sQueue }) (l : List α) (p : Path) :
    l.foldl f p = { p with iQueue := (l.foldl f p).iQueue, sQueue := (l.foldl f p).sQueue } := by
  induction l generalizing p with
  | nil => rfl
  | cons y l ih =>
    rw [List.foldl_cons, ih, hf]

/-- What placed items make of the request queues depends on these alone. -/
theorem placedList_queue {α : Type} (f : Path → α → Path)
    (hf : ∀ p q y, (∀ port, q.queue port = p.queue port) → ∀ port, (f q y).queue port = (f p y).queue port) (l : List α)
    {p q : Path} (h : ∀ port, q.queue port = p.queue port) (port : Port) :
    (l.foldl f q).queue port = (l.foldl f p).queue port := by
  induction l generalizing p q with
  | nil => exact h port
  | cons y l ih => exact ih (hf p q y h)

theorem sPlaced_eq (p : Path) (y : SItem) :
    SItem.placed p y = { p with iQueue := (SItem.placed p y).iQueue, sQueue := (SItem.placed p y).sQueue } := by
  cases y with
  | reply r => exact replyPlaced_eq p r
  | _ => rfl

theorem iPlaced_eq (p : Path) (y : IItem) :
    IItem.placed p y = { p with iQueue := (IItem.placed p y).iQueue, sQueue := (IItem.placed p y).sQueue } := by
  cases y with
  | reply r => exact replyPlaced_eq p r
  | _ => rfl

theorem sPlaced_with (p : Path) (y : SItem) (q : SPort) :
    SItem.placed { p with sPort := q } y = { SItem.placed p y with sPort := q } := by
  cases y with
  | reply r =>
    show Path.replyPlaced _ r = { p.replyPlaced r with sPort := q }
    unfold Path.replyPlaced
    rcases r.answers with _ | _ | _ <;> rfl
  | _ => rfl

theorem iPlaced_with (p : Path) (y : IItem) (q : IPort) :
    IItem.placed { p with iPort := q } y = { IItem.placed p y with iPort := q } := by
  cases y with
  | reply r =>
    show Path.replyPlaced _ r = { p.replyPlaced r with iPort := q }
    unfold Path.replyPlaced
    rcases r.answers with _ | _ | _ <;> rfl
  | _ => rfl

theorem sPlaced_queue (p q : Path) (y : SItem) (h : ∀ port, q.queue port = p.queue port) (port : Port) :
    (SItem.placed q y).queue port = (SItem.placed p y).queue port := by
  cases y with
  | reply r => exact replyPlaced_queue h r port
  | _ => exact h port

theorem iPlaced_queue (p q : Path) (y : IItem) (h : ∀ port, q.queue port = p.queue port) (port : Port) :
    (IItem.placed q y).queue port = (IItem.placed p y).queue port := by
  cases y with
  | reply r => exact replyPlaced_queue h r port
  | _ => exact h port

/-- The oldest items of SIDE's hold list take the places that are free, in order, with the time. -/
theorem refillS_eq (now n : Nat) (p : Path) :
    let k := min n (64 - p.sPort.fifo.length)
    Path.refillS now n p = (p.sPort.hold.take k).foldl SItem.placed { p with sPort := { p.sPort with
      fifo := p.sPort.fifo ++ (p.sPort.hold.take k).map fun z => (now, z), hold := p.sPort.hold.drop k } } := by
  induction n generalizing p with
  | zero => simp [Path.refillS]
  | succ n ih =>
    unfold Path.refillS
    split
    · rename_i hh
      have hdrop (k : Nat) : p.sPort.hold.drop k = p.sPort.hold := by simp [hh]
      have htake (k : Nat) : p.sPort.hold.take k = [] := by simp [hh]
      simp only [hdrop, htake, List.foldl_nil, List.map_nil, List.append_nil]
    · rename_i y rest hh
      split
      · rename_i hlt
        have hk : min (n + 1) (64 - p.sPort.fifo.length) = min n (64 - (p.sPort.fifo.length + 1)) + 1 := by omega
        rw [joinS_eq_placedS, ih]
        have hs : (p.placedS now y rest).sPort = { p.sPort with fifo := p.sPort.fifo ++ [(now, y)], hold := rest } := by
          unfold Path.placedS
          rw [sPlaced_eq]
        simp only [hs, hh, hk, List.length_append, List.length_singleton, List.take_succ_cons, List.drop_succ_cons,
          List.foldl_cons, List.map_cons, List.append_assoc, List.singleton_append]
        unfold Path.placedS
        rw [← sPlaced_with]
      · rename_i hge
        have hk : min (n + 1) (64 - p.sPort.fifo.length) = 0 := by omega
        simp [hk]

/-- The oldest items of the notice FIFO's hold list take the places that are free, in order. -/
theorem refillI_eq (n : Nat) (p : Path) :
    let k := min n (64 - p.iPort.fifo.length)
    Path.refillI n p = (p.iPort.hold.take k).foldl IItem.placed { p with iPort := { p.iPort with
      fifo := p.iPort.fifo ++ p.iPort.hold.take k, hold := p.iPort.hold.drop k } } := by
  induction n generalizing p with
  | zero => simp [Path.refillI]
  | succ n ih =>
    unfold Path.refillI
    split
    · rename_i hh
      have hdrop (k : Nat) : p.iPort.hold.drop k = p.iPort.hold := by simp [hh]
      have htake (k : Nat) : p.iPort.hold.take k = [] := by simp [hh]
      simp only [hdrop, htake, List.foldl_nil, List.append_nil]
    · rename_i y rest hh
      split
      · rename_i hlt
        have hk : min (n + 1) (64 - p.iPort.fifo.length) = min n (64 - (p.iPort.fifo.length + 1)) + 1 := by omega
        rw [joinI_eq_placedI, ih]
        have hs : (p.placedI y rest).iPort = { p.iPort with fifo := p.iPort.fifo ++ [y], hold := rest } := by
          unfold Path.placedI
          rw [iPlaced_eq]
        simp only [hs, hh, hk, List.length_append, List.length_singleton, List.take_succ_cons, List.drop_succ_cons,
          List.foldl_cons, List.append_assoc, List.singleton_append]
        unfold Path.placedI
        rw [← iPlaced_with]
      · rename_i hge
        have hk : min (n + 1) (64 - p.iPort.fifo.length) = 0 := by omega
        simp [hk]

/-- What held items make of the S-port and of the request queues as they take the free places of SIDE; they leave the counters
and the I-port alone. -/
theorem refillS_after (now : Nat) (p : Path) :
    let taken := p.sPort.hold.take (64 - p.sPort.fifo.length)
    (Path.refillS now 64 p).sPort = { p.sPort with
      fifo := p.sPort.fifo ++ taken.map fun z => (now, z), hold := p.sPort.hold.drop (64 - p.sPort.fifo.length) } ∧
    (∀ port, (Path.refillS now 64 p).queue port = (taken.foldl SItem.placed p).queue port) ∧
    (Path.refillS now 64 p).counters = p.counters ∧ (Path.refillS now 64 p).iPort = p.iPort := by
  have hk : min 64 (64 - p.sPort.fifo.length) = 64 - p.sPort.fifo.length := by omega
  have h := refillS_eq now 64 p
  dsimp only at h ⊢
  rw [hk] at h
  rw [h]
  refine ⟨?_, placedList_queue _ sPlaced_queue _ (fun port => by cases port <;> rfl), ?_, ?_⟩ <;>
    rw [placedList_eq _ sPlaced_eq]

/-- What held items make of the I-port and of the request queues as they take the free places of the notice FIFO. -/
theorem refillI_after (p : Path) :
    let taken := p.iPort.hold.take (64 - p.iPort.fifo.length)
    (Path.refillI 64 p).iPort = { p.iPort with
      fifo := p.iPort.fifo ++ taken, hold := p.iPort.hold.drop (64 - p.iPort.fifo.length) } ∧
    ∀ port, (Path.refillI 64 p).queue port = (taken.foldl IItem.placed p).queue port := by
  have hk : min 64 (64 - p.iPort.fifo.length) = 64 - p.iPort.fifo.length := by omega
  have h := refillI_eq 64 p
  dsimp only at h ⊢
  rw [hk] at h
  rw [h]
  refine ⟨?_, placedList_queue _ iPlaced_queue _ (fun port => by cases port <;> rfl)⟩
  rw [placedList_eq _ iPlaced_eq]

/-! ## Grants (R163, R165, R167, R168, R173) -/

theorem pickData_of_noData {p : Path} (h : p.sPort.noData) : p.pickData = none := by
  obtain ⟨h1, h2, h3⟩ := h
  unfold Path.pickData
  simp only [h1, h2, h3]

theorem grantData_of_noData {p : Path} (h : p.sPort.noData) (c : Control) : p.grantData c = p := by
  unfold Path.grantData
  rw [pickData_of_noData h]

/-- DATA's next message is the one that leaves it, where it is in flight (R165). -/
theorem pickData_of_dataNext {p : Path} {tag : Nat} {m : Message} {d : SPort} (h : p.dataNext tag d)
    (hm : p.message tag = some m) : p.pickData = some (tag, d) := by
  unfold Path.pickData
  rcases h with ⟨hmem, rfl, hfirst⟩ | ⟨hr, rest, hc, ho, rfl⟩ | ⟨hr, rest, hf, ho, rfl⟩
  · have htag : ∃ m ∈ p.link.inflight, m.tag ∈ p.sPort.resend := by
      have := List.find?_some hm
      simp only [decide_eq_true_eq] at this
      exact ⟨m, List.mem_of_find?_eq_some hm, by rw [this]; exact hmem⟩
    obtain ⟨before, o, after, hl, ho, hb⟩ : ∃ before o after, p.link.inflight = before ++ o :: after ∧
        o.tag ∈ p.sPort.resend ∧ ∀ o ∈ before, o.tag ∉ p.sPort.resend := by
      have hsome : (p.link.inflight.find? fun m => decide (m.tag ∈ p.sPort.resend)).isSome = true := by
        simpa [List.find?_isSome] using htag
      obtain ⟨o, hof⟩ := Option.isSome_iff_exists.1 hsome
      obtain ⟨ho, before, after, hl, hb⟩ := List.find?_eq_some_iff_append.1 hof
      exact ⟨before, o, after, hl, by simpa using ho, fun o ho => by simpa using hb o ho⟩
    cases hs : p.sPort.resend with
    | nil => rw [hs] at hmem; cases hmem
    | cons t rest =>
      have hold : p.oldestResend t = tag :=
        (oldestResend_first before o after hl ho hb).trans (hfirst before o after hl ho hb).symm
      simp only [hs, hold]
  · rcases ho with hrefs | hmark
    · simp only [hr, hc, hrefs]
    · cases hf : p.sPort.refQ <;> simp only [hr, hc, hf, hmark]
  · rcases ho with hchunks | hmark
    · simp only [hr, hf, hchunks]
    · cases hc : p.sPort.chunkQ <;> simp only [hr, hf, hc, hmark]

theorem dataNext_not_noData {p : Path} {tag : Nat} {d : SPort} (h : p.dataNext tag d) : ¬ p.sPort.noData := by
  rintro ⟨h1, h2, h3⟩
  rcases h with ⟨hmem, -, -⟩ | ⟨-, _, hc, -, -⟩ | ⟨-, _, hf, -, -⟩
  · rw [h1] at hmem; cases hmem
  · rw [h2] at hc; cases hc
  · rw [h3] at hf; cases hf

section

variable {c : Control} {p : Path} (hc : p.sPort.carrier = true) (ht : p.sPort.tx = none)
include hc ht

/-- An idle S-port whose SIDE is empty is granted to DATA. -/
theorem grantS_empty (hf : p.sPort.fifo = []) : p.grantS c = p.grantData c := by
  simp [Path.grantS, hc, ht, hf]

/-- An idle S-port takes SIDE's head where it is due for promotion, where DATA is empty, or at its turn; a promotion is
counted where DATA would have been next. -/
theorem grantS_side {time : Nat} {y : SItem} {rest : List (Nat × SItem)} (hf : p.sPort.fifo = (time, y) :: rest)
    (h : c.promotes time ∨ p.sPort.noData ∨ p.sPort.sideTurn c) :
    (c.promotes time ∧ ¬ p.sPort.noData ∧ ¬ p.sPort.sideTurn c ∧
        p.grantS c = (p.bump .sidePromotions 1).grantSide c) ∨
      (¬ (c.promotes time ∧ ¬ p.sPort.noData ∧ ¬ p.sPort.sideTurn c) ∧ p.grantS c = p.grantSide c) := by
  rw [← promotionDue_iff c hf, ← dataEmpty_iff, ← sideTurn_iff] at h ⊢
  unfold Path.grantS
  simp only [hc, ht, hf, Option.isNone_none, Bool.and_self, if_true, List.isEmpty_cons, Bool.false_eq_true, if_false]
  cases hp : p.promotionDue c with
  | true =>
    cases hb : !p.sPort.dataEmpty && !p.sideTurn c with
    | true =>
      simp only [Bool.and_eq_true, Bool.not_eq_true'] at hb
      simp [hb.1, hb.2]
    | false =>
      refine .inr ⟨fun g => ?_, rfl⟩
      simp [g.2.1, g.2.2] at hb
  | false =>
    refine .inr ⟨fun g => by simp at g, ?_⟩
    cases hd : p.sPort.dataEmpty with
    | true => rfl
    | false =>
      have hs : p.sideTurn c = true := by simpa [hp, hd] using h
      simp [hs]

/-- An idle S-port is granted to DATA where SIDE's head is neither due for promotion nor at its turn, and DATA has one. -/
theorem grantS_data (h : ∀ time y rest, p.sPort.fifo = (time, y) :: rest → ¬ c.promotes time ∧ ¬ p.sPort.sideTurn c)
    (hd : ¬ p.sPort.noData) : p.grantS c = p.grantData c := by
  cases hf : p.sPort.fifo with
  | nil => exact grantS_empty hc ht hf
  | cons e rest =>
    obtain ⟨time, y⟩ := e
    obtain ⟨hp, hs⟩ := h time y rest hf
    rw [← promotionDue_iff c hf] at hp
    rw [← sideTurn_iff] at hs
    rw [← dataEmpty_iff] at hd
    unfold Path.grantS
    simp only [hc, ht, hf, hp, hs, hd, Option.isNone_none, Bool.and_self, if_true, List.isEmpty_cons, Bool.false_eq_true,
      if_false]

/-- What an idle S-port with its carrier takes of SIDE, and what comes of the place that is left. -/
theorem grantS_takes_side {time : Nat} {y : SItem} {rest : List (Nat × SItem)} (hf : p.sPort.fifo = (time, y) :: rest)
    (h : c.promotes time ∨ p.sPort.noData ∨ p.sPort.sideTurn c) :
    let taken := p.sPort.hold.take (64 - rest.length)
    (p.grantS c).sPort = { p.sPort with
      tx := some y, rotation := 0, fifo := rest ++ taken.map fun z => (c.now, z)
      hold := p.sPort.hold.drop (64 - rest.length) } ∧
    (∀ port, (p.grantS c).queue port = (taken.foldl SItem.placed p).queue port) ∧
    (c.promotes time → ¬ p.sPort.noData → ¬ p.sPort.sideTurn c →
      (p.grantS c).counter .sidePromotions = min max48 (p.counter .sidePromotions + 1)) ∧
    (¬ c.promotes time ∨ p.sPort.noData ∨ p.sPort.sideTurn c →
      (p.grantS c).counter .sidePromotions = p.counter .sidePromotions) := by
  have side (q : Path) (hq : q.sPort = p.sPort) (hqueue : ∀ port, q.queue port = p.queue port) :
      (q.grantSide c).sPort = { p.sPort with
        tx := some y, rotation := 0, fifo := rest ++ (p.sPort.hold.take (64 - rest.length)).map fun z => (c.now, z)
        hold := p.sPort.hold.drop (64 - rest.length) } ∧
      (∀ port, (q.grantSide c).queue port =
        ((p.sPort.hold.take (64 - rest.length)).foldl SItem.placed p).queue port) ∧
      (q.grantSide c).counters = q.counters := by
    unfold Path.grantSide
    rw [hq, hf]
    obtain ⟨hs, hr, hcount, -⟩ := refillS_after c.now
      { q with sPort := { p.sPort with tx := some y, fifo := rest, rotation := 0 } }
    exact ⟨hs, fun port => (hr port).trans (placedList_queue _ sPlaced_queue _
      (fun o => (show _ = q.queue o by cases o <;> rfl).trans (hqueue o)) port), hcount⟩
  rcases grantS_side hc ht hf h with ⟨hp, hd, hs, hg⟩ | ⟨hn, hg⟩
  · obtain ⟨hport, hqueue, hcount⟩ := side (p.bump .sidePromotions 1) rfl (queue_bump p _ _)
    rw [hg]
    refine ⟨hport, hqueue, fun _ _ _ => ?_, fun g => ?_⟩
    · rw [counter_congr hcount, counter_bump_one]
      rfl
    · rcases g with g | g | g
      exacts [absurd hp g, absurd g hd, absurd g hs]
  · obtain ⟨hport, hqueue, hcount⟩ := side p rfl fun _ => rfl
    rw [hg]
    exact ⟨hport, hqueue, fun h1 h2 h3 => absurd ⟨h1, h2, h3⟩ hn, fun _ => counter_congr hcount _⟩

/-- What an idle S-port with its carrier takes of DATA. -/
theorem grantS_takes_data {tag : Nat} {m : Message} {d : SPort}
    (h : ∀ time y rest, p.sPort.fifo = (time, y) :: rest → ¬ c.promotes time ∧ ¬ p.sPort.sideTurn c)
    (hd : p.dataNext tag d) (hm : p.message tag = some m) :
    p.grantS c = { p with sPort := { d with
      tx := some (.message tag m.serial), rotation := min c.tables.settings.rotation (d.rotation + 1) } } := by
  rw [grantS_data hc ht h (dataNext_not_noData hd)]
  have hserial : p.serialOf tag = m.serial := by simp [Path.serialOf, hm]
  unfold Path.grantData
  rw [pickData_of_dataNext hd hm, ← hserial]

/-- An idle S-port with its carrier takes an item wherever one waits. -/
theorem grantS_tx (h : p.sPort.fifo ≠ [] ∨ ¬ p.sPort.noData) : (p.grantS c).sPort.tx ≠ none := by
  have data (hd : ¬ p.sPort.noData) : (p.grantData c).sPort.tx ≠ none := by
    unfold Path.grantData
    split
    · exact nofun
    · rename_i hn
      exact absurd (pickData_none hn) hd
  cases hf : p.sPort.fifo with
  | nil =>
    rw [grantS_empty hc ht hf]
    exact data (h.resolve_left fun g => g hf)
  | cons e rest =>
    obtain ⟨time, y⟩ := e
    by_cases hs : c.promotes time ∨ p.sPort.noData ∨ p.sPort.sideTurn c
    · rw [(grantS_takes_side hc ht hf hs).1]
      exact nofun
    · simp only [not_or] at hs
      rw [grantS_data hc ht (fun t z r g => by rw [hf] at g; cases g; exact ⟨hs.1, hs.2.2⟩) hs.2.1]
      exact data hs.2.1

end

/-- What an idle I-port with its carrier takes of the notice FIFO, and what comes of the place that is left. -/
theorem grantI_takes_fifo {p : Path} (hc : p.iPort.carrier = true) (ht : p.iPort.tx = none) {y : IItem}
    {rest : List IItem} (hp : p.iPort.pace = []) (hf : p.iPort.fifo = y :: rest) :
    let taken := p.iPort.hold.take (64 - rest.length)
    p.grantI.iPort = { p.iPort with
      tx := some y, fifo := rest ++ taken, hold := p.iPort.hold.drop (64 - rest.length) } ∧
    ∀ port, p.grantI.queue port = (taken.foldl IItem.placed p).queue port := by
  unfold Path.grantI
  simp only [hc, ht, hp, hf, Option.isNone_none, Bool.and_self, if_true]
  obtain ⟨hi, hr⟩ := refillI_after { p with iPort := { p.iPort with tx := some y, fifo := rest } }
  refine ⟨?_, fun port => ?_⟩
  · simpa [hc, ht, hp, hf] using hi
  · refine (?_ : _ = _).trans ((hr port).trans (placedList_queue _ iPlaced_queue _
      (fun o => show _ = p.queue o by cases o <;> rfl) port))
    simp only [hc, hp]

/-! ## Where nothing else passes -/

/-- Every request that waits is of a kind the part knows. -/
def allKnown (p : Path) : Prop := ∀ port, ∀ r ∈ (p.queue port).reqs, Request.known r.request = true

/-- An idle S-port with its carrier has nothing to take. -/
def sSettled (p : Path) : Prop :=
  p.sPort.carrier = true → p.sPort.tx = none → p.sPort.fifo = [] ∧ p.sPort.dataEmpty = true

/-- An idle I-port with its carrier has nothing to take. -/
def iSettled (p : Path) : Prop :=
  p.iPort.carrier = true → p.iPort.tx = none → p.iPort.pace = [] ∧ p.iPort.fifo = []

theorem allKnown_of_keeps {p q : Path} (h : Keeps p q) (hp : allKnown p) : allKnown q :=
  fun port r hr => hp port r ((h.queues port).subset hr)

theorem answerUnknown_of_allKnown {p : Path} (h : allKnown p) (c : Control) (x : Index) (port : Port) (n : Nat) :
    Path.answerUnknown c x port n p = p := by
  cases n with
  | zero => rfl
  | succ n =>
    unfold Path.answerUnknown
    split
    · split
      · rename_i number source code rest hq
        have := h port ⟨number, source, .unknown code⟩ (by rw [hq]; exact List.mem_cons_self)
        cases this
      · rfl
    · rfl

theorem answerUnknowns_of_allKnown {p : Path} (h : allKnown p) (c : Control) (x : Index) : p.answerUnknowns c x = p := by
  unfold Path.answerUnknowns
  rw [answerUnknown_of_allKnown h, answerUnknown_of_allKnown h]

theorem grantS_of_sSettled {p : Path} (h : sSettled p) (c : Control) : p.grantS c = p := by
  by_cases hg : p.sPort.carrier = true ∧ p.sPort.tx = none
  · obtain ⟨hf, hd⟩ := h hg.1 hg.2
    rw [grantS_empty hg.1 hg.2 hf, grantData_of_noData ((dataEmpty_iff _).1 hd)]
  · unfold Path.grantS
    rw [if_neg (by simpa using hg)]

theorem grantI_of_iSettled {p : Path} (h : iSettled p) : p.grantI = p := by
  by_cases hg : p.iPort.carrier = true ∧ p.iPort.tx = none
  · obtain ⟨hp, hf⟩ := h hg.1 hg.2
    simp [Path.grantI, hp, hf]
  · unfold Path.grantI
    rw [if_neg (by simpa using hg)]

/-- After a grant the S-port has nothing more to take. -/
theorem grantS_settles (c : Control) (p : Path) : sSettled (p.grantS c) := by
  intro hc ht
  rw [(keeps_grantS c p).sCarrier] at hc
  cases hp : p.sPort.tx with
  | some y =>
    rw [(keeps_grantS c p).sTx (.inl (by rw [hp]; exact nofun)), hp] at ht
    cases ht
  | none =>
    have hnone : p.sPort.fifo = [] ∧ p.sPort.noData := by
      have : ¬ (p.sPort.fifo ≠ [] ∨ ¬ p.sPort.noData) := fun g => grantS_tx hc hp g ht
      simpa only [ne_eq, not_or, not_not] using this
    rw [grantS_empty hc hp hnone.1, grantData_of_noData hnone.2]
    exact ⟨hnone.1, (dataEmpty_iff _).2 hnone.2⟩

/-- After a grant the I-port has nothing more to take. -/
theorem grantI_settles (p : Path) : iSettled p.grantI := by
  intro hc ht
  rw [(keeps_grantI p).iCarrier] at hc
  cases htx : p.iPort.tx with
  | some y =>
    rw [(keeps_grantI p).iTx (.inl (by rw [htx]; exact nofun)), htx] at ht
    cases ht
  | none =>
    cases hpace : p.iPort.pace with
    | cons n rest => simp [Path.grantI, hc, htx, hpace] at ht
    | nil =>
      cases hf : p.iPort.fifo with
      | cons y rest =>
        rw [(grantI_takes_fifo hc htx hpace hf).1] at ht
        cases ht
      | nil =>
        rw [grantI_of_iSettled fun _ _ => ⟨hpace, hf⟩]
        exact ⟨hpace, hf⟩

theorem grantData_iPort (c : Control) (p : Path) : (p.grantData c).iPort = p.iPort := by
  unfold Path.grantData
  split <;> rfl

theorem grantSide_iPort (c : Control) (p : Path) : (p.grantSide c).iPort = p.iPort := by
  unfold Path.grantSide
  split
  · obtain ⟨-, -, -, hi⟩ := refillS_after c.now { p with sPort := _ }
    exact hi
  · rfl

/-- A grant of the S-port leaves the I-port alone. -/
theorem grantS_iPort (c : Control) (p : Path) : (p.grantS c).iPort = p.iPort := by
  unfold Path.grantS
  split
  · split
    · exact grantData_iPort c p
    · split
      · rw [grantSide_iPort]
        split <;> rfl
      · split
        · exact grantSide_iPort c p
        · split
          · exact grantSide_iPort c p
          · exact grantData_iPort c p
  · rfl

/-- Where every request is known and the I-port has nothing to take, a command ends with the grant of the S-port. -/
theorem finish_eq_grantS {p : Path} (hl : p.lostDrained) (hk : allKnown p) (hi : iSettled p) (c : Control) (x : Index) :
    p.finish c x = p.grantS c := by
  have hgrants (q : Path) (h : iSettled q) : q.grants c = q.grantS c := by
    unfold Path.grants
    exact grantI_of_iSettled (by unfold iSettled; rw [grantS_iPort]; exact h)
  unfold Path.finish
  dsimp only
  rw [drainLost_of_drained c x _ hl, answerUnknowns_of_allKnown hk, hgrants p hi,
    answerUnknowns_of_allKnown (allKnown_of_keeps (keeps_grantS c p) hk),
    hgrants _ (by unfold iSettled; rw [grantS_iPort]; exact hi), grantS_of_sSettled (grantS_settles c p)]

/-- Where every request is known and the S-port has nothing to take, a command ends with the grant of the I-port. -/
theorem finish_eq_grantI {p : Path} (hl : p.lostDrained) (hk : allKnown p) (hs : sSettled p) (c : Control) (x : Index) :
    p.finish c x = p.grantI := by
  have hgrants (q : Path) (h : sSettled q) : q.grants c = q.grantI := by
    unfold Path.grants
    rw [grantS_of_sSettled h]
  unfold Path.finish
  dsimp only
  rw [drainLost_of_drained c x _ hl, answerUnknowns_of_allKnown hk, hgrants p hs,
    answerUnknowns_of_allKnown (allKnown_of_keeps (keeps_grantI p) hk),
    hgrants _ (by unfold sSettled; rw [grantI_sPort]; exact hs), grantI_of_iSettled (grantI_settles p)]

/-! ## The commands (R43, R150, R163, R173) -/

/-- What the end of the item being sent makes of the S-port and of the message that it was. -/
def sSent (s : State) (x : SItem) : Path := { s.path with
  sPort := { s.path.sPort with tx := none }
  link := match x.sending with
    | some (tag, serial, _) => { s.path.link with
        inflight := s.path.link.inflight.map fun m =>
          if m.tag = tag ∧ m.serial = serial ∧ m.phase = .sending then
            { m with phase := .awaiting (s.ctl.now + 5000000) }
          else m }
    | none => s.path.link }

/-- A message whose last piece has been sent is the one still in SENDING under its serial. -/
theorem messageSent_eq (p : Path) (c : Control) (tag serial : Nat) :
    p.messageSent c tag serial = { p with link := { p.link with
      inflight := p.link.inflight.map fun m =>
        if m.tag = tag ∧ m.serial = serial ∧ m.phase = .sending then { m with phase := .awaiting (c.now + 5000000) }
        else m } } := by
  have hall (m : Message) :
      (if m.tag = tag then
        if m.serial = serial ∧ m.phase = .sending then { m with phase := .awaiting (c.now + msec 200) } else m
      else m) =
        if m.tag = tag ∧ m.serial = serial ∧ m.phase = .sending then { m with phase := .awaiting (c.now + 5000000) }
        else m := by
    by_cases h : m.tag = tag
    · simp only [h, if_true, true_and]
      rfl
    · simp only [h, if_false, false_and]
  unfold Path.messageSent Path.modMessage
  simp only [hall]

theorem execSPortTransmitDone_eq {s : State} {x : SItem} (h : s.path.sPort.tx = some x) :
    execSPortTransmitDone s = .next (State.finish (s.withPath (sSent s x))) := by
  unfold execSPortTransmitDone sSent
  rw [h]
  rcases hs : x.sending with _ | ⟨tag, serial, made⟩
  · simp only [hs]
  · simp only [hs, messageSent_eq]

theorem sSent_lostDrained {s : State} (h : s.path.lostDrained) (x : SItem) : (sSent s x).lostDrained := by
  unfold Path.lostDrained sSent
  dsimp only
  split <;> exact h

/-- Settles O16: the commands end as the states described, and where nothing else passes they end with the one grant. -/
theorem transmissionsEnd : Obligations.TransmissionsEnd := by
  intro s hl c sSentOf iIdle sGranted iGranted quiet
  refine ⟨fun x hx => ⟨?_, fun hc hq => ?_⟩, fun hx => ?_, fun hc => ?_, fun hc => ?_⟩
  · exact completes_finish (execSPortTransmitDone_eq hx) rfl (sSent_lostDrained hl x)
  · obtain ⟨⟨-, hi⟩, hk⟩ := hq
    have hfin := finish_eq_grantS (p := sSent s x) (sSent_lostDrained hl x)
      (fun port => by cases port; exacts [hk .i, hk .s]) hi s.ctl s.idx
    refine ⟨_, execSPortTransmitDone_eq hx, ?_⟩
    show sGranted (sSent s x) ((sSent s x).finish s.ctl s.idx)
    rw [hfin]
    refine ⟨fun time y rest hf h => grantS_takes_side (p := sSent s x) hc rfl hf h, fun tag m d h hd hm => ?_,
      fun hf hd => ?_⟩
    · rw [grantS_takes_data (p := sSent s x) hc rfl h hd hm]
      exact ⟨rfl, rfl⟩
    · rw [grantS_empty (p := sSent s x) hc rfl hf, grantData_of_noData hd]
  · obtain ⟨y, hy⟩ := Option.ne_none_iff_exists'.1 hx
    have hidle : iIdle = Path.countPace { s.path with iPort := { s.path.iPort with tx := none } } y := by
      simp only [iIdle, hy]
      cases y <;> rfl
    have hexec : exec .iPortTransmitDone s = .next (State.finish (s.withPath iIdle)) := by
      rw [hidle]
      show execIPortTransmitDone s = _
      unfold execIPortTransmitDone
      rw [hy]
    have hsame : iIdle.link = s.path.link ∧ iIdle.sPort = s.path.sPort ∧
        iIdle.iPort = { s.path.iPort with tx := none } ∧ ∀ port, iIdle.queue port = s.path.queue port := by
      rw [hidle]
      cases y <;> exact ⟨rfl, rfl, rfl, fun port => by cases port <;> rfl⟩
    obtain ⟨hlink, hsport, hiport, hqueue⟩ := hsame
    have hdrained : iIdle.lostDrained := lostDrained_of_link hl hlink
    refine ⟨completes_finish hexec rfl hdrained, fun hc hq => ?_⟩
    obtain ⟨⟨hs, -⟩, hk⟩ := hq
    have hfin := finish_eq_grantI hdrained (fun port r hr => hk port r (hqueue port ▸ hr))
      (by unfold sSettled; rw [hsport]; exact hs) s.ctl s.idx
    have hcarrier : iIdle.iPort.carrier = true := by rw [hiport]; exact hc
    have htx : iIdle.iPort.tx = none := by rw [hiport]
    refine ⟨_, hexec, ?_⟩
    show iGranted iIdle (iIdle.finish s.ctl s.idx)
    rw [hfin]
    refine ⟨fun n rest hp => ?_, fun y rest hp hf => grantI_takes_fifo hcarrier htx hp hf, fun hp hf => ?_⟩
    · simp [Path.grantI, hcarrier, htx, hp]
    · rw [grantI_of_iSettled fun _ _ => ⟨hp, hf⟩]
  · refine completes_finish ?_ rfl hl
    show execIPortCarrierDown s = _
    unfold execIPortCarrierDown
    rw [if_pos hc]
  · refine completes_finish ?_ rfl hl
    show execIPortCarrierUp s = _
    unfold execIPortCarrierUp
    rw [hc]
    rfl

end Sys2Proof.Machine.ParcelOrder
end

section
/-! PROOFS. The check word, the Locator Cache and the Digest Unit: what a digest writes and which lookup it lets be issued. -/

namespace Sys2Proof.Machine.ChunkDigests

open Sys2Proof
open Sys2Proof.Machine.ParcelOrder (lostDrained_of_link)

/-! ## The check word (R59) -/

/-- The running sums, begun at any index, are the plain sum and the sum weighted from that index on. -/
theorem checkSums_eq (k : Nat) (bytes : List Byte) : checkSums k bytes =
    ((bytes.map (·.toNat)).sum,
      ((List.range bytes.length).map fun i => (i + k) * (bytes.getD i 0).toNat).sum) := by
  induction bytes generalizing k with
  | nil => rfl
  | cons b bytes ih =>
    have hnext : ∀ i, i + (k + 1) = i + 1 + k := by omega
    simp [checkSums, ih, List.range_succ_eq_map, Function.comp_def, hnext]

theorem checkWord_eq (bytes : List Byte) : checkWord bytes =
    BitVec.ofNat 32 (((List.range bytes.length).map fun i => (i + 1) * (bytes.getD i 0).toNat).sum % 65497 * 65536 +
      (bytes.map (·.toNat)).sum % 65497) := by
  unfold checkWord
  rw [checkSums_eq]
  rfl

/-! ## The Locator Cache (R87) -/

/-- F1 is 32 bits wide, a multiple of the set number's width, so its high end does not count (R60). -/
theorem cacheSet_eq (f : Fingerprint) : cacheSet f = f.toNat / 2 ^ 64 % 8192 :=
  Nat.mod_mod_of_dvd _ (by decide)

/-- The ways of a fingerprint's set become those given; no other set changes, and nothing outside the cache does. -/
def Rewritten (p : Path) (f : Fingerprint) (q : Path) (ways : List (Fingerprint × Nat)) : Prop :=
  q.ways f = ways ∧ (∀ k, k ≠ cacheSet f → tabGetD q.cache k [] = tabGetD p.cache k []) ∧ { q with cache := p.cache } = p

section
variable {p : Path} {f : Fingerprint}

theorem rewritten_setWays (hw : tabWf p.cache = true) (ways : List (Fingerprint × Nat)) :
    Rewritten p f (p.setWays f ways) ways :=
  ⟨tabGetD_tabPut_same hw [] _ ways, fun _ hk => tabGetD_tabPut_other p.cache [] hk ways, rfl⟩

/-- The first way with F gives the address. -/
theorem locate_eq_some_iff {b : Nat} :
    p.locate f = some b ↔ ∃ before after, p.ways f = before ++ (f, b) :: after ∧ ∀ w ∈ before, w.1 ≠ f := by
  unfold Path.locate
  simp only [Option.map_eq_some_iff, List.find?_eq_some_iff_append, decide_eq_true_eq,
    Bool.not_eq_true', decide_eq_false_iff_not]
  constructor
  · rintro ⟨⟨g, a⟩, ⟨rfl, before, after, hways, hbefore⟩, rfl⟩
    exact ⟨before, after, hways, hbefore⟩
  · rintro ⟨before, after, hways, hbefore⟩
    exact ⟨(f, b), ⟨rfl, before, after, hways, hbefore⟩, rfl⟩

theorem locate_install (hw : tabWf p.cache = true) (a : Nat) : (p.install f a).locate f = some a := by
  obtain ⟨hways, -⟩ := rewritten_setWays (f := f) hw (((f, a) :: (p.ways f).filter fun w => w.1 ≠ f).take 8)
  exact locate_eq_some_iff.2 ⟨[], _, hways, by simp⟩

/-- A way that holds F, or one of the empty ones, takes the locator: all other ways stay. -/
theorem rewritten_install_room (hw : tabWf p.cache = true) (a : Nat)
    (hroom : ((p.ways f).filter fun w => w.1 ≠ f).length < 8) :
    Rewritten p f (p.install f a) ((f, a) :: (p.ways f).filter fun w => w.1 ≠ f) := by
  unfold Path.install
  rw [List.take_of_length_le (by simpa using hroom)]
  exact rewritten_setWays hw _

/-- With eight ways full of other fingerprints the last, the least recently used, leaves. -/
theorem rewritten_install_full (hw : tabWf p.cache = true) (a : Nat) {recent : List (Fingerprint × Nat)}
    {last : Fingerprint × Nat} (hways : ((p.ways f).filter fun w => w.1 ≠ f) = recent ++ [last])
    (hfull : ((p.ways f).filter fun w => w.1 ≠ f).length = 8) :
    Rewritten p f (p.install f a) ((f, a) :: recent) := by
  have hrecent : recent.length = 7 := by
    rw [hways] at hfull
    simpa using hfull
  unfold Path.install
  rw [hways, List.take_succ_cons, List.take_left' hrecent]
  exact rewritten_setWays hw _

theorem touch_of_locate {a : Nat} (h : p.locate f = some a) : p.touch f = p.install f a := by
  unfold Path.touch
  rw [h]

/-- Where a way holds F, the others leave one of eight ways free. -/
theorem others_lt_of_locate {a : Nat} (h : p.locate f = some a) (hlen : (p.ways f).length ≤ 8) :
    ((p.ways f).filter fun w => w.1 ≠ f).length < 8 := by
  obtain ⟨before, after, hways, -⟩ := locate_eq_some_iff.1 h
  refine lt_of_lt_of_le (List.length_filter_lt_length_iff_exists.2 ⟨(f, a), ?_, by simp⟩) hlen
  simp [hways]

end

/-! ## The Digest Unit (R57) -/

/-- An item with the digest of its bytes. -/
def digested (x : Context) (i : Item) : Item :=
  { i with
    fp := some (Config.fingerprint (x.bytes i.offset i.length)), check := some (checkWord (x.bytes i.offset i.length)) }

/-- The digest goes to the oldest item that has none. -/
theorem digest_queue {x : Context} {before after : List Item} {i : Item} (hq : x.queue = before ++ i :: after)
    (hi : i.fp = none) (hb : ∀ j ∈ before, j.fp ≠ none) :
    x.digest = { x with queue := before ++ digested x i :: after } := by
  have hfirst : digestFirst (fun i => x.bytes i.offset i.length) (before ++ i :: after) =
      before ++ digested x i :: after := by
    clear hq
    induction before with
    | nil => simp [digestFirst, hi, digested]
    | cons j before ih =>
      have hj : j.fp.isNone = false := Option.isNone_eq_false_iff.2 (Option.ne_none_iff_isSome.1 <| hb j List.mem_cons_self)
      simp [digestFirst, hj, ih fun j hm => hb j (List.mem_cons_of_mem _ hm)]
  rw [← hfirst, ← hq]
  rfl

theorem execDigestComplete_eq {s : State} {slot : Nat} {x : Context} {i : Item}
    (hx : tabGet s.path.contexts slot = some x) (hm : i ∈ x.queue) (hi : i.fp = none) :
    execDigestComplete slot s = .next (State.finish (s.withPath ((s.path.withCtx slot x.digest).issueNext slot))) := by
  have hd : x.digesting = true := List.any_eq_true.2 ⟨i, hm, by simp [hi]⟩
  unfold execDigestComplete
  simp only [hx, hd, if_true]
  rfl

/-! ## Issuing lookups (R86, R88) -/

/-- A lookup is sent and counted, its stream's context standing as given. -/
def sent (p : Path) (slot : Nat) (x : Context) (o : LookupOp) : Path :=
  Path.bump { p with contexts := tabSet p.contexts slot x, lookups := p.lookups ++ [o] } .lookupsIssued 1

/-- What a context was before its lookup was sent is written over. -/
theorem sent_withCtx (p : Path) (slot : Nat) (x y : Context) (o : LookupOp) :
    sent (p.withCtx slot x) slot y o = sent p slot y o := by
  simp [sent, Path.withCtx, tabSet_twice]

section
variable {p : Path} {slot : Nat} {x : Context} {i : Item} {f : Fingerprint} {k : Word32}

theorem issueLookup_miss (h : p.locate f = none) : (p.withCtx slot x).issueLookup slot x i f k =
    sent p slot (x.modItem i.ordinal fun j => { j with issued := true }) (lookupOf slot x i f k none) := by
  have hmiss : (p.withCtx slot x).locate f = none := h
  rw [← sent_withCtx p slot x]
  unfold Path.issueLookup
  rw [hmiss]
  rfl

theorem issueLookup_hit {a : Nat} (h : p.locate f = some a) : (p.withCtx slot x).issueLookup slot x i f k =
    sent ((p.touch f).bump .locatorHits 1) slot (x.modItem i.ordinal fun j => { j with issued := true })
      (lookupOf slot x i f k (some a)) := by
  have hhit : (p.withCtx slot x).locate f = some a := h
  rw [← sent_withCtx _ slot x, touch_of_locate h]
  unfold Path.issueLookup
  rw [hhit, touch_of_locate hhit]
  rfl

/-- The oldest item that has not been issued is issued with its digest. -/
theorem issueNext_eq {before after : List Item} (hx : tabGet p.contexts slot = some x) (hr : x.state.reading = true)
    (hq : x.queue = before ++ i :: after) (hb : ∀ j ∈ before, j.issued = true) (hi : i.issued = false)
    (hf : i.fp = some f) (hk : i.check = some k) : p.issueNext slot = p.issueLookup slot x i f k := by
  have hfind : (x.queue.find? fun i => !i.issued) = some i :=
    List.find?_eq_some_iff_append.2 ⟨by simp [hi], before, after, hq, fun j hj => by simp [hb j hj]⟩
  unfold Path.issueNext
  simp only [hx, hr, if_true, hfind, hf, hk]

theorem issueNext_of_not_reading (hx : tabGet p.contexts slot = some x) (hr : x.state.reading = false) :
    p.issueNext slot = p := by
  unfold Path.issueNext
  simp [hx, hr]

end

/-- Settles O53: the check word by induction over the bytes, the Locator Cache by reads of a set after its ways are written,
and a digest by the first item without one. -/
theorem digestsAreTakenAndLookupsIssued : Obligations.DigestsAreTakenAndLookupsIssued := by
  refine ⟨checkWord_eq, fun p f a hw => ?_, fun s slot x before after i => ?_⟩
  · intro n
    have hn : n = cacheSet f := (cacheSet_eq f).symm
    clear_value n
    subst hn
    exact ⟨fun b => locate_eq_some_iff, locate_install hw a, rewritten_install_room hw a,
      fun recent last => rewritten_install_full hw a,
      fun b hb hlen => touch_of_locate hb ▸ rewritten_install_room hw b (others_lt_of_locate hb hlen),
      rewritten_setWays hw _, rewritten_setWays hw _⟩
  · intro bytes f _ y lookup issued hl hx hq hfp hissued hdigests
    have hy : x.digest = y := digest_queue hq hfp hdigests
    have hexec : exec (.digestComplete slot) s =
        .next (State.finish (s.withPath ((s.path.withCtx slot y).issueNext slot))) :=
      hy ▸ execDigestComplete_eq hx (by simp [hq]) hfp
    have hget : tabGet (s.path.withCtx slot y).contexts slot = some y := withCtx_get s.path slot y
    refine ⟨fun hbefore hr => ?_, fun hr => ?_⟩
    · have hnext := issueNext_eq hget hr (i := digested x i) rfl hbefore hissued rfl rfl
      refine ⟨fun hmiss => ?_, fun a hhit => ?_⟩
      · rw [hnext.trans (issueLookup_miss hmiss)] at hexec
        exact completes_finish hexec rfl hl
      · rw [hnext.trans (issueLookup_hit hhit)] at hexec
        refine completes_finish hexec rfl (lostDrained_of_link hl ?_)
        rw [touch_of_locate hhit]
        rfl
    · rw [issueNext_of_not_reading hget hr] at hexec
      exact completes_finish hexec rfl hl

end Sys2Proof.Machine.ChunkDigests
end

section
/-! PROOFS. The request queues: every operation of the data path leaves in them the last of the requests there were. -/

namespace Sys2Proof.Machine.FingerprintIndex

open Sys2Proof

/-! ## Requests leave a queue from its head alone (R191)

Each rule says of an operation that the requests left in the queues of `q` stay the last of those of `p`. -/

/-- The requests that wait in the second data path are the last of those that wait in the first. -/
def QueuesFall (p q : Path) : Prop := ∀ port, (q.queue port).reqs <:+ (p.queue port).reqs

variable {p q : Path} {c : Control} {x : Index}

namespace QueuesFall

theorem refl (p : Path) : QueuesFall p p := fun _ => List.suffix_refl _

theorem trans {r : Path} (a : QueuesFall p q) (b : QueuesFall q r) : QueuesFall p r := fun port => (b port).trans (a port)

/-- What the end of a command keeps, it keeps of the request queues. -/
theorem keeps {r : Path} (h : QueuesFall p q) (k : Keeps q r) : QueuesFall p r := h.trans k.queues

theorem foldl {α : Type} {f : Path → α → Path} (hf : ∀ p q a, QueuesFall p q → QueuesFall p (f q a)) {l : List α}
    (h : QueuesFall p q) : QueuesFall p (l.foldl f q) := by
  induction l generalizing q with
  | nil => exact h
  | cons a l ih => exact ih (hf p q a h)

theorem setHead (h : QueuesFall p q) {port : Port} {st : HeadState} : QueuesFall p (q.setHead port st) :=
  h.keeps (keeps_setQueue q port { q.queue port with head := st } (List.suffix_refl _))

theorem popQueue (h : QueuesFall p q) {port : Port} : QueuesFall p (q.popQueue port) :=
  h.keeps (keeps_setQueue q port _ (List.tail_suffix _))

/-! ## Changes outside the request queues -/

variable {slot ordinal before : Nat}

theorem bump (h : QueuesFall p q) {k : Counter} {n : Nat} : QueuesFall p (q.bump k n) := h

theorem bumpIf (h : QueuesFall p q) {k : Counter} {n : Nat} {b : Bool} : QueuesFall p (if b then q.bump k n else q) := by
  split <;> exact h

theorem setFlag (h : QueuesFall p q) {f : Flag} : QueuesFall p (q.setFlag f) := h

theorem modCtx (h : QueuesFall p q) {f : Context → Context} : QueuesFall p (q.modCtx slot f) := h

theorem modItem (h : QueuesFall p q) {f : Item → Item} : QueuesFall p (q.modItem slot ordinal f) := h

theorem answer (h : QueuesFall p q) : QueuesFall p (q.answer slot) := h

theorem removeMessage (h : QueuesFall p q) {tag : Nat} : QueuesFall p (q.removeMessage tag) := h

theorem modMessage (h : QueuesFall p q) {tag : Nat} {f : Message → Message} : QueuesFall p (q.modMessage tag f) := h

theorem stopSending (h : QueuesFall p q) {m : Message} : QueuesFall p (q.stopSending c m) := h

/-- A change that leaves both request queues as they are. -/
theorem same {r : Path} (h : QueuesFall p q) (hi : r.iQueue = q.iQueue) (hs : r.sQueue = q.sQueue) : QueuesFall p r := by
  intro port
  cases port
  · have hp := h .i
    unfold Path.queue at *
    rwa [hi]
  · have hp := h .s
    unfold Path.queue at *
    rwa [hs]

theorem install (h : QueuesFall p q) {f : Fingerprint} {a : Nat} : QueuesFall p (q.install f a) := h.same rfl rfl

theorem invalidate (h : QueuesFall p q) {f : Fingerprint} {a : Nat} : QueuesFall p (q.invalidate f a) := h.same rfl rfl

theorem dropWay (h : QueuesFall p q) {f : Fingerprint} : QueuesFall p (q.dropWay f) := h.same rfl rfl

/-! ## Notices, messages and replies -/

theorem sendNotice (h : QueuesFall p q) {n : Notice} : QueuesFall p (q.sendNotice n) := by
  unfold Path.sendNotice
  split
  · exact trans (q := { q with iPort := _ }) h (keeps_joinI q (.notice n none)).queues
  · split
    · exact h
    · exact trans (q := { q with iPort := _ }) h (keeps_holdI q (.notice n none)).queues

theorem offerS (h : QueuesFall p q) {now : Nat} {y : SItem} : QueuesFall p (q.offerS now y) := by
  unfold Path.offerS
  split
  · exact trans (q := { q with sPort := _ }) h (keeps_joinS q now y).queues
  · exact trans (q := { q with sPort := _ }) h (keeps_holdS q y).queues

theorem refillS (h : QueuesFall p q) {now n : Nat} : QueuesFall p (Path.refillS now n q) :=
  h.keeps (keeps_refillS now n q)

theorem withdraw (h : QueuesFall p q) {now tag : Nat} : QueuesFall p (q.withdraw now tag) := by
  unfold Path.withdraw
  refine refillS ?_
  exact h

theorem withdrawAll (h : QueuesFall p q) {now : Nat} : QueuesFall p (q.withdrawAll now) := by
  unfold Path.withdrawAll
  refine refillS ?_
  exact h

theorem sendReply (h : QueuesFall p q) {now : Nat} {port : Port} {r : Reply} : QueuesFall p (q.sendReply now port r) :=
  h.keeps (keeps_sendReply q now port r)

theorem respond (h : QueuesFall p q) {now : Nat} {port : Port} {r : Req} {a : Answer} :
    QueuesFall p (q.respond now port r a) := h.keeps (keeps_respond q now port r a)

theorem askSeals (h : QueuesFall p q) {l : List SealRec} : QueuesFall p (q.askSeals l) := by
  rw [askSeals_eq]
  exact h

theorem closeBatch (h : QueuesFall p q) : QueuesFall p q.closeBatch := by
  unfold Path.closeBatch
  split <;> exact h

theorem joinBatch (h : QueuesFall p q) {y : RefItem} : QueuesFall p (q.joinBatch c y) := by
  unfold Path.joinBatch
  dsimp only
  split
  · exact closeBatch h
  · exact h

/-! ## Streams -/

theorem testStop (h : QueuesFall p q) : QueuesFall p (q.testStop c slot before) := by
  unfold Path.testStop
  repeat' split
  all_goals exact h

theorem testGo (h : QueuesFall p q) : QueuesFall p (q.testGo slot before) := by
  unfold Path.testGo
  repeat' split
  all_goals exact h

theorem repeatStop (h : QueuesFall p q) : QueuesFall p (q.repeatStop c slot) := by
  unfold Path.repeatStop
  repeat' split
  all_goals exact h

theorem quotaStop (h : QueuesFall p q) : QueuesFall p (q.quotaStop c slot) := by
  unfold Path.quotaStop
  repeat' split
  exacts [h, repeatStop h, h]

theorem settle (h : QueuesFall p q) : QueuesFall p (q.settle slot ordinal) := by
  unfold Path.settle
  split
  exacts [testGo h, h]

theorem endRecords (h : QueuesFall p q) : QueuesFall p (q.endRecords slot) := by
  unfold Path.endRecords
  repeat' split
  exacts [closeBatch h, h, h, h]

theorem endStream (h : QueuesFall p q) {y : Context} {cls : EndClass} {cause : Option Cause} :
    QueuesFall p (q.endStream c slot y cls cause) := by
  have hn : QueuesFall p (q.sendNotice (.summary y.source (y.closeSummary slot cls cause c.calendar))) := sendNotice h
  unfold Path.endStream Path.askRewrite
  dsimp only
  split <;> exact hn

theorem endWork (h : QueuesFall p q) : QueuesFall p (q.endWork c slot) := by
  unfold Path.endWork
  repeat' split
  exacts [endStream h, endStream h, h, h]

theorem check (h : QueuesFall p q) : QueuesFall p (q.check c slot) := endWork (endRecords h)

theorem checkAll (h : QueuesFall p q) {l : List Nat} : QueuesFall p (q.checkAll c l) := foldl (fun _ _ _ h => check h) h

theorem quiesce (h : QueuesFall p q) {cls : EndClass} {cause : Option Cause} {fp : Option (Nat × Nat)} :
    QueuesFall p (q.quiesce slot cls cause fp) := by
  unfold Path.quiesce
  repeat' split
  all_goals exact h

theorem abnormal (h : QueuesFall p q) {cause : Cause} : QueuesFall p (q.abnormal slot cause) := quiesce h

theorem storeLost (h : QueuesFall p q) {offset : Nat} : QueuesFall p (q.storeLost slot offset ordinal) := quiesce h

theorem testOverlength (h : QueuesFall p q) : QueuesFall p (q.testOverlength slot) := by
  unfold Path.testOverlength
  repeat' split
  exacts [abnormal h, h, h]

theorem runChunker (h : QueuesFall p q) : QueuesFall p (q.runChunker c slot) := check (testOverlength h)

theorem endOpening (h : QueuesFall p q) : QueuesFall p (q.endOpening c slot) := by
  unfold Path.endOpening
  split
  · split
    · exact runChunker h
    · exact h
  · exact h

theorem late (h : QueuesFall p q) {source : Mac} {y : Context} {kind : LateKind} : QueuesFall p (q.late source y kind) :=
  sendNotice (q := q.bump .lateParcels 1) h

theorem refuseOpen (h : QueuesFall p q) {o : OpenAsk} {reason : OpenReason} : QueuesFall p (q.refuseOpen o reason slot) :=
  sendNotice (q := q.bump .opensRefused 1) h

theorem acceptOpen (h : QueuesFall p q) {o : OpenAsk} : QueuesFall p (q.acceptOpen c o slot) := by
  refine sendNotice (q := Path.bump { q with contexts := _, eor := _ } .opensAccepted 1) (n := _) ?_
  exact h

theorem openLast (h : QueuesFall p q) {o : OpenAsk} : QueuesFall p (q.openLast c o).1 := by
  unfold Path.openLast
  repeat' split
  exacts [refuseOpen h, refuseOpen h, acceptOpen h]

theorem openChecks (h : QueuesFall p q) {o : OpenAsk} : QueuesFall p (q.openChecks c o).1 := by
  unfold Path.openChecks
  dsimp only
  repeat' split
  exacts [refuseOpen h, refuseOpen h, refuseOpen h, refuseOpen h, openLast (q := q.freeCtx _) h, refuseOpen h, openLast h]

/-! ## Staging -/

theorem overrun (h : QueuesFall p q) {why : PlaceCheck} : QueuesFall p (q.overrun c slot why) := by
  cases why with
  | quota => exact quotaStop h
  | pool => exact h
  | fits => exact h

theorem joinReorder (n : Nat) (h : QueuesFall p q) : QueuesFall p (Path.joinReorder c slot n q) := by
  induction n generalizing q with
  | zero => exact h
  | succ n ih =>
    unfold Path.joinReorder
    split
    · exact h
    · split
      · exact h
      · split
        · exact h
        · dsimp only
          split
          · exact ih (testGo (testStop (q := { q with contexts := tabSet _ _ _ }) h))
          · exact testGo (overrun (q := { q with contexts := tabSet _ _ _ }) h)

/-- A context that has taken a parcel repeats its STOP or tests for one. -/
theorem pace (h : QueuesFall p q) {stopped : Prop} [Decidable stopped] :
    QueuesFall p (if stopped then q.repeatStop c slot else q.testStop c slot before) := by
  split
  exacts [repeatStop h, testStop h]

theorem takeInOrder (h : QueuesFall p q) {y : Context} {payload : List Byte} :
    QueuesFall p (q.takeInOrder c slot y payload) := by
  unfold Path.takeInOrder
  split
  · exact joinReorder 8 (pace (q := { q with contexts := tabSet _ _ _ }) h)
  · exact overrun h

theorem takeEarly (h : QueuesFall p q) {y : Context} {seq : Nat} {payload : List Byte} :
    QueuesFall p (q.takeEarly c slot y seq payload) := by
  unfold Path.takeEarly
  split
  · exact h
  · split
    · exact pace (q := { q with contexts := tabSet _ _ _ }) h
    · exact overrun h

theorem takeData (h : QueuesFall p q) {y : Context} {seq : Nat} {payload : List Byte} :
    QueuesFall p (q.takeData c slot y seq payload) := by
  unfold Path.takeData
  split
  exacts [h, runChunker (takeInOrder h), takeEarly h]

theorem takeClose (h : QueuesFall p q) {y : Context} {final total : Nat} :
    QueuesFall p (q.takeClose c slot y final total) := by
  unfold Path.takeClose
  split
  · exact check (abnormal (q := { q with contexts := tabSet _ _ _ }) h)
  · exact runChunker (testGo (q := { q with contexts := tabSet _ _ _ }) h)

theorem gapTick (h : QueuesFall p q) : QueuesFall p (q.gapTick c slot) := by
  unfold Path.gapTick
  dsimp only
  repeat' split
  · refine check (abnormal ?_)
    exact h
  all_goals exact h

/-! ## The sweeper -/

theorem makeBatch (h : QueuesFall p q) {n : Nat} : QueuesFall p (q.makeBatch n) := by
  unfold Path.makeBatch
  split <;> exact h

theorem sweepFrom (n : Nat) {pos : SweepPos} (h : QueuesFall p q) : QueuesFall p (Path.sweepFrom x n pos q) := by
  induction n generalizing pos q with
  | zero => exact h
  | succ n ih =>
    have hb : QueuesFall p (q.makeBatch q.sweeper.unbatched.length) := makeBatch h
    unfold Path.sweepFrom
    dsimp only
    repeat' split
    · exact h
    · refine ih ?_
      exact hb
    · exact hb

theorem sweepOn (h : QueuesFall p q) {pos : SweepPos} : QueuesFall p (q.sweepOn x pos) := sweepFrom 2 h

theorem startSweep (h : QueuesFall p q) : QueuesFall p (q.startSweep x) := by
  unfold Path.startSweep
  split
  exacts [sweepOn h, h]

theorem startIf (h : QueuesFall p q) {rolled : Bool} : QueuesFall p (q.startIf x rolled) := by
  unfold Path.startIf
  split
  exacts [startSweep h, h]

theorem resumeSweep (h : QueuesFall p q) : QueuesFall p (q.resumeSweep x) := by
  unfold Path.resumeSweep
  split
  exacts [sweepOn h, h]

theorem takeBatch (h : QueuesFall p q) : QueuesFall p (q.takeBatch x) := by
  unfold Path.takeBatch
  refine resumeSweep ?_
  exact h

theorem joinRelease (h : QueuesFall p q) {items : List RelItem} : QueuesFall p (q.joinRelease items) := by
  unfold Path.joinRelease
  dsimp only
  repeat' split
  all_goals first | exact h | (refine makeBatch ?_; exact h)

theorem waitSweep (h : QueuesFall p q) {pos : SweepPos} : QueuesFall p (q.waitSweep x pos) := by
  unfold Path.waitSweep
  refine resumeSweep ?_
  exact makeBatch (n := q.sweeper.unbatched.length) h

/-! ## The store link -/

theorem containerAnswer (h : QueuesFall p q) {id length : Nat} {failed : Bool} :
    QueuesFall p (q.containerAnswer id length failed) := by
  unfold Path.containerAnswer
  refine askSeals ?_
  exact h

theorem chunkOutcome (h : QueuesFall p q) {r : ChunkRec} {accepted : Bool} :
    QueuesFall p (q.chunkOutcome r accepted) := by
  unfold Path.chunkOutcome
  split <;> exact h

theorem refsAnswered (h : QueuesFall p q) {items : List RefItem} : QueuesFall p (q.refsAnswered items) :=
  foldl (f := fun (q : Path) (i : RefItem) => q.answer i.slot) (fun _ _ _ h => h) h

theorem refsLost (h : QueuesFall p q) {items : List RefItem} : QueuesFall p (q.refsLost items) := by
  refine foldl (fun _ q n h => ?_) h
  split
  exacts [storeLost h, h]

theorem accept (h : QueuesFall p q) {m : Content} : QueuesFall p (q.accept c m) := by
  unfold Path.accept
  split
  exacts [check (chunkOutcome (answer (settle (containerAnswer h)))), checkAll (refsAnswered h), h, h]

theorem fail (h : QueuesFall p q) {m : Content} : QueuesFall p (q.fail c m) := by
  unfold Path.fail
  split
  · exact check (bump (chunkOutcome (storeLost (answer (settle (containerAnswer h))))))
  · exact checkAll (bump (refsLost (refsAnswered h)))
  · exact h
  · exact h

theorem handFirst (h : QueuesFall p q) {now : Nat} {m : Message} : QueuesFall p (q.handFirst now m) := by
  unfold Path.handFirst
  split
  exacts [h, h, offerS h]

theorem issue (h : QueuesFall p q) {tag : Nat} {content : Content} : QueuesFall p (q.issue c tag content) := by
  unfold Path.issue
  refine handFirst (bump ?_)
  exact h

theorem failMessage (h : QueuesFall p q) {m : Message} : QueuesFall p (q.failMessage c m) :=
  fail (withdraw (removeMessage h))

theorem resendDue (h : QueuesFall p q) {m : Message} : QueuesFall p (q.resendDue c m) := by
  unfold Path.resendDue
  repeat' split
  exacts [h, h, failMessage (setFlag (bump h))]

theorem retryWait (h : QueuesFall p q) {tag : Nat} : QueuesFall p (q.retryWait c tag) :=
  withdraw (modMessage h)

theorem failRequest (h : QueuesFall p q) {r : TagRequest} : QueuesFall p (q.failRequest c x r) := by
  unfold Path.failRequest
  repeat' split
  exacts [fail h, takeBatch (fail h), h]

theorem drainLost (n : Nat) (h : QueuesFall p q) : QueuesFall p (Path.drainLost c x n q) := by
  induction n generalizing q with
  | zero => exact h
  | succ n ih =>
    unfold Path.drainLost
    repeat' split
    · exact h
    · refine ih (bump (failRequest ?_))
      exact h
    · exact h

/-- Whatever a command ends with, requests leave their queues from the head alone. -/
theorem finish (h : QueuesFall p q) : QueuesFall p (q.finish c x) :=
  (drainLost q.tagWork h).keeps (keeps_finish_tail _ c x)

theorem sCarrierDown (h : QueuesFall p q) : QueuesFall p (q.sCarrierDown c) := by
  unfold Path.sCarrierDown
  refine bump (withdrawAll ?_)
  exact h

theorem resendAll (h : QueuesFall p q) {l : List Message} : QueuesFall p (q.resendAll c l) :=
  foldl (fun _ _ _ h => resendDue h) h

theorem sCarrierUp (h : QueuesFall p q) : QueuesFall p (q.sCarrierUp c) := by
  unfold Path.sCarrierUp
  dsimp only
  split
  · refine resendAll ?_
    exact h
  · exact h

theorem failAll (h : QueuesFall p q) {l : List Message} : QueuesFall p (q.failAll c l) :=
  foldl (f := fun q m => (q.failMessage c m).bump .messagesLinkLost 1) (fun _ _ _ h => failMessage h) h

theorem grantTag (h : QueuesFall p q) {tag : Nat} : QueuesFall p (q.grantTag c x tag) := by
  unfold Path.grantTag
  dsimp only
  repeat' split
  · exact h
  · refine issue ?_
    exact h
  · refine takeBatch (issue ?_)
    exact h
  · exact h

theorem countPace (h : QueuesFall p q) {y : IItem} : QueuesFall p (q.countPace y) := by
  unfold Path.countPace
  split <;> exact h

theorem takeAnswer (h : QueuesFall p q) {m : Message} {v : Verdict} : QueuesFall p (q.takeAnswer c m v) := by
  cases v with
  | accept => exact accept (bump (withdraw (removeMessage (stopSending h))))
  | busy => exact retryWait (bump (stopSending h))
  | fail => exact failMessage (stopSending h)

/-! ## Lookups, placements and results -/

theorem installAll (h : QueuesFall p q) {l : List (Fingerprint × Nat)} : QueuesFall p (q.installAll l) := by
  unfold Path.installAll
  refine foldl (fun _ _ _ hq => ?_) h
  exact install hq

theorem touch (h : QueuesFall p q) {f : Fingerprint} : QueuesFall p (q.touch f) := by
  unfold Path.touch
  split
  exacts [install h, h]

theorem issueLookup (h : QueuesFall p q) {y : Context} {i : Item} {f : Fingerprint} {k : Word32} :
    QueuesFall p (q.issueLookup slot y i f k) := by
  have ht : QueuesFall p (match q.locate f with | some _ => (q.touch f).bump .locatorHits 1 | none => q) := by
    split
    exacts [bump (touch h), h]
  exact ht

theorem issueNext (h : QueuesFall p q) : QueuesFall p (q.issueNext slot) := by
  unfold Path.issueNext
  repeat' split
  exacts [issueLookup h, h, h, h, h]

theorem countPinned (h : QueuesFall p q) : QueuesFall p (q.countPinned before) := by
  unfold Path.countPinned
  split <;> exact h

theorem judgeHeld (h : QueuesFall p q) {o : LookupOp} {a : Nat} {e : Entry} :
    QueuesFall p (judgeHeld c x q o a e).path := by
  have hc : QueuesFall p (q.countPinned e.count) := countPinned h
  unfold Machine.judgeHeld
  dsimp only
  repeat' split
  exacts [h, h, hc, hc]

theorem place (h : QueuesFall p q) {cls length : Nat} : QueuesFall p (q.place slot cls length).1 := by
  unfold Path.place
  dsimp only
  split
  · refine bumpIf (askSeals ?_)
    exact h
  · refine abnormal (bump (bumpIf (askSeals ?_)))
    exact h

theorem judgeMiss (h : QueuesFall p q) {o : LookupOp} {page : Nat} : QueuesFall p (judgeMiss c x q o page).path := by
  have hp : QueuesFall p (q.place o.slot o.cls o.length).1 := place h
  unfold Machine.judgeMiss
  split
  · exact h
  · split
    · exact h
    · split <;> rename_i he <;> rw [he] at hp <;> exact hp

theorem judge (h : QueuesFall p q) {o : LookupOp} : QueuesFall p (judge c x q o).path := by
  unfold Machine.judge judgeVerify
  repeat' split
  exacts [h, h, h, h, h, judgeHeld h, judgeMiss h]

theorem handOn (h : QueuesFall p q) {y : Context} {i : Item} {o : ChunkOutcome} :
    QueuesFall p (q.handOn c slot y i o) := by
  unfold Path.handOn
  repeat' split
  · exact h
  · exact h
  · exact settle h
  · exact settle (q := (q.modCtx slot _).holdRef _ slot _) h
  · exact settle (joinBatch (q := q.modCtx slot _) h)
  · exact settle h

theorem retireHeads (n : Nat) (h : QueuesFall p q) : QueuesFall p (Path.retireHeads c slot n q) := by
  induction n generalizing q with
  | zero => exact h
  | succ n ih =>
    unfold Path.retireHeads
    repeat' split
    · refine ih (q := Path.modCtx _ slot _) ?_
      exact handOn (q := { q with contexts := tabSet _ _ _ }) h
    all_goals exact h

theorem resolve (h : QueuesFall p q) : QueuesFall p (q.resolve c slot) := check (retireHeads 32 h)

theorem cacheResult (h : QueuesFall p q) {r : LookupResult} : QueuesFall p (q.cacheResult r) := by
  have hd : QueuesFall p (if r.stale then (q.dropWay r.fp).bump .staleLocators 1 else q) := by
    split
    exacts [bump (dropWay h), h]
  unfold Path.cacheResult
  dsimp only
  split
  exacts [install hd, install hd, hd]

theorem askPlacement (h : QueuesFall p q) : QueuesFall p (q.askPlacement slot ordinal) := by
  unfold Path.askPlacement
  repeat' split
  all_goals exact h

theorem takeResult (h : QueuesFall p q) {r : LookupResult} : QueuesFall p (q.takeResult c r) := by
  have hc : QueuesFall p (q.cacheResult r) := cacheResult h
  unfold Path.takeResult
  dsimp only
  split
  · exact askPlacement (q := Path.modItem _ _ _ _) hc
  · exact resolve (q := Path.modItem _ _ _ _) hc

theorem takePlacement (h : QueuesFall p q) {r : PlaceReq} : QueuesFall p (q.takePlacement c r) := by
  have hp : QueuesFall p (q.place r.slot r.cls r.length).1 := place h
  unfold Path.takePlacement
  split <;> rename_i he <;> rw [he] at hp <;> exact resolve (q := Path.modItem _ _ _ _) hp

theorem waiterLive (h : QueuesFall p q) {e : Entry} {w : Waiter} : QueuesFall p (q.waiterLive c e w) := by
  unfold Path.waiterLive
  split
  exacts [joinBatch h, h]

theorem waiterLost (h : QueuesFall p q) {w : Waiter} : QueuesFall p (q.waiterLost w) := by
  unfold Path.waiterLost
  split <;> exact h

theorem waitersTold (h : QueuesFall p q) {l : List Waiter} : QueuesFall p (q.waitersTold l) := by
  refine foldl (fun _ q n h => ?_) h
  split
  exacts [storeLost h, h]

theorem countRelease (h : QueuesFall p q) {o : ReleaseOp} : QueuesFall p (q.countRelease o) := by
  unfold Path.countRelease
  split <;> exact h

theorem takeRelease (h : QueuesFall p q) {o : ReleaseOp} : QueuesFall p (takeRelease x q o).2 :=
  countRelease (invalidate h)

/-! ## Parcels -/

variable {port : Port} {source : Mac} {branch stream : Nat}

theorem openArrives (h : QueuesFall p q) {mode endMode expected : Nat} :
    QueuesFall p (q.openArrives c port source branch stream mode endMode expected) := by
  unfold Path.openArrives
  split
  exacts [h, openChecks h]

theorem dataWithoutContext (h : QueuesFall p q) {seq : Nat} {payload : List Byte} :
    QueuesFall p (q.dataWithoutContext c source branch stream seq payload) := by
  have ho : QueuesFall p (q.openChecks c ⟨source, branch, stream, 1, 0, 0, true⟩).1 := openChecks h
  unfold Path.dataWithoutContext
  split
  · split <;> rename_i he <;> rw [he] at ho
    · split
      exacts [takeData ho, ho]
    · exact ho
  · exact h

theorem dataArrives (h : QueuesFall p q) {seq : Nat} {payload : List Byte} :
    QueuesFall p (q.dataArrives c port source branch stream seq payload) := by
  unfold Path.dataArrives
  repeat' split
  exacts [h, takeData h, late h, dataWithoutContext h]

theorem closeArrives (h : QueuesFall p q) {final total : Nat} :
    QueuesFall p (q.closeArrives c port source branch stream final total) := by
  unfold Path.closeArrives
  repeat' split
  exacts [h, takeClose h, takeClose h, h, late h, late h, h]

theorem abortArrives (h : QueuesFall p q) : QueuesFall p (q.abortArrives c port source branch stream) := by
  unfold Path.abortArrives
  repeat' split
  exacts [h, check (quiesce h), late h, h]

theorem answerArrives (h : QueuesFall p q) {tag serial : Nat} {verdict : Verdict} :
    QueuesFall p (q.answerArrives c port tag serial verdict) := by
  unfold Path.answerArrives
  split
  exacts [takeAnswer h, h]

theorem fcsError (h : QueuesFall p q) : QueuesFall p (q.fcsError port) := by
  cases port <;> exact h

theorem malformed (h : QueuesFall p q) : QueuesFall p (q.malformed port) := by
  cases port <;> exact h

theorem forward (h : QueuesFall p q) {frame : List Byte} : QueuesFall p (q.forward c port frame) := by
  unfold Path.forward
  repeat' split
  all_goals exact h

theorem refuseFull (h : QueuesFall p q) {now : Nat} {r : Req} : QueuesFall p (q.refuseFull now port r) := by
  unfold Path.refuseFull
  dsimp only
  split
  · exact sendReply (q := q.bump .requestsQueueFull 1) h
  · exact h

/-! ## Requests and resets -/

theorem countMode (h : QueuesFall p q) {changed : Bool} : QueuesFall p (q.countMode changed) := by
  unfold Path.countMode
  split <;> exact h

theorem countIf (h : QueuesFall p q) {taken : Bool} {k : Counter} : QueuesFall p (q.countIf taken k) := by
  unfold Path.countIf
  split <;> exact h

theorem clearFlagsAnswer (h : QueuesFall p q) {mask : Mask16} : QueuesFall p (clearFlagsAnswer q mask).1 := by
  unfold Machine.clearFlagsAnswer
  split <;> exact h

theorem readCountersAnswer (h : QueuesFall p q) {option : Nat} : QueuesFall p (readCountersAnswer q option).1 := by
  unfold Machine.readCountersAnswer
  repeat' split
  all_goals exact h

theorem forceEndAnswer (h : QueuesFall p q) : QueuesFall p (forceEndAnswer c q slot).1 := by
  unfold Machine.forceEndAnswer
  repeat' split
  exacts [check (abnormal h), h, h, h, h]

theorem restoreProgress (h : QueuesFall p q) {now : Nat} {r : Req} {answers : List (Option RestoreAnswer)} :
    QueuesFall p (q.restoreProgress now port r answers) := by
  unfold Path.restoreProgress
  split
  · exact respond (q := q.bump .entriesRestored _) h
  · exact setHead h

theorem restorePinned (h : QueuesFall p q) {i : RestoreEntry} {a : RestoreAnswer} :
    QueuesFall p (q.restorePinned i a) := by
  unfold Path.restorePinned
  split <;> exact h

theorem retireProgress (h : QueuesFall p q) {now : Nat} {r : Req} {answers : List (Option (RetireAnswer × Option Nat))} :
    QueuesFall p (q.retireProgress now port r answers) := by
  unfold Path.retireProgress
  split
  exacts [respond h, setHead h]

theorem countRetired (h : QueuesFall p q) {r : Retired} : QueuesFall p (q.countRetired r) := by
  unfold Path.countRetired
  split <;> exact h

theorem withSettings (h : QueuesFall p q) {g : Settings} : QueuesFall p (q.withSettings c g) := by
  have hk : QueuesFall p (q.keepFrames c g) := fun port => by rw [keepFrames_queue]; exact h port
  unfold Path.withSettings Path.refence
  split
  · exact closeBatch (q := Path.rotateTo _ _) hk
  · exact hk

theorem resetQueues (h : QueuesFall p q) : QueuesFall p (q.resetQueues port) := setHead (setHead h)

/-- Release operations taken one after another leave the request queues alone. -/
theorem releases {α : Type} (f : α → ReleaseOp) (l : List α) {r : Index × Path} (h : QueuesFall p r.2) :
    QueuesFall p (l.foldl (fun r a => Machine.takeRelease r.1 r.2 (f a)) r).2 := by
  induction l generalizing r with
  | nil => exact h
  | cons a l ih => exact ih (takeRelease h)

theorem warmChanges (h : QueuesFall p q) : QueuesFall p (warmChanges c x q port).2 := by
  have hw : QueuesFall p (releaseWaiting x q).2 := releases id q.releaseOps (r := (x, { q with releaseOps := [] })) h
  have hl : QueuesFall p (leakAll ((releaseWaiting x q).1.freePending q.pet) (releaseWaiting x q).2 q.releasing).2 :=
    releases (fun i => ⟨false, i⟩) q.releasing
      (r := ((releaseWaiting x q).1.freePending q.pet, (releaseWaiting x q).2)) hw
  exact resetQueues (q := Path.swept _ c) hl

theorem warmComplete (h : QueuesFall p q) {now : Nat} {w : WarmReset} : QueuesFall p (q.warmComplete now w) := by
  have hd : QueuesFall p ((Path.bump { q with warm := none } .warmResets 1).popDiscarded (Port.other w.port)) := by
    unfold Path.popDiscarded
    split
    · exact popQueue (q := Path.bump { q with warm := none } .warmResets 1) h
    · exact h
  unfold Path.warmComplete Path.answerWarm
  split
  · exact respond hd
  · exact hd

end QueuesFall

end Sys2Proof.Machine.FingerprintIndex
end

section
/-! PROOFS. What every command does to the index, to the registers that loads and requests write, and to the
request queues. -/

namespace Sys2Proof.Machine.FingerprintIndex

open Sys2Proof

/-! ## What a command can do -/

/-- The calendar, the tables, the management sources and the hold table are the same. -/
structure SameRegisters (c d : Control) : Prop where
  calendar : d.calendar = c.calendar
  tables : d.tables = c.tables
  sources : d.sources = c.sources
  holds : d.holds = c.holds

/-- What a command can make of the index, but for a cold reset. -/
inductive IndexChange (s : State) : Instr → Index → Prop where
  | cleared : IndexChange s .reservedPageClearingComplete s.idx.cleared
  | initialised (group : Nat) (g : Group) :
      IndexChange s (.groupInitialisationComplete group) (s.idx.initialised group g)
  | geometry (port : Port) (m : Nat) : IndexChange s (.setGeometry port) (setGeometryAnswer s.ctl.mode s.idx m).1
  | mapped (port : Port) (group page : Nat) : IndexChange s (.mapGroup port) (mapGroupAnswer s.idx group page).1
  | unmapped (port : Port) (group : Nat) : IndexChange s (.unmapGroup port) (unmapGroupAnswer s.idx group).1
  | excluded (port : Port) (range first last : Nat) (active : Bool) :
      IndexChange s (.setExclusion port) (setExclusionAnswer s.idx range first last active).1
  | restored (port : Port) (k : Nat) (i : RestoreEntry) : IndexChange s (.restoreItem port k) (restoreAt s.idx i).1
  | retired (port : Port) (k : Nat) (i : Fingerprint × Nat) :
      IndexChange s (.retireItem port k) (retireAt s.idx i.1 i.2).idx
  | warm (port : Port) : IndexChange s (.warmReset port) (warmChanges s.ctl s.idx s.path port).1
  | rewritten (branch : Nat) (sights : List (Fingerprint × Nat)) :
      IndexChange s (.hotListRewriteComplete branch) (s.idx.writeHotList branch sights)
  | judged (slot ordinal : Nat) (p : Path) (o : LookupOp) :
      IndexChange s (.lookup slot ordinal) (judge s.ctl s.idx p o).idx
  | accepted (slot address : Nat) (e : Entry) : s.idx.entry address = some e → e.state = .pending →
      IndexChange s (.chunkAcceptAtBucket slot) (s.idx.set address { e with state := .live })
  | failed (slot address : Nat) (f : Fingerprint) :
      IndexChange s (.chunkFailAtBucket slot) (s.idx.releaseIf address f .pending)
  | released (op address : Nat) (f : Fingerprint) :
      IndexChange s (.releaseOutcomeAtBucket op) (s.idx.releaseIf address f .releasing)
  | visited (room : Nat) (l : List (Nat × Nat)) :
      IndexChange s .sweeperVisit (Index.visit s.ctl.holds s.ctl.calendar.dayNumber room l s.idx).idx
  | visitedAll (room : Nat) (l : List (Nat × Nat)) (pos : SweepPos) (bucket : Nat) : IndexChange s .sweeperVisit
      ((Index.visit s.ctl.holds s.ctl.calendar.dayNumber room l s.idx).idx.afterVisit pos bucket)

/-- What a command can make of the registers, but for a cold reset. -/
inductive RegisterChange (s : State) : Instr → Control → Prop where
  | settings (port : Port) (writes : List SettingWrite) : settingsGood writes = true →
      RegisterChange s (.setSettings port) (s.ctl.withSettings (writes.foldl Settings.write s.ctl.tables.settings))
  | loaded (port : Port) (l : TableLoad) :
      RegisterChange s (.loadTable port) { s.ctl with tables := (loadAnswer s.ctl.tables s.path l).1 }
  | swapped (port : Port) : RegisterChange s (.swapBanks port) { s.ctl with tables := (swapAnswer s.ctl.tables).1 }
  | copied : RegisterChange s .bankCopyComplete { s.ctl with tables := s.ctl.tables.copied }
  | dated (port : Port) (n : Nat) (src : Mac) (year month day seconds dayNumber : Nat) :
      s.headRequest port = some ⟨n, src, .setDate year month day seconds dayNumber⟩ →
      dateBad year month day seconds = false →
      RegisterChange s (.setDate port) (s.ctl.setDate ⟨year, month, day, seconds, dayNumber, true⟩)
  | nudged (port : Port) (amount : Int) :
      RegisterChange s (.nudge port) { s.ctl with calendar := (s.ctl.calendar.nudge (nudgeAmount amount)).1 }
  | ticked (now divider : Nat) : RegisterChange s .secondsTick
      { s.ctl with now := now, divider := divider, calendar := s.ctl.calendar.tick.1 }
  | held (port : Port) (tag : Nat) (active : Bool) :
      RegisterChange s (.setHold port) { s.ctl with holds := (setHoldAnswer s.ctl.holds tag active).1 }
  | sourced (port : Port) (l : List Mac) :
      RegisterChange s (.setManagementSources port) { s.ctl with sources := (setSourcesAnswer s.ctl.sources l).1 }

/-- What a command can do to the index, the registers and the request queues. -/
inductive Effect (s : State) : Instr → State → Prop where
  | quiet (c : Instr) (t : State) : t.idx = s.idx → SameRegisters s.ctl t.ctl → QueuesFall s.path t.path → Effect s c t
  | index (c : Instr) (t : State) : IndexChange s c t.idx → SameRegisters s.ctl t.ctl → QueuesFall s.path t.path →
      Effect s c t
  | registers (c : Instr) (t : State) : RegisterChange s c t.ctl → t.idx = s.idx → QueuesFall s.path t.path →
      Effect s c t
  | arrives (c : Instr) (t : State) (r : Request) : (Instr.dayFits c = true → Request.dayFits r = true) → t.idx = s.idx →
      SameRegisters s.ctl t.ctl →
      (∀ port, ∀ y ∈ (t.path.queue port).reqs, y ∈ (s.path.queue port).reqs ∨ y.request = r) → Effect s c t
  | cold : Effect s .coldReset s.coldReset

/-- A command answers a next state, and does no more than `Effect` lists. -/
inductive Acts (s : State) (c : Instr) : Step → Prop where
  | next (t : State) : Effect s c t → Acts s c (.next t)

variable {s : State} {c : Instr}

theorem Effect.same : Effect s c s := .quiet c s rfl ⟨rfl, rfl, rfl, rfl⟩ (.refl _)

/-- A command that ends as a state with the same index and registers. -/
theorem Effect.finish {u : State} (hq : QueuesFall s.path u.path) (hi : u.idx = s.idx := by rfl)
    (hc : SameRegisters s.ctl u.ctl := by exact ⟨rfl, rfl, rfl, rfl⟩) : Effect s c u.finish := .quiet c _ hi hc hq.finish

/-- A command that ends as a state with a changed index. -/
theorem Effect.finishIndex {u : State} (hi : IndexChange s c u.idx) (hq : QueuesFall s.path u.path)
    (hc : SameRegisters s.ctl u.ctl := by exact ⟨rfl, rfl, rfl, rfl⟩) : Effect s c u.finish := .index c _ hi hc hq.finish

/-- A command that ends as a state with changed registers. -/
theorem Effect.finishRegisters {u : State} (hr : RegisterChange s c u.ctl) (hq : QueuesFall s.path u.path)
    (hi : u.idx = s.idx := by rfl) : Effect s c u.finish := .registers c _ hr hi hq.finish

/-! ## Requests arrive -/

open Wire in
theorem value_lt (bytes : List Byte) : value bytes < 256 ^ bytes.length := by
  have h (l : List Byte) (v : Nat) : l.foldl (fun v b => 256 * v + b.toNat) v < (v + 1) * 256 ^ l.length := by
    induction l generalizing v with
    | nil => simp
    | cons b l ih =>
      have hb : b.toNat < 256 := b.isLt
      calc (b :: l).foldl (fun v b => 256 * v + b.toNat) v
          < (256 * v + b.toNat + 1) * 256 ^ l.length := ih _
        _ ≤ ((v + 1) * 256) * 256 ^ l.length := Nat.mul_le_mul_right _ (by omega)
        _ = (v + 1) * 256 ^ (b :: l).length := by rw [List.length_cons, Nat.pow_succ']; ring
  have h0 := h bytes 0
  rwa [Nat.zero_add, Nat.one_mul] at h0

/-- A number of 2 bytes fits them. -/
theorem readNum_two_le {b rest : List Byte} {v : Nat} (h : Wire.readNum 2 b = some (v, rest)) : v ≤ 65535 := by
  unfold Wire.readNum at h
  split at h
  · cases h
    have hv := value_lt (b.take 2)
    rw [List.length_take, Nat.min_eq_left (by assumption)] at hv
    omega
  · cases h

/-- What is read from a frame as a request has the property that every request the reader can make has. -/
theorem whole_dayFits {o : Option (Request × List Byte)} {r : Request} (h : Wire.whole o = some r)
    (ho : ∀ a, o = some a → Request.dayFits a.1 = true) : Request.dayFits r = true := by
  unfold Wire.whole at h
  split at h <;> cases h
  exact ho _ rfl

theorem whole_map_dayFits {α : Type} {o : Option (α × List Byte)} {f : α × List Byte → Request × List Byte} {r : Request}
    (h : Wire.whole (o.map f) = some r) (hf : ∀ a, Request.dayFits (f a).1 = true) : Request.dayFits r = true := by
  refine whole_dayFits h fun a ha => ?_
  obtain ⟨b, _, rfl⟩ := Option.map_eq_some_iff.1 ha
  exact hf b

/-- A request read from a frame has a day number that fits: SET DATE gives it 2 bytes (R132, R203). -/
theorem readRequest_dayFits {code : Nat} {args : List Byte} {r : Request} (h : Wire.readRequest code args = some r) :
    Request.dayFits r = true := by
  unfold Wire.readRequest at h
  split at h
  case h_13 =>
    refine whole_dayFits h fun a ha => ?_
    simp only [Option.bind_eq_bind, Option.bind_eq_some_iff, Option.some.injEq] at ha
    obtain ⟨_, _, _, _, _, _, _, _, ⟨v, rest⟩, hv, rfl⟩ := ha
    exact decide_eq_true (readNum_two_le hv)
  case h_7 | h_9 | h_15 =>
    refine whole_dayFits h fun a ha => ?_
    simp only [Option.bind_eq_bind, Option.bind_eq_some_iff, Option.some.injEq] at ha
    grind [Request.dayFits]
  case h_1 | h_2 | h_12 | h_17 | h_19 | h_26 => exact whole_dayFits h fun a ha => by cases ha; rfl
  case h_27 => cases h; rfl
  all_goals exact whole_map_dayFits h fun a => rfl

theorem classifyAnswer_dayFits (port : Port) (b : List Byte) : Instr.dayFits (Wire.classifyAnswer port b) = true := by
  unfold Wire.classifyAnswer
  dsimp only
  split <;> rfl

theorem classifyPiece_dayFits (port : Port) (kind : Nat) (b : List Byte) :
    Instr.dayFits (Wire.classifyPiece port kind b) = true := by
  unfold Wire.classifyPiece
  dsimp only
  generalize (if b.getD 4 0 = 0 then _ else _) = d
  split <;> rfl

theorem classifyBody_dayFits (port : Port) (source : Mac) (kind branch stream : Nat) (body : List Byte) :
    Instr.dayFits (Wire.classifyBody port source kind branch stream body) = true := by
  unfold Wire.classifyBody
  split
  case h_5 =>
    split
    · split
      · exact readRequest_dayFits (by assumption)
      · rfl
    · rfl
  all_goals split <;> rfl

/-- A frame is never read as a command with a day number that does not fit. -/
theorem classifyFrame_dayFits (etherType : Nat) (port : Port) (frame : List Byte) :
    Instr.dayFits (Wire.classifyFrame etherType port frame) = true := by
  unfold Wire.classifyFrame Wire.classifyLavrow
  dsimp only
  repeat' split
  exacts [rfl, rfl, rfl, rfl, classifyAnswer_dayFits _ _, classifyPiece_dayFits _ _ _, rfl,
    classifyBody_dayFits _ _ _ _ _ _, rfl, rfl]

/-- A request that arrives joins its queue, or is answered or dropped; no other request joins (R190, R191). -/
theorem arrive_reqs {p q : Path} (h : QueuesFall p q) (c : Control) (port : Port) (r : Req) (o : Port) :
    ∀ y ∈ ((q.arrive c port r).queue o).reqs, y ∈ (p.queue o).reqs ∨ y = r := by
  unfold Path.arrive
  intro y hy
  split at hy
  · split at hy
    · exact .inl ((h.refuseFull o).subset hy)
    · by_cases ho : o = port
      · subst ho
        rw [ParcelOrder.queue_setQueue_same, List.mem_append, List.mem_singleton] at hy
        exact hy.imp_left fun hm => (h o).subset hm
      · rw [ParcelOrder.queue_setQueue_ne _ ho] at hy
        exact .inl ((h o).subset hy)
  · exact .inl ((h.bump.setFlag o).subset hy)

/-- A frame that is taken brings at most the request it is read as. -/
theorem frameArrives_reqs (p : Path) (c : Control) (i : Instr) :
    QueuesFall p (p.frameArrives c i) ∨
      ∃ port source number r, i = .mgmtParcel port source number r ∧
        p.frameArrives c i = p.arrive c port ⟨number, source, r⟩ := by
  have h := QueuesFall.refl p
  unfold Path.frameArrives
  split
  exacts [.inl h.forward, .inl h.openArrives, .inl h.dataArrives, .inl h.closeArrives, .inl h.abortArrives,
    .inr ⟨_, _, _, _, rfl, rfl⟩, .inl h.answerArrives, .inl h.malformed, .inl h, .inl h]

/-- A command that brings a request ends with at most that request come to its queue. -/
theorem Effect.finishArrival {u : State} {port : Port} {r : Req}
    (hr : Instr.dayFits c = true → Request.dayFits r.request = true) (hu : u.path = s.path.arrive s.ctl port r)
    (hi : u.idx = s.idx := by rfl) (hc : SameRegisters s.ctl u.ctl := by exact ⟨rfl, rfl, rfl, rfl⟩) :
    Effect s c u.finish := by
  refine .arrives c _ r.request hr hi hc fun o y hy => ?_
  have h1 : y ∈ (u.path.queue o).reqs := ((QueuesFall.refl u.path).finish o).subset hy
  rw [hu] at h1
  exact (arrive_reqs (.refl _) _ _ _ _ y h1).imp_right fun e => by rw [e]

theorem execPassThrough_acts (port : Port) (frame : List Byte) :
    Acts s (.passThroughFrame port frame) (execPassThrough port frame s) := by
  refine .next _ ?_
  rcases frameArrives_reqs s.path s.ctl (Wire.classifyFrame s.ctl.tables.settings.etherType port frame) with
    h | ⟨o, source, number, r, hi, h⟩
  · exact .finish h
  · refine .finishArrival (fun _ => ?_) h
    have hd := classifyFrame_dayFits s.ctl.tables.settings.etherType port frame
    rw [hi] at hd
    exact hd

/-! ## Carriers, timers, tags and transmissions -/

/-- Carriers and the loss timer. -/
structure CarriersAct (s : State) : Prop where
  sPortCarrierDown : Acts s .sPortCarrierDown (execSPortCarrierDown s)
  sPortCarrierUp : Acts s .sPortCarrierUp (execSPortCarrierUp s)
  lossTimerExpiry : Acts s .lossTimerExpiry (execLossTimerExpiry s)
  iPortCarrierDown : Acts s .iPortCarrierDown (execIPortCarrierDown s)
  iPortCarrierUp : Acts s .iPortCarrierUp (execIPortCarrierUp s)

theorem carriers_act : CarriersAct s where
  sPortCarrierDown := by
    unfold execSPortCarrierDown
    refine .next _ ?_
    split
    · exact .finish (.sCarrierDown (.refl s.path))
    · exact .same
  sPortCarrierUp := by
    unfold execSPortCarrierUp
    refine .next _ ?_
    split
    · exact .same
    · exact .finish (.sCarrierUp (.refl s.path))
  lossTimerExpiry := by
    unfold execLossTimerExpiry
    refine .next _ ?_
    split
    · refine .finish (.setFlag (.failAll ?_))
      exact .refl s.path
    · exact .same
  iPortCarrierDown := by
    unfold execIPortCarrierDown
    refine .next _ ?_
    split
    · exact .finish (.refl s.path)
    · exact .same
  iPortCarrierUp := by
    unfold execIPortCarrierUp
    refine .next _ ?_
    split
    · exact .same
    · exact .finish (.refl s.path)

/-- Tags, answers and transmissions. -/
structure TransmissionsAct (s : State) (tag : Nat) : Prop where
  refBatchTimerExpiry : Acts s .refBatchTimerExpiry (execRefBatchTimerExpiry s)
  tagGrant : Acts s .tagGrant (execTagGrant s)
  sPortTransmitDone : Acts s .sPortTransmitDone (execSPortTransmitDone s)
  iPortTransmitDone : Acts s .iPortTransmitDone (execIPortTransmitDone s)
  answerTimerExpiry : Acts s (.answerTimerExpiry tag) (execAnswerTimerExpiry tag s)
  resendDue : Acts s (.resendDue tag) (execResendDue tag s)

theorem transmissions_act (tag : Nat) : TransmissionsAct s tag where
  refBatchTimerExpiry := by
    unfold execRefBatchTimerExpiry
    refine .next _ ?_
    split
    · exact .finish (.closeBatch (.refl s.path))
    · exact .same
  tagGrant := by
    unfold execTagGrant
    refine .next _ ?_
    split
    · split
      · exact .finish (.grantTag (.refl s.path))
      · exact .same
    · exact .same
  sPortTransmitDone := by
    unfold execSPortTransmitDone
    refine .next _ ?_
    split
    · refine .finish ?_
      dsimp only [State.withPath]
      split <;> exact .refl s.path
    · exact .same
  iPortTransmitDone := by
    unfold execIPortTransmitDone
    refine .next _ ?_
    split
    · refine .finish (.countPace ?_)
      exact .refl s.path
    · exact .same
  answerTimerExpiry := by
    unfold execAnswerTimerExpiry
    refine .next _ ?_
    split
    · split
      · exact .finish (.retryWait (.bump (.refl s.path)))
      · exact .same
    · exact .same
  resendDue := by
    unfold execResendDue
    refine .next _ ?_
    split
    · split
      · exact .finish (.resendDue (.refl s.path))
      · exact .same
    · exact .same

/-! ## Streams -/

/-- The timers, bytes and digests of a stream. -/
structure StreamTimersAct (s : State) (slot : Nat) : Prop where
  warmUpExpiry : Acts s (.warmUpExpiry slot) (execWarmUpExpiry slot s)
  lingerExpiry : Acts s (.lingerExpiry slot) (execLingerExpiry slot s)
  takeByte : Acts s (.takeByte slot) (execTakeByte slot s)
  digestComplete : Acts s (.digestComplete slot) (execDigestComplete slot s)

theorem streamTimers_act (slot : Nat) : StreamTimersAct s slot where
  warmUpExpiry := by
    unfold execWarmUpExpiry
    refine .next _ ?_
    split
    · exact .finish (.endOpening (.refl s.path))
    · exact .same
  lingerExpiry := by
    unfold execLingerExpiry
    refine .next _ ?_
    split
    · exact .finish (.refl s.path)
    · exact .same
  takeByte := by
    unfold execTakeByte
    refine .next _ ?_
    split
    · split
      · refine .finish (.check (.testOverlength ?_))
        exact .refl s.path
      · exact .same
    · exact .same
  digestComplete := by
    unfold execDigestComplete
    refine .next _ ?_
    split
    · split
      · refine .finish (.issueNext ?_)
        exact .refl s.path
      · exact .same
    · exact .same

/-- The hot-list operations of a branch. -/
structure HotListsAct (s : State) (branch : Nat) : Prop where
  hotListLoadComplete : Acts s (.hotListLoadComplete branch) (execHotListLoadComplete branch s)
  hotListRewriteComplete : Acts s (.hotListRewriteComplete branch) (execHotListRewriteComplete branch s)

theorem hotLists_act (branch : Nat) : HotListsAct s branch where
  hotListLoadComplete := by
    unfold execHotListLoadComplete
    refine .next _ ?_
    split
    · have hi : QueuesFall s.path ((s.path.hotDone branch).installAll (s.idx.hotList branch)) := by
        refine .installAll ?_
        exact .refl s.path
      refine .finish ?_
      dsimp only [State.withPath]
      split
      · exact .endOpening hi
      · exact hi
    · exact .same
  hotListRewriteComplete := by
    unfold execHotListRewriteComplete
    refine .next _ ?_
    split
    · exact .finishIndex (.rewritten branch _) (.refl s.path)
    · exact .same

theorem execGapTick_acts : Acts s .gapTick (execGapTick s) :=
  .next _ (.finish (.foldl (fun _ _ _ h => .gapTick h) (.refl s.path)))

theorem execSecondsTick_acts : Acts s .secondsTick (execSecondsTick s) :=
  .next _ (.finishRegisters (.ticked _ _) (.startIf (.refl s.path)))

/-! ## Requests and completions -/

/-- The requests that read, and those that clear what they read. -/
structure ReadingRequestsAct (s : State) (port : Port) : Prop where
  identify : Acts s (.identify port) (execIdentify port s)
  readStatus : Acts s (.readStatus port) (execReadStatus port s)
  clearFlags : Acts s (.clearFlags port) (execClearFlags port s)
  readCounters : Acts s (.readCounters port) (execReadCounters port s)
  readStream : Acts s (.readStream port) (execReadStream port s)
  readEntry : Acts s (.readEntry port) (execReadEntry port s)
  readTable : Acts s (.readTable port) (execReadTable port s)

theorem readingRequests_act (port : Port) : ReadingRequestsAct s port where
  identify := by
    unfold execIdentify
    refine .next _ ?_
    split
    · exact .finish (.respond (.refl s.path))
    · exact .same
  readStatus := by
    unfold execReadStatus
    refine .next _ ?_
    split
    · exact .finish (.respond (.refl s.path))
    · exact .same
  clearFlags := by
    unfold execClearFlags
    refine .next _ ?_
    split
    · exact .finish (.respond (.clearFlagsAnswer (.refl s.path)))
    · exact .same
  readCounters := by
    unfold execReadCounters
    refine .next _ ?_
    split
    · exact .finish (.respond (.readCountersAnswer (.refl s.path)))
    · exact .same
  readStream := by
    unfold execReadStream
    refine .next _ ?_
    split
    · exact .finish (.respond (.refl s.path))
    · exact .same
  readEntry := by
    unfold execReadEntry
    refine .next _ ?_
    split
    · exact .finish (.respond (.refl s.path))
    · exact .same
  readTable := by
    unfold execReadTable
    refine .next _ ?_
    split
    · exact .finish (.respond (.refl s.path))
    · exact .same

/-- The requests about mode, sources, calendar, containers and streams. -/
structure ControlRequestsAct (s : State) (port : Port) : Prop where
  setMode : Acts s (.setMode port) (execSetMode port s)
  setManagementSources : Acts s (.setManagementSources port) (execSetManagementSources port s)
  setDate : Acts s (.setDate port) (execSetDate port s)
  nudge : Acts s (.nudge port) (execNudge port s)
  setContainerBase : Acts s (.setContainerBase port) (execSetContainerBase port s)
  sealContainers : Acts s (.sealContainers port) (execSealContainers port s)
  forceEnd : Acts s (.forceEnd port) (execForceEnd port s)

theorem controlRequests_act (port : Port) : ControlRequestsAct s port where
  setMode := by
    unfold execSetMode
    refine .next _ ?_
    split
    · exact .finish (.respond (.countMode (.refl s.path)))
    · exact .same
  setManagementSources := by
    unfold execSetManagementSources
    refine .next _ ?_
    split
    · exact .finishRegisters (.sourced port _) (.respond (.refl s.path))
    · exact .same
  setDate := by
    unfold execSetDate
    refine .next _ ?_
    split
    · dsimp only
      split
      · exact .finish (.respond (.refl s.path))
      · refine .finishRegisters (.dated port _ _ _ _ _ _ _ (by assumption) (Bool.eq_false_iff.2 (by assumption))) ?_
        refine .respond ?_
        exact .refl s.path
    · exact .same
  nudge := by
    unfold execNudge
    refine .next _ ?_
    split
    · split
      · exact .finishRegisters (.nudged port _) (.respond (.startIf (.refl s.path)))
      · exact .finish (.respond (.refl s.path))
    · exact .same
  setContainerBase := by
    unfold execSetContainerBase
    refine .next _ ?_
    split
    · refine .finish (.respond ?_)
      exact .refl s.path
    · exact .same
  sealContainers := by
    unfold execSealContainers
    refine .next _ ?_
    split
    · refine .finish (.respond (.askSeals ?_))
      exact .refl s.path
    · exact .same
  forceEnd := by
    unfold execForceEnd
    refine .next _ ?_
    split
    · exact .finish (.respond (.forceEndAnswer (.refl s.path)))
    · exact .same

/-- The requests about geometry, groups and exclusions. -/
structure IndexRequestsAct (s : State) (port : Port) : Prop where
  setGeometry : Acts s (.setGeometry port) (execSetGeometry port s)
  mapGroup : Acts s (.mapGroup port) (execMapGroup port s)
  unmapGroup : Acts s (.unmapGroup port) (execUnmapGroup port s)
  setExclusion : Acts s (.setExclusion port) (execSetExclusion port s)

theorem indexRequests_act (port : Port) : IndexRequestsAct s port where
  setGeometry := by
    unfold execSetGeometry
    refine .next _ ?_
    split
    · exact .finishIndex (.geometry port _) (.respond (.refl s.path))
    · exact .same
  mapGroup := by
    unfold execMapGroup
    refine .next _ ?_
    split
    · exact .finishIndex (.mapped port _ _) (.respond (.refl s.path))
    · exact .same
  unmapGroup := by
    unfold execUnmapGroup
    refine .next _ ?_
    split
    · exact .finishIndex (.unmapped port _) (.respond (.refl s.path))
    · exact .same
  setExclusion := by
    unfold execSetExclusion
    refine .next _ ?_
    split
    · exact .finishIndex (.excluded port _ _ _ _) (.respond (.refl s.path))
    · exact .same

/-- RESTORE ENTRIES and RETIRE, and their items. -/
structure ListRequestsAct (s : State) (port : Port) (index : Nat) : Prop where
  restoreEntries : Acts s (.restoreEntries port) (execRestoreEntries port s)
  restoreItem : Acts s (.restoreItem port index) (execRestoreItem port index s)
  retire : Acts s (.retire port) (execRetire port s)
  retireItem : Acts s (.retireItem port index) (execRetireItem port index s)

theorem listRequests_act (port : Port) (index : Nat) : ListRequestsAct s port index where
  restoreEntries := by
    unfold execRestoreEntries
    refine .next _ ?_
    split
    · split
      · exact .finish (.respond (.refl s.path))
      · exact .finish (.setHead (.refl s.path))
    · exact .same
  restoreItem := by
    unfold execRestoreItem
    refine .next _ ?_
    split
    · split
      · split
        · exact .finishIndex (.restored port index _) (.restoreProgress (.restorePinned (.refl s.path)))
        · exact .same
      · exact .same
    · exact .same
  retire := by
    unfold execRetire
    refine .next _ ?_
    split
    · split
      · exact .finish (.respond (.refl s.path))
      · exact .finish (.setHead (.refl s.path))
    · exact .same
  retireItem := by
    unfold execRetireItem
    refine .next _ ?_
    split
    · split
      · split
        · exact .finishIndex (.retired port index _) (.retireProgress (.countRetired (.refl s.path)))
        · exact .same
      · exact .same
    · exact .same

/-- The requests about holds, sweeps, tables and settings. -/
structure TableRequestsAct (s : State) (port : Port) : Prop where
  setHold : Acts s (.setHold port) (execSetHold port s)
  sweepNow : Acts s (.sweepNow port) (execSweepNow port s)
  loadTable : Acts s (.loadTable port) (execLoadTable port s)
  swapBanks : Acts s (.swapBanks port) (execSwapBanks port s)
  setSettings : Acts s (.setSettings port) (execSetSettings port s)

theorem tableRequests_act (port : Port) : TableRequestsAct s port where
  setHold := by
    unfold execSetHold
    refine .next _ ?_
    split
    · exact .finishRegisters (.held port _ _) (.respond (.refl s.path))
    · exact .same
  sweepNow := by
    unfold execSweepNow
    refine .next _ ?_
    split
    · split
      · exact .finish (.respond (.startSweep (.refl s.path)))
      · exact .finish (.respond (.refl s.path))
    · exact .same
  loadTable := by
    unfold execLoadTable
    refine .next _ ?_
    split
    · exact .finishRegisters (.loaded port _) (.respond (.countIf (.refl s.path)))
    · exact .same
  swapBanks := by
    unfold execSwapBanks
    refine .next _ ?_
    split
    · exact .finishRegisters (.swapped port) (.respond (.countIf (.refl s.path)))
    · exact .same
  setSettings := by
    unfold execSetSettings
    refine .next _ ?_
    split
    · dsimp only
      split
      · exact .finishRegisters (.settings port _ (by assumption)) (.respond (.withSettings (.refl s.path)))
      · exact .finish (.respond (.refl s.path))
    · exact .same

/-- The completions of resets, initialisations and the bank copy. -/
structure CompletionsAct (s : State) (group : Nat) : Prop where
  warmResetComplete : Acts s .warmResetComplete (execWarmResetComplete s)
  reservedPageClearingComplete : Acts s .reservedPageClearingComplete (execReservedPageClearingComplete s)
  groupInitialisationComplete : Acts s (.groupInitialisationComplete group) (execGroupInitialisationComplete group s)
  bankCopyComplete : Acts s .bankCopyComplete (execBankCopyComplete s)

theorem completions_act (group : Nat) : CompletionsAct s group where
  warmResetComplete := by
    unfold execWarmResetComplete
    refine .next _ ?_
    split
    · exact .finish (.warmComplete (.refl s.path))
    · exact .same
  reservedPageClearingComplete := by
    unfold execReservedPageClearingComplete
    refine .next _ ?_
    split
    · exact .finishIndex .cleared (.refl s.path)
    · exact .same
  groupInitialisationComplete := by
    unfold execGroupInitialisationComplete
    refine .next _ ?_
    split
    · split
      · exact .finishIndex (.initialised group _) (.refl s.path)
      · exact .same
    · exact .same
  bankCopyComplete := by
    unfold execBankCopyComplete
    refine .next _ ?_
    split
    · exact .finishRegisters .copied (.refl s.path)
    · exact .same

theorem execWarmReset_acts (port : Port) : Acts s (.warmReset port) (execWarmReset port s) := by
  unfold execWarmReset
  refine .next _ ?_
  split
  · exact .finishIndex (.warm port) (.warmChanges (.refl s.path))
  · exact .same

/-! ## Lookups and outcomes at the bucket -/

/-- A lookup, its placement request and its result. -/
structure LookupsAct (s : State) (slot : Nat) (ordinal : Nat) : Prop where
  lookup : Acts s (.lookup slot ordinal) (execLookup slot ordinal s)
  placementRequest : Acts s (.placementRequest slot ordinal) (execPlacementRequest slot ordinal s)
  lookupResult : Acts s (.lookupResult slot ordinal) (execLookupResult slot ordinal s)

theorem lookups_act (slot : Nat) (ordinal : Nat) : LookupsAct s slot ordinal where
  lookup := by
    unfold execLookup
    refine .next _ ?_
    split
    · dsimp only
      split
      · have hj {p : Path} {o : LookupOp} (h : QueuesFall s.path p) :
            QueuesFall s.path (judge s.ctl s.idx p o).path := .judge h
        refine .finishIndex (.judged slot ordinal _ _) ?_
        refine hj ?_
        exact .refl s.path
      · exact .same
    · exact .same
  placementRequest := by
    unfold execPlacementRequest
    refine .next _ ?_
    split
    · refine .finish ?_
      dsimp only [State.withPath]
      split
      · refine .takePlacement ?_
        exact .refl s.path
      · exact .refl s.path
    · exact .same
  lookupResult := by
    unfold execLookupResult
    refine .next _ ?_
    split
    · refine .finish ?_
      dsimp only [State.withPath]
      split
      · refine .takeResult ?_
        exact .refl s.path
      · exact .refl s.path
    · exact .same

/-- The outcomes of chunks and releases, and a visit of the sweeper. -/
structure OutcomesAct (s : State) (slot : Nat) (address : Nat) : Prop where
  chunkAcceptAtBucket : Acts s (.chunkAcceptAtBucket slot) (execChunkAcceptAtBucket slot s)
  chunkFailAtBucket : Acts s (.chunkFailAtBucket slot) (execChunkFailAtBucket slot s)
  releaseOutcomeAtBucket : Acts s (.releaseOutcomeAtBucket address) (execReleaseOutcomeAtBucket address s)
  sweeperVisit : Acts s .sweeperVisit (execSweeperVisit s)

theorem outcomes_act (slot : Nat) (address : Nat) : OutcomesAct s slot address where
  chunkAcceptAtBucket := by
    unfold execChunkAcceptAtBucket
    refine .next _ ?_
    split
    · dsimp only
      split
      · split
        · rename_i he
          have hw {e : Entry} : QueuesFall s.path ((Path.waiters (s.path.chunkOpDone true slot) slot).foldl
              (Path.waiterLive s.ctl e) (s.path.chunkOpDone true slot)) :=
            .foldl (fun _ _ _ h => .waiterLive h) (.refl s.path)
          exact .finishIndex (.accepted slot _ _ (by assumption) he.2) hw
        · exact .finish (.refl s.path)
      · exact .finish (.refl s.path)
    · exact .same
  chunkFailAtBucket := by
    unfold execChunkFailAtBucket
    refine .next _ ?_
    split
    · have hl {l : List Waiter} : QueuesFall s.path (l.foldl Path.waiterLost (s.path.chunkOpDone false slot)) :=
        .foldl (fun _ _ _ h => .waiterLost h) (.refl s.path)
      have hw {l m : List Waiter} :
          QueuesFall s.path ((l.foldl Path.waiterLost (s.path.chunkOpDone false slot)).waitersTold m) := .waitersTold hl
      refine .finishIndex (.failed slot _ _) (.checkAll (.invalidate ?_))
      exact hw
    · exact .same
  releaseOutcomeAtBucket := by
    unfold execReleaseOutcomeAtBucket
    refine .next _ ?_
    split
    · refine .finishIndex (.released address _ _) (.takeRelease (x := s.idx) ?_)
      exact .refl s.path
    · exact .same
  sweeperVisit := by
    unfold execSweeperVisit
    refine .next _ ?_
    split
    · dsimp only
      split
      · exact .finishIndex (.visited _ _) (.waitSweep (.joinRelease (.refl s.path)))
      · exact .finishIndex (.visitedAll _ _ _ _) (.sweepOn (.joinRelease (.refl s.path)))
    · exact .same

/-! ## Every command -/

theorem exec_acts (c : Instr) (s : State) : Acts s c (exec c s) := by
  have h := QueuesFall.refl s.path
  cases c with
  | coldReset => exact .next _ .cold
  | openParcel => exact .next _ (.finish h.openArrives)
  | dataParcel => exact .next _ (.finish h.dataArrives)
  | closeParcel => exact .next _ (.finish h.closeArrives)
  | abortParcel => exact .next _ (.finish h.abortArrives)
  | mgmtParcel port source number request =>
    exact .next _ (.finishArrival (r := ⟨number, source, request⟩) (fun h => h) rfl)
  | storeAnswer => exact .next _ (.finish h.answerArrives)
  | passThroughFrame port frame => exact execPassThrough_acts port frame
  | fcsErrorFrame => exact .next _ (.finish h.fcsError)
  | malformedFrame => exact .next _ (.finish h.malformed)
  | wrongDirectionFrame port => cases port <;> exact .next _ (.finish h)
  | reservedPageClearingComplete => exact (completions_act 0).reservedPageClearingComplete
  | sPortCarrierDown => exact carriers_act.sPortCarrierDown
  | sPortCarrierUp => exact carriers_act.sPortCarrierUp
  | lossTimerExpiry => exact carriers_act.lossTimerExpiry
  | iPortCarrierDown => exact carriers_act.iPortCarrierDown
  | iPortCarrierUp => exact carriers_act.iPortCarrierUp
  | gapTick => exact execGapTick_acts
  | secondsTick => exact execSecondsTick_acts
  | refBatchTimerExpiry => exact (transmissions_act 0).refBatchTimerExpiry
  | tagGrant => exact (transmissions_act 0).tagGrant
  | sPortTransmitDone => exact (transmissions_act 0).sPortTransmitDone
  | iPortTransmitDone => exact (transmissions_act 0).iPortTransmitDone
  | warmResetComplete => exact (completions_act 0).warmResetComplete
  | sweeperVisit => exact (outcomes_act 0 0).sweeperVisit
  | bankCopyComplete => exact (completions_act 0).bankCopyComplete
  | identify port => exact (readingRequests_act port).identify
  | readStatus port => exact (readingRequests_act port).readStatus
  | clearFlags port => exact (readingRequests_act port).clearFlags
  | readCounters port => exact (readingRequests_act port).readCounters
  | setSettings port => exact (tableRequests_act port).setSettings
  | setGeometry port => exact (indexRequests_act port).setGeometry
  | mapGroup port => exact (indexRequests_act port).mapGroup
  | unmapGroup port => exact (indexRequests_act port).unmapGroup
  | setExclusion port => exact (indexRequests_act port).setExclusion
  | loadTable port => exact (tableRequests_act port).loadTable
  | readTable port => exact (readingRequests_act port).readTable
  | swapBanks port => exact (tableRequests_act port).swapBanks
  | setDate port => exact (controlRequests_act port).setDate
  | nudge port => exact (controlRequests_act port).nudge
  | setHold port => exact (tableRequests_act port).setHold
  | retire port => exact (listRequests_act port 0).retire
  | sweepNow port => exact (tableRequests_act port).sweepNow
  | setContainerBase port => exact (controlRequests_act port).setContainerBase
  | sealContainers port => exact (controlRequests_act port).sealContainers
  | setMode port => exact (controlRequests_act port).setMode
  | restoreEntries port => exact (listRequests_act port 0).restoreEntries
  | readEntry port => exact (readingRequests_act port).readEntry
  | readStream port => exact (readingRequests_act port).readStream
  | forceEnd port => exact (controlRequests_act port).forceEnd
  | setManagementSources port => exact (controlRequests_act port).setManagementSources
  | warmReset port => exact execWarmReset_acts port
  | warmUpExpiry slot => exact (streamTimers_act slot).warmUpExpiry
  | lingerExpiry slot => exact (streamTimers_act slot).lingerExpiry
  | takeByte slot => exact (streamTimers_act slot).takeByte
  | digestComplete slot => exact (streamTimers_act slot).digestComplete
  | chunkAcceptAtBucket slot => exact (outcomes_act slot 0).chunkAcceptAtBucket
  | chunkFailAtBucket slot => exact (outcomes_act slot 0).chunkFailAtBucket
  | hotListLoadComplete branch => exact (hotLists_act branch).hotListLoadComplete
  | hotListRewriteComplete branch => exact (hotLists_act branch).hotListRewriteComplete
  | answerTimerExpiry tag => exact (transmissions_act tag).answerTimerExpiry
  | resendDue tag => exact (transmissions_act tag).resendDue
  | releaseOutcomeAtBucket address => exact (outcomes_act 0 address).releaseOutcomeAtBucket
  | groupInitialisationComplete group => exact (completions_act group).groupInitialisationComplete
  | retireItem port index => exact (listRequests_act port index).retireItem
  | restoreItem port index => exact (listRequests_act port index).restoreItem
  | lookup slot ordinal => exact (lookups_act slot ordinal).lookup
  | placementRequest slot ordinal => exact (lookups_act slot ordinal).placementRequest
  | lookupResult slot ordinal => exact (lookups_act slot ordinal).lookupResult

/-- What a command does to the index, the registers and the request queues. -/
theorem exec_effect {t : State} (h : exec c s = .next t) : Effect s c t := by
  have ha := exec_acts c s
  rw [h] at ha
  cases ha
  assumption

end Sys2Proof.Machine.FingerprintIndex
end

section
/-! PROOFS. What every operation of the Index Controller makes of the entries, and that it keeps the index's canonical
form, its geometry and its excluded ranges; the obligations about every step's index (O4, O7). -/

namespace Sys2Proof.Machine.FingerprintIndex

open Sys2Proof

/-! ## Reads of an entry by a search -/

theorem firstMatch_entry {x : Index} {f : Fingerprint} {held : Bool} {l : List Nat} {a : Nat} {e : Entry}
    (h : x.firstMatch f held l = some (a, e)) : x.entry a = some e ∧ e.fp = f ∧ e.state.held = held := by
  obtain ⟨b, _, hb⟩ := List.exists_of_findSome?_eq_some h
  split at hb
  · split at hb
    · cases hb
      exact ⟨by assumption, by assumption⟩
    · cases hb
  · cases hb

/-- What a search reports held is an entry of F, PENDING or LIVE (R74). -/
theorem search_held {x : Index} {page bucket a : Nat} {f : Fingerprint} {e : Entry}
    (h : x.search page bucket f = .held a e) : x.entry a = some e ∧ e.fp = f ∧ e.state.held = true := by
  unfold Index.search at h
  split at h
  · cases h
    exact firstMatch_entry (by assumption)
  · split at h <;> cases h

/-- What a search reports RELEASING is a RELEASING entry of F (R74). -/
theorem search_releasing {x : Index} {page bucket a : Nat} {f : Fingerprint} {e : Entry}
    (h : x.search page bucket f = .releasing a e) : x.entry a = some e ∧ e.fp = f ∧ e.state.held = false := by
  unfold Index.search at h
  split at h
  · cases h
  · split at h <;> cases h
    exact firstMatch_entry (by assumption)

/-- What the find of a lookup reports held is an entry that is not FREE (R89). -/
theorem find_held {x : Index} {o : LookupOp} {page a : Nat} {e : Entry} (h : x.find o page = .held a e) :
    x.entry a = some e := by
  unfold Index.find Index.goodCandidate at h
  grind [search_held]

/-! ## How an operation changes an index -/

/-- The index keeps its ranges and its canonical form, and every entry of the second index is one of the first changed as
`R` says, or lies where the first was FREE and is as `N` says. -/
structure Evolves (R : Entry → Entry → Prop) (N : Entry → Prop) (x y : Index) : Prop where
  legal : x.legal = true → y.legal = true
  canonical : x.canonical = true → y.canonical = true
  entries : x.canonical = true → ∀ a f, y.entry a = some f → (∃ e, x.entry a = some e ∧ R e f) ∨ x.entry a = none ∧ N f

/-- An operation that inserts no entry and changes none. -/
abbrev Frees : Index → Index → Prop := Evolves Eq fun _ => False

theorem canonical_iff {x : Index} : x.canonical = true ↔
    Memory.wf x.dram = true ∧ tabWf x.groups = true ∧ tabWf x.marks = true ∧ tabWf x.hot = true := by
  simp only [Index.canonical, Bool.and_eq_true, and_assoc]

theorem legal_iff {x : Index} : x.legal = true ↔
    geometryInRange x.geometry = true ∧ x.exclusions.length = 4 ∧ ∀ e ∈ x.exclusions, e.legal = true := by
  simp only [Index.legal, Bool.and_eq_true, decide_eq_true_eq, List.all_eq_true, and_assoc]

namespace Evolves

variable {R S : Entry → Entry → Prop} {N M : Entry → Prop} {x y z : Index}

theorem mono (h : Evolves R N x y) (hR : ∀ e f, R e f → S e f) (hN : ∀ f, N f → M f) : Evolves S M x y where
  legal := h.legal
  canonical := h.canonical
  entries hx a f hf := (h.entries hx a f hf).imp (fun ⟨e, he, hr⟩ => ⟨e, he, hR e f hr⟩) fun ⟨he, hn⟩ => ⟨he, hN f hn⟩

/-- An operation that inserts nothing, after another. -/
theorem trans (h : Evolves R N x y) (g : Evolves R (fun _ => False) y z) (hR : ∀ d e f, R d e → R e f → R d f)
    (hN : ∀ e f, N e → R e f → N f) : Evolves R N x z where
  legal hx := g.legal (h.legal hx)
  canonical hx := g.canonical (h.canonical hx)
  entries hx a f hf := by
    obtain ⟨e, he, hef⟩ := (g.entries (h.canonical hx) a f hf).resolve_right And.right
    rcases h.entries hx a e he with ⟨d, hd, hde⟩ | ⟨hd, hn⟩
    · exact .inl ⟨d, hd, hR d e f hde hef⟩
    · exact .inr ⟨hd, hN e f hn hef⟩

/-- An operation that inserts no entry and changes none, after another. -/
theorem frees (h : Evolves R N x y) (g : Frees y z) : Evolves R N x z where
  legal hx := g.legal (h.legal hx)
  canonical hx := g.canonical (h.canonical hx)
  entries hx a f hf := by
    obtain ⟨e, he, rfl⟩ := (g.entries (h.canonical hx) a f hf).resolve_right And.right
    exact h.entries hx a e he

end Evolves

namespace Frees

variable {x y z : Index}

theorem trans (h : Frees x y) (g : Frees y z) : Frees x z := Evolves.frees h g

/-- An operation that frees no entry either: it writes only the translation table, the marks and the hot lists. -/
theorem of_entries (hl : x.legal = true → y.legal = true) (hc : x.canonical = true → y.canonical = true)
    (he : ∀ a, y.entry a = x.entry a) : Frees x y := ⟨hl, hc, fun _ a f hf => .inl ⟨f, (he a) ▸ hf, rfl⟩⟩

theorem refl (x : Index) : Frees x x := of_entries (fun h => h) (fun h => h) fun _ => rfl

theorem foldl {α : Type} {f : Index → α → Index} (hf : ∀ x a, Frees x (f x a)) (l : List α) (x : Index) :
    Frees x (l.foldl f x) := by
  induction l generalizing x with
  | nil => exact refl x
  | cons a l ih => exact (hf x a).trans (ih _)

end Frees

/-! ## One rule for each operation -/

section rules
variable {x : Index}

theorem setMarks_frees {t : Tab Unit} (ht : tabWf x.marks = true → tabWf t = true) : Frees x { x with marks := t } := by
  refine .of_entries (fun h => h) (fun h => ?_) fun _ => rfl
  obtain ⟨hd, hg, hm, hh⟩ := canonical_iff.1 h
  exact canonical_iff.2 ⟨hd, hg, ht hm, hh⟩

theorem setGroups_frees {t : Tab Group} (ht : tabWf x.groups = true → tabWf t = true) :
    Frees x { x with groups := t } := by
  refine .of_entries (fun h => h) (fun h => ?_) fun _ => rfl
  obtain ⟨hd, hg, hm, hh⟩ := canonical_iff.1 h
  exact canonical_iff.2 ⟨hd, ht hg, hm, hh⟩

theorem modGroup_frees (x : Index) (bucket : Nat) (f : Group → Group) : Frees x (x.modGroup bucket f) :=
  setGroups_frees fun h => tabUpdate_wf h _ _

theorem setMark_frees (x : Index) (bucket : Nat) : Frees x (x.setMark bucket) := by
  unfold Index.setMark
  split
  · exact .refl x
  · exact (setMarks_frees fun h => tabSet_wf h _ _).trans (modGroup_frees _ bucket _)

theorem clearMark_frees (x : Index) (bucket : Nat) : Frees x (x.clearMark bucket) := by
  unfold Index.clearMark
  split
  · exact (setMarks_frees fun h => tabErase_wf h _).trans (modGroup_frees _ bucket _)
  · exact .refl x

theorem markCheck_frees (x : Index) (bucket : Nat) : Frees x (x.markCheck bucket) := by
  unfold Index.markCheck
  split
  · exact .refl x
  · dsimp only
    split
    · exact clearMark_frees x bucket
    · exact .refl x

theorem afterVisit_frees (x : Index) (pos : SweepPos) (bucket : Nat) : Frees x (x.afterVisit pos bucket) := by
  cases pos
  · exact .refl x
  · exact markCheck_frees x bucket

theorem wipe_frees (x : Index) (here : Nat → Bool) : Frees x (x.wipe here) where
  legal h := h
  canonical h := by
    obtain ⟨hd, hg, hm, hh⟩ := canonical_iff.1 h
    exact canonical_iff.2 ⟨wipe_wf hd here, hg, hm, hh⟩
  entries _ a f hf := by
    rw [wipe_entry] at hf
    split at hf
    · cases hf
    · exact .inl ⟨f, hf, rfl⟩

/-- The entry at an address becomes FREE. -/
theorem erase_frees (x : Index) (a : Nat) : Frees x { x with dram := tabErase x.dram a } where
  legal h := h
  canonical h := by
    obtain ⟨hd, hg, hm, hh⟩ := canonical_iff.1 h
    exact canonical_iff.2 ⟨tabErase_wf hd a, hg, hm, hh⟩
  entries h b f hf := by
    have hd : tabWf x.dram = true := (canonical_iff.1 h).1
    rcases eq_or_ne b a with rfl | hb
    · exact nomatch (tabGet_tabErase_same hd b).symm.trans hf
    · exact .inl ⟨f, (tabGet_tabErase_other x.dram hb).symm.trans hf, rfl⟩

theorem release_frees (x : Index) (a : Nat) (f : Fingerprint) : Frees x (x.release a f) := by
  unfold Index.release
  dsimp only
  split
  · exact erase_frees x a
  · exact (erase_frees x a).trans (modGroup_frees _ _ _)

theorem releaseIf_frees (x : Index) (a : Nat) (f : Fingerprint) (st : EntryState) : Frees x (x.releaseIf a f st) := by
  unfold Index.releaseIf
  split
  · split
    · exact release_frees x a f
    · exact .refl x
  · exact .refl x

theorem writeHotList_frees (x : Index) (branch : Nat) (l : List (Fingerprint × Nat)) :
    Frees x (x.writeHotList branch l) := by
  refine .of_entries (fun h => h) (fun h => ?_) fun _ => rfl
  obtain ⟨hd, hg, hm, hh⟩ := canonical_iff.1 h
  exact canonical_iff.2 ⟨hd, hg, hm, writeHotList_wf hh branch l⟩

theorem cleared_frees (x : Index) : Frees x x.cleared := by
  refine .trans (wipe_frees x inBin) (.of_entries (fun h => h) (fun h => ?_) fun _ => rfl)
  obtain ⟨hd, hg, hm, _⟩ := canonical_iff.1 h
  exact canonical_iff.2 ⟨hd, hg, hm, rfl⟩

theorem initialised_frees (x : Index) (group : Nat) (g : Group) : Frees x (x.initialised group g) :=
  .trans (wipe_frees x (inPage g.page)) (setGroups_frees fun h => tabSet_wf h _ _)

theorem setGeometryAnswer_frees (mode : Mode) (x : Index) (m : Nat) : Frees x (setGeometryAnswer mode x m).1 := by
  unfold setGeometryAnswer Index.setGeometry
  split
  · exact .refl x
  split
  · exact .refl x
  split
  · exact .refl x
  dsimp only
  split
  · exact .refl x
  refine .of_entries (fun h => ?_) (fun h => ?_) fun _ => rfl
  · obtain ⟨_, hn, he⟩ := legal_iff.1 h
    exact legal_iff.2 ⟨Bool.eq_true_of_not_eq_false ‹_›, hn, he⟩
  · obtain ⟨hd, hg, _, hh⟩ := canonical_iff.1 h
    exact canonical_iff.2 ⟨hd, hg, rfl, hh⟩

theorem mapGroupAnswer_frees (x : Index) (group page : Nat) : Frees x (mapGroupAnswer x group page).1 := by
  unfold mapGroupAnswer
  repeat' split
  case h_2 => exact setGroups_frees fun h => tabSet_wf h _ _
  all_goals exact .refl x

theorem unmapGroupAnswer_frees (x : Index) (group : Nat) : Frees x (unmapGroupAnswer x group).1 := by
  unfold unmapGroupAnswer
  repeat' split
  case isFalse => exact setGroups_frees fun h => tabErase_wf h _
  all_goals exact .refl x

theorem setExclusionAnswer_frees (x : Index) (range first last : Nat) (active : Bool) :
    Frees x (setExclusionAnswer x range first last active).1 := by
  unfold setExclusionAnswer
  split
  · exact .refl x
  · rename_i hr
    split
    · exact .refl x
    · refine .of_entries (fun h => ?_) (fun h => h) fun _ => rfl
      obtain ⟨hg, hn, he⟩ := legal_iff.1 h
      refine legal_iff.2 ⟨hg, (List.length_set ..).trans hn, fun e hm => ?_⟩
      rcases List.mem_or_eq_of_mem_set hm with hm | rfl
      · exact he e hm
      · simp only [Exclusion.legal, Bool.and_eq_true, decide_eq_true_eq]
        omega

theorem set_evolves {R : Entry → Entry → Prop} (hR : ∀ e, R e e) {a : Nat} {e f : Entry} (he : x.entry a = some e)
    (hf : R e f) : Evolves R (fun _ => False) x (x.set a f) where
  legal h := h
  canonical h := by
    obtain ⟨hd, hg, hm, hh⟩ := canonical_iff.1 h
    exact canonical_iff.2 ⟨set_wf hd a f, hg, hm, hh⟩
  entries _ b g hg := by
    rw [set_entry] at hg
    split at hg
    · cases hg
      subst_vars
      exact .inl ⟨e, he, hf⟩
    · exact .inl ⟨g, hg, hR g⟩

/-- A FREE entry is written. -/
theorem fill_evolves {N : Entry → Prop} {a : Nat} {f : Entry} (ha : x.entry a = none) (hf : N f) :
    Evolves Eq N x (x.fill a f) := by
  have hs : Evolves Eq N x (x.set a f) :=
    { legal := fun h => h
      canonical := fun h => by
        obtain ⟨hd, hg, hm, hh⟩ := canonical_iff.1 h
        exact canonical_iff.2 ⟨set_wf hd a f, hg, hm, hh⟩
      entries := fun _ b g hg => by
        rw [set_entry] at hg
        split at hg
        · cases hg
          subst_vars
          exact .inr ⟨ha, hf⟩
        · exact .inl ⟨g, hg, rfl⟩ }
  unfold Index.fill
  dsimp only
  split
  · exact hs
  · exact hs.frees (modGroup_frees _ _ _)

/-- A claim changes no entry, and what it claims is FREE (R75). -/
theorem claim_frees {y : Index} {page bucket a : Nat} (h : x.claim page bucket = some (a, y)) :
    Frees x y ∧ (∀ b, y.entry b = x.entry b) ∧ y.entry a = none := by
  obtain ⟨hfree, hd⟩ := claim_cases h
  have he (b : Nat) : y.entry b = x.entry b := by unfold Index.entry; rw [hd]
  refine ⟨?_, he, (he a).trans (Option.isNone_iff_eq_none.1 hfree)⟩
  unfold Index.claim at h
  split at h
  · cases h
    exact .refl x
  · split at h <;> cases h
    exact setMark_frees x bucket

/-- A claimed entry is written (R75, R81, R92). -/
theorem claim_fill_evolves {N : Entry → Prop} {y : Index} {page bucket a : Nat} {f : Entry}
    (hc : x.claim page bucket = some (a, y)) (hf : N f) : Evolves Eq N x (y.fill a f) := by
  obtain ⟨hfree, he, ha⟩ := claim_frees hc
  have h := fill_evolves (N := N) ha hf
  exact ⟨h.legal ∘ hfree.legal, h.canonical ∘ hfree.canonical, fun hx b g hg => by
    rw [← he b]
    exact h.entries (hfree.canonical hx) b g hg⟩

/-! ## The operations of several steps -/

theorem takeRelease_frees (x : Index) (p : Path) (o : ReleaseOp) : Frees x (takeRelease x p o).1 :=
  releaseIf_frees x _ _ _

theorem takeReleases_frees {α : Type} (f : α → ReleaseOp) (l : List α) (r : Index × Path) :
    Frees r.1 (l.foldl (fun r i => takeRelease r.1 r.2 (f i)) r).1 := by
  induction l generalizing r with
  | nil => exact .refl _
  | cons i l ih => exact (takeRelease_frees r.1 r.2 (f i)).trans (ih _)

theorem warmChanges_frees (c : Control) (x : Index) (p : Path) (port : Port) : Frees x (warmChanges c x p port).1 := by
  have hw : Frees x (releaseWaiting x p).1 :=
    takeReleases_frees (fun o => o) p.releaseOps (x, { p with releaseOps := [] })
  have hp (y : Index) : Frees y (y.freePending p.pet) := .foldl (fun y s => releaseIf_frees y _ _ _) p.pet y
  have hl (y : Index) (q : Path) : Frees y (leakAll y q p.releasing).1 :=
    takeReleases_frees (⟨false, ·⟩) p.releasing (y, q)
  exact (hw.trans (hp _)).trans (hl _ _)

/-- What the sweeper can make of an entry: of a LIVE one, one without the tags that are not active, RELEASING if it can be
released (R115, R116). -/
def Swept (holds : Mask16) (today : Nat) (e f : Entry) : Prop :=
  f = e ∨ e.state = .live ∧ (f = { e with holds := e.holds &&& holds } ∨
    Entry.releasable { e with holds := e.holds &&& holds } today = true ∧
      f = { e with holds := e.holds &&& holds, state := .releasing })

theorem Swept.trans {holds : Mask16} {today : Nat} {d e f : Entry} (h : Swept holds today d e)
    (g : Swept holds today e f) : Swept holds today d f := by
  rcases h with rfl | ⟨hd, rfl | ⟨hr, rfl⟩⟩
  · exact g
  · rcases g with rfl | ⟨_, rfl | ⟨hr, rfl⟩⟩
    · exact .inr ⟨hd, .inl rfl⟩
    · exact .inr ⟨hd, .inl (by simp [BitVec.and_assoc])⟩
    · simp only [BitVec.and_assoc, BitVec.and_self] at hr ⊢
      exact .inr ⟨hd, .inr ⟨hr, rfl⟩⟩
  · rcases g with rfl | ⟨hs, _⟩
    · exact .inr ⟨hd, .inr ⟨hr, rfl⟩⟩
    · cases hs

theorem visit_evolves (holds : Mask16) (today room : Nat) (l : List (Nat × Nat)) (x : Index) :
    Evolves (Swept holds today) (fun _ => False) x (Index.visit holds today room l x).idx := by
  have refl (x : Index) : Evolves (Swept holds today) (fun _ => False) x x :=
    (Frees.refl x).mono (fun _ _ h => .inl h.symm) fun _ h => h
  have write {x : Index} {a : Nat} {e f : Entry} (he : x.entry a = some e) (hf : Swept holds today e f) :=
    set_evolves (R := Swept holds today) (fun _ => .inl rfl) he hf
  have next {x y z : Index} (h : Evolves (Swept holds today) (fun _ => False) x y)
      (g : Evolves (Swept holds today) (fun _ => False) y z) := h.trans g (fun _ _ _ => .trans) fun _ _ hn _ => hn
  induction l generalizing room x with
  | nil => exact refl x
  | cons ia l ih =>
    unfold Index.visit
    split
    · rename_i e he
      split
      · rename_i hl
        dsimp only
        split
        · rename_i hr
          cases room with
          | zero => exact write he (.inr ⟨hl, .inl rfl⟩)
          | succ room => exact next (write he (.inr ⟨hl, .inr ⟨hr, rfl⟩⟩)) (ih _ _)
        · exact next (write he (.inr ⟨hl, .inl rfl⟩)) (ih _ _)
      · exact ih _ _
    · exact ih _ _

/-! ## What a command makes of an entry -/

/-- What a command can make of an entry that stays in its place. -/
inductive Turns (s : State) (c : Instr) (e : Entry) : Entry → Prop where
  | same : Turns s c e e
  | collides (slot ordinal : Nat) : c = .lookup slot ordinal → Turns s c e { e with collided := true }
  | refers (slot ordinal : Nat) (o : LookupOp) : c = .lookup slot ordinal → Turns s c e (e.refer o s.ctl)
  | accepted : e.state = .pending → Turns s c e { e with state := .live }
  | retires (port : Port) (k n : Nat) : c = .retireItem port k → e.count ≠ 65535 → n ≤ e.count →
      Turns s c e { e with count := n }
  | sweeps (f : Entry) : c = .sweeperVisit → Swept s.ctl.holds s.ctl.calendar.dayNumber e f → Turns s c e f

/-- A count of 16 bits. -/
def CountFits (e : Entry) : Prop := e.count ≤ 65535

theorem narrow16_le (wide : Nat → BitVec 16) (v : Nat) : narrow16 wide v ≤ 65535 := by
  unfold narrow16
  split
  · assumption
  · exact Nat.le_of_lt_succ (wide v).isLt

theorem restoreAt_evolves (x : Index) (i : RestoreEntry) : Evolves Eq CountFits x (restoreAt x i).1 := by
  have refl : Evolves Eq CountFits x x := (Frees.refl x).mono (fun _ _ h => h) fun _ h => h.elim
  unfold restoreAt
  split
  · exact refl
  · split
    · exact refl
    · split
      · exact refl
      · exact claim_fill_evolves (by assumption) (narrow16_le _ _)

variable {s : State} {c : Instr}

theorem Frees.turns {x y : Index} (h : Frees x y) : Evolves (Turns s c) CountFits x y :=
  h.mono (fun _ _ he => he ▸ .same) fun _ hf => hf.elim

theorem turns_set {x : Index} {a : Nat} {e f : Entry} (he : x.entry a = some e) (hf : Turns s c e f) :
    Evolves (Turns s c) CountFits x (x.set a f) :=
  (set_evolves (fun _ => .same) he hf).mono (fun _ _ h => h) fun _ hf => hf.elim

theorem retireAt_turns (x : Index) (f : Fingerprint) (n k : Nat) (port : Port) :
    Evolves (Turns s (.retireItem port k)) CountFits x (retireAt x f n).idx := by
  have refl : Evolves (Turns s (.retireItem port k)) CountFits x x := (Frees.refl x).turns
  unfold retireAt
  split
  · exact refl
  · split
    · rename_i e hs
      split
      · exact refl
      · split
        · exact refl
        · rename_i hp
          split
          · exact turns_set (search_held hs).1 (.retires port k _ rfl hp (Nat.sub_le ..))
          · exact turns_set (search_held hs).1 (.retires port k _ rfl hp (Nat.zero_le _))
    · exact refl

theorem judge_turns (x : Index) (p : Path) (o : LookupOp) (slot ordinal : Nat) :
    Evolves (Turns s (.lookup slot ordinal)) CountFits x (judge s.ctl x p o).idx := by
  have refl : Evolves (Turns s (.lookup slot ordinal)) CountFits x x := (Frees.refl x).turns
  have miss (page : Nat) :
      Evolves (Turns s (.lookup slot ordinal)) CountFits x (judgeMiss s.ctl x p o page).idx := by
    unfold judgeMiss
    split
    · exact refl
    · rename_i hc
      split
      · exact (claim_frees hc).1.turns
      · split
        · exact (claim_fill_evolves hc (show (1 : Nat) ≤ 65535 by decide)).mono (fun _ _ he => he ▸ .same) fun _ hf => hf
        · exact (claim_frees hc).1.turns
  have held {a : Nat} {e : Entry} (he : x.entry a = some e) :
      Evolves (Turns s (.lookup slot ordinal)) CountFits x (judgeHeld s.ctl x p o a e).idx := by
    have counted := turns_set he (.refers slot ordinal o rfl : Turns s (.lookup slot ordinal) e _)
    unfold judgeHeld
    dsimp only
    split
    · exact turns_set he (.collides slot ordinal rfl)
    · split
      · split
        · exact refl
        · exact counted
      · exact counted
  unfold judge
  split
  · exact refl
  · exact refl
  · unfold judgeVerify
    split
    · split <;> exact refl
    · exact refl
  · split
    · exact held (find_held (by assumption))
    · exact miss _

/-- What a command makes of the index: it keeps its ranges and its canonical form, and changes an entry only as
`Turns` says. -/
theorem indexChange_evolves {y : Index} (h : IndexChange s c y) : Evolves (Turns s c) CountFits s.idx y := by
  cases h with
  | cleared => exact (cleared_frees _).turns
  | initialised group g => exact (initialised_frees _ group g).turns
  | geometry port m => exact (setGeometryAnswer_frees _ _ m).turns
  | mapped port group page => exact (mapGroupAnswer_frees _ group page).turns
  | unmapped port group => exact (unmapGroupAnswer_frees _ group).turns
  | excluded port range first last active => exact (setExclusionAnswer_frees _ range first last active).turns
  | restored port k i => exact (restoreAt_evolves _ i).mono (fun _ _ he => he ▸ .same) fun _ hf => hf
  | retired port k i => exact retireAt_turns _ _ _ k port
  | warm port => exact (warmChanges_frees _ _ _ port).turns
  | rewritten branch sights => exact (writeHotList_frees _ branch sights).turns
  | judged slot ordinal p o => exact judge_turns _ p o slot ordinal
  | accepted slot address e he hp => exact turns_set he (.accepted hp)
  | failed slot address f => exact (releaseIf_frees _ address f _).turns
  | released op address f => exact (releaseIf_frees _ address f _).turns
  | visited room l =>
    exact (visit_evolves _ _ room l _).mono (fun _ _ h => .sweeps _ rfl h) fun _ hf => hf.elim
  | visitedAll room l pos bucket =>
    exact ((visit_evolves _ _ room l _).mono (fun _ _ h => .sweeps _ rfl h) fun _ hf => hf.elim).frees
      (afterVisit_frees _ pos bucket)

end rules

/-! ## Every step -/

/-- What a command makes of the index, a cold reset apart. -/
theorem exec_evolves {c : Instr} {s t : State} (h : exec c s = .next t) (hc : c ≠ .coldReset) :
    Evolves (Turns s c) CountFits s.idx t.idx := by
  have same : Evolves (Turns s c) CountFits s.idx s.idx := (Frees.refl _).turns
  cases exec_effect h with
  | quiet c t hi => exact hi ▸ same
  | index c t hi => exact indexChange_evolves hi
  | registers c t _ hi => exact hi ▸ same
  | arrives c t r _ hi => exact hi ▸ same
  | cold => exact absurd rfl hc

theorem Turns.countFits {s : State} {c : Instr} {e f : Entry} (h : Turns s c e f) (he : CountFits e) : CountFits f := by
  cases h with
  | same => exact he
  | collides => exact he
  | refers => exact Nat.min_le_left ..
  | accepted => exact he
  | retires port k n _ _ hn => exact Nat.le_trans hn he
  | sweeps f _ h => rcases h with rfl | ⟨_, rfl | ⟨_, rfl⟩⟩ <;> exact he

theorem Evolves.countsFit {s : State} {c : Instr} {x y : Index} (h : Evolves (Turns s c) CountFits x y)
    (hx : x.canonical = true) (hc : x.countsFit) : y.countsFit := fun a f hy => by
  rcases h.entries hx a f hy with ⟨e, he, ht⟩ | ⟨_, hn⟩
  · exact ht.countFits (hc a e he)
  · exact hn

/-- Every entry of an index right after a cold reset is FREE. -/
theorem coldReset_countsFit (s : State) : s.coldReset.idx.countsFit := fun _ _ h => nomatch h

/-- A step takes the command at the front, or, on an empty queue, lets a period pass. -/
theorem step_cases {s t : State} (h : step s = .next t) :
    t = s.idle ∨ ∃ c rest, s.pending = c :: rest ∧ exec c { s with pending := rest } = .next t := by
  unfold step at h
  split at h
  · exact .inr ⟨_, _, by assumption, h⟩
  · cases h
    exact .inl rfl

/-- Settles O4: every operation keeps the canonical form, and what it makes of an entry keeps the range of its count. -/
theorem indexStaysCanonical : Obligations.IndexStaysCanonical := by
  intro s t hx h
  rcases step_cases h with rfl | ⟨c, rest, _, h⟩
  · exact ⟨hx, fun h => h⟩
  · by_cases hc : c = .coldReset
    · subst hc
      cases h
      exact ⟨rfl, fun _ => coldReset_countsFit _⟩
    · have hE := exec_evolves h hc
      exact ⟨hE.canonical hx, hE.countsFit hx⟩

end Sys2Proof.Machine.FingerprintIndex
end

section
/-! PROOFS. What a command can make of an entry that stays in its place (O7). -/

namespace Sys2Proof.Machine.FingerprintIndex

open Sys2Proof

variable {s : State} {c : Instr} {e f : Entry}

theorem activeTag_getLsbD {holds : Mask16} {n tag : Nat} (h : (activeTag holds n).getLsbD tag = true) :
    holds.getLsbD tag = true := by
  unfold activeTag at h
  split at h
  · simp at h
  · rw [BitVec.getLsbD_and, Bool.and_eq_true] at h
    exact h.1

/-- A sweep that makes a LIVE entry RELEASING finds that it can be released (R115). -/
theorem Swept.releases {holds : Mask16} {today : Nat} (h : Swept holds today e f) (he : e.state = .live)
    (hf : f.state = .releasing) : e.count = 0 ∧ e.holds &&& holds = 0 ∧ e.untilDay < today := by
  rcases h with rfl | ⟨_, rfl | ⟨hr, rfl⟩⟩
  · exact nomatch he.symm.trans hf
  · exact nomatch he.symm.trans hf
  · simpa only [Entry.releasable, Bool.and_eq_true, decide_eq_true_eq, and_assoc] using hr

/-- A sweep takes only tags that are not active, of a LIVE entry (R111, R116). -/
theorem Swept.holds {holds : Mask16} {today : Nat} (h : Swept holds today e f) :
    f = e ∨ e.state = .live ∧ f.holds = e.holds &&& holds := by
  rcases h with rfl | ⟨hl, rfl | ⟨_, rfl⟩⟩
  · exact .inl rfl
  · exact .inr ⟨hl, rfl⟩
  · exact .inr ⟨hl, rfl⟩

theorem Swept.count {holds : Mask16} {today : Nat} (h : Swept holds today e f) : f.count = e.count := by
  rcases h with rfl | ⟨_, rfl | ⟨_, rfl⟩⟩ <;> rfl

theorem Swept.mayBecome {holds : Mask16} {today : Nat} (h : Swept holds today e f) : e.mayBecome f := by
  unfold Entry.mayBecome
  rcases h with rfl | ⟨hl, rfl | ⟨_, rfl⟩⟩
  · simp
  · simp
  · simp [hl]

/-- It names the same chunk in the same place, and its state, its pinned count and its retention only go on. -/
theorem Turns.mayBecome (h : Turns s c e f) : e.mayBecome f := by
  cases h with
  | same => simp [Entry.mayBecome]
  | collides => simp [Entry.mayBecome]
  | refers slot ordinal o =>
    have hp (h : e.count = 65535) : (e.refer o s.ctl).count = 65535 := by simp [Entry.refer, h]
    exact ⟨rfl, rfl, rfl, rfl, rfl, rfl, rfl, .inl rfl, hp, Nat.le_max_left .., fun h => h⟩
  | accepted hp => simp [Entry.mayBecome, hp]
  | retires port k n _ hp => simp [Entry.mayBecome, hp]
  | sweeps f _ h => exact h.mayBecome

/-- Only a visit makes a LIVE entry RELEASING, and only one that can be released. -/
theorem Turns.releases (h : Turns s c e f) (he : e.state = .live) (hf : f.state = .releasing) :
    c = .sweeperVisit ∧ e.count = 0 ∧ e.holds &&& s.ctl.holds = 0 ∧ e.untilDay < s.ctl.calendar.dayNumber := by
  cases h with
  | sweeps f hc h => exact ⟨hc, h.releases he hf⟩
  | accepted => cases hf
  | same | collides | refers | retires => exact nomatch he.symm.trans hf

/-- Only a visit takes a tag from a hold set, of a LIVE entry and a tag that is not active. -/
theorem Turns.dropsTag (h : Turns s c e f) {tag : Nat} (he : e.holds.getLsbD tag = true)
    (hf : f.holds.getLsbD tag = false) : c = .sweeperVisit ∧ e.state = .live ∧ s.ctl.holds.getLsbD tag = false := by
  cases h with
  | sweeps f hc h =>
    rcases h.holds with rfl | ⟨hl, hm⟩
    · exact nomatch he.symm.trans hf
    · rw [hm, BitVec.getLsbD_and, he, Bool.true_and] at hf
      exact ⟨hc, hl, hf⟩
  | refers slot ordinal o =>
    rw [Entry.refer, BitVec.getLsbD_or, he] at hf
    cases hf
  | same | collides | accepted | retires => exact nomatch he.symm.trans hf

/-- Only a lookup adds a tag to a hold set, and only one that is active. -/
theorem Turns.addsTag (h : Turns s c e f) {tag : Nat} (he : e.holds.getLsbD tag = false)
    (hf : f.holds.getLsbD tag = true) : (∃ slot ordinal, c = .lookup slot ordinal) ∧ s.ctl.holds.getLsbD tag = true := by
  cases h with
  | refers slot ordinal o hc =>
    rw [Entry.refer, BitVec.getLsbD_or, he, Bool.false_or] at hf
    exact ⟨⟨slot, ordinal, hc⟩, activeTag_getLsbD hf⟩
  | sweeps f hc h =>
    rcases h.holds with rfl | ⟨_, hm⟩
    · exact nomatch he.symm.trans hf
    · rw [hm, BitVec.getLsbD_and, he] at hf
      cases hf
  | same | collides | accepted | retires => exact nomatch he.symm.trans hf

/-- Only an item of a RETIRE lowers a count. -/
theorem Turns.countFalls (h : Turns s c e f) (he : CountFits e) (hf : f.count < e.count) :
    ∃ port k, c = .retireItem port k := by
  cases h with
  | retires port k n hc => exact ⟨port, k, hc⟩
  | refers slot ordinal o =>
    unfold CountFits at he
    simp only [Entry.refer] at hf
    omega
  | sweeps f _ h => exact absurd h.count (Nat.ne_of_lt hf)
  | same | collides | accepted => exact absurd hf (Nat.lt_irrefl _)

/-- Only a lookup raises a count. -/
theorem Turns.countRises (h : Turns s c e f) (hf : e.count < f.count) : ∃ slot ordinal, c = .lookup slot ordinal := by
  cases h with
  | refers slot ordinal o hc => exact ⟨slot, ordinal, hc⟩
  | retires port k n _ _ hn => exact absurd hf (Nat.not_lt.2 hn)
  | sweeps f _ h => exact absurd h.count (Nat.ne_of_gt hf)
  | same | collides | accepted => exact absurd hf (Nat.lt_irrefl _)

/-- Settles O7: a command changes an entry that stays in its place only as `Turns` says. -/
theorem entriesChangeOnlyInPlace : Obligations.EntriesChangeOnlyInPlace := by
  intro c s t a e f hc hx hfit h he hf
  rcases (exec_evolves h hc).entries hx a f hf with ⟨e', he', ht⟩ | ⟨hn, _⟩
  · obtain rfl : e' = e := Option.some.inj (he'.symm.trans he)
    exact ⟨ht.mayBecome, ht.releases, fun _ => ht.dropsTag, fun _ => ht.addsTag,
      ht.countFalls (hfit a e' he), ht.countRises⟩
  · exact nomatch hn.symm.trans he

end Sys2Proof.Machine.FingerprintIndex
end

section
/-! PROOFS. What requests, loads and ticks write in the registers lies in its range, and so does what waits (O6). -/

namespace Sys2Proof.Machine.FingerprintIndex

open Sys2Proof

/-! ## The calendar -/

theorem calendar_legal_iff {c : Calendar} : c.legal = true ↔
    c.year ≤ 99 ∧ 1 ≤ c.month ∧ c.month ≤ 12 ∧ 1 ≤ c.day ∧ c.day ≤ 31 ∧ c.seconds ≤ 86399 ∧ c.dayNumber ≤ 65535 := by
  simp only [Calendar.legal, Bool.and_eq_true, decide_eq_true_eq, and_assoc]

theorem calendar_mk_legal {year month day seconds dayNumber : Nat} {isSet : Bool} :
    Calendar.legal ⟨year, month, day, seconds, dayNumber, isSet⟩ = true ↔ year ≤ 99 ∧ 1 ≤ month ∧ month ≤ 12 ∧ 1 ≤ day ∧
      day ≤ 31 ∧ seconds ≤ 86399 ∧ dayNumber ≤ 65535 := calendar_legal_iff

theorem monthLength_le (year month : Nat) : monthLength year month ≤ 31 := by
  unfold monthLength
  grind

/-- A rollover keeps a date in its ranges, whatever the second of the day was (R129, R131). -/
theorem rollover_legal {c : Calendar} (h : c.legal = true) {v : Nat} (hv : v ≤ 86399) :
    (Calendar.rollover { c with seconds := v }).legal = true := by
  obtain ⟨hy, hm1, hm2, hd1, hd2, -, hn⟩ := calendar_legal_iff.1 h
  have hl := monthLength_le c.year c.month
  unfold Calendar.rollover
  dsimp only
  split
  · exact calendar_mk_legal.2 ⟨hy, hm1, hm2, by omega, by omega, hv, Nat.min_le_left ..⟩
  · split
    · exact calendar_mk_legal.2 ⟨hy, by omega, by omega, Nat.le_refl 1, by omega, hv, Nat.min_le_left ..⟩
    · exact calendar_mk_legal.2 ⟨by omega, Nat.le_refl 1, by omega, Nat.le_refl 1, by omega, hv, Nat.min_le_left ..⟩

theorem seconds_legal {c : Calendar} (h : c.legal = true) {v : Nat} (hv : v ≤ 86399) :
    Calendar.legal { c with seconds := v } = true := by
  obtain ⟨hy, hm1, hm2, hd1, hd2, -, hn⟩ := calendar_legal_iff.1 h
  exact calendar_mk_legal.2 ⟨hy, hm1, hm2, hd1, hd2, hv, hn⟩

theorem tick_legal {c : Calendar} (h : c.legal = true) : c.tick.1.legal = true := by
  have hs := (calendar_legal_iff.1 h).2.2.2.2.2.1
  unfold Calendar.tick
  split
  · split
    · exact rollover_legal h (Nat.zero_le _)
    · exact seconds_legal h (by omega)
  · exact h

/-- A NUDGE of at most 30 seconds either way keeps the calendar in its ranges (R134, R135). -/
theorem nudge_legal {c : Calendar} (h : c.legal = true) (amount : Int) :
    (c.nudge (nudgeAmount amount)).1.legal = true := by
  have hs := (calendar_legal_iff.1 h).2.2.2.2.2.1
  have hn : nudgeAmount amount ≤ 30 := by unfold nudgeAmount; omega
  unfold Calendar.nudge
  split
  · dsimp only
    split
    · exact rollover_legal h (by omega)
    · exact seconds_legal h (by omega)
  · exact seconds_legal h (by omega)

theorem dateBad_iff {year month day seconds : Nat} : dateBad year month day seconds = false ↔
    year ≤ 99 ∧ 1 ≤ month ∧ month ≤ 12 ∧ 1 ≤ day ∧ day ≤ 31 ∧ seconds ≤ 86399 := by
  simp only [dateBad, Bool.or_eq_false_iff, decide_eq_false_iff_not]
  omega

/-! ## Settings -/

theorem write_legal {g : Settings} (h : g.legal = true) {w : SettingWrite} (hw : SettingWrite.inRange w = true) :
    (g.write w).legal = true := by
  simp only [Settings.legal, Bool.and_eq_true, decide_eq_true_eq] at h
  cases w <;> simp_all [Settings.write, Settings.legal, SettingWrite.inRange]

theorem writes_legal {g : Settings} (h : g.legal = true) {l : List SettingWrite} (hl : settingsGood l = true) :
    (l.foldl Settings.write g).legal = true := by
  induction l generalizing g with
  | nil => exact h
  | cons w l ih =>
    simp only [settingsGood, List.all_cons, Bool.and_eq_true] at hl
    exact ih (write_legal h hl.1.2) (by simpa only [settingsGood] using hl.2)

/-! ## Banks and gear tables -/

theorem mem_putRows {α : Type} [DecidableEq α] {d : α} {rows : List α} {t : Tab α} {i : Nat} {e : Nat × α}
    (h : e ∈ putRows d t i rows) : e ∈ t ∨ e.2 ∈ rows := by
  induction rows generalizing t i with
  | nil => exact .inl h
  | cons a rows ih =>
    rcases ih h with hm | hm
    · unfold tabPut at hm
      split at hm
      · exact .inl (mem_tabErase hm)
      · rcases mem_tabSet hm with rfl | hm
        · exact .inr (List.mem_cons_self ..)
        · exact .inl hm
    · exact .inr (List.mem_cons_of_mem _ hm)

theorem putRows_wf {α : Type} [DecidableEq α] {d : α} {rows : List α} {t : Tab α} (h : tabWf t = true) (i : Nat) :
    tabWf (putRows d t i rows) = true := by
  induction rows generalizing t i with
  | nil => exact h
  | cons a rows ih => exact ih (tabPut_wf h d i a) _

theorem putRows_all {α : Type} [DecidableEq α] {P : α → Bool} {d : α} {rows : List α} {t : Tab α}
    (h : (t.all fun e => P e.2) = true) (hr : ∀ a ∈ rows, P a = true) (i : Nat) :
    ((putRows d t i rows).all fun e => P e.2) = true := by
  rw [List.all_eq_true] at h ⊢
  exact fun e he => (mem_putRows he).elim (h e) (hr _)

theorem clampTo_bounds {lo hi : Nat} (h : lo ≤ hi) (v : Nat) : lo ≤ clampTo lo hi v ∧ clampTo lo hi v ≤ hi := by
  unfold clampTo
  omega

/-- What is clamped between multiples is a multiple. -/
theorem clampTo_mod {lo hi v m : Nat} (hl : lo % m = 0) (hh : hi % m = 0) (hv : v % m = 0) : clampTo lo hi v % m = 0 := by
  unfold clampTo
  rcases Nat.le_total hi v with h1 | h1 <;> rcases Nat.le_total lo (min hi v) with h2 | h2 <;>
    simp_all

/-- 2^k as R181 clamps k: from 256 to 65536, a multiple of 64. -/
theorem two_pow_bounds {k : Nat} (h1 : 8 ≤ k) (h2 : k ≤ 16) : 256 ≤ 2 ^ k ∧ 2 ^ k ≤ 65536 ∧ 2 ^ k % 64 = 0 := by
  interval_cases k <;> decide

theorem policy_legal_iff {e : PolicyEntry} : PolicyEntry.legal e = true ↔ 8 ≤ e.k ∧ e.k ≤ 16 ∧ 64 ≤ e.min ∧
    e.min ≤ 2 ^ e.k ∧ e.min % 64 = 0 ∧ 2 ^ e.k ≤ e.max ∧ e.max ≤ 65536 ∧ e.max % 64 = 0 ∧ e.gear ≤ 3 ∧
    e.retention ≤ 65535 ∧ e.cls ≤ 7 ∧ e.warmUp ≤ 15 ∧ e.linger ≤ 15 := by
  simp only [PolicyEntry.legal, Bool.and_eq_true, decide_eq_true_eq, and_assoc]

theorem branch_legal_iff {e : BranchEntry} : BranchEntry.legal e = true ↔ e.policy ≤ 31 ∧ e.holdTag ≤ 15 ∧
    1 ≤ e.streamLimit ∧ e.streamLimit ≤ 8 ∧ 16 ≤ e.quota ∧ e.quota ≤ 512 := by
  simp only [BranchEntry.legal, Bool.and_eq_true, decide_eq_true_eq, and_assoc]

theorem policy_stored_legal {e : PolicyRow} (h : PolicyRow.bad e = false) :
    PolicyEntry.legal (PolicyEntry.stored (PolicyRow.entry e)) = true := by
  simp only [PolicyRow.bad, Bool.or_eq_false_iff, decide_eq_false_iff_not, Nat.not_lt] at h
  obtain ⟨⟨⟨⟨hg, hc⟩, hw⟩, hl⟩, -⟩ := h
  obtain ⟨hk1, hk2⟩ := clampTo_bounds (show 8 ≤ 16 by decide) e.k
  obtain ⟨hp1, hp2, hp3⟩ := two_pow_bounds hk1 hk2
  obtain ⟨hn1, hn2⟩ := clampTo_bounds (show 64 ≤ 2 ^ clampTo 8 16 e.k by omega) (e.min / 64 * 64)
  obtain ⟨hx1, hx2⟩ := clampTo_bounds hp2 (e.max / 64 * 64)
  have hn3 := clampTo_mod (show 64 % 64 = 0 by decide) hp3 (Nat.mul_mod_left (e.min / 64) 64)
  have hx3 := clampTo_mod hp3 (show 65536 % 64 = 0 by decide) (Nat.mul_mod_left (e.max / 64) 64)
  exact policy_legal_iff.2 ⟨hk1, hk2, hn1, hn2, hn3, hx1, hx2, hx3, hg, narrow16_le _ _, hc, hw, hl⟩

theorem branch_clamped_legal {e : BranchRow} (h : BranchRow.bad e = false) :
    BranchEntry.legal (BranchEntry.clamped (BranchRow.entry e)) = true := by
  simp only [BranchRow.bad, Bool.or_eq_false_iff, decide_eq_false_iff_not, Nat.not_lt] at h
  obtain ⟨⟨⟨⟨hp, ht⟩, -⟩, -⟩, -⟩ := h
  obtain ⟨hs1, hs2⟩ := clampTo_bounds (show 1 ≤ 8 by decide) e.streamLimit
  obtain ⟨hq1, hq2⟩ := clampTo_bounds (show 16 ≤ 512 by decide) e.quota
  exact branch_legal_iff.2 ⟨hp, ht, hs1, hs2, hq1, hq2⟩

/-- The settings, both banks and the gear tables lie in their ranges. -/
structure TablesLegal (t : Tables) : Prop where
  settings : t.settings.legal = true
  bankA : t.bankA.legal = true
  bankB : t.bankB.legal = true
  gear : tabWf t.gear = true

namespace TablesLegal

variable {t : Tables}

theorem bank (h : TablesLegal t) (id : BankId) : (t.bank id).legal = true := by
  cases id
  · exact h.bankA
  · exact h.bankB

theorem setStandby (h : TablesLegal t) {b : Bank} (hb : b.legal = true) : TablesLegal (t.setStandby b) := by
  unfold Tables.setStandby Tables.setBank
  split
  · exact ⟨h.settings, hb, h.bankB, h.gear⟩
  · exact ⟨h.settings, h.bankA, hb, h.gear⟩

end TablesLegal

theorem bank_legal_iff {b : Bank} : b.legal = true ↔
    (b.policies.all fun e => PolicyEntry.legal e.2) = true ∧ (b.branches.all fun e => BranchEntry.legal e.2) = true ∧
      tabWf b.policies = true ∧ tabWf b.branches = true := by
  simp only [Bank.legal, Bool.and_eq_true, and_assoc]

theorem loadPolicies_legal {t : Tables} (h : TablesLegal t) (first : Nat) (rows : List PolicyRow) :
    TablesLegal (loadPolicies t first rows).1 := by
  unfold loadPolicies
  repeat' split
  case isFalse hbad =>
    obtain ⟨hp, hb, hpw, hbw⟩ := bank_legal_iff.1 (h.bank t.active.other)
    refine h.setStandby (bank_legal_iff.2 ⟨putRows_all hp (fun a ha => ?_) first, hb, putRows_wf hpw first, hbw⟩)
    simp only [List.mem_map, exists_exists_and_eq_and] at ha
    obtain ⟨row, hr, rfl⟩ := ha
    exact policy_stored_legal (Bool.eq_false_iff.2 fun hb => hbad (List.any_eq_true.2 ⟨row, hr, hb⟩))
  all_goals exact h

theorem loadBranches_legal {t : Tables} (h : TablesLegal t) (first : Nat) (rows : List BranchRow) :
    TablesLegal (loadBranches t first rows).1 := by
  unfold loadBranches
  repeat' split
  case isFalse hbad =>
    obtain ⟨hp, hb, hpw, hbw⟩ := bank_legal_iff.1 (h.bank t.active.other)
    refine h.setStandby (bank_legal_iff.2 ⟨hp, putRows_all hb (fun a ha => ?_) first, hpw, putRows_wf hbw first⟩)
    simp only [List.mem_map, exists_exists_and_eq_and] at ha
    obtain ⟨row, hr, rfl⟩ := ha
    exact branch_clamped_legal (Bool.eq_false_iff.2 fun hb => hbad (List.any_eq_true.2 ⟨row, hr, hb⟩))
  all_goals exact h

theorem loadGears_legal {t : Tables} (h : TablesLegal t) (inUse : Bool) (table first : Nat) (values : List Word32) :
    TablesLegal (loadGears t inUse table first values).1 := by
  unfold loadGears
  repeat' split
  case isFalse => exact ⟨h.settings, h.bankA, h.bankB, putRows_wf h.gear _⟩
  all_goals exact h

theorem loadAnswer_legal {t : Tables} (h : TablesLegal t) (p : Path) (l : TableLoad) :
    TablesLegal (loadAnswer t p l).1 := by
  cases l with
  | policy first rows => exact loadPolicies_legal h first rows
  | branch first rows => exact loadBranches_legal h first rows
  | gear table first values => exact loadGears_legal h _ table first values
  | unknown => exact h

theorem swapAnswer_legal {t : Tables} (h : TablesLegal t) : TablesLegal (swapAnswer t).1 := by
  unfold swapAnswer
  split
  · exact h
  · exact ⟨h.settings, h.bankA, h.bankB, h.gear⟩

theorem copied_legal {t : Tables} (h : TablesLegal t) : TablesLegal t.copied := by
  have hs := h.setStandby (h.bank t.active)
  exact ⟨hs.settings, hs.bankA, hs.bankB, hs.gear⟩

/-! ## All registers -/

theorem control_legal_iff {c : Control} : c.legal = true ↔
    c.calendar.legal = true ∧ TablesLegal c.tables ∧ c.sources.length ≤ 2 ∧ c.holds &&& 1 = 0 := by
  simp only [Control.legal, Bool.and_eq_true, decide_eq_true_eq]
  exact ⟨fun ⟨⟨⟨⟨⟨⟨hc, hs⟩, ha⟩, hb⟩, hg⟩, hl⟩, hh⟩ => ⟨hc, ⟨hs, ha, hb, hg⟩, hl, hh⟩,
    fun ⟨hc, ⟨hs, ha, hb, hg⟩, hl, hh⟩ => ⟨⟨⟨⟨⟨⟨hc, hs⟩, ha⟩, hb⟩, hg⟩, hl⟩, hh⟩⟩

theorem SameRegisters.legal {c d : Control} (h : SameRegisters c d) (hc : c.legal = true) : d.legal = true := by
  rw [control_legal_iff] at hc ⊢
  rwa [h.calendar, h.tables, h.sources, h.holds]

theorem setSourcesAnswer_length {old : List Mac} (h : old.length ≤ 2) (given : List Mac) :
    (setSourcesAnswer old given).1.length ≤ 2 := by
  unfold setSourcesAnswer
  split
  · exact h
  · split
    · exact h
    · exact Nat.le_trans (List.dedup_sublist given).length_le (by omega)

/-- The flag of tag 0 stays clear: SET HOLD takes only the tags 1 to 15 (R110). -/
theorem setHoldAnswer_bit0 {holds : Mask16} (h : holds &&& 1 = 0) (tag : Nat) (active : Bool) :
    (setHoldAnswer holds tag active).1 &&& 1 = 0 := by
  unfold setHoldAnswer
  split
  · exact h
  · have ht : ((1 : Mask16) <<< tag) &&& 1 = 0 := by
      have h1 : 1 ≤ tag := by omega
      have h2 : tag ≤ 15 := by omega
      interval_cases tag <;> decide
    show setTag holds tag active &&& 1 = 0
    cases active with
    | true => rw [setTag, if_pos rfl, BitVec.and_or_distrib_right, h, ht]; rfl
    | false => rw [setTag, if_neg Bool.false_ne_true, BitVec.and_assoc, BitVec.and_comm _ 1, ← BitVec.and_assoc, h]; simp

/-- A request at a head is in its queue (R191). -/
theorem headRequest_mem {s : State} {port : Port} {r : Req} (h : s.headRequest port = some r) :
    r ∈ (s.path.queue port).reqs := by
  unfold State.headRequest at h
  split at h
  · split at h
    · rename_i hq
      cases h
      rw [hq]
      exact List.mem_cons_self ..
    · cases h
  · cases h

theorem registerChange_legal {s : State} {c : Instr} {d : Control} (h : RegisterChange s c d) (hs : s.ctl.legal = true)
    (hd : s.daysFit) : d.legal = true := by
  obtain ⟨hcal, htab, hsrc, hhold⟩ := control_legal_iff.1 hs
  refine control_legal_iff.2 ?_
  cases h with
  | settings port writes hw =>
    exact ⟨hcal, ⟨writes_legal htab.settings hw, htab.bankA, htab.bankB, htab.gear⟩, hsrc, hhold⟩
  | loaded port l => exact ⟨hcal, loadAnswer_legal htab _ l, hsrc, hhold⟩
  | swapped port => exact ⟨hcal, swapAnswer_legal htab, hsrc, hhold⟩
  | copied => exact ⟨hcal, copied_legal htab, hsrc, hhold⟩
  | dated port n src year month day seconds dayNumber hr hb =>
    obtain ⟨hy, hm1, hm2, hd1, hd2, hsec⟩ := dateBad_iff.1 hb
    have hfit : dayNumber ≤ 65535 := by
      have := hd.1 port _ (headRequest_mem hr)
      exact of_decide_eq_true this
    exact ⟨calendar_mk_legal.2 ⟨hy, hm1, hm2, hd1, hd2, hsec, hfit⟩, htab, hsrc, hhold⟩
  | nudged port amount => exact ⟨nudge_legal hcal amount, htab, hsrc, hhold⟩
  | ticked now divider => exact ⟨tick_legal hcal, htab, hsrc, hhold⟩
  | held port tag active => exact ⟨hcal, htab, hsrc, setHoldAnswer_bit0 hhold tag active⟩
  | sourced port l => exact ⟨hcal, htab, setSourcesAnswer_length hsrc l, hhold⟩

/-- No command but the step itself takes from the queue of commands. -/
theorem exec_pending {s t : State} {c : Instr} (h : exec c s = .next t) : t.pending = s.pending := by
  have hs := exec_shape c s
  rw [h] at hs
  cases hs with
  | same => rfl
  | cold => rfl
  | finish u hu => exact hu

theorem Effect.requestsFit {s t : State} {c : Instr} (h : Effect s c t) (hc : Instr.dayFits c = true)
    (hs : ∀ port, ∀ r ∈ (s.path.queue port).reqs, Request.dayFits r.request = true) :
    ∀ port, ∀ r ∈ (t.path.queue port).reqs, Request.dayFits r.request = true := by
  intro port r hr
  cases h with
  | quiet c t _ _ hq => exact hs port r ((hq port).subset hr)
  | index c t _ _ hq => exact hs port r ((hq port).subset hr)
  | registers c t _ _ hq => exact hs port r ((hq port).subset hr)
  | arrives c t q hq _ _ ha =>
    rcases ha port r hr with hm | rfl
    · exact hs port r hm
    · exact hq hc
  | cold => cases port <;> cases hr

theorem reset_legal : State.reset.ctl.legal = true ∧ State.reset.idx.legal = true := by decide

/-- What a command makes of the registers and the index lies in the ranges. -/
theorem Effect.legal {s t : State} {c : Instr} (h : Effect s c t) (hc : s.ctl.legal = true) (hx : s.idx.legal = true)
    (hd : s.daysFit) : t.ctl.legal = true ∧ t.idx.legal = true := by
  cases h with
  | quiet c t hi hr => exact ⟨hr.legal hc, hi ▸ hx⟩
  | index c t hi hr => exact ⟨hr.legal hc, (indexChange_evolves hi).legal hx⟩
  | registers c t hr hi => exact ⟨registerChange_legal hr hc hd, hi ▸ hx⟩
  | arrives c t _ _ hi hr => exact ⟨hr.legal hc, hi ▸ hx⟩
  | cold => exact reset_legal

/-- Settles O6: what a command writes in the registers lies in its range, and a request that comes to a queue has a day
number that fits. -/
theorem registersStayLegal : Obligations.RegistersStayLegal := by
  intro s t ⟨hc, hx, hd⟩ h
  rcases step_cases h with rfl | ⟨c, rest, hp, h⟩
  · exact ⟨hc, hx, hd⟩
  · obtain ⟨hq, hpend⟩ := hd
    rw [hp, List.forall_mem_cons] at hpend
    have hE := exec_effect h
    obtain ⟨hc', hx'⟩ := hE.legal hc hx ⟨hq, hpend.2⟩
    refine ⟨hc', hx', hE.requestsFit hpend.1 hq, fun c hm => ?_⟩
    rw [exec_pending h] at hm
    exact hpend.2 c hm

end Sys2Proof.Machine.FingerprintIndex
end

section
/-! PROOFS. The state after reset (O9, O10). -/

namespace Sys2Proof.Machine.FingerprintIndex

open Sys2Proof

/-- Settles O9: the tables are empty, the registers hold legal values, the link is UP and nothing waits to be sent. -/
theorem resetIsSafe : Obligations.ResetIsSafe := by
  have hq : ∀ port, ∀ r ∈ (State.reset.path.queue port).reqs, Request.dayFits r.request = true := fun port r hr => by
    cases port <;> cases hr
  have hf : State.reset.idx.countsFit := fun _ _ h => nomatch h
  exact ⟨reset_legal.1, reset_legal.2, ⟨hq, fun _ h => nomatch h⟩, rfl, hf, rfl, fun _ => rfl,
    fun _ _ => ⟨rfl, rfl⟩, fun _ _ => ⟨rfl, rfl⟩⟩

/-- Settles O10: every field reads as its default, and an unlisted place of an empty table as its table's. -/
theorem resetState : Obligations.ResetState := by
  refine ⟨rfl, ?_, ?_, ?_, ?_, ?_, ?_, ?_⟩
  · exact ⟨rfl, rfl, rfl, rfl, rfl, rfl, rfl, rfl, rfl, rfl, rfl, rfl, rfl, fun _ => rfl, fun _ => rfl, fun _ _ => rfl⟩
  · exact ⟨rfl, rfl, rfl, rfl, rfl, rfl, rfl, fun _ => rfl, fun _ => rfl, fun _ => rfl⟩
  · exact ⟨rfl, fun _ => rfl, rfl, rfl, rfl, rfl, rfl, rfl, fun _ => rfl, rfl, rfl, rfl, rfl, rfl, rfl⟩
  · exact ⟨rfl, rfl, rfl, rfl, rfl, rfl, rfl, rfl, rfl⟩
  · exact ⟨rfl, rfl, rfl, fun _ => rfl, rfl, rfl⟩
  · exact ⟨rfl, rfl, rfl, rfl, rfl, rfl, rfl, rfl, rfl, rfl, rfl, rfl, rfl, rfl⟩
  · exact ⟨rfl, rfl, rfl, rfl, rfl, rfl, rfl, rfl⟩

end Sys2Proof.Machine.FingerprintIndex
end

section
/-! PROOFS. The completions of initialisations, and the requests about geometry, groups and excluded ranges (O12, O39,
O40). -/

namespace Sys2Proof.Machine.FingerprintIndex

open Sys2Proof

variable {s : State} {port : Port} {n : Nat} {src : Mac}

/-! ## Initialisations -/

theorem cleared_eq (x : Index) : x.cleared =
    { x with clearing := false, hot := [], dram := x.dram.filter fun e => decide (65536 ≤ e.1) } := by
  have h : (fun e : Nat × Entry => !inBin e.1) = fun e => decide (65536 ≤ e.1) := by
    funext e
    rw [inBin, ← decide_not, decide_eq_decide, Nat.not_lt]
  unfold Index.cleared Index.wipe
  rw [h]

theorem initialised_eq (x : Index) (group : Nat) (g : Group) : x.initialised group g =
    { x with
      groups := tabSet x.groups group { g with state := .ready }
      dram := x.dram.filter fun e => decide (e.1 / 4096 ≠ g.page) } := by
  have h : (fun e : Nat × Entry => !inPage g.page e.1) = fun e => decide (e.1 / 4096 ≠ g.page) := by
    funext e
    rw [inPage, ← decide_not]
  unfold Index.initialised Index.wipe
  rw [h]

/-- Settles O12: each completion ends as the state with the index cleared or the group initialised. -/
theorem initialisationsComplete : Obligations.InitialisationsComplete := by
  refine ⟨fun s hl hc => ?_, fun s group g hl hg hi => ?_⟩
  · have h : exec .reservedPageClearingComplete s = .next (s.withIdx s.idx.cleared).finish := by
      show execReservedPageClearingComplete s = _
      rw [execReservedPageClearingComplete, if_pos hc]
    rw [← cleared_eq]
    exact completes_finish h rfl hl
  · have h : exec (.groupInitialisationComplete group) s = .next (s.withIdx (s.idx.initialised group g)).finish := by
      show execGroupInitialisationComplete group s = _
      simp only [execGroupInitialisationComplete, hg, hi, if_true]
    rw [← initialised_eq]
    exact completes_finish h rfl hl

/-! ## Geometry and groups -/

/-- A request at the Index Controller that ends with an index and an answer replies so. -/
theorem indexReplies {c : Instr} {r : Req} {y : Index} {a : Answer} {z : IndexAnswer} (hl : s.path.lostDrained)
    (h : exec c s = .next ((s.withIdx z.1).answer port r z.2).finish) (hz : z = (y, a)) :
    Replies c s (s.withIdx y) port r a := by
  subst hz
  exact replies_finish h rfl hl

theorem exec_setGeometry {m : Nat} (h : s.headRequest port = some ⟨n, src, .setGeometry m⟩) :
    exec (.setGeometry port) s = .next ((s.withIdx (setGeometryAnswer s.ctl.mode s.idx m).1).answer port
      ⟨n, src, .setGeometry m⟩ (setGeometryAnswer s.ctl.mode s.idx m).2).finish := by
  show execSetGeometry port s = _
  simp only [execSetGeometry, h]

theorem exec_unmapGroup {group : Nat} (h : s.headRequest port = some ⟨n, src, .unmapGroup group⟩) :
    exec (.unmapGroup port) s = .next ((s.withIdx (unmapGroupAnswer s.idx group).1).answer port
      ⟨n, src, .unmapGroup group⟩ (unmapGroupAnswer s.idx group).2).finish := by
  show execUnmapGroup port s = _
  simp only [execUnmapGroup, h]

theorem exec_mapGroup {group page : Nat} (h : s.headRequest port = some ⟨n, src, .mapGroup group page⟩) :
    exec (.mapGroup port) s = .next ((s.withIdx (mapGroupAnswer s.idx group page).1).answer port
      ⟨n, src, .mapGroup group page⟩ (mapGroupAnswer s.idx group page).2).finish := by
  show execMapGroup port s = _
  simp only [execMapGroup, h]

theorem exec_setExclusion {range first last : Nat} {active : Bool}
    (h : s.headRequest port = some ⟨n, src, .setExclusion range first last active⟩) :
    exec (.setExclusion port) s = .next ((s.withIdx (setExclusionAnswer s.idx range first last active).1).answer port
      ⟨n, src, .setExclusion range first last active⟩ (setExclusionAnswer s.idx range first last active).2).finish := by
  show execSetExclusion port s = _
  simp only [execSetExclusion, h]

theorem geometryInRange_eq_false {m : Nat} : geometryInRange m = false ↔ m < 16 ∨ 24 < m := by
  simp only [geometryInRange, Bool.and_eq_false_iff, decide_eq_false_iff_not, Nat.not_le]

/-- A group that is not READY, empty and without marks cannot be unmapped (R69). -/
theorem not_unmappable {g : Group} (h : ¬ (g.state = .ready ∧ g.occupancy = 0 ∧ g.marked = 0)) :
    g.state = .initialising ∨ g.occupancy ≠ 0 ∨ g.marked ≠ 0 := by
  cases hs : g.state with
  | initialising => exact .inl rfl
  | ready => exact .inr (not_and_or.1 fun hg => h ⟨hs, hg⟩)

theorem excluded_iff {x : Index} {page : Nat} :
    x.excluded page = true ↔ ∃ e ∈ x.exclusions, e.active = true ∧ e.first ≤ page ∧ page ≤ e.last := by
  simp only [Index.excluded, List.any_eq_true, Bool.and_eq_true, decide_eq_true_eq, and_assoc]

theorem groupNaming_eq (x : Index) (first last : Nat) : x.groupNaming first last =
    (x.groups.find? fun e => decide (first ≤ e.2.page ∧ e.2.page ≤ last)).map (·.1) := by
  unfold Index.groupNaming
  simp only [Bool.decide_and]

/-- Settles O39: the cases of both requests in the order of R65 and R69. -/
theorem geometryIsSetAndGroupsUnmapped : Obligations.GeometryIsSetAndGroupsUnmapped := by
  intro s port n src y a hl x
  refine ⟨fun m hr h => indexReplies hl (exec_setGeometry hr) ?_,
    fun group hr h => indexReplies hl (exec_unmapGroup hr) ?_⟩
  · simp only [setGeometryAnswer, geometryInRange_eq_false, Index.setGeometry]
    split_ifs at h ⊢ <;> obtain ⟨rfl, rfl⟩ := h <;> rfl
  · unfold unmapGroupAnswer
    split
    · rw [if_pos (by assumption)] at h
      obtain ⟨rfl, rfl⟩ := h
      rfl
    · rw [if_neg (by assumption)] at h
      split at h
      · rename_i hg
        obtain ⟨rfl, rfl⟩ := h
        rw [hg]
      · rename_i g hg
        rw [hg]
        dsimp only at h ⊢
        by_cases hu : g.state = .ready ∧ g.occupancy = 0 ∧ g.marked = 0
        · obtain ⟨hs, ho, hm⟩ := hu
          rw [if_pos ⟨hs, ho, hm⟩] at h
          obtain ⟨rfl, rfl⟩ := h
          simp [hs, ho, hm, x]
        · rw [if_neg hu] at h
          obtain ⟨rfl, rfl⟩ := h
          rw [if_pos (not_unmappable hu)]

/-- Settles O40: the cases of both requests in the order of R67 and R71. -/
theorem groupsAreMappedAndPagesExcluded : Obligations.GroupsAreMappedAndPagesExcluded := by
  intro s port n src y a hl x named
  have hnamed (first last : Nat) : s.idx.groupNaming first last = (named first last).map (·.1) := groupNaming_eq ..
  refine ⟨fun group page hr h => indexReplies hl (exec_mapGroup hr) ?_,
    fun range first last active hr h => indexReplies hl (exec_setExclusion hr) ?_⟩
  · simp only [mapGroupAnswer, excluded_iff, hnamed]
    split
    · rw [if_pos (by assumption)] at h
      obtain ⟨rfl, rfl⟩ := h
      rfl
    · rw [if_neg (by assumption)] at h
      split at h
      · rename_i hg
        obtain ⟨rfl, rfl⟩ := h
        rw [hg]
      · rename_i hg
        rw [hg]
        dsimp only at h ⊢
        split
        · rw [if_pos (by assumption)] at h
          obtain ⟨rfl, rfl⟩ := h
          rfl
        · rw [if_neg (by assumption)] at h
          split at h <;> rename_i hf <;> obtain ⟨rfl, rfl⟩ := h <;> rw [hf] <;> rfl
  · simp only [setExclusionAnswer, hnamed]
    by_cases hb : 4 ≤ range ∨ 131072 ≤ last ∨ last < first
    · rw [if_pos hb] at h
      obtain ⟨rfl, rfl⟩ := h
      rw [if_pos (by omega)]
    · rw [if_neg hb] at h
      rw [if_neg (by omega)]
      split at h <;> rename_i hf <;> rw [hf] <;> cases active
      · rw [if_neg Bool.false_ne_true] at h
        obtain ⟨rfl, rfl⟩ := h
        rfl
      all_goals obtain ⟨rfl, rfl⟩ := h; rfl

end Sys2Proof.Machine.FingerprintIndex
end

section
/-! PROOFS. READ ENTRY, READ STREAM and READ TABLE (O31). -/

namespace Sys2Proof.Machine.FingerprintIndex

open Sys2Proof

variable {s : State} {port : Port} {n : Nat} {src : Mac}

theorem exec_readEntry {f : Fingerprint} (h : s.headRequest port = some ⟨n, src, .readEntry f⟩) :
    exec (.readEntry port) s =
      .next (s.answer port ⟨n, src, .readEntry f⟩ (readEntryAnswer s.idx s.path f)).finish := by
  show execReadEntry port s = _
  simp only [execReadEntry, h]

theorem exec_readStream {slot : Nat} (h : s.headRequest port = some ⟨n, src, .readStream slot⟩) :
    exec (.readStream port) s =
      .next (s.answer port ⟨n, src, .readStream slot⟩ (readStreamAnswer s.path slot)).finish := by
  show execReadStream port s = _
  simp only [execReadStream, h]

theorem exec_readTable {q : TableRead} (h : s.headRequest port = some ⟨n, src, .readTable q⟩) :
    exec (.readTable port) s =
      .next (s.answer port ⟨n, src, .readTable q⟩ (readAnswer s.ctl.tables q)).finish := by
  show execReadTable port s = _
  simp only [execReadTable, h]

/-- What a READ ENTRY reports of an entry that a search for F found. -/
theorem entryReport_eq (x : Index) (p : Path) (a : Nat) {e : Entry} {f : Fingerprint} (h : e.fp = f) :
    entryReport x p a e = ⟨e, a, decide (a < 65536), x.marked (x.bucket f),
      if e.state = .pending then (p.petOf a).map (·.1) else none⟩ := by
  subst h
  rfl

/-! ## Rows of a table -/

theorem rowsFrom_eq {α : Type} {read : Nat → α} {first count : Nat} {rows : List α} (hn : rows.length = count)
    (h : ∀ i, i < count → rows[i]? = some (read (first + i))) : rows = rowsFrom read first count := by
  refine List.ext_getElem? fun i => ?_
  rcases Nat.lt_or_ge i count with hi | hi
  · rw [h i hi, rowsFrom, List.getElem?_map, List.getElem?_range hi]
    rfl
  · rw [List.getElem?_eq_none (by omega), List.getElem?_eq_none (by simpa [rowsFrom] using hi)]

/-- The code of the active bank (R203). -/
def activeCode (t : Tables) : Nat := if t.active = .a then 1 else 2

/-- The bank that a code, 1 or else 2, names. -/
def bankHeld (t : Tables) (bank : Nat) : Bank := if bank = 1 then t.bankA else t.bankB

/-- The standby bank while it is copied is BUSY: its code is not the active bank's (R182). -/
theorem bankBusy_iff {t : Tables} {bank : Nat} {id : BankId} (h : bankOfCode bank = some id) :
    (id ≠ t.active ∧ t.copying = true) ↔ (bank ≠ activeCode t ∧ t.copying = true) := by
  unfold bankOfCode at h
  unfold activeCode
  cases ha : t.active <;> grind

theorem bankOfCode_none {bank : Nat} : bankOfCode bank = none ↔ bank ≠ 1 ∧ bank ≠ 2 := by
  unfold bankOfCode
  grind

theorem bank_of_code (t : Tables) {bank : Nat} {id : BankId} (h : bankOfCode bank = some id) :
    t.bank id = bankHeld t bank := by
  unfold bankOfCode at h
  grind [Tables.bank, bankHeld]

/-- READ TABLE of a banked table, case by case (R182). -/
theorem readBanked_eq (t : Tables) (bank first count limit size : Nat) (zero : Bool) (rows : Bank → TableRows) :
    readBanked t bank first count limit size zero rows =
      if bank ≠ 1 ∧ bank ≠ 2 ∨ count = 0 ∨ size < first + count ∨ zero = true ∧ first = 0 then .refuse .badValue
      else if limit < count then .refuse .tooMany
      else if bank ≠ activeCode t ∧ t.copying = true then .refuse .busy
      else .done (.bankRows t.active (rows (bankHeld t bank))) := by
  unfold readBanked
  cases hb : bankOfCode bank with
  | none => rw [if_pos (.inl (bankOfCode_none.1 hb))]
  | some id =>
    have hk : ¬ (bank ≠ 1 ∧ bank ≠ 2) := fun h => nomatch hb.symm.trans (bankOfCode_none.2 h)
    have hr : (badRange first count size || (zero && decide (first = 0))) = true ↔
        (bank ≠ 1 ∧ bank ≠ 2 ∨ count = 0 ∨ size < first + count ∨ zero = true ∧ first = 0) := by
      simp only [badRange, Bool.or_eq_true, Bool.and_eq_true, decide_eq_true_eq, hk, false_or, or_assoc]
    simp only [hr, bankBusy_iff hb, bank_of_code t hb]

theorem readPolicies_eq {t : Tables} {bank first count : Nat} {answer : Answer}
    (h : if bank ≠ 1 ∧ bank ≠ 2 ∨ count = 0 ∨ 32 < first + count then answer = .refuse .badValue
      else if bank ≠ activeCode t ∧ t.copying = true then answer = .refuse .busy
      else ∃ rows, rows.length = count ∧ (∀ i, i < count → rows[i]? = some ((bankHeld t bank).policy (first + i))) ∧
        answer = .done (.bankRows t.active (.policies rows))) :
    answer = readAnswer t (.policy bank first count) := by
  rw [readAnswer, readBanked_eq]
  simp only [Bool.false_eq_true, false_and, or_false]
  split_ifs at h ⊢
  · exact h
  · omega
  · omega
  · exact h
  · obtain ⟨rows, hn, hrows, rfl⟩ := h
    rw [rowsFrom_eq hn hrows]

theorem readBranches_eq {t : Tables} {bank first count : Nat} {answer : Answer}
    (h : if bank ≠ 1 ∧ bank ≠ 2 ∨ count = 0 ∨ 4096 < first + count ∨ first = 0 then answer = .refuse .badValue
      else if 64 < count then answer = .refuse .tooMany
      else if bank ≠ activeCode t ∧ t.copying = true then answer = .refuse .busy
      else ∃ rows, rows.length = count ∧ (∀ i, i < count → rows[i]? = some ((bankHeld t bank).branch (first + i))) ∧
        answer = .done (.bankRows t.active (.branches rows))) :
    answer = readAnswer t (.branch bank first count) := by
  rw [readAnswer, readBanked_eq]
  simp only [true_and]
  split_ifs at h ⊢
  · exact h
  · exact h
  · exact h
  · obtain ⟨rows, hn, hrows, rfl⟩ := h
    rw [rowsFrom_eq hn hrows]

theorem readGears_eq {t : Tables} {table first count : Nat} {answer : Answer}
    (h : if count = 0 ∨ 256 < first + count ∨ 3 < table then answer = .refuse .badValue
      else if 64 < count then answer = .refuse .tooMany
      else ∃ words, words.length = count ∧
        (∀ i, i < count → words[i]? = some (tabGetD t.gear (256 * table + (first + i)) 0)) ∧
        answer = .done (.bankRows t.active (.gears words))) :
    answer = readAnswer t (.gear table first count) := by
  simp only [readAnswer, badRange, Bool.or_eq_true, decide_eq_true_eq, or_assoc]
  split_ifs at h ⊢
  · exact h
  · exact h
  · obtain ⟨words, hn, hwords, rfl⟩ := h
    rw [rowsFrom_eq (read := t.gearWord table) hn hwords]

theorem slotInRange_iff {slot : Nat} : slotInRange slot = true ↔ 1 ≤ slot ∧ slot ≤ 384 := by
  simp only [slotInRange, Bool.and_eq_true, decide_eq_true_eq]

/-- Settles O31: the answers of R83, R199 and R182, whose cases stand in the model as they do in the statement. -/
theorem entriesStreamsAndTablesAreRead : Obligations.EntriesStreamsAndTablesAreRead := by
  intro s port n src hl
  refine ⟨fun f answer hr h => ?_, fun slot answer hr h => ?_, fun read answer hr => ?_⟩
  · obtain rfl : answer = readEntryAnswer s.idx s.path f := by
      unfold readEntryAnswer
      cases hp : s.idx.readyPage (s.idx.bucket f) with
      | none => simpa only [hp] using h
      | some page =>
        simp only [hp] at h
        dsimp only
        cases hs : s.idx.search page (s.idx.bucket f) f with
        | absent => simpa only [hs] using h
        | held a e =>
          simp only [hs] at h
          rw [h, ← entryReport_eq _ _ a (search_held hs).2.1]
        | releasing a e =>
          simp only [hs] at h
          rw [h, ← entryReport_eq _ _ a (search_releasing hs).2.1]
    exact replies_finish (exec_readEntry hr) rfl hl
  · obtain rfl : answer = readStreamAnswer s.path slot := by
      unfold readStreamAnswer
      simp only [slotInRange_iff]
      split
      · rw [if_pos (by assumption)] at h
        cases hc : tabGet s.path.contexts slot <;> simpa only [hc] using h
      · rwa [if_neg (by assumption)] at h
    exact replies_finish (exec_readStream hr) rfl hl
  · intro t held busy h
    obtain rfl : answer = readAnswer s.ctl.tables read := by
      cases read with
      | policy bank first count => exact readPolicies_eq h
      | branch bank first count => exact readBranches_eq h
      | gear table first count => exact readGears_eq h
      | unknown kind => exact h
    exact replies_finish (exec_readTable hr) rfl hl

end Sys2Proof.Machine.FingerprintIndex
end

section
/-! PROOFS. RESTORE ENTRIES and its items (O43). -/

namespace Sys2Proof.Machine.FingerprintIndex

open Sys2Proof

variable {s : State} {port : Port}

/-! ## The request -/

theorem exec_restoreEntries_refused {n : Nat} {src : Mac} {items : List RestoreEntry} {why : Reason}
    (h : s.headRequest port = some ⟨n, src, .restoreEntries items⟩) (hw : restoreRefusal s.ctl.mode items = some why) :
    exec (.restoreEntries port) s = .next (s.answer port ⟨n, src, .restoreEntries items⟩ (.refuse why)).finish := by
  show execRestoreEntries port s = _
  simp only [execRestoreEntries, h, hw]

theorem exec_restoreEntries_taken {n : Nat} {src : Mac} {items : List RestoreEntry}
    (h : s.headRequest port = some ⟨n, src, .restoreEntries items⟩) (hw : restoreRefusal s.ctl.mode items = none) :
    exec (.restoreEntries port) s =
      .next (s.withPath (s.path.setHead port (.restoring (items.map fun _ => none)))).finish := by
  show execRestoreEntries port s = _
  simp only [execRestoreEntries, h, hw]

/-- What R80 refuses in the mode RESTORING. -/
theorem restoreRefusal_restoring (items : List RestoreEntry) : restoreRefusal .restoring items =
    if items = [] ∨ 32 < items.length ∨
        ∃ i ∈ items, i.length = 0 ∨ 65536 < i.length ∨ 4194303 < i.offset ∨ 4194304 < i.offset + i.length
    then some .badValue else none := by
  have hb : items.any RestoreEntry.bad = true ↔
      ∃ i ∈ items, i.length = 0 ∨ 65536 < i.length ∨ 4194303 < i.offset ∨ 4194304 < i.offset + i.length := by
    simp only [List.any_eq_true, RestoreEntry.bad, Bool.or_eq_true, decide_eq_true_eq, or_assoc]
  have hl : items.length < 1 ↔ items = [] := by rw [Nat.lt_one_iff, List.length_eq_zero_iff]
  unfold restoreRefusal
  rw [if_neg (by decide)]
  simp only [hb, hl]
  split_ifs <;> grind

/-- A head that is under way is steady: only a reply to it could change its queue, and none is held. -/
theorem steady_of_head {p q : Path} {port : Port} (hq : (q.queue port).head ≠ .waiting) (hs : q.sPort = p.sPort)
    (hi : q.iPort = p.iPort) (h : p.steady port) : q.steady port :=
  ⟨fun _ hw => absurd hw hq, fun r hr => h.2 r (by rwa [hs, hi] at hr)⟩

/-! ## The items -/

/-- An item of the list that is not answered, where no earlier unanswered one names its bucket, is ready (R81). -/
theorem itemReady_of {x : Index} {items : List RestoreEntry} {answers : List (Option RestoreAnswer)} {k : Nat}
    {i : RestoreEntry} (hi : items[k]? = some i) (ha : answers[k]? = some none)
    (h : ∀ j g, j < k → items[j]? = some g → answers[j]? = some none → x.bucket g.fp ≠ x.bucket i.fp) :
    itemReady x (items.map (·.fp)) (answers.map (·.isSome)) k = true := by
  have hf : (items.map (·.fp))[k]? = some i.fp := by rw [List.getElem?_map, hi]; rfl
  have hs : (answers.map (·.isSome))[k]? = some false := by rw [List.getElem?_map, ha]; rfl
  simp only [itemReady, hf, hs, List.all_eq_true]
  intro fa hm
  obtain ⟨j, hj⟩ := List.mem_iff_getElem?.1 hm
  rw [List.getElem?_take] at hj
  split at hj
  · rename_i hjk
    obtain ⟨hg, hb⟩ := List.getElem?_zip_eq_some.1 hj
    rw [List.getElem?_map, Option.map_eq_some_iff] at hg hb
    obtain ⟨g, hg, hgf⟩ := hg
    obtain ⟨b, hb, hbs⟩ := hb
    cases b with
    | some b => simp [← hbs]
    | none => simp [← hgf, h j g hjk hg hb]
  · cases hj

theorem allAnswers_none {α : Type} {l : List (Option α)} (h : none ∈ l) : allAnswers l = none := by
  induction l with
  | nil => cases h
  | cons a l ih =>
    cases a with
    | none => rfl
    | some a => rw [allAnswers, ih (by simpa using h)]; rfl

theorem allAnswers_map {α : Type} (l : List α) : allAnswers (l.map some) = some l := by
  induction l with
  | nil => rfl
  | cons a l ih => rw [List.map_cons, allAnswers, ih]; rfl

theorem exec_restoreItem {r : Req} {items : List RestoreEntry} {n : Nat} {src : Mac} {rest : List Req}
    {answers : List (Option RestoreAnswer)} {k : Nat} {i : RestoreEntry}
    (hr : r = ⟨n, src, .restoreEntries items⟩) (hh : s.path.handling s.idx = true)
    (hq : s.path.queue port = ⟨r :: rest, .restoring answers⟩) (hi : items[k]? = some i)
    (hready : itemReady s.idx (items.map (·.fp)) (answers.map (·.isSome)) k = true) :
    exec (.restoreItem port k) s = .next (State.finish { s with
      idx := (restoreAt s.idx i).1
      path := (s.path.restorePinned i (restoreAt s.idx i).2).restoreProgress s.ctl.now port r
        (answers.set k (some (restoreAt s.idx i).2)) }) := by
  subst hr
  have hu : s.headUnderWay port = some (⟨n, src, .restoreEntries items⟩, .restoring answers) := by
    unfold State.headUnderWay
    rw [if_pos hh, hq]
  show execRestoreItem port k s = _
  simp only [execRestoreItem, hu, hi, hready, if_true]

theorem restoredEntry_eq {i : RestoreEntry} (hc : i.count ≤ 65535) (hd : i.untilDay ≤ 65535) : restoredEntry i =
    ⟨i.fp, i.check, .live, i.container, i.offset, i.length, i.count, i.untilDay, i.holds &&& 0xFFFE, 0, false, true⟩ := by
  simp only [restoredEntry, narrow16, if_pos hc, if_pos hd]

/-- An item changes of the data path at most the count of pinned entries. -/
theorem restorePinned_cases (p : Path) (i : RestoreEntry) (a : RestoreAnswer) :
    p.restorePinned i a = p ∨ p.restorePinned i a = p.bump .entriesPinned 1 := by
  unfold Path.restorePinned
  split
  · exact .inr rfl
  · exact .inl rfl

theorem restorePinned_keeps (p : Path) (i : RestoreEntry) (a : RestoreAnswer) :
    (p.restorePinned i a).link = p.link ∧ (p.restorePinned i a).sPort = p.sPort ∧
      (p.restorePinned i a).iPort = p.iPort := by
  rcases restorePinned_cases p i a with h | h <;> rw [h]
  · exact ⟨rfl, rfl, rfl⟩
  · exact ⟨rfl, rfl, rfl⟩

/-- What an item comes to at its bucket, in the order of R81's cases. -/
theorem restoreAt_eq {x y : Index} {p q : Path} {i : RestoreEntry} {answer : RestoreAnswer} (hc : i.count ≤ 65535)
    (hd : i.untilDay ≤ 65535)
    (h : match x.readyPage (x.bucket i.fp) with
      | none => y = x ∧ q = p ∧ answer = .unmapped
      | some page =>
        match x.search page (x.bucket i.fp) i.fp, x.claim page (x.bucket i.fp) with
        | .held _ _, _ => y = x ∧ q = p ∧ answer = .duplicate
        | _, none => y = x ∧ q = p ∧ answer = .full
        | _, some (at_, z) =>
          y = z.fill at_ ⟨i.fp, i.check, .live, i.container, i.offset, i.length, i.count, i.untilDay,
              i.holds &&& 0xFFFE, 0, false, true⟩ ∧
            q = (if i.count = 65535 then p.bump .entriesPinned 1 else p) ∧ answer = .inserted) :
    restoreAt x i = (y, answer) ∧ p.restorePinned i answer = q := by
  unfold restoreAt
  cases hp : x.readyPage (x.bucket i.fp) with
  | none =>
    simp only [hp] at h
    obtain ⟨rfl, rfl, rfl⟩ := h
    exact ⟨rfl, rfl⟩
  | some page =>
    simp only [hp] at h
    have hpin {a : RestoreAnswer} (ha : a ≠ .inserted) : p.restorePinned i a = p := if_neg fun h => ha h.1
    have hins : p.restorePinned i .inserted = if i.count = 65535 then p.bump .entriesPinned 1 else p := by
      simp [Path.restorePinned, restoredEntry_eq hc hd]
    rw [← restoredEntry_eq hc hd, ← hins] at h
    dsimp only
    cases hs : x.search page (x.bucket i.fp) i.fp <;> cases hcl : x.claim page (x.bucket i.fp) <;>
      simp only [hs, hcl] at h <;> obtain ⟨rfl, rfl, rfl⟩ := h
    case releasing.some | absent.some => exact ⟨rfl, rfl⟩
    all_goals exact ⟨rfl, hpin RestoreAnswer.noConfusion⟩

/-- Settles O43: the request's cases in the order of R80, an item's in the order of R81, and the reply with the last
answer. -/
theorem entriesAreRestored : Obligations.EntriesAreRestored := by
  intro s port n src items hl r bad
  refine ⟨fun hr => ⟨fun hm => ?_, fun hm hb => ?_, fun hm hb => ?_⟩, ?_⟩
  · have hw : restoreRefusal s.ctl.mode items = some .wrongMode := by rw [restoreRefusal, if_pos hm]
    exact replies_finish (exec_restoreEntries_refused hr hw) rfl hl
  · have hw : restoreRefusal s.ctl.mode items = some .badValue := by rw [hm, restoreRefusal_restoring, if_pos hb]
    exact replies_finish (exec_restoreEntries_refused hr hw) rfl hl
  · have hw : restoreRefusal s.ctl.mode items = none := by rw [hm, restoreRefusal_restoring, if_neg hb]
    have hu : (s.path.setHead port (.restoring (items.map fun _ => none))).lostDrained :=
      ParcelOrder.lostDrained_of_link hl (setQueue_link ..)
    refine (completes_finish (exec_restoreEntries_taken hr hw) rfl hu).atQueue ?_
    refine steady_of_head ?_ (setQueue_sPort ..) (setQueue_iPort ..)
    show ((s.path.setHead port _).queue port).head ≠ _
    rw [Path.setHead, ParcelOrder.queue_setQueue_same]
    exact HeadState.noConfusion
  · intro rest answers k i y p answer hh hq hi ha hc hd hfirst h
    obtain ⟨hat, rfl⟩ := restoreAt_eq hc hd h
    have hex := exec_restoreItem rfl hh hq hi (itemReady_of hi ha hfirst)
    rw [hat] at hex
    have hqp : (s.path.restorePinned i answer).queue port = ⟨r :: rest, .restoring answers⟩ := by
      rw [← hq]
      rcases restorePinned_cases s.path i answer with h | h <;> rw [h]
      exact ParcelOrder.queue_bump ..
    obtain ⟨hlink, hsp, hip⟩ := restorePinned_keeps s.path i answer
    have hlp := ParcelOrder.lostDrained_of_link hl hlink
    refine ⟨fun hn => ?_, fun all hall => ?_⟩
    · rw [Path.restoreProgress, allAnswers_none hn, Path.setHead, hqp] at hex
      have hu := ParcelOrder.lostDrained_of_link hlp
        (setQueue_link _ port ⟨r :: rest, .restoring (answers.set k (some answer))⟩)
      refine (completes_finish hex rfl hu).atQueue (steady_of_head ?_ ?_ ?_)
      · show (Path.queue (Path.setQueue _ port _) port).head ≠ _
        rw [ParcelOrder.queue_setQueue_same]
        exact HeadState.noConfusion
      · exact (setQueue_sPort ..).trans hsp
      · exact (setQueue_iPort ..).trans hip
    · rw [hall, Path.restoreProgress, allAnswers_map] at hex
      exact replies_finish hex rfl (ParcelOrder.lostDrained_of_link hlp rfl)

end Sys2Proof.Machine.FingerprintIndex
end

section
/-! PROOFS. A WARM RESET does not count as O48 says where a counter is listed twice. -/

namespace Sys2Proof.Machine.FingerprintIndex

open Sys2Proof

/-- An accepted release of 0 bytes waits at its bucket as a WARM RESET is asked for, and the counter of the bytes released
is listed twice, as 0 and then as 5: it reads as 0. -/
def counterListedTwice : State :=
  { State.reset with
    idx := { State.reset.idx with clearing := false }
    path := { State.reset.path with
      counters := [(Counter.releasedBytes.place, 0), (Counter.releasedBytes.place, 5)]
      releaseOps := [⟨true, ⟨0, 0, 0, 0, 65536⟩⟩]
      iQueue := ⟨[⟨0, 0, .warmReset⟩], .waiting⟩ } }

/-- The 0 bytes write the value 0, which takes the first listing out of the table: the counter then reads as the
second. -/
theorem releasedBytes_listedTwice {t : State} (h : exec (.warmReset .i) counterListedTwice = .next t) :
    t.path.counter .releasedBytes = 5 := by
  cases h
  decide

/-- Refutes O48: it asks for no canonical counter table. In `counterListedTwice`, where that counter is listed twice,
the bytes released read as 0 before the WARM RESET and as 5 after it, with 0 bytes released. -/
theorem not_warmResetEmptiesTheDataPath : ¬ Obligations.WarmResetEmptiesTheDataPath := by
  intro h
  obtain ⟨t, ht, -, -, -, -, -, -, -, hbytes, -⟩ := h counterListedTwice .i 0 0 rfl rfl
  have hraised : t.path.counter .releasedBytes = 0 := hbytes
  exact absurd (hraised.symm.trans (releasedBytes_listedTwice ht)) (by decide)

end Sys2Proof.Machine.FingerprintIndex
end

section
/-! PROOFS. What a visit of the sweeper makes of the entries it examines, and how the pass goes on (O58). -/

namespace Sys2Proof.Machine.FingerprintIndex

open Sys2Proof

/-! ## A visit, entry by entry -/

/-- An entry without the tags that are not active. -/
def cleaned (holds : Mask16) (e : Entry) : Entry := { e with holds := e.holds &&& holds }

/-- A released entry: RELEASING, with no tag left. -/
def released (e : Entry) : Entry := { e with holds := 0, state := .releasing }

/-- An entry that a visit releases: LIVE, with count 0, no active hold and its retention over (R115). -/
def expires (holds : Mask16) (today : Nat) (e : Entry) : Bool :=
  decide (e.state = .live) && (cleaned holds e).releasable today

theorem releasable_iff {today : Nat} {e : Entry} :
    e.releasable today = true ↔ e.count = 0 ∧ e.holds = 0 ∧ e.untilDay < today := by
  simp only [Entry.releasable, Bool.and_eq_true, decide_eq_true_eq, and_assoc]

theorem expires_iff {holds : Mask16} {today : Nat} {e : Entry} : expires holds today e = true ↔
    e.state = .live ∧ e.count = 0 ∧ e.holds &&& holds = 0 ∧ e.untilDay < today := by
  rw [expires, Bool.and_eq_true, decide_eq_true_eq, releasable_iff]
  exact Iff.rfl

theorem cleaned_of_expires {holds : Mask16} {today : Nat} {e : Entry} (h : expires holds today e = true) :
    cleaned holds e = { e with holds := 0 } := by
  obtain ⟨-, -, hh, -⟩ := expires_iff.1 h
  rw [cleaned, hh]

section visit

variable {holds : Mask16} {today : Nat} {x : Index} {i a : Nat} {e : Entry} {rest : List (Nat × Nat)}

theorem visit_cons_notLive {room : Nat} (h : ∀ e, x.entry a = some e → e.state ≠ .live) :
    Index.visit holds today room ((i, a) :: rest) x = Index.visit holds today room rest x := by
  cases he : x.entry a with
  | none => simp only [Index.visit, he]
  | some e => simp only [Index.visit, he, if_neg (h e he)]

theorem visit_cons_kept {room : Nat} (he : x.entry a = some e) (hl : e.state = .live)
    (hx : expires holds today e = false) :
    Index.visit holds today room ((i, a) :: rest) x = Index.visit holds today room rest (x.set a (cleaned holds e)) := by
  have hr : (cleaned holds e).releasable today = false := by simpa [expires, hl] using hx
  conv => lhs; unfold Index.visit
  rw [he]
  exact (if_pos hl).trans (if_neg (Bool.eq_false_iff.1 hr))

theorem visit_cons_full (he : x.entry a = some e) (hx : expires holds today e = true) :
    Index.visit holds today 0 ((i, a) :: rest) x = ⟨x.set a (cleaned holds e), [], some i⟩ := by
  obtain ⟨hl, hr⟩ := Bool.and_eq_true_iff.1 hx
  unfold Index.visit
  rw [he]
  exact (if_pos (of_decide_eq_true hl)).trans (if_pos hr)

theorem visit_cons_released {room : Nat} (he : x.entry a = some e) (hx : expires holds today e = true) :
    Index.visit holds today (room + 1) ((i, a) :: rest) x =
      ⟨(Index.visit holds today room rest (x.set a (released e))).idx,
        e.relItem a :: (Index.visit holds today room rest (x.set a (released e))).items,
        (Index.visit holds today room rest (x.set a (released e))).early⟩ := by
  obtain ⟨hl, hr⟩ := Bool.and_eq_true_iff.1 hx
  obtain ⟨-, -, hh, -⟩ := expires_iff.1 hx
  have hf : { cleaned holds e with state := .releasing } = released e := by rw [cleaned, hh]; rfl
  rw [← hf]
  conv => lhs; unfold Index.visit
  rw [he]
  exact (if_pos (of_decide_eq_true hl)).trans (if_pos hr)

/-- A visit whose first entry alone is LIVE, and is released. -/
theorem visit_first_released {room : Nat} (he : x.entry a = some e) (hx : expires holds today e = true) (hroom : 1 ≤ room)
    (hrest : ∀ ia ∈ rest, ia.2 ≠ a ∧ ∀ e, x.entry ia.2 = some e → e.state ≠ .live) :
    Index.visit holds today room ((i, a) :: rest) x = ⟨x.set a (released e), [e.relItem a], none⟩ := by
  obtain ⟨room, rfl⟩ := Nat.exists_eq_add_of_le' hroom
  have hidle : Index.visit holds today room rest (x.set a (released e)) = ⟨x.set a (released e), [], none⟩ :=
    visit_idle _ _ _ _ _ fun ia hm f hf => by
      obtain ⟨hne, hlive⟩ := hrest ia hm
      rw [set_entry, if_neg hne] at hf
      exact hlive f hf
  rw [visit_cons_released he hx, hidle]

/-! ## A visit of several entries -/

/-- What a visit that ends early at `stop`, or at 16 goes on, makes of the entry at position i. -/
def visited (holds : Mask16) (today stop i : Nat) (e : Entry) : Entry :=
  if e.state = .live ∧ i ≤ stop then
    if expires holds today e = true ∧ i < stop then released e else cleaned holds e
  else e

/-- The entry at a position is one that a visit releases. -/
def dueAt (holds : Mask16) (today : Nat) (x : Index) (addr : Nat → Nat) (i : Nat) : Bool :=
  (x.entry (addr i)).any (expires holds today)

/-- The items of the entries at some positions. -/
def itemsAt (x : Index) (addr : Nat → Nat) (l : List Nat) : List RelItem :=
  l.filterMap fun i => (x.entry (addr i)).map fun e => e.relItem (addr i)

/-- What a visit of the entries at some positions comes to, with room for some items: those due are released in order, and
where there are more the visit ends at the first for which there is no room. -/
structure VisitOf (holds : Mask16) (today : Nat) (x : Index) (addr : Nat → Nat) (l : List Nat) (room : Nat)
    (r : VisitEnd) : Prop where
  early : r.early = (l.filter (dueAt holds today x addr))[room]?
  items : r.items = itemsAt x addr ((l.filter (dueAt holds today x addr)).take room)
  frame : { r.idx with dram := x.dram } = x
  others : ∀ a, (∀ i ∈ l, a ≠ addr i) → r.idx.entry a = x.entry a
  entries : ∀ i ∈ l, r.idx.entry (addr i) =
    (x.entry (addr i)).map (visited holds today (r.early.getD 16) i)

/-- What a visit makes of the entry at a position, and after it of the positions that follow. -/
theorem VisitOf.cons {y : Index} {addr : Nat → Nat} (hinj : Function.Injective addr) {l : List Nat} {room room' : Nat}
    {r r' : VisitEnd} (hi : ∀ j ∈ l, i < j) (h : VisitOf holds today y addr l room' r)
    (hframe : { y with dram := x.dram } = x) (hothers : ∀ a, a ≠ addr i → y.entry a = x.entry a)
    (hat : y.entry (addr i) = (x.entry (addr i)).map (visited holds today (r.early.getD 16) i))
    (hidx : r'.idx = r.idx)  (hearly : r'.early = r.early)
    (hdue : ((i :: l).filter (dueAt holds today x addr))[room]? = (l.filter (dueAt holds today x addr))[room']?)
    (hitems : r.items = itemsAt x addr ((l.filter (dueAt holds today x addr)).take room') →
      r'.items = itemsAt x addr (((i :: l).filter (dueAt holds today x addr)).take room)) :
    VisitOf holds today x addr (i :: l) room r' := by
  have hne : ∀ j ∈ l, addr j ≠ addr i := fun j hj he => absurd (hinj he) (Nat.ne_of_gt (hi j hj))
  have hd : l.filter (dueAt holds today y addr) = l.filter (dueAt holds today x addr) :=
    List.filter_congr fun j hj => by rw [dueAt, dueAt, hothers _ (hne j hj)]
  have hm : r.items = itemsAt x addr ((l.filter (dueAt holds today x addr)).take room') := by
    rw [h.items, hd]
    refine List.filterMap_congr fun j hj => ?_
    rw [hothers _ (hne j (List.mem_of_mem_filter (List.mem_of_mem_take hj)))]
  refine ⟨?_, hitems hm, ?_, fun a ha => ?_, fun j hj => ?_⟩
  · rw [hearly, h.early, hd, hdue]
  · rw [hidx, ← hframe]
    exact congrArg (fun z : Index => { z with dram := x.dram }) h.frame
  · obtain ⟨hai, hal⟩ := List.forall_mem_cons.1 ha
    rw [hidx, h.others a hal, hothers a hai]
  · rw [hidx, hearly]
    rcases List.mem_cons.1 hj with rfl | hj
    · rw [h.others _ fun k hk => (hne k hk).symm, hat]
    · rw [h.entries j hj, hothers _ (hne j hj)]

/-- A visit ends after every position before those it examines. -/
theorem VisitOf.lt_stop {addr : Nat → Nat} {l : List Nat} {room : Nat} {r : VisitEnd}
    (h : VisitOf holds today x addr l room r) (hi : ∀ j ∈ l, i < j) (h16 : i < 16) : i < r.early.getD 16 := by
  cases hr : r.early with
  | none => exact h16
  | some j =>
    rw [h.early] at hr
    exact hi j (List.mem_of_mem_filter (List.mem_of_getElem? hr))

/-- A visit of entries at rising positions below 16. -/
theorem visitOf_visit {addr : Nat → Nat} (hinj : Function.Injective addr) {l : List Nat} (hl : l.Pairwise (· < ·))
    (h16 : ∀ i ∈ l, i < 16) (room : Nat) (x : Index) : VisitOf holds today x addr l room
      (Index.visit holds today room (l.map fun i => (i, addr i)) x) := by
  induction l generalizing room x with
  | nil => exact ⟨rfl, by simp [Index.visit, itemsAt], rfl, fun _ _ => rfl, fun _ h => nomatch h⟩
  | cons i l ih =>
    obtain ⟨hi, hl⟩ := List.pairwise_cons.1 hl
    obtain ⟨hi16, h16⟩ := List.forall_mem_cons.1 h16
    have ih := fun room x => ih hl h16 room x
    have hother (f : Entry) (a : Nat) (ha : a ≠ addr i) : (x.set (addr i) f).entry a = x.entry a :=
      (set_entry ..).trans (if_neg ha)
    rw [List.map_cons]
    by_cases hlive : ∃ e, x.entry (addr i) = some e ∧ e.state = .live
    · obtain ⟨e, he, hs⟩ := hlive
      have hd : dueAt holds today x addr i = expires holds today e := by rw [dueAt, he]; rfl
      have hat {room : Nat} {f : Entry} {r : VisitEnd} (h : VisitOf holds today (x.set (addr i) f) addr l room r)
          (hf : f = if expires holds today e = true then released e else cleaned holds e) :
          (x.set (addr i) f).entry (addr i) = (x.entry (addr i)).map (visited holds today (r.early.getD 16) i) := by
        have hlt := h.lt_stop hi hi16
        rw [set_entry, if_pos rfl, he, Option.map_some, visited, if_pos ⟨hs, Nat.le_of_lt hlt⟩, hf]
        simp only [hlt, and_true]
      cases hx : expires holds today e with
      | false =>
        rw [hx] at hd
        rw [visit_cons_kept he hs hx]
        have h := ih room (x.set (addr i) (cleaned holds e))
        refine h.cons hinj hi rfl (hother _) (hat h ?_) rfl rfl ?_ fun hm => ?_
        · rw [hx]; rfl
        · rw [List.filter_cons, hd]; rfl
        · rw [List.filter_cons, hd]; exact hm
      | true =>
        rw [hx] at hd
        cases room with
        | zero =>
          rw [visit_cons_full he hx]
          refine ⟨?_, rfl, rfl, fun a ha => hother _ a (List.forall_mem_cons.1 ha).1, fun j hj => ?_⟩
          · rw [List.filter_cons, hd]; rfl
          · rcases List.mem_cons.1 hj with rfl | hj
            · rw [set_entry, if_pos rfl, he]
              simp [visited, hs]
            · rw [hother _ _ fun h => absurd (hinj h) (Nat.ne_of_gt (hi j hj))]
              have hv (f : Entry) : visited holds today i j f = f :=
                if_neg fun h => absurd h.2 (Nat.not_le.2 (hi j hj))
              cases x.entry (addr j) with
              | none => rfl
              | some f => exact (congrArg some (hv f)).symm
        | succ room =>
          rw [visit_cons_released he hx]
          have h := ih room (x.set (addr i) (released e))
          refine h.cons hinj hi rfl (hother _) (hat h ?_) rfl rfl ?_ fun hm => ?_
          · rw [hx]; rfl
          · rw [List.filter_cons, hd]; rfl
          · rw [List.filter_cons, hd, hm]
            simp [itemsAt, he]
    · have hn : ∀ e, x.entry (addr i) = some e → e.state ≠ .live := fun e he hs => hlive ⟨e, he, hs⟩
      have hsame (stop : Nat) : x.entry (addr i) = (x.entry (addr i)).map (visited holds today stop i) := by
        cases he : x.entry (addr i) with
        | none => rfl
        | some e => exact congrArg some (if_neg fun h => hn e he h.1).symm
      have hd : dueAt holds today x addr i = false := by
        cases he : x.entry (addr i) with
        | none => simp [dueAt, he]
        | some e => simp [dueAt, he, expires, hn e he]
      rw [visit_cons_notLive hn]
      refine (ih room x).cons hinj hi rfl (fun _ _ => rfl) (hsame _) rfl rfl ?_ fun hm => ?_
      · rw [List.filter_cons, hd]; rfl
      · rw [List.filter_cons, hd]; exact hm

/-- A visit frees no entry, and every entry keeps its fingerprint. -/
theorem VisitOf.fp {addr : Nat → Nat} {l : List Nat} {room : Nat} {r : VisitEnd} (h : VisitOf holds today x addr l room r)
    (he : x.entry a = some e) : ∃ f, r.idx.entry a = some f ∧ f.fp = e.fp := by
  by_cases ha : ∃ i ∈ l, a = addr i
  · obtain ⟨i, hi, rfl⟩ := ha
    refine ⟨_, (h.entries i hi).trans (congrArg _ he), ?_⟩
    unfold visited
    split
    · split <;> rfl
    · rfl
  · exact ⟨e, (h.others a fun i hi heq => ha ⟨i, hi, heq⟩).trans he, rfl⟩

end visit

/-! ## The positions that a visit examines -/

/-- Positions from k on, among them every one that lists an entry of the visit's. -/
structure Examines (x : Index) (addr : Nat → Nat) (mine : Entry → Bool) (k : Nat) (l : List Nat) : Prop where
  rising : l.Pairwise (· < ·)
  range : ∀ i ∈ l, k ≤ i ∧ i < 16
  own : ∀ i ∈ l, ∀ e, x.entry (addr i) = some e → mine e = true
  all : ∀ i e, k ≤ i → i < 16 → x.entry (addr i) = some e → mine e = true → i ∈ l

/-- The 16 positions from k on. -/
def positions (k : Nat) : List Nat := (List.range 16).drop k

theorem positions_rising (k : Nat) : (positions k).Pairwise (· < ·) := List.pairwise_lt_range.drop

theorem mem_positions {k i : Nat} : i ∈ positions k ↔ k ≤ i ∧ i < 16 := by
  rw [positions, List.range_eq_range', List.drop_range', List.mem_range'_1]
  omega

theorem positions_cons {k : Nat} (h : k < 16) : positions k = k :: positions (k + 1) := by
  rw [positions, List.drop_eq_getElem_cons (by simpa using h), List.getElem_range]
  rfl

/-- The position lists an entry of a bucket. -/
def belongsAt (x : Index) (addr : Nat → Nat) (b i : Nat) : Bool :=
  (x.entry (addr i)).any fun e => decide (x.bucket e.fp = b)

theorem examines_bucket (x : Index) (addr : Nat → Nat) (k : Nat) :
    Examines x addr (fun _ => true) k (positions k) :=
  ⟨positions_rising k, fun _ h => mem_positions.1 h, fun _ _ _ _ => rfl, fun _ _ hk h16 _ _ => mem_positions.2 ⟨hk, h16⟩⟩

theorem examines_bin (x : Index) (addr : Nat → Nat) (b k : Nat) : Examines x addr (fun e => decide (x.bucket e.fp = b)) k
    ((positions k).filter (belongsAt x addr b)) where
  rising := (positions_rising k).filter _
  range i h := mem_positions.1 (List.mem_of_mem_filter h)
  own i h e he := by
    have hb := List.of_mem_filter h
    rwa [belongsAt, he] at hb
  all i e hk h16 he hb := List.mem_filter.2 ⟨mem_positions.2 ⟨hk, h16⟩, by rwa [belongsAt, he]⟩

theorem visitEntries_buckets {x : Index} {b page : Nat} (h : x.readyPage b = some page) (k : Nat) :
    x.visitEntries (.buckets b k) = (positions k).map fun i => (i, bucketAddress page b i) := by
  simp only [Index.visitEntries, h]
  rfl

theorem visitEntries_bins {x : Index} {b page : Nat} (h : x.readyPage b = some page) (q k : Nat) :
    x.visitEntries (.bins q b k) =
      ((positions k).filter (belongsAt x (binAddress q) b)).map fun i => (i, binAddress q i) := by
  simp only [Index.visitEntries, h, List.filter_map]
  congr 1
  refine List.filter_congr fun i _ => ?_
  simp only [Function.comp, belongsAt]
  cases x.entry (binAddress q i) <;> rfl

theorem bucketAddress_injective (page b : Nat) : Function.Injective (bucketAddress page b) :=
  fun _ _ h => Nat.add_left_cancel h

theorem binAddress_injective (q : Nat) : Function.Injective (binAddress q) := fun _ _ h => Nat.add_left_cancel h

/-! ## What a visit comes to, as O58 writes it out -/

/-- The positions from k on whose entry is the visit's and is to be released, with room for some of them: `stop` is the
first without room, or 16. -/
def Due (holds : Mask16) (today room : Nat) (x : Index) (addr : Nat → Nat) (mine : Entry → Bool) (k stop : Nat)
    (l : List Nat) : Prop :=
  l.Pairwise (· < ·) ∧
    (∀ i, i ∈ l ↔ k ≤ i ∧ i < 16 ∧ ∃ e, x.entry (addr i) = some e ∧ mine e = true ∧
      e.state = .live ∧ e.count = 0 ∧ e.holds &&& holds = 0 ∧ e.untilDay < today) ∧
    (stop = 16 ∧ l.length ≤ room ∨ l[room]? = some stop)

/-- The index after a visit of the positions from k on, of which those of `l` are due and the visit ended at `stop`. -/
def Examined (holds : Mask16) (x : Index) (addr : Nat → Nat) (mine : Entry → Bool) (k stop : Nat) (l : List Nat)
    (y : Index) : Prop :=
  { y with dram := x.dram } = x ∧ (∀ a, (∀ i, k ≤ i → i < 16 → a ≠ addr i) → y.entry a = x.entry a) ∧
    ∀ i, k ≤ i → i < 16 → y.entry (addr i) = (x.entry (addr i)).map fun e =>
      if e.state = .live ∧ mine e = true ∧ i ≤ stop then
        if i ∈ l ∧ i < stop then { e with holds := 0, state := .releasing }
        else { e with holds := e.holds &&& holds }
      else e

section examined

variable {holds : Mask16} {today room k stop : Nat} {x : Index} {addr : Nat → Nat} {mine : Entry → Bool} {l L : List Nat}
  {r : VisitEnd}

theorem Due.eq_filter (hd : Due holds today room x addr mine k stop l) (hL : Examines x addr mine k L) :
    l = L.filter (dueAt holds today x addr) := by
  obtain ⟨hl, hmem, -⟩ := hd
  refine hl.eq_of_mem_iff (hL.rising.filter _) fun i => ?_
  rw [hmem, List.mem_filter, dueAt, Option.any_eq_true]
  constructor
  · rintro ⟨hk, h16, e, he, hm, hx⟩
    exact ⟨hL.all i e hk h16 he hm, e, he, expires_iff.2 hx⟩
  · rintro ⟨hi, e, he, hx⟩
    obtain ⟨hk, h16⟩ := hL.range i hi
    exact ⟨hk, h16, e, he, hL.own i hi e he, expires_iff.1 hx⟩

/-- Where the visit ended: nowhere before 16, or at a position before it. -/
theorem Due.early (hd : Due holds today room x addr mine k stop l) :
    stop = 16 ∧ l[room]? = none ∨ stop < 16 ∧ l[room]? = some stop := by
  obtain ⟨-, hmem, ⟨hs, hn⟩ | hs⟩ := hd
  · exact .inl ⟨hs, List.getElem?_eq_none hn⟩
  · exact .inr ⟨((hmem stop).1 (List.mem_of_getElem? hs)).2.1, hs⟩

theorem Due.getD (hd : Due holds today room x addr mine k stop l) : l[room]?.getD 16 = stop := by
  rcases hd.early with ⟨rfl, hn⟩ | ⟨-, hs⟩
  · rw [hn]; rfl
  · rw [hs]; rfl

theorem VisitOf.examined (hinj : Function.Injective addr) (hv : VisitOf holds today x addr L room r)
    (hL : Examines x addr mine k L) (hd : Due holds today room x addr mine k stop l) :
    Examined holds x addr mine k stop l r.idx := by
  have hl := hd.eq_filter hL
  have hstop : r.early.getD 16 = stop := by rw [hv.early, ← hl, hd.getD]
  refine ⟨hv.frame, fun a ha => hv.others a fun i hi => ha i (hL.range i hi).1 (hL.range i hi).2, fun i hk h16 => ?_⟩
  by_cases hi : i ∈ L
  · rw [hv.entries i hi, hstop]
    cases he : x.entry (addr i) with
    | none => rfl
    | some e =>
      have hm : i ∈ l ↔ expires holds today e = true := by
        rw [hl, List.mem_filter, dueAt, he]
        exact and_iff_right hi
      simp only [Option.map_some, visited, hL.own i hi e he, true_and, hm]
      rfl
  · rw [hv.others _ fun j hj h => hi (by rwa [hinj h])]
    cases he : x.entry (addr i) with
    | none => rfl
    | some e => exact congrArg some (if_neg fun h => hi (hL.all i e hk h16 he h.2.1)).symm

theorem VisitOf.early_eq (hv : VisitOf holds today x addr L room r) (hL : Examines x addr mine k L)
    (hd : Due holds today room x addr mine k stop l) :
    (stop = 16 → r.early = none) ∧ (stop < 16 → r.early = some stop) := by
  rw [hv.early, ← hd.eq_filter hL]
  rcases hd.early with ⟨rfl, hn⟩ | ⟨hs, hn⟩
  · exact ⟨fun _ => hn, fun h => absurd h (Nat.lt_irrefl _)⟩
  · exact ⟨fun h => absurd h (Nat.ne_of_lt hs), fun _ => hn⟩

theorem VisitOf.items_eq (hv : VisitOf holds today x addr L room r) (hL : Examines x addr mine k L)
    (hd : Due holds today room x addr mine k stop l) : r.items = itemsAt x addr (l.take room) := by
  rw [hv.items, ← hd.eq_filter hL]

/-- What a visit of the positions comes to: the index, the items and where it ended. -/
theorem VisitOf.outcome (hv : VisitOf holds today x addr L room r) (hL : Examines x addr mine k L)
    (hd : Due holds today room x addr mine k stop l) : (stop = 16 → r = ⟨r.idx, itemsAt x addr (l.take room), none⟩) ∧
      (stop < 16 → r = ⟨r.idx, itemsAt x addr (l.take room), some stop⟩) := by
  have hi := congrArg (VisitEnd.mk r.idx) (hv.items_eq hL hd)
  obtain ⟨hn, hs⟩ := hv.early_eq hL hd
  exact ⟨fun h => congr hi (hn h), fun h => congr hi (hs h)⟩

end examined

/-! ## How the pass goes on -/

section command

variable {s : State} {v : Visit} {x y : Index} {items : List RelItem} {p q : Path}

/-- A visit that went to its end: the mark check follows it, and the pass goes on. -/
theorem completes_goesOn {pos : SweepPos} (hv : s.path.sweeper.visit = some v) (hpos : s.path.sweeper.pos = pos)
    (hr : Index.visit s.ctl.holds s.ctl.calendar.dayNumber v.reserved (s.idx.visitEntries pos) s.idx = ⟨x, items, none⟩)
    (hy : x.afterVisit pos v.bucket = y) (hw : tabWf y.groups = true)
    (hq : Path.SweepsOn y pos.after (s.path.itemsJoin items) q) :
    CompletesDrained .sweeperVisit s { s with idx := y, path := q } := by
  refine completesDrained_finish ?_ rfl
  show execSweeperVisit s = _
  simp only [execSweeperVisit, hv, hpos, hr, hy, joinRelease_eq_itemsJoin, sweepOn_eq hw hq]

/-- A visit that ended early: the pass waits at the entry, or goes on from it at once. -/
theorem completes_waits {pos : SweepPos} {i : Nat} (hv : s.path.sweeper.visit = some v) (hpos : s.path.sweeper.pos = pos)
    (hr : Index.visit s.ctl.holds s.ctl.calendar.dayNumber v.reserved (s.idx.visitEntries pos) s.idx =
      ⟨x, items, some i⟩)
    (hw : tabWf x.groups = true) (hq : Path.WaitsAt x (pos.withEntry i) (s.path.itemsJoin items) q) :
    CompletesDrained .sweeperVisit s { s with idx := x, path := q } := by
  refine completesDrained_finish ?_ rfl
  show execSweeperVisit s = _
  simp only [execSweeperVisit, hv, hpos, hr, joinRelease_eq_itemsJoin, waitSweep_eq hw hq]

/-! ## The mark check (R77, R120) -/

theorem mem_binAddresses {q a : Nat} : a ∈ binAddresses q ↔ ∃ i, i < 16 ∧ binAddress q i = a := by
  simp only [binAddresses, List.mem_map, List.mem_range]

/-- A mark stays while the bin holds an entry of its bucket. -/
theorem markCheck_kept {b : Nat} (h : (∃ i e, i < 16 ∧ x.entry (binAddress (b % 4096) i) = some e ∧ x.bucket e.fp = b) ∨
    x.marked b = false) : x.markCheck b = x := by
  unfold Index.markCheck
  split
  · rfl
  · refine if_neg fun ⟨hm, ho⟩ => ?_
    rcases h with ⟨i, e, hi, he, hb⟩ | h
    · refine ho (List.any_eq_true.2 ⟨_, mem_binAddresses.2 ⟨i, hi, rfl⟩, ?_⟩)
      rw [binOf, he]
      exact decide_eq_true hb
    · exact nomatch h.symm.trans hm

theorem markCheck_cleared {b page : Nat} {g : Group} (hp : x.readyPage b = some page)
    (h : ∀ i e, i < 16 → x.entry (binAddress (b % 4096) i) = some e → x.bucket e.fp ≠ b) (hm : x.marked b = true)
    (hg : tabGet x.groups (b / 256) = some g) : x.markCheck b = { x with
      marks := tabErase x.marks b, groups := tabSet x.groups (b / 256) { g with marked := g.marked - 1 } } := by
  have hc : x.clearMark b = { x with
      marks := tabErase x.marks b, groups := tabSet x.groups (b / 256) { g with marked := g.marked - 1 } } := by
    rw [Index.clearMark, if_pos hm, Index.modGroup, tabUpdate]
    simp only [groupOf, hg]
  rw [← hc]
  unfold Index.markCheck
  rw [hp]
  refine (if_neg Bool.false_ne_true).trans (if_pos ⟨hm, fun ho => ?_⟩)
  obtain ⟨a, ha, hb⟩ := List.any_eq_true.1 ho
  obtain ⟨i, hi, rfl⟩ := mem_binAddresses.1 ha
  split at hb
  · exact h i _ hi (by assumption) (of_decide_eq_true hb)
  · cases hb

end command

/-! ## The visits of a bucket and of a bin -/

section buckets

variable {holds : Mask16} {today room b page k : Nat} {x : Index} {e : Entry}

theorem visit_bucket_idle (hp : x.readyPage b = some page)
    (h : ∀ i e, k ≤ i → i < 16 → x.entry (bucketAddress page b i) = some e → e.state ≠ .live) :
    Index.visit holds today room (x.visitEntries (.buckets b k)) x = ⟨x, [], none⟩ := by
  refine visit_idle _ _ _ _ _ fun ia hm e he => ?_
  rw [visitEntries_buckets hp, List.mem_map] at hm
  obtain ⟨i, hi, rfl⟩ := hm
  obtain ⟨hk, h16⟩ := mem_positions.1 hi
  exact h i e hk h16 he

theorem visit_bucket_first (hp : x.readyPage b = some page) (he : x.entry (bucketAddress page b 0) = some e)
    (hx : expires holds today e = true) (hroom : 1 ≤ room)
    (h : ∀ i e, 1 ≤ i → i < 16 → x.entry (bucketAddress page b i) = some e → e.state ≠ .live) :
    Index.visit holds today room (x.visitEntries (.buckets b 0)) x =
      ⟨x.set (bucketAddress page b 0) (released e), [e.relItem (bucketAddress page b 0)], none⟩ := by
  rw [visitEntries_buckets hp, positions_cons (by decide), List.map_cons]
  refine visit_first_released he hx hroom fun ia hm => ?_
  obtain ⟨i, hi, rfl⟩ := List.mem_map.1 hm
  obtain ⟨h1, h16⟩ := mem_positions.1 hi
  exact ⟨fun h => absurd (bucketAddress_injective _ _ h) (Nat.ne_of_gt h1), fun e he => h i e h1 h16 he⟩

theorem visit_bucket_full (hp : x.readyPage b = some page) (hk : k < 16) (he : x.entry (bucketAddress page b k) = some e)
    (hx : expires holds today e = true) : Index.visit holds today 0 (x.visitEntries (.buckets b k)) x =
      ⟨x.set (bucketAddress page b k) (cleaned holds e), [], some k⟩ := by
  rw [visitEntries_buckets hp, positions_cons hk, List.map_cons]
  exact visit_cons_full he hx

theorem visit_bin_idle (hp : x.readyPage b = some page) {q : Nat}
    (h : ∀ i e, i < 16 → x.entry (binAddress q i) = some e → x.bucket e.fp = b → e.state ≠ .live) :
    Index.visit holds today room (x.visitEntries (.bins q b k)) x = ⟨x, [], none⟩ := by
  have hE := examines_bin x (binAddress q) b k
  refine visit_idle _ _ _ _ _ fun ia hm e he => ?_
  rw [visitEntries_bins hp, List.mem_map] at hm
  obtain ⟨i, hi, rfl⟩ := hm
  exact h i e (hE.range i hi).2 he (of_decide_eq_true (hE.own i hi e he))

theorem visit_bin_first (hp : x.readyPage b = some page) {q : Nat} (he : x.entry (binAddress q 0) = some e)
    (hb : x.bucket e.fp = b) (hx : expires holds today e = true) (hroom : 1 ≤ room)
    (h : ∀ i e, 1 ≤ i → i < 16 → x.entry (binAddress q i) = some e → x.bucket e.fp = b → e.state ≠ .live) :
    Index.visit holds today room (x.visitEntries (.bins q b 0)) x =
      ⟨x.set (binAddress q 0) (released e), [e.relItem (binAddress q 0)], none⟩ := by
  have h0 : belongsAt x (binAddress q) b 0 = true := by
    rw [belongsAt, he]
    exact decide_eq_true hb
  have hE := examines_bin x (binAddress q) b 1
  rw [visitEntries_bins hp, positions_cons (by decide), List.filter_cons, if_pos h0, List.map_cons]
  refine visit_first_released he hx hroom fun ia hm => ?_
  obtain ⟨i, hi, rfl⟩ := List.mem_map.1 hm
  obtain ⟨h1, h16⟩ := hE.range i hi
  exact ⟨fun h => absurd (binAddress_injective _ h) (Nat.ne_of_gt h1),
    fun e he => h i e h1 h16 he (of_decide_eq_true (hE.own i hi e he))⟩

theorem visitOf_bucket (hp : x.readyPage b = some page) (k : Nat) :
    VisitOf holds today x (bucketAddress page b) (positions k) room
      (Index.visit holds today room (x.visitEntries (.buckets b k)) x) := by
  rw [visitEntries_buckets hp]
  exact visitOf_visit (bucketAddress_injective page b) (positions_rising k) (fun i hi => (mem_positions.1 hi).2) room x

theorem visitOf_bin (hp : x.readyPage b = some page) (q k : Nat) :
    VisitOf holds today x (binAddress q) ((positions k).filter (belongsAt x (binAddress q) b)) room
      (Index.visit holds today room (x.visitEntries (.bins q b k)) x) := by
  have hE := examines_bin x (binAddress q) b k
  rw [visitEntries_bins hp]
  exact visitOf_visit (binAddress_injective q) hE.rising (fun i hi => (hE.range i hi).2) room x

end buckets

/-- A visit keeps everything but the entries. -/
theorem VisitOf.keeps {holds : Mask16} {today room : Nat} {x : Index} {addr : Nat → Nat} {l : List Nat} {r : VisitEnd}
    (h : VisitOf holds today x addr l room r) :
    r.idx.groups = x.groups ∧ r.idx.marks = x.marks ∧ r.idx.geometry = x.geometry := by
  have hf := h.frame
  exact ⟨(congrArg Index.groups hf :), (congrArg Index.marks hf :), (congrArg Index.geometry hf :)⟩

/-- A visit leaves a mark whose bin holds an entry of its bucket, and one that is clear. -/
theorem VisitOf.markCheck_kept {holds : Mask16} {today room b : Nat} {x : Index} {addr : Nat → Nat} {l : List Nat}
    {r : VisitEnd} (h : VisitOf holds today x addr l room r)
    (hm : (∃ i e, i < 16 ∧ x.entry (binAddress (b % 4096) i) = some e ∧ x.bucket e.fp = b) ∨ x.marked b = false) :
    r.idx.markCheck b = r.idx := by
  obtain ⟨-, hmarks, hgeo⟩ := h.keeps
  refine FingerprintIndex.markCheck_kept (hm.imp ?_ fun hm => ?_)
  · rintro ⟨i, e, hi, he, hb⟩
    obtain ⟨f, hf, hfp⟩ := h.fp he
    exact ⟨i, f, hi, hf, by rw [Index.bucket, hgeo, hfp]; exact hb⟩
  · rw [Index.marked, hmarks]
    exact hm

/-- Settles O58: the visit's outcome in each case, and with it how the pass goes on or waits. -/
theorem bucketsAreVisited : Obligations.BucketsAreVisited := by
  intro s v b page x w place inBin expired item goesOn waits due items examined belongs unmarked hv hb hp hw
  subst hb
  have hgo {pos : SweepPos} {z : Index} {l : List RelItem} {y : Index} (hpos : w.pos = pos)
      (hr : Index.visit s.ctl.holds s.ctl.calendar.dayNumber v.reserved (x.visitEntries pos) x = ⟨z, l, none⟩)
      (hy : z.afterVisit pos v.bucket = y) (hw : tabWf y.groups = true) : goesOn y l pos.after := fun q hq =>
    completes_goesOn hv hpos hr hy hw hq
  have hwait {pos : SweepPos} {z : Index} {l : List RelItem} {i : Nat} (hpos : w.pos = pos)
      (hr : Index.visit s.ctl.holds s.ctl.calendar.dayNumber v.reserved (x.visitEntries pos) x = ⟨z, l, some i⟩)
      (hw : tabWf z.groups = true) : waits z l (pos.withEntry i) := fun q hq =>
    completes_waits hv hpos hr hw hq
  refine ⟨fun hpos hrest => ⟨fun hnot => ?_, fun e he hx hroom => ?_⟩, fun k e hpos hk he hx hroom => ?_,
    fun hpos hrest => ⟨fun hnot => ⟨fun hm => ?_, fun hn hm g hg => ?_⟩, fun e he hb hx hroom => ?_⟩,
    fun hc k stop l => ⟨fun hpos hd => ?_, fun hpos hd => ?_⟩⟩
  · refine hgo hpos (visit_bucket_idle hp fun i e _ h16 he => ?_) rfl hw
    rcases Nat.eq_zero_or_pos i with rfl | h1
    · exact hnot e he
    · exact hrest i e h1 h16 he
  · exact hgo hpos (visit_bucket_first hp he (expires_iff.2 hx) hroom hrest) rfl hw
  · rw [← cleaned_of_expires (expires_iff.2 hx)]
    exact hwait hpos (hroom ▸ visit_bucket_full hp hk he (expires_iff.2 hx)) hw
  · refine hgo hpos (visit_bin_idle hp fun i e h16 he hb => ?_) (markCheck_kept hm) hw
    rcases Nat.eq_zero_or_pos i with rfl | h1
    · exact hnot e he hb
    · exact hrest i e h1 h16 he hb
  · exact hgo hpos (visit_bin_idle hp fun i e h16 he hb => absurd hb (hn i e h16 he)) (markCheck_cleared hp hn hm hg)
      (tabSet_wf hw _ _)
  · refine hgo hpos (visit_bin_first hp he hb (expires_iff.2 hx) hroom hrest) (markCheck_kept (.inl ?_)) hw
    exact ⟨0, released e, by decide, (set_entry ..).trans (if_pos rfl), hb⟩
  · have hV := visitOf_bucket (holds := s.ctl.holds) (today := s.ctl.calendar.dayNumber) (room := v.reserved) hp k
    have hE := examines_bucket x place k
    have hw' := hV.keeps.1 ▸ hw
    obtain ⟨hend, hearly⟩ := hV.outcome hE hd
    exact ⟨_, hV.examined (bucketAddress_injective page v.bucket) hE hd, fun hs => hgo hpos (hend hs) rfl hw',
      fun hs => hwait hpos (hearly hs) hw'⟩
  · have hV := visitOf_bin (holds := s.ctl.holds) (today := s.ctl.calendar.dayNumber) (room := v.reserved) hp
      (v.bucket % 4096) k
    have hE := examines_bin x inBin v.bucket k
    have hw' := hV.keeps.1 ▸ hw
    obtain ⟨hend, hearly⟩ := hV.outcome hE hd
    refine ⟨_, hV.examined (binAddress_injective _) hE hd, fun hs hm => hgo hpos (hend hs) (hV.markCheck_kept hm) hw',
      fun _ hn hm g hg => ?_, fun hs => hwait hpos (hearly hs) hw'⟩
    exact hgo hpos (visit_bin_idle hp fun i e h16 he hb => absurd hb (hn i e h16 he)) (markCheck_cleared hp hn hm hg)
      (tabSet_wf hw _ _)

end Sys2Proof.Machine.FingerprintIndex
end

section
/-! PROOFS. What a lookup comes to at its bucket (O54). -/

namespace Sys2Proof.Machine.LookupAndInsertion

open Sys2Proof
open Sys2Proof.Machine.ParcelOrder (lostDrained_of_link)

/-! ## The command -/

/-- A lookup that is first at its bucket is taken, and completes as it is judged (R86, R89). -/
theorem completes_judged {s : State} {slot ordinal : Nat} {o : LookupOp} {j : Judged}
    (ho : s.path.lookupAt slot ordinal = some o) (hfirst : s.path.lookupFirst s.idx o = true)
    (hj : judge s.ctl s.idx
      { s.path with lookups := s.path.lookups.eraseP fun q => q.slot = slot && q.ordinal = ordinal } o = j)
    (hl : j.path.lostDrained) :
    Completes (.lookup slot ordinal) s { s with
      idx := j.idx
      path := { j.path with results := j.path.results ++
        [⟨slot, ordinal, o.fp, j.outcome, j.location, j.pet, s.idx.staleCandidate o⟩] } } := by
  refine completes_finish ?_ rfl hl
  show execLookup slot ordinal s = _
  simp only [execLookup, ho, hfirst, if_true, hj]

/-! ## What a judgement leaves in the data path -/

@[simp] theorem countPinned_pet (p : Path) (n : Nat) : (p.countPinned n).pet = p.pet := by
  unfold Path.countPinned; split <;> rfl

@[simp] theorem countPinned_link (p : Path) (n : Nat) : (p.countPinned n).link = p.link := by
  unfold Path.countPinned; split <;> rfl

@[simp] theorem quiesce_pet (p : Path) (slot : Nat) (cls : EndClass) (cause : Option Cause) (at_ : Option (Nat × Nat)) :
    (p.quiesce slot cls cause at_).pet = p.pet := by
  unfold Path.quiesce
  split
  · split <;> rfl
  · rfl

/-- A placement, made or failed, leaves the PET and the state of the link alone (R141 to R143). -/
theorem placement_keeps (p : Path) (slot cls length : Nat) :
    (p.placement slot cls length).1.pet = p.pet ∧
      (p.placement slot cls length).1.link.state = p.link.state := by
  rw [← place_eq_placement]
  unfold Path.place
  simp only [askSeals_eq]
  split
  · split <;> exact ⟨rfl, rfl⟩
  · unfold Path.abnormal
    rw [quiesce_pet, (sameTags_quiesce _ slot _ _ _).link]
    split <;> exact ⟨rfl, rfl⟩

section judged

variable {c : Control} {x : Index} {p : Path} {o : LookupOp} {page a : Nat} {e : Entry}

theorem differs_iff : o.differs e = true ↔ o.confirm = true ∧ o.check ≠ e.check := by
  simp only [LookupOp.differs, Bool.and_eq_true, decide_eq_true_eq]

/-! ## Groups that are not READY, and VERIFY (R89, R94) -/

theorem judge_unready (h : x.readyPage (x.bucket o.fp) = none) : judge c x p o =
    ⟨x, p.bump .unmappedLookups 1, if o.mode = .store then .newUnindexed else .missing, none, none⟩ := by
  unfold judge
  cases hm : o.mode <;> simp only [h] <;> rfl

theorem judge_verify (h : x.readyPage (x.bucket o.fp) = some page) (hm : o.mode = .verify) :
    judge c x p o = judgeVerify x p o (x.find o page) := by
  simp only [judge, h, hm]

theorem judgeVerify_differs (hd : o.confirm = true ∧ o.check ≠ e.check) :
    judgeVerify x p o (.held a e) = ⟨x, (p.setFlag .collision).bump .collisions 1, .missing, none, none⟩ :=
  if_pos (differs_iff.2 hd)

theorem judgeVerify_found (hd : ¬ (o.confirm = true ∧ o.check ≠ e.check)) :
    judgeVerify x p o (.held a e) = ⟨x, p, .found, some (e.location a), none⟩ :=
  if_neg fun h => hd (differs_iff.1 h)

theorem judgeVerify_missing {f : Found} (hf : ∀ a e, f ≠ .held a e) :
    judgeVerify x p o f = ⟨x, p, .missing, none, none⟩ := by
  cases f with
  | held a e => exact absurd rfl (hf a e)
  | releasing | absent => rfl

/-! ## STORE finds content (R90, R91, R97) -/

theorem judge_held (h : x.readyPage (x.bucket o.fp) = some page) (hm : o.mode = .store)
    (hf : x.find o page = .held a e) : judge c x p o = judgeHeld c x p o a e := by
  simp only [judge, h, hm, hf]

theorem judgeHeld_differs (hd : o.confirm = true ∧ o.check ≠ e.check) : judgeHeld c x p o a e =
    ⟨x.set a { e with collided := true }, (p.setFlag .collision).bump .collisions 1, .newUnindexed, none, none⟩ :=
  if_pos (differs_iff.2 hd)

theorem judgeHeld_live (hd : ¬ (o.confirm = true ∧ o.check ≠ e.check)) (he : e.state = .live) :
    judgeHeld c x p o a e =
      ⟨x.set a (e.refer o c), p.countPinned e.count, .duplicate, some (e.location a), none⟩ := by
  refine (if_neg fun h => hd (differs_iff.1 h)).trans ?_
  simp only [he]

theorem judgeHeld_blocked {n : Nat} {ps : PetSlot} (hd : ¬ (o.confirm = true ∧ o.check ≠ e.check))
    (he : e.state = .pending) (hp : p.petOf a = some (n, ps)) (h8 : 8 ≤ ps.waiters.length) :
    judgeHeld c x p o a e = ⟨x, p.bump .blockedWaiters 1, .newUnindexed, none, none⟩ := by
  refine (if_neg fun h => hd (differs_iff.1 h)).trans ?_
  simp only [he, hp, if_pos h8]

/-- The chunk of a PENDING entry joins the waiters in its PET slot, which hold a place for it (R97). -/
theorem judgeHeld_joins {n : Nat} {ps : PetSlot} (hd : ¬ (o.confirm = true ∧ o.check ≠ e.check))
    (he : e.state = .pending) (hp : p.petOf a = some (n, ps)) (h8 : ps.waiters.length < 8) :
    judgeHeld c x p o a e =
      ⟨x.set a (e.refer o c),
        Path.modCtx { p.countPinned e.count with
            pet := tabSet p.pet n { ps with waiters := ps.waiters ++ [⟨o.slot, o.ordinal, o.offset, false⟩] } }
          o.slot fun z => z.modItem o.ordinal fun i => { i with mark := .joined },
        .duplicate, some (e.location a), some n⟩ := by
  refine (if_neg fun h => hd (differs_iff.1 h)).trans ?_
  simp only [he, hp, if_neg (Nat.not_le.2 h8), Path.joinPet, countPinned_pet]

/-! ## STORE finds nothing (R92, R93) -/

theorem judge_miss (h : x.readyPage (x.bucket o.fp) = some page) (hm : o.mode = .store)
    (hf : ∀ a e, x.find o page ≠ .held a e) : judge c x p o = judgeMiss c x p o page := by
  simp only [judge, h, hm]

theorem judgeMiss_full (hc : x.claim page (x.bucket o.fp) = none) : judgeMiss c x p o page =
    ⟨x, (p.setFlag .spillFull).bump .unindexedFull 1, .newUnindexed, none, none⟩ := by
  simp only [judgeMiss, hc]

variable {y : Index}

theorem judgeMiss_petFull (hc : x.claim page (x.bucket o.fp) = some (a, y)) (hp : p.freePet = none) :
    judgeMiss c x p o page = ⟨y, (p.setFlag .petFull).bump .unindexedPet 1, .newUnindexed, none, none⟩ := by
  simp only [judgeMiss, hc, hp]

theorem judgeMiss_placed {n container offset : Nat} (hc : x.claim page (x.bucket o.fp) = some (a, y))
    (hp : p.freePet = some n) (ha : (p.placement o.slot o.cls o.length).2 = some (container, offset)) :
    judgeMiss c x p o page =
      ⟨y.fill a (insertedEntry o c container offset),
        { (p.placement o.slot o.cls o.length).1 with pet := tabSet p.pet n ⟨a, o.fp, []⟩ }, .new,
        some ⟨a, container, offset, o.length⟩, some n⟩ := by
  rw [← (placement_keeps p o.slot o.cls o.length).1]
  rw [← place_eq_placement] at ha ⊢
  simp only [judgeMiss, hc, hp]
  split
  next q _ _ hq => 
    rw [hq] at ha ⊢
    cases ha
    rfl
  next q hq => simp [hq] at ha

theorem judgeMiss_unplaced {n : Nat} (hc : x.claim page (x.bucket o.fp) = some (a, y)) (hp : p.freePet = some n)
    (ha : (p.placement o.slot o.cls o.length).2 = none) :
    judgeMiss c x p o page = ⟨y, (p.placement o.slot o.cls o.length).1, .unplaced, none, none⟩ := by
  rw [← place_eq_placement] at ha ⊢
  simp only [judgeMiss, hc, hp]
  split
  next hq => simp [hq] at ha
  next q hq => rw [hq]

end judged

/-- Settles O54: a lookup completes as it is judged, and each case of the judgement is one lemma. -/
theorem lookupsAreJudged : Obligations.LookupsAreJudged := by
  intro s slot ordinal o x p today tag gives referred counted differ collided names hl ho hfirst
  have judged {y : Index} {q : Path} {outcome : ChunkOutcome} {loc : Option Location} {pet : Option Nat}
      (hj : judge s.ctl x p o = ⟨y, q, outcome, loc, pet⟩) (hq : q.lostDrained) : gives y q outcome loc pet :=
    completes_judged ho hfirst hj hq
  have same {q : Path} (hq : q.link = s.path.link) : q.lostDrained := lostDrained_of_link hl hq
  refine ⟨fun h => judged (judge_unready h) (same rfl), fun page hp => ⟨fun a e hf => ⟨fun hm => ?_, fun hm => ?_⟩,
    fun hf => ⟨fun hm => ?_, fun hm => ?_⟩⟩⟩
  · have held := judge_held (c := s.ctl) (p := p) hp hm hf
    refine ⟨fun hd => judged (held.trans (judgeHeld_differs hd)) (same rfl),
      fun hd he => judged (held.trans (judgeHeld_live hd he)) (same (countPinned_link p _)),
      fun hd he n ps hps => ?_⟩
    exact ⟨fun h8 => judged (held.trans (judgeHeld_blocked hd he hps h8)) (same rfl),
      fun h8 => judged (held.trans (judgeHeld_joins hd he hps h8)) (same (countPinned_link p _))⟩
  · have verify := hf ▸ judge_verify (c := s.ctl) (p := p) hp hm
    exact ⟨fun hd => judged (verify.trans (judgeVerify_differs hd)) (same rfl),
      fun hd => judged (verify.trans (judgeVerify_found hd)) hl⟩
  · exact judged ((judge_verify hp hm).trans (judgeVerify_missing hf)) hl
  · have miss := judge_miss (c := s.ctl) (p := p) hp hm hf
    refine ⟨fun hc => judged (miss.trans (judgeMiss_full hc)) (same rfl), fun a y hc =>
      ⟨fun hn => judged (miss.trans (judgeMiss_petFull hc hn)) (same rfl), fun n hn hlost => ?_⟩⟩
    intro placed
    have hdrained : placed.1.lostDrained := fun h => absurd ((placement_keeps p ..).2.symm.trans h) hlost
    exact ⟨fun container offset ha => judged (miss.trans (judgeMiss_placed hc hn ha)) hdrained,
      fun ha => judged (miss.trans (judgeMiss_unplaced hc hn ha)) hdrained⟩

end Sys2Proof.Machine.LookupAndInsertion
end

section
/-! PROOFS. The outcomes of chunks and of released items at their buckets (O57). -/

namespace Sys2Proof.Machine.LookupAndInsertion

open Sys2Proof
open Sys2Proof.Machine.ParcelOrder (lostDrained_of_link)

/-! ## The slots and the lowest waiters of a list (R99) -/

theorem mem_waiterSlots {l : List Waiter} {slot : Nat} : slot ∈ waiterSlots l ↔ ∃ w ∈ l, w.slot = slot := by
  induction l with
  | nil => simp [waiterSlots]
  | cons w ws ih =>
    by_cases h : w.slot = slot
    · simp [waiterSlots, h]
    · simp [waiterSlots, ih, h, Ne.symm h]

theorem waiterSlots_nodup (l : List Waiter) : (waiterSlots l).Nodup := by
  induction l with
  | nil => exact List.nodup_nil
  | cons w ws ih => exact List.nodup_cons.2 ⟨by simp, ih.filter _⟩

/-- The waiter with the lower ordinal, of two the one met first. -/
def lowerWaiter (a : Option Waiter) (w : Waiter) : Option Waiter :=
  match a with
  | none => some w
  | some b => if w.ordinal < b.ordinal then some w else some b

theorem lowestWaiter_eq (l : List Waiter) (slot : Nat) :
    lowestWaiter l slot = (l.filter fun w => w.slot = slot).foldl lowerWaiter none := rfl

theorem lowerWaiter_spec (a : Option Waiter) (b : Waiter) : ∃ m, lowerWaiter a b = some m ∧
    (a = some m ∨ b = m) ∧ m.ordinal ≤ b.ordinal ∧ ∀ v, a = some v → m.ordinal ≤ v.ordinal := by
  cases a with
  | none => exact ⟨b, rfl, .inr rfl, Nat.le_refl _, nofun⟩
  | some v =>
    by_cases h : b.ordinal < v.ordinal
    · exact ⟨b, if_pos h, .inr rfl, Nat.le_refl _, fun _ hv => Option.some.inj hv ▸ Nat.le_of_lt h⟩
    · exact ⟨v, if_neg h, .inl rfl, Nat.le_of_not_lt h, fun _ hv => Option.some.inj hv ▸ Nat.le_refl _⟩

theorem foldl_lowerWaiter {l : List Waiter} {a : Option Waiter} {w : Waiter} (h : l.foldl lowerWaiter a = some w) :
    (a = some w ∨ w ∈ l) ∧ (∀ v, a = some v → w.ordinal ≤ v.ordinal) ∧ ∀ v ∈ l, w.ordinal ≤ v.ordinal := by
  induction l generalizing a with
  | nil => exact ⟨.inl h, fun v hv => (Option.some.inj (hv.symm.trans h) ▸ Nat.le_refl _), nofun⟩
  | cons b l ih =>
    obtain ⟨m, hm, hfrom, hb, ha⟩ := lowerWaiter_spec a b
    obtain ⟨hw, hlow, hl⟩ := ih (a := lowerWaiter a b) h
    have hwm := hlow m hm
    refine ⟨?_, fun v hv => hwm.trans (ha v hv), List.forall_mem_cons.2 ⟨hwm.trans hb, hl⟩⟩
    rcases hw with hw | hw
    · obtain rfl := Option.some.inj (hm.symm.trans hw)
      exact hfrom.imp_right fun h => List.mem_cons.2 (.inl h.symm)
    · exact .inr (List.mem_cons_of_mem _ hw)

theorem lowestWaiter_spec {l : List Waiter} {slot : Nat} {w : Waiter} (h : lowestWaiter l slot = some w) :
    w ∈ l ∧ w.slot = slot ∧ ∀ v ∈ l, v.slot = slot → w.ordinal ≤ v.ordinal := by
  obtain ⟨hw | hw, -, hlow⟩ := foldl_lowerWaiter ((lowestWaiter_eq l slot).symm.trans h)
  · cases hw
  · obtain ⟨hm, hs⟩ := List.mem_filter.1 hw
    exact ⟨hm, of_decide_eq_true hs, fun v hv hvs => hlow v (List.mem_filter.2 ⟨hv, decide_eq_true hvs⟩)⟩

/-! ## Operations apart from the PET -/

/-- The data path with another PET. -/
def withPet (p : Path) (t : Tab PetSlot) : Path := { p with pet := t }

/-- An operation that neither reads the PET nor changes it. -/
def ApartFromPet (f : Path → Path) : Prop := ∀ p t, f (withPet p t) = withPet (f p) t

namespace ApartFromPet

variable {f g : Path → Path}

/-- A PET slot freed after an operation apart from the PET may be freed before it. -/
theorem erase (h : ApartFromPet f) (p : Path) (n : Nat) :
    { f p with pet := tabErase (f p).pet n } = f (withPet p (tabErase p.pet n)) := by
  have hpet : (f p).pet = p.pet := congrArg (·.pet) (show f p = withPet (f p) p.pet from h p p.pet)
  rw [h, hpet]
  rfl

theorem comp (hg : ApartFromPet g) (hf : ApartFromPet f) : ApartFromPet fun p => g (f p) := fun p t =>
  (congrArg g (hf p t)).trans (hg (f p) t)

theorem foldl {α : Type} {f : Path → α → Path} (h : ∀ a, ApartFromPet fun p => f p a) (l : List α) :
    ApartFromPet fun p => l.foldl f p :=
  fun _ t => List.foldl_hom (withPet · t) fun q a => h a q t

end ApartFromPet

theorem closeBatch_apart : ApartFromPet Path.closeBatch := by
  intro p t
  unfold Path.closeBatch withPet
  dsimp only
  split <;> rfl

theorem joinBatch_apart (c : Control) (i : RefItem) : ApartFromPet fun p => p.joinBatch c i := by
  intro p t
  have closed := closeBatch_apart { p with
    batch := { items := p.batch.items ++ [i], timer := some (p.batch.timer.getD (c.now + msec 5)) } } t
  unfold Path.joinBatch
  dsimp only
  rw [apply_ite (withPet · t)]
  exact if_congr Iff.rfl closed rfl

theorem waiterLive_apart (c : Control) (e : Entry) (w : Waiter) : ApartFromPet fun p => p.waiterLive c e w := by
  intro p t
  unfold Path.waiterLive
  dsimp only
  split
  · exact joinBatch_apart c (waiterRef p w e) p t
  · rfl

theorem waiterLost_apart (w : Waiter) : ApartFromPet fun p => p.waiterLost w := by
  intro p t
  unfold Path.waiterLost
  dsimp only
  split <;> rfl

theorem storeLost_apart (slot offset ordinal : Nat) : ApartFromPet fun p => p.storeLost slot offset ordinal := by
  intro p t
  unfold Path.storeLost Path.quiesce withPet
  dsimp only
  split
  · split <;> rfl
  · rfl

theorem waitersTold_apart (l : List Waiter) : ApartFromPet fun p => p.waitersTold l := by
  unfold Path.waitersTold
  refine .foldl (fun slot => ?_) _
  cases lowestWaiter l slot with
  | none => exact fun _ _ => rfl
  | some w => exact storeLost_apart slot w.offset w.ordinal

/-! ## Outcomes on their way -/

section taken

variable {α : Type} {f : α → Bool} {before after : List α} {a : α}

theorem find?_first (hb : ∀ b ∈ before, f b = false) (ha : f a = true) : (before ++ a :: after).find? f = some a :=
  List.find?_eq_some_iff_append.2 ⟨ha, before, after, rfl, fun b h => by rw [hb b h]; rfl⟩

theorem eraseP_first (hb : ∀ b ∈ before, f b = false) (ha : f a = true) :
    (before ++ a :: after).eraseP f = before ++ after := by
  rw [List.eraseP_append_right _ fun b h => by rw [hb b h]; exact Bool.false_ne_true, List.eraseP_cons_of_pos ha]

end taken

/-- The first outcome of a PET slot's message with a verdict is the one taken, and leaves the others on their way. -/
theorem chunkOp_first {p : Path} {before after : List ChunkOp} {o : ChunkOp}
    (h : p.chunkOps = before ++ o :: after) (hb : ∀ q ∈ before, q.accepted ≠ o.accepted ∨ q.pet ≠ o.pet) :
    p.chunkOpAt o.accepted o.pet = some o ∧ p.chunkOpDone o.accepted o.pet = { p with chunkOps := before ++ after } := by
  have hf : ∀ q ∈ before, (decide (q.accepted = o.accepted) && decide (q.pet = o.pet)) = false := fun q hq => by
    rw [Bool.and_eq_false_iff, decide_eq_false_iff_not, decide_eq_false_iff_not]
    exact hb q hq
  have ho : (decide (o.accepted = o.accepted) && decide (o.pet = o.pet)) = true := by simp
  unfold Path.chunkOpAt Path.chunkOpDone
  rw [h, find?_first hf ho, eraseP_first hf ho]
  exact ⟨rfl, rfl⟩

theorem waiters_eq {p : Path} {pet : Nat} {ps : PetSlot} (h : tabGet p.pet pet = some ps) : p.waiters pet = ps.waiters := by
  simp [Path.waiters, h]

theorem releaseIf_eq {x : Index} {a : Nat} {f : Fingerprint} {st : EntryState} {e : Entry} (he : x.entry a = some e)
    (hf : e.fp = f) (hs : e.state = st) : x.releaseIf a f st = x.release a f := by
  simp only [Index.releaseIf, he]
  exact if_pos ⟨hf, hs⟩

/-! ## An accepted chunk (R98) -/

/-- The item of a waiter takes a mark (R98, R99). -/
def marked (m : WaiterMark) (p : Path) (w : Waiter) : Path :=
  p.modCtx w.slot fun x => x.modItem w.ordinal fun i => { i with mark := m }

/-- What becomes of a waiter of an accepted chunk, its REF written out. -/
theorem waiterLive_eq (c : Control) (e : Entry) : Path.waiterLive c e = fun q w =>
    if w.held then q.refJoins c ⟨w.slot, w.ordinal, w.offset, e.fp, e.container, e.offset, e.length,
      ((tabGet q.contexts w.slot).map (·.branch)).getD 0⟩
    else marked .live q w := by
  funext q w
  rw [refJoins_eq_joinBatch]
  rfl

/-- An accepted chunk's waiters are released with its PET slot already free (R98). -/
theorem completes_accepted {s : State} {pet address : Nat} {f : Fingerprint} {e : Entry} {ps : PetSlot} {p : Path}
    (ho : s.path.chunkOpAt true pet = some ⟨true, pet, address, f⟩) (hp : s.path.chunkOpDone true pet = p)
    (hps : tabGet p.pet pet = some ps) (he : s.idx.entry address = some e) (hf : e.fp = f) (hs : e.state = .pending) :
    CompletesDrained (.chunkAcceptAtBucket pet) s { s with
      idx := s.idx.set address { e with state := .live }
      path := ps.waiters.foldl (Path.waiterLive s.ctl e) (withPet p (tabErase p.pet pet)) } := by
  refine completesDrained_finish ?_ rfl
  show execChunkAcceptAtBucket pet s = _
  unfold execChunkAcceptAtBucket
  rw [ho]
  dsimp only
  rw [hp, waiters_eq hps, he]
  dsimp only
  rw [if_pos ⟨hf, hs⟩, (ApartFromPet.foldl (waiterLive_apart s.ctl e) ps.waiters).erase p pet]

/-! ## A failed chunk (R99) -/

/-- What becomes of a waiter of a failed chunk. -/
theorem waiterLost_eq : Path.waiterLost = fun q w => if w.held then q.recordAnswered w.slot else marked .lost q w := by
  funext q w
  rw [← answer_eq_recordAnswered]
  rfl

/-- A failed chunk's waiters are lost with its PET slot already free (R99). -/
theorem completes_failed {s : State} {pet address : Nat} {f : Fingerprint} {e : Entry} {ps : PetSlot} {p : Path}
    (ho : s.path.chunkOpAt false pet = some ⟨false, pet, address, f⟩) (hp : s.path.chunkOpDone false pet = p)
    (hps : tabGet p.pet pet = some ps) (he : s.idx.entry address = some e) (hf : e.fp = f) (hs : e.state = .pending) :
    CompletesDrained (.chunkFailAtBucket pet) s { s with
      idx := s.idx.release address f
      path := (waiterSlots ps.waiters).foldl (fun q n => q.endsIfDone s.ctl n)
        (((ps.waiters.foldl Path.waiterLost (withPet p (tabErase p.pet pet))).waitersTold ps.waiters).invalidate
          f address) } := by
  have apart := (waitersTold_apart ps.waiters).comp (.foldl waiterLost_apart ps.waiters)
  refine completesDrained_finish ?_ rfl
  show execChunkFailAtBucket pet s = _
  unfold execChunkFailAtBucket
  rw [ho]
  dsimp only
  rw [hp, waiters_eq hps, releaseIf_eq he hf hs, checkAll_eq, apart.erase p pet]

/-! ## A released item (R123, R124) -/

@[simp] theorem countRelease_link (p : Path) (o : ReleaseOp) : (p.countRelease o).link = p.link := by
  unfold Path.countRelease; split <;> rfl

/-- The first outcome of an entry's item is taken, and a RELEASING entry that holds its fingerprint becomes FREE. -/
theorem completes_released {s : State} {before after : List ReleaseOp} {o : ReleaseOp} {e : Entry}
    (hl : s.path.lostDrained) (hops : s.path.releaseOps = before ++ o :: after)
    (hb : ∀ q ∈ before, q.item.address ≠ o.item.address) (he : s.idx.entry o.item.address = some e)
    (hf : e.fp = o.item.fp) (hs : e.state = .releasing) :
    Completes (.releaseOutcomeAtBucket o.item.address) s { s with
      idx := s.idx.release o.item.address o.item.fp
      path := (Path.invalidate { s.path with releaseOps := before ++ after } o.item.fp o.item.address).countRelease o } := by
  have hbefore : ∀ q ∈ before, decide (q.item.address = o.item.address) = false := fun q h => decide_eq_false (hb q h)
  have ho : decide (o.item.address = o.item.address) = true := decide_eq_true rfl
  refine completes_finish ?_ rfl (lostDrained_of_link hl (countRelease_link _ o))
  show execReleaseOutcomeAtBucket o.item.address s = _
  unfold execReleaseOutcomeAtBucket
  rw [hops, find?_first hbefore ho, eraseP_first hbefore ho]
  simp only [takeRelease, releaseIf_eq he hf hs]

/-- Settles O57: the outcomes of a chunk by what its waiters do apart from the PET, those of a released item by the entry that
holds it, and the order of the streams by induction over the waiters. -/
theorem outcomesReachTheirBuckets : Obligations.OutcomesReachTheirBuckets := by
  refine ⟨fun s => ⟨fun before after pet address f e ps accepted hops hb hps he hf hs => ?_,
    fun before after accepted i e hl hops hb he hf hs => ?_⟩,
    fun l slot => ⟨mem_waiterSlots, waiterSlots_nodup l, fun w => lowestWaiter_spec⟩⟩
  · obtain ⟨ho, hdone⟩ := chunkOp_first hops hb
    refine ⟨fun ha => ?_, fun ha => ?_⟩
    · subst ha
      have done := completes_accepted ho hdone hps he hf hs
      rw [waiterLive_eq] at done
      exact done
    · subst ha
      have done := completes_failed ho hdone hps he hf hs
      rw [waiterLost_eq] at done
      exact done
  · have released := completes_released hl hops hb he hf hs
    exact ⟨fun ha => by subst ha; exact released, fun ha => by subst ha; exact released⟩

end Sys2Proof.Machine.LookupAndInsertion
end

section
/-! PROOFS. SET HOLD (O41). -/

namespace Sys2Proof.Machine.HoldsAndExpiry

open Sys2Proof

variable {s : State} {port : Port} {n : Nat} {src : Mac}

theorem exec_setHold {tag : Nat} {active : Bool} (h : s.headRequest port = some ⟨n, src, .setHold tag active⟩) :
    exec (.setHold port) s = .next (State.finish (State.answer
      (s.withCtl { s.ctl with holds := (setHoldAnswer s.ctl.holds tag active).1 }) port ⟨n, src, .setHold tag active⟩
      (setHoldAnswer s.ctl.holds tag active).2)) := by
  show execSetHold port s = _
  simp only [execSetHold, h]
  rfl

/-- Setting or clearing a tag writes its bit and no other (R110). -/
theorem setTag_getLsbD (holds : Mask16) (tag : Nat) (active : Bool) {i : Nat} (hi : i < 16) :
    (setTag holds tag active).getLsbD i = if i = tag then active else holds.getLsbD i := by
  have hbit : ((1 : Mask16) <<< tag).getLsbD i = decide (i = tag) := by
    show (BitVec.twoPow 16 tag).getLsbD i = _
    rw [BitVec.getLsbD_twoPow, ← Bool.decide_and, decide_eq_decide]
    omega
  cases active
  · show (holds &&& ~~~((1 : Mask16) <<< tag)).getLsbD i = _
    rw [BitVec.getLsbD_and, BitVec.getLsbD_not, hbit]
    by_cases h : i = tag <;> simp [h, hi]
  · show (holds ||| (1 : Mask16) <<< tag).getLsbD i = _
    rw [BitVec.getLsbD_or, hbit]
    by_cases h : i = tag <;> simp [h]

theorem setHoldAnswer_refused (holds : Mask16) {tag : Nat} (active : Bool) (h : tag = 0 ∨ 15 < tag) :
    setHoldAnswer holds tag active = (holds, .refuseWith .badValue (.holds holds)) := if_pos h

theorem setHoldAnswer_done (holds : Mask16) {tag : Nat} (active : Bool) (h1 : 1 ≤ tag) (h15 : tag ≤ 15) :
    setHoldAnswer holds tag active = (setTag holds tag active, .done (.holds (setTag holds tag active))) :=
  if_neg (by omega)

/-- Settles O41: the refused tags and the others, whose flag is one bit of the hold table. -/
theorem holdTagsAreSet : Obligations.HoldTagsAreSet := by
  intro s port n tag src active hl hr
  have hexec := exec_setHold hr
  refine ⟨fun hbad => ?_, fun h1 h15 => ⟨setTag s.ctl.holds tag active, ?_, fun i => setTag_getLsbD _ _ _⟩⟩
  · rw [setHoldAnswer_refused _ _ hbad] at hexec
    exact replies_finish hexec rfl hl
  · rw [setHoldAnswer_done _ _ h1 h15] at hexec
    exact replies_finish hexec rfl hl

end Sys2Proof.Machine.HoldsAndExpiry
end

section
/-! PROOFS. RETIRE and its items (O42). -/

namespace Sys2Proof.Machine.HoldsAndExpiry

open Sys2Proof
open Sys2Proof.Machine.FingerprintIndex (steady_of_head allAnswers_none allAnswers_map)
open Sys2Proof.Machine.ParcelOrder (lostDrained_of_link queue_setQueue_same)

variable {s : State} {port : Port}

/-! ## The request -/

/-- What R112 refuses. -/
theorem retireBad_iff (items : List (Fingerprint × Nat)) :
    retireBad items = true ↔ items = [] ∨ 64 < items.length ∨ ∃ i ∈ items, i.2 = 0 := by
  simp only [retireBad, Bool.or_eq_true, decide_eq_true_eq, List.any_eq_true, Nat.lt_one_iff, List.length_eq_zero_iff,
    or_assoc]

theorem exec_retire {n : Nat} {src : Mac} {items : List (Fingerprint × Nat)}
    (h : s.headRequest port = some ⟨n, src, .retire items⟩) :
    exec (.retire port) s = .next (if retireBad items
      then (s.answer port ⟨n, src, .retire items⟩ (.refuse .badValue)).finish
      else (s.withPath (s.path.setHead port (.retiring (items.map fun _ => none)))).finish) := by
  show execRetire port s = _
  simp only [execRetire, h]

/-- A command that ends with the head under way completes with the queue as it leaves it. -/
theorem completes_underWay {c : Instr} {u : State} {q : PortQueue} {p : Path} (hex : exec c s = .next u.finish)
    (hp : u.pending = s.pending) (hu : u.path = p.setQueue port q) (hq : q.head ≠ .waiting) (hl : s.path.lostDrained)
    (hlink : p.link = s.path.link) (hs : p.sPort = s.path.sPort) (hi : p.iPort = s.path.iPort) :
    CompletesAtQueue c s u port := by
  have hul : u.path.link = s.path.link := by rw [hu, setQueue_link, hlink]
  refine (completes_finish hex hp (lostDrained_of_link hl hul)).atQueue (steady_of_head ?_ ?_ ?_)
  · rwa [hu, queue_setQueue_same]
  · rw [hu, setQueue_sPort, hs]
  · rw [hu, setQueue_iPort, hi]

/-! ## The items -/

/-- An item of the list that is not answered, where no earlier unanswered one names its bucket, is ready (R112). -/
theorem itemReady_retire {α : Type} {x : Index} {items : List (Fingerprint × Nat)} {answers : List (Option α)} {k : Nat}
    {i : Fingerprint × Nat} (hi : items[k]? = some i) (ha : answers[k]? = some none)
    (h : ∀ j g, j < k → items[j]? = some g → answers[j]? = some none → x.bucket g.1 ≠ x.bucket i.1) :
    itemReady x (items.map (·.1)) (answers.map (·.isSome)) k = true := by
  have hmaps : (items.map (·.1)).zip (answers.map (·.isSome)) = (items.zip answers).map fun ia => (ia.1.1, ia.2.isSome) :=
    List.zip_map ..
  unfold itemReady
  rw [List.getElem?_map, List.getElem?_map, hi, ha, hmaps, ← List.map_take]
  simp only [Option.map_some, Option.isSome_none, List.all_map, List.all_eq_true]
  intro ia hm
  obtain ⟨j, hj⟩ := List.mem_iff_getElem?.1 hm
  have hjk : j < k := Nat.lt_of_not_le fun hkj => by rw [List.getElem?_take_eq_none hkj] at hj; cases hj
  rw [List.getElem?_take_of_lt hjk] at hj
  obtain ⟨hg, hb⟩ := List.getElem?_zip_eq_some.1 hj
  cases hb' : ia.2 with
  | some b => simp [hb']
  | none => simp [h j ia.1 hjk hg (hb' ▸ hb)]

theorem exec_retireItem {r : Req} {items : List (Fingerprint × Nat)} {n : Nat} {src : Mac} {rest : List Req}
    {answers : List (Option (RetireAnswer × Option Nat))} {k c : Nat} {f : Fingerprint}
    (hr : r = ⟨n, src, .retire items⟩) (hh : s.path.handling s.idx = true)
    (hq : s.path.queue port = ⟨r :: rest, .retiring answers⟩) (hi : items[k]? = some (f, c))
    (hready : itemReady s.idx (items.map (·.1)) (answers.map (·.isSome)) k = true) :
    exec (.retireItem port k) s = .next (State.finish { s with
      idx := (retireAt s.idx f c).idx
      path := (s.path.countRetired (retireAt s.idx f c)).retireProgress s.ctl.now port r
        (answers.set k (some ((retireAt s.idx f c).answer, (retireAt s.idx f c).count))) }) := by
  subst hr
  have hu : s.headUnderWay port = some (⟨n, src, .retire items⟩, .retiring answers) := by
    unfold State.headUnderWay
    rw [if_pos hh, hq]
  show execRetireItem port k s = _
  simp only [execRetireItem, hu, hi, hready, if_true]

/-- An item changes of the data path the counters alone. -/
theorem countRetired_eq (p : Path) (r : Retired) : p.countRetired r = { p with counters := (p.countRetired r).counters } := by
  unfold Path.countRetired
  split <;> rfl

theorem countRetired_queue (p : Path) (r : Retired) (port : Port) : (p.countRetired r).queue port = p.queue port := by
  rw [countRetired_eq]
  cases port <;> rfl

/-- What an item comes to at its bucket, in the order of R113's cases. -/
theorem retireAt_eq {x y : Index} {p q : Path} {f : Fingerprint} {c : Nat} {answer : RetireAnswer × Option Nat}
    (h : match (x.readyPage (x.bucket f)).map fun page => x.search page (x.bucket f) f with
      | some (.held a e) =>
        if e.state = .pending then y = x ∧ q = p ∧ answer = (.busy, none)
        else if e.count = 65535 then y = x ∧ q = p ∧ answer = (.pinned, some 65535)
        else if c ≤ e.count then
          y = x.set a { e with count := e.count - c } ∧ q = p.bump .referencesRetired c ∧
            answer = (.done, some (e.count - c))
        else
          y = x.set a { e with count := 0 } ∧
            q = (p.bump .referencesRetired e.count).bump .retireUnderflows 1 ∧ answer = (.underflow, some 0)
      | _ => y = x ∧ q = p ∧ answer = (.notFound, none)) :
    (retireAt x f c).idx = y ∧ p.countRetired (retireAt x f c) = q ∧
      ((retireAt x f c).answer, (retireAt x f c).count) = answer := by
  unfold retireAt
  cases hp : x.readyPage (x.bucket f) with
  | none =>
    rw [hp] at h
    obtain ⟨rfl, rfl, rfl⟩ := h
    exact ⟨rfl, rfl, rfl⟩
  | some page =>
    rw [hp, Option.map_some] at h
    dsimp only
    cases hs : x.search page (x.bucket f) f with
    | held a e =>
      rw [hs] at h
      dsimp only at h ⊢
      split_ifs at h ⊢ <;> obtain ⟨rfl, rfl, rfl⟩ := h <;> exact ⟨rfl, rfl, rfl⟩
    | releasing a e | absent =>
      rw [hs] at h
      obtain ⟨rfl, rfl, rfl⟩ := h
      exact ⟨rfl, rfl, rfl⟩

/-- Settles O42: the request's cases by R112, an item's in the order of R113, and the reply with the last answer. -/
theorem referencesAreRetired : Obligations.ReferencesAreRetired := by
  intro s port n src items hl r bad
  refine ⟨fun hr => ⟨fun hb => ?_, fun hb => ?_⟩, ?_⟩
  · have hex := exec_retire hr
    rw [if_pos ((retireBad_iff items).2 hb)] at hex
    exact replies_finish hex rfl hl
  · have hex := exec_retire hr
    rw [if_neg (mt (retireBad_iff items).1 hb)] at hex
    exact completes_underWay hex rfl rfl HeadState.noConfusion hl rfl rfl rfl
  · intro rest answers k c f y p answer hh hq hi ha hfirst h
    have hex := exec_retireItem rfl hh hq hi (itemReady_retire hi ha hfirst)
    have hsame := countRetired_eq s.path (retireAt s.idx f c)
    have hqp := countRetired_queue s.path (retireAt s.idx f c) port
    obtain ⟨rfl, rfl, rfl⟩ := retireAt_eq h
    refine ⟨fun hn => ?_, fun all hall => ?_⟩
    · rw [Path.retireProgress, allAnswers_none hn, Path.setHead, hqp, hq] at hex
      exact completes_underWay hex rfl rfl HeadState.noConfusion hl (by rw [hsame]) (by rw [hsame]) (by rw [hsame])
    · rw [hall, Path.retireProgress, allAnswers_map] at hex
      exact replies_finish hex rfl (lostDrained_of_link hl (by rw [hsame]))

end Sys2Proof.Machine.HoldsAndExpiry
end

section
/-! PROOFS. SWEEP NOW (O44). -/

namespace Sys2Proof.Machine.HoldsAndExpiry

open Sys2Proof
open Sys2Proof.Machine.ParcelOrder (lostDrained_of_link)

variable {s : State} {port : Port} {n : Nat} {src : Mac}

theorem exec_sweepNow (h : s.headRequest port = some ⟨n, src, .sweepNow⟩) :
    exec (.sweepNow port) s = .next (if s.ctl.calendar.isSet
      then ((s.withPath (s.path.startSweep s.idx)).answer port ⟨n, src, .sweepNow⟩
        (.done (.sweep s.path.sweeper.startResult))).finish
      else (s.answer port ⟨n, src, .sweepNow⟩ (.refuse .wrongMode)).finish) := by
  show execSweepNow port s = _
  simp only [execSweepNow, h]

/-- A start that comes to a sweeper and a data path with the same link is answered so. -/
theorem replies_swept {w : Sweeper} {p : Path} {a : SweepResult} (hl : s.path.lostDrained)
    (hr : s.headRequest port = some ⟨n, src, .sweepNow⟩) (hset : s.ctl.calendar.isSet = true)
    (hstart : s.path.startSweep s.idx = { p with sweeper := w }) (ha : s.path.sweeper.startResult = a)
    (hlink : p.link = s.path.link) :
    Replies (.sweepNow port) s (s.withPath { p with sweeper := w }) port ⟨n, src, .sweepNow⟩ (.done (.sweep a)) := by
  have hex := exec_sweepNow hr
  rw [if_pos hset, hstart, ha] at hex
  exact replies_finish hex rfl (lostDrained_of_link hl hlink)

/-! ## Starts of an IDLE sweeper (R118, R119, R122) -/

theorem startSweep_idle {p : Path} {x : Index} (hi : p.sweeper.pass = .idle) :
    p.startSweep x = p.sweepOn x (.buckets 0 0) := if_pos hi

theorem startSweep_running {p : Path} {x : Index} (hi : p.sweeper.pass ≠ .idle) :
    p.startSweep x = { p with sweeper := { p.sweeper with restart := true } } := if_neg hi

/-- Where group 0 is READY, a pass from bucket 0 visits it (R119). -/
theorem nextVisit_first_ready {x : Index} {g : Group} (hg : tabGet x.groups 0 = some g) (hs : g.state = .ready) :
    x.nextVisit (.buckets 0 0) = some (.buckets 0 0, 0) := by
  have hpage : x.readyPage 0 = some g.page := by
    unfold Index.readyPage
    rw [show groupOf 0 = 0 from rfl, hg]
    exact if_pos hs
  simp only [Index.nextVisit, if_pos (Nat.two_pow_pos x.geometry), hpage, Option.isSome_some, if_true]

/-- Without a READY group and without a marked bucket there is nothing to visit (R119, R120). -/
theorem nextVisit_first_none {x : Index} (hg : ∀ g ∈ x.groups, g.2.state = .initialising) (hm : x.marks = []) :
    x.nextVisit (.buckets 0 0) = none := by
  have hpage : x.readyPage 0 = none := by
    unfold Index.readyPage
    split
    · rename_i g hget
      have hinit : g.state = .initialising := hg _ (tabGet_mem hget)
      simp [hinit]
    · rfl
  have hready : x.nextReady (groupOf 0 + 1) = none := by
    unfold Index.nextReady
    rw [List.find?_eq_none.2 fun g hmem => by simp [hg g hmem]]
    rfl
  have hmarked : x.nextMarked 0 0 = none := by
    unfold Index.nextMarked
    rw [hm]
    rfl
  simp [Index.nextVisit, hpage, hready, hmarked]

theorem sweepOn_visits {p : Path} {x : Index} {pos at_ : SweepPos} {b : Nat} (h : x.nextVisit pos = some (at_, b)) :
    p.sweepOn x pos = p.issueVisit at_ b := by
  simp only [Path.sweepOn, Path.sweepFrom, h]

/-- A pass with nothing to visit, no item that is not yet a batch and no restart mark ends at once (R122). -/
theorem sweepOn_ends {p : Path} {x : Index} {pos : SweepPos} (h : x.nextVisit pos = none) (hu : p.sweeper.unbatched = [])
    (hr : p.sweeper.restart = false) : p.sweepOn x pos = { p.bump .sweepPasses 1 with
      sweeper := { p.sweeper with pass := .idle, pos := .buckets 0 0, visit := none } } := by
  have hb : p.makeBatch p.sweeper.unbatched.length = p := by
    rw [makeBatch_eq_restBatched]
    exact if_pos hu
  simp only [Path.sweepOn, Path.sweepFrom, h, hb, bump_sweeper, hr, Bool.false_eq_true, if_false]

/-- Settles O44: an UNSET calendar, a pass under way, and the starts of an IDLE sweeper by the next visit from bucket 0. -/
theorem sweepsStart : Obligations.SweepsStart := by
  intro s port n src hl w swept hr
  refine ⟨fun hunset => ?_, fun hset => ⟨fun hrun => ?_, fun hidle hready => ?_, fun hidle hg hm hu hre => ?_⟩⟩
  · have hex := exec_sweepNow hr
    rw [if_neg (by rw [hunset]; exact Bool.false_ne_true)] at hex
    exact replies_finish hex rfl hl
  · exact replies_swept hl hr hset (startSweep_running hrun) (if_neg hrun) rfl
  · obtain ⟨g, hg, hs⟩ := hready
    have hstart := (startSweep_idle hidle).trans (sweepOn_visits (p := s.path) (nextVisit_first_ready hg hs))
    exact replies_swept hl hr hset hstart (if_pos hidle) rfl
  · have hstart := (startSweep_idle hidle).trans (sweepOn_ends (nextVisit_first_none hg hm) hu hre)
    exact replies_swept hl hr hset hstart (if_pos hidle) rfl

end Sys2Proof.Machine.HoldsAndExpiry
end

section
/-! PROOFS. Operations apart from the SIDE FIFO, before or after which held items may take its free places. -/

namespace Sys2Proof.Machine.HoldsAndExpiry

open Sys2Proof

/-! ## Operations apart from SIDE -/

/-- The first data path with the S-port and the request queues of the second: all that held items change as they take places
of SIDE (R166, R191). -/
def withSideOf (q p : Path) : Path := { q with sPort := p.sPort, iQueue := p.iQueue, sQueue := p.sQueue }

theorem joinS_withSideOf (q p : Path) (now : Nat) (y : SItem) :
    (withSideOf q p).joinS now y = withSideOf q (p.joinS now y) := by
  cases y with
  | reply r =>
    show Path.replyJoined _ r = withSideOf q (Path.replyJoined _ r)
    unfold Path.replyJoined
    rcases r.answers with _ | _ | _ <;> rfl
  | _ => rfl

theorem refillS_withSideOf (q : Path) (now n : Nat) (p : Path) :
    Path.refillS now n (withSideOf q p) = withSideOf q (Path.refillS now n p) := by
  induction n generalizing p with
  | zero => rfl
  | succ n ih =>
    unfold Path.refillS
    rw [show (withSideOf q p).sPort = p.sPort from rfl]
    cases p.sPort.hold with
    | nil => rfl
    | cons y rest =>
      dsimp only
      rw [apply_ite (withSideOf q), ← ih, ← joinS_withSideOf]
      rfl

/-- An operation that neither reads the S-port and the request queues nor changes them. -/
def ApartFromSide (f : Path → Path) : Prop := ∀ q p, f (withSideOf q p) = withSideOf (f q) p

namespace ApartFromSide

variable {f g : Path → Path}

/-- Held items may take their places before or after an operation apart from SIDE. -/
theorem refillS (h : ApartFromSide f) (now n : Nat) (p : Path) :
    f (Path.refillS now n p) = Path.refillS now n (f p) := by
  have hf : withSideOf (f p) p = f p := (h p p).symm
  calc f (Path.refillS now n p) = f (withSideOf p (Path.refillS now n p)) := by rw [← refillS_withSideOf]; rfl
    _ = withSideOf (f p) (Path.refillS now n p) := h _ _
    _ = Path.refillS now n (withSideOf (f p) p) := (refillS_withSideOf ..).symm
    _ = Path.refillS now n (f p) := by rw [hf]

theorem comp (hg : ApartFromSide g) (hf : ApartFromSide f) : ApartFromSide fun p => g (f p) := fun q p =>
  (congrArg g (hf q p)).trans (hg (f q) p)

theorem foldl {α : Type} {f : Path → α → Path} (h : ∀ a, ApartFromSide fun p => f p a) (l : List α) :
    ApartFromSide fun p => l.foldl f p :=
  fun _ p => List.foldl_hom (withSideOf · p) fun q a => h a q p

end ApartFromSide

/-! ## Streams (R13, R22, R38, R42, R100) -/

theorem sendNotice_apart (n : Notice) : ApartFromSide fun p => p.sendNotice n := by
  intro q p
  show Path.sendNotice (withSideOf q p) n = withSideOf (q.sendNotice n) p
  unfold Path.sendNotice
  rw [apply_ite (withSideOf · p), apply_ite (withSideOf · p)]
  rfl

theorem ends_apart (c : Control) (slot : Nat) (x : Context) (v : EndClass × Option Cause) :
    ApartFromSide fun p => p.ends c slot x v := by
  intro q p
  have told : ∀ n, (withSideOf q p).sendNotice n = withSideOf (q.sendNotice n) p := fun n => sendNotice_apart n q p
  simp only [Path.ends, told]
  rfl

theorem endsIfDone_apart (c : Control) (slot : Nat) : ApartFromSide fun p => p.endsIfDone c slot := by
  intro q p
  have ended := fun x v (r : Path) => ends_apart c slot x v r p
  dsimp only at ended
  show Path.endsIfDone (withSideOf q p) c slot = withSideOf (q.endsIfDone c slot) p
  unfold Path.endsIfDone
  rw [show (withSideOf q p).contexts = q.contexts from rfl]
  cases tabGet q.contexts slot with
  | none => rfl
  | some x =>
    dsimp only
    simp only [apply_ite (withSideOf · p), ← ended]
    rfl

theorem storeLost_apart (slot offset ordinal : Nat) : ApartFromSide fun p => p.storeLost slot offset ordinal := by
  intro q p
  show Path.storeLost (withSideOf q p) slot offset ordinal = withSideOf (q.storeLost slot offset ordinal) p
  unfold Path.storeLost Path.quiesce
  rw [show (withSideOf q p).contexts = q.contexts from rfl]
  cases tabGet q.contexts slot with
  | none => rfl
  | some x =>
    dsimp only
    rw [apply_ite (withSideOf · p)]
    rfl

theorem chunkSettled_apart (slot ordinal : Nat) : ApartFromSide fun p => p.chunkSettled slot ordinal := by
  intro q p
  show Path.chunkSettled (withSideOf q p) slot ordinal = withSideOf (q.chunkSettled slot ordinal) p
  unfold Path.chunkSettled
  rw [show (withSideOf q p).contexts = q.contexts from rfl]
  cases tabGet q.contexts slot with
  | none => rfl
  | some x =>
    dsimp only
    rw [apply_ite (withSideOf · p)]
    rfl

theorem recordAnswered_apart (slot : Nat) : ApartFromSide fun p => p.recordAnswered slot := by
  intro q p
  show Path.recordAnswered (withSideOf q p) slot = withSideOf (q.recordAnswered slot) p
  unfold Path.recordAnswered
  rw [show (withSideOf q p).contexts = q.contexts from rfl]
  cases tabGet q.contexts slot <;> rfl

/-! ## Failures (R144, R147, R155 to R157) -/

theorem afterFail_apart (c : Control) (m : Content) : ApartFromSide fun p => p.afterFail c m := by
  rcases m with r | items | r | items
  · have placed : ApartFromSide fun p => p.placementAnswered r true := fun _ _ => rfl
    have sent : ApartFromSide fun p => (p.outcomeSent r false).bump .chunksFailed 1 := fun _ _ => rfl
    exact (endsIfDone_apart c r.slot).comp (sent.comp ((storeLost_apart _ _ _).comp ((chunkSettled_apart _ _).comp placed)))
  · have answered : ApartFromSide fun p => items.foldl (fun q i => q.recordAnswered i.slot) p :=
      .foldl (fun i => recordAnswered_apart i.slot) items
    have told : ApartFromSide fun p => (refSlots items).foldl (fun q n => match lowestRef items n with
        | some i => q.storeLost n i.streamOffset i.ordinal
        | none => q) p := by
      refine .foldl (fun n => ?_) _
      cases lowestRef items n with
      | none => exact fun _ _ => rfl
      | some i => exact storeLost_apart n i.streamOffset i.ordinal
    have counted : ApartFromSide fun p => p.bump .refBatchesFailed 1 := fun _ _ => rfl
    exact (ApartFromSide.foldl (fun n => endsIfDone_apart c n) _).comp (counted.comp (told.comp answered))
  · exact fun _ _ => rfl
  · exact fun _ _ => rfl

end Sys2Proof.Machine.HoldsAndExpiry
end

section
/-! PROOFS. The store link's timers, the grants of tags and the resends (O56). -/

namespace Sys2Proof.Machine.HoldsAndExpiry

open Sys2Proof
open Sys2Proof.Machine.ParcelOrder (lostDrained_of_link)

variable {s : State} {p : Path} {c : Control} {tag time : Nat}

/-! ## The REF batch timer (R171) -/

theorem exec_refBatchTimerExpiry (h : s.path.batch.timer = some time) : exec .refBatchTimerExpiry s =
    .next (State.finish { s with ctl := s.ctl.reach time, path := s.path.closeBatch }) := by
  show execRefBatchTimerExpiry s = _
  simp only [execRefBatchTimerExpiry, h]

/-! ## Grants of tags (R149, R150) -/

/-- The lowest free tag is the one below which every tag is in use. -/
theorem freeTag_of_lowest {l : Link} (ht : tag < 64) (hfree : ∀ m ∈ l.inflight, m.tag ≠ tag)
    (hlow : ∀ k, k < tag → ∃ m ∈ l.inflight, m.tag = k) : l.freeTag = some tag := by
  unfold Link.freeTag
  rw [List.find?_range_eq_some]
  refine ⟨by simpa using hfree, by simpa using ht, fun k hk => ?_⟩
  obtain ⟨m, hm, hmk⟩ := hlow k hk
  simpa using ⟨m, hm, hmk⟩

theorem exec_tagGrant_none
    (h : s.path.link.state ≠ .up ∨ s.ctl.tables.settings.storeAddr = none ∨ s.path.link.waiting = []) :
    exec .tagGrant s = .next s := by
  show execTagGrant s = _
  unfold execTagGrant
  rw [if_neg]
  rintro ⟨hup, haddr, hw⟩
  rcases h with h | h | h
  · exact h hup
  · rw [h] at haddr
    cases haddr
  · exact hw h

theorem exec_tagGrant (hup : s.path.link.state = .up) (haddr : s.ctl.tables.settings.storeAddr ≠ none)
    (hw : s.path.link.waiting ≠ []) (ht : s.path.link.freeTag = some tag) :
    exec .tagGrant s = .next (s.withPath (s.path.grantTag s.ctl s.idx tag)).finish := by
  show execTagGrant s = _
  simp only [execTagGrant, hup, Option.isSome_iff_ne_none.2 haddr, hw, ht, ne_eq, not_false_eq_true, and_self, if_true]

theorem lostDrained_of_up (h : p.link.state = .up) : p.lostDrained := fun hlost => by cases h.symm.trans hlost

/-- A grant of the lowest free tag to the oldest request completes as the data path it comes to. -/
theorem completes_tagGrant {r : TagRequest} {rest : List TagRequest} (hup : s.path.link.state = .up)
    (haddr : s.ctl.tables.settings.storeAddr ≠ none) (hw : s.path.link.waiting = r :: rest) (ht : tag < 64)
    (hfree : ∀ m ∈ s.path.link.inflight, m.tag ≠ tag) (hlow : ∀ k, k < tag → ∃ m ∈ s.path.link.inflight, m.tag = k)
    (hp : s.path.grantTag s.ctl s.idx tag = p) (hpup : p.link.state = .up) : Completes .tagGrant s (s.withPath p) := by
  have hex := exec_tagGrant hup haddr (by rw [hw]; exact List.cons_ne_nil _ _) (freeTag_of_lowest ht hfree hlow)
  rw [hp] at hex
  exact completes_finish hex rfl (lostDrained_of_up hpup)

/-- The S-port after a store message has joined SIDE, or its hold list where SIDE has no place (R166). -/
def sideJoined (d : SPort) (now : Nat) (x : SItem) : SPort :=
  if d.hold = [] ∧ d.fifo.length < 64 then { d with fifo := d.fifo ++ [(now, x)] } else { d with hold := d.hold ++ [x] }

theorem offerS_message (p : Path) (now tag serial : Nat) : p.offerS now (.message tag serial) =
    { p with sPort := sideJoined p.sPort now (.message tag serial) } := by
  simp only [Path.offerS, SPort.room, Bool.and_eq_true, List.isEmpty_iff, decide_eq_true_eq, sideJoined]
  split <;> rfl

/-- Joining SIDE, written out for a data path. -/
theorem sideJoined_eq (p : Path) (now : Nat) (x : SItem) :
    (if p.sPort.hold = [] ∧ p.sPort.fifo.length < 64 then
        { p with sPort := { p.sPort with fifo := p.sPort.fifo ++ [(now, x)] } }
      else { p with sPort := { p.sPort with hold := p.sPort.hold ++ [x] } } : Path) =
      { p with sPort := sideJoined p.sPort now x } := by
  unfold sideJoined
  split <;> rfl

/-- The S-port after a message's first issue: a CHUNK and a REF batch wait in DATA, a SEAL and a RELEASE batch in SIDE (R150,
R164, R166). -/
def handedFirst (d : SPort) (now tag serial : Nat) : Content → SPort
  | .chunk _ => { d with chunkQ := d.chunkQ ++ [tag] }
  | .refs _ => { d with refQ := d.refQ ++ [tag] }
  | _ => sideJoined d now (.message tag serial)

/-- The first issue of a message with a tag, its request being the oldest that waited (R150). -/
def issued (p : Path) (c : Control) (rest : List TagRequest) (tag : Nat) (content : Content) : Path :=
  Path.bump { p with
    sPort := handedFirst p.sPort c.now tag (p.link.nextSerial tag) content
    link := { p.link with
      waiting := rest, serials := tabPut 0 p.link.serials tag (p.link.nextSerial tag)
      inflight := p.link.inflight ++ [⟨tag, p.link.nextSerial tag, .sending, 1, c.now, content⟩] } } .messagesIssued 1

theorem issue_eq_issued (p : Path) (c : Control) (rest : List TagRequest) (tag : Nat) (content : Content) :
    Path.issue { p with link := { p.link with waiting := rest } } c tag content = issued p c rest tag content := by
  unfold Path.issue Path.handFirst
  rcases content with r | items | r | items
  exacts [rfl, rfl, offerS_message .., offerS_message ..]

theorem takeBatch_of_batches {x : Index} {b : List RelItem} {bs : List (List RelItem)} (hb : p.sweeper.batches = b :: bs) :
    p.takeBatch x = Path.resumeSweep { p with sweeper := { p.sweeper with batches := bs } } x := by
  unfold Path.takeBatch
  rw [hb]
  rfl

theorem grantTag_message {x : Index} {content : Content} {rest : List TagRequest}
    (hw : p.link.waiting = .message content :: rest) : p.grantTag c x tag = issued p c rest tag content := by
  unfold Path.grantTag
  rw [hw]
  exact issue_eq_issued ..

theorem grantTag_release {x : Index} {rest : List TagRequest} {b : List RelItem} {bs : List (List RelItem)}
    (hw : p.link.waiting = .oldestRelease :: rest) (hb : p.sweeper.batches = b :: bs) : p.grantTag c x tag =
      Path.resumeSweep { issued p c rest tag (.release b) with sweeper := { p.sweeper with batches := bs } } x := by
  unfold Path.grantTag
  rw [hw]
  dsimp only
  rw [hb]
  exact (congrArg (Path.takeBatch · x) (issue_eq_issued ..)).trans (takeBatch_of_batches hb)

/-- A pass that does not wait is left alone. -/
theorem resumeSweep_of_not_waiting {x : Index} (h : p.sweeper.pass ≠ .waiting) : p.resumeSweep x = p := if_neg fun hw => h hw.1

/-- A waiting pass goes on from its entry where the RELEASE queue has a free place (R121). -/
theorem resumeSweep_of_waiting {x : Index} (h : p.sweeper.pass = .waiting)
    (hroom : (p.sweeper.unbatched ++ p.sweeper.batches.flatten).length < 256) :
    p.resumeSweep x = p.sweepOn x p.sweeper.pos := by
  refine if_pos ⟨h, ?_⟩
  rw [List.length_append, List.length_flatten] at hroom
  exact Nat.sub_pos_of_lt hroom

theorem sweepOn_link_state (p : Path) (x : Index) (pos : SweepPos) : (p.sweepOn x pos).link.state = p.link.state :=
  (tagsFall_sweepFrom x 2 pos p).state

/-! ## Resends and answers that do not come (R153, R154) -/

theorem exec_answerTimerExpiry {m : Message} (hm : s.path.message tag = some m) (hp : m.phase = .awaiting time) :
    exec (.answerTimerExpiry tag) s = .next (State.finish { s with
      ctl := s.ctl.reach time, path := (s.path.bump .answerTimeouts 1).retryWait (s.ctl.reach time) tag }) := by
  show execAnswerTimerExpiry tag s = _
  simp only [execAnswerTimerExpiry, hm, hp]

theorem exec_resendDue {m : Message} {q : Path} (hm : s.path.message tag = some m) (hp : m.phase = .retryWait time)
    (hq : s.path.resendDue (s.ctl.reach time) m = q) :
    exec (.resendDue tag) s = .next (State.finish { s with ctl := s.ctl.reach time, path := q }) := by
  show execResendDue tag s = _
  simp only [execResendDue, hm, hp, hq]

theorem tag_of_message {m : Message} (hm : p.message tag = some m) : m.tag = tag :=
  of_decide_eq_true (List.find?_some (p := fun m : Message => decide (m.tag = tag)) hm)

theorem resendDue_of_lt {m : Message} (h : m.attempts < c.tables.settings.retryLimit) :
    p.resendDue c m = p.resend m.tag := if_pos h

theorem resendDue_persist {m : Message} (h : c.tables.settings.retryLimit ≤ m.attempts)
    (ha : c.tables.settings.retryAction = .persist) : p.resendDue c m = (p.resend m.tag).setFlag .storeRetry := by
  unfold Path.resendDue
  rw [if_neg (Nat.not_lt.2 h), ha]

/-- The S-port without the message of a tag, the places it frees not yet taken (R163). -/
def withdrawn (d : SPort) (tag : Nat) : SPort := { d with
  resend := d.resend.filter fun t => t ≠ tag
  chunkQ := d.chunkQ.filter fun t => t ≠ tag
  refQ := d.refQ.filter fun t => t ≠ tag
  fifo := d.fifo.filter fun x => !x.2.isMessageOf tag
  hold := d.hold.filter fun x => !x.isMessageOf tag }

theorem withdraw_eq (p : Path) (now tag : Nat) :
    p.withdraw now tag = Path.refillS now 64 { p with sPort := withdrawn p.sPort tag } := rfl

/-- A message that waits for its resend has been withdrawn, and held items take the places it frees (R153). -/
theorem retryWait_eq (p : Path) (c : Control) (tag : Nat) : p.retryWait c tag =
    Path.refillS c.now 64 { p.modMessage tag fun m => { m with phase := .retryWait (c.now + 50000) } with
      sPort := withdrawn p.sPort tag } := rfl

/-- A message is given up, before its failure (R154): it is counted, sets STORE_GIVEUP, and has left the in-flight list and its
queue. -/
def givenUp (p : Path) (tag : Nat) : Path :=
  Path.bump (Path.setFlag { p with
    sPort := withdrawn p.sPort tag
    link := { p.link with inflight := p.link.inflight.filter fun m => m.tag ≠ tag } } .storeGiveUp) .giveUps 1

/-- A message at the limit is given up and fails; held items take the places it frees before or after that (R154). -/
theorem resendDue_giveUp {m : Message} (h : c.tables.settings.retryLimit ≤ m.attempts)
    (ha : c.tables.settings.retryAction = .giveUp) :
    p.resendDue c m = Path.refillS c.now 64 ((givenUp p m.tag).afterFail c m.content) := by
  unfold Path.resendDue
  rw [if_neg (Nat.not_lt.2 h), ha]
  dsimp only
  unfold Path.failMessage
  rw [fail_eq_afterFail, withdraw_eq]
  exact (afterFail_apart c m.content).refillS c.now 64 (givenUp p m.tag)

/-- A failure leaves no request for a tag waiting on a LOST link: the link is not LOST, or nothing is asked for. -/
theorem afterFail_lostDrained {m : Content} (hl : p.lostDrained)
    (h : p.link.state ≠ .lost ∨ (∃ items, m = .release items) ∨ ∃ r, m = .seal r) : (p.afterFail c m).lostDrained := by
  rcases h with h | ⟨items, rfl⟩ | ⟨r, rfl⟩
  · intro hlost
    rw [← fail_eq_afterFail, (tagsFall_fail p c m).state] at hlost
    exact absurd hlost h
  · exact lostDrained_of_link hl rfl
  · exact lostDrained_of_link hl rfl

/-- Settles O56: the timers and the grants by what they make of the data path, and a message given up by what its failure makes
of it apart from SIDE. -/
theorem linkTimersAndTags : Obligations.LinkTimersAndTags := by
  intro s p l c nextSerial serials withdrawn' resent inSide
  have side (q : Path) (x : SItem) : inSide q x = { q with sPort := sideJoined q.sPort c.now x } := sideJoined_eq q c.now x
  refine ⟨?_, exec_tagGrant_none, ?_, ?_, ?_⟩
  · intro time ht hi hlost
    have hex := exec_refBatchTimerExpiry ht
    rw [closeBatch_eq_batchClosed hi] at hex
    exact completes_finish hex rfl fun h => absurd h hlost
  · intro content rest tag w hup haddr hw ht hfree hlow issued'
    have hgrant : p.grantTag c s.idx tag = { issued p c rest tag content with sweeper := w } := by
      rcases hw with ⟨hw, rfl⟩ | ⟨hw, hrun, b, bs, rfl, hb, rfl⟩
      · exact grantTag_message hw
      · exact (grantTag_release hw hb).trans (resumeSweep_of_not_waiting hrun)
    obtain ⟨r, hr⟩ : ∃ r, l.waiting = r :: rest := hw.elim (fun h => ⟨_, h.1⟩) fun h => ⟨_, h.1⟩
    have done := completes_tagGrant hup haddr hr ht hfree hlow hgrant hup
    rcases content with r | items | r | items
    · exact done
    · exact done
    all_goals
      dsimp only
      rw [side]
      exact done
  · intro rest tag b bs hup haddr hw hb hwait hroom ht hfree hlow issued' q
    have hgrant := (grantTag_release (c := c) (tag := tag) (x := s.idx) hw hb).trans (resumeSweep_of_waiting hwait hroom)
    have done := completes_tagGrant hup haddr hw ht hfree hlow hgrant ((sweepOn_link_state ..).trans hup)
    show Completes _ _ (s.withPath (Path.sweepOn { inSide issued' _ with sweeper := _ } _ _))
    rw [side]
    exact done
  · intro tag m time hm hl
    obtain rfl := tag_of_message hm
    refine ⟨fun hp => ?_, fun hp => ?_⟩
    · have hex := exec_answerTimerExpiry hm hp
      rw [retryWait_eq] at hex
      exact completes_passes hex rfl rfl rfl ((keeps_refillS _ 64 _).lostDrained hl) (passes_refillS _ _ 64 _)
    · refine ⟨fun hlim => ?_, fun hlim => ⟨fun hact => ?_, fun hact hasks => ?_⟩⟩
      · exact completes_finish (exec_resendDue hm hp (resendDue_of_lt hlim)) rfl hl
      · exact completes_finish (exec_resendDue hm hp (resendDue_persist hlim hact)) rfl hl
      · have hex := exec_resendDue hm hp (resendDue_giveUp hlim hact)
        have hdrained : ((givenUp p m.tag).afterFail (s.ctl.reach time) m.content).lostDrained :=
          afterFail_lostDrained hl hasks
        exact completes_passes hex rfl rfl rfl ((keeps_refillS _ 64 _).lostDrained hdrained) (passes_refillS _ _ 64 _)

end Sys2Proof.Machine.HoldsAndExpiry
end

section
/-! PROOFS. The mode and the calendar change by their own commands alone (O8). -/

namespace Sys2Proof.Machine.RetentionCalendar

open Sys2Proof
open Sys2Proof.Machine.FingerprintIndex

variable {s t : State} {c : Instr}

/-! ## The mode -/

/-- The device mode that a step leaves. -/
def modeAfter : Step → Option Mode
  | .next t => some t.ctl.mode
  | _ => none

/-- Every command but a cold reset and SET MODE leaves the device mode; the commands stand by how many choices their meanings
make before the state that they end with. -/
theorem modeAfter_exec (hcold : c ≠ .coldReset) (hmode : ∀ port, c ≠ .setMode port) :
    modeAfter (exec c s) = some s.ctl.mode := by
  cases c with
  | coldReset => exact absurd rfl hcold
  | setMode port => exact absurd rfl (hmode port)
  | openParcel | dataParcel | closeParcel | abortParcel | mgmtParcel | storeAnswer | passThroughFrame | fcsErrorFrame
  | malformedFrame | wrongDirectionFrame | gapTick | secondsTick => rfl
  | reservedPageClearingComplete | sPortCarrierDown | sPortCarrierUp | lossTimerExpiry | iPortCarrierDown | iPortCarrierUp
  | refBatchTimerExpiry | sPortTransmitDone | iPortTransmitDone | bankCopyComplete | warmResetComplete =>
    simp only [exec, execReservedPageClearingComplete, execSPortCarrierDown, execSPortCarrierUp, execLossTimerExpiry,
      execIPortCarrierDown, execIPortCarrierUp, execRefBatchTimerExpiry, execSPortTransmitDone, execIPortTransmitDone,
      execBankCopyComplete, execWarmResetComplete]
    split <;> rfl
  | identify | readStatus | clearFlags | readCounters | setGeometry | mapGroup | unmapGroup | setExclusion | loadTable
  | readTable | swapBanks | setHold | setContainerBase | sealContainers | readEntry | readStream | forceEnd
  | setManagementSources | warmReset =>
    simp only [exec, execIdentify, execReadStatus, execClearFlags, execReadCounters, execSetGeometry, execMapGroup,
      execUnmapGroup, execSetExclusion, execLoadTable, execReadTable, execSwapBanks, execSetHold, execSetContainerBase,
      execSealContainers, execReadEntry, execReadStream, execForceEnd, execSetManagementSources, execWarmReset]
    split <;> rfl
  | warmUpExpiry | hotListLoadComplete | hotListRewriteComplete | lingerExpiry | lookupResult | placementRequest
  | chunkFailAtBucket | releaseOutcomeAtBucket =>
    simp only [exec, execWarmUpExpiry, execHotListLoadComplete, execHotListRewriteComplete, execLingerExpiry,
      execLookupResult, execPlacementRequest, execChunkFailAtBucket, execReleaseOutcomeAtBucket]
    split <;> rfl
  | setSettings | setDate | nudge | retire | sweepNow | restoreEntries =>
    simp only [exec, execSetSettings, execSetDate, execNudge, execRetire, execSweepNow, execRestoreEntries]
    split
    · split <;> rfl
    · rfl
  | takeByte | digestComplete | lookup | tagGrant | answerTimerExpiry | resendDue | groupInitialisationComplete
  | sweeperVisit =>
    simp only [exec, execTakeByte, execDigestComplete, execLookup, execTagGrant, execAnswerTimerExpiry, execResendDue,
      execGroupInitialisationComplete, execSweeperVisit]
    split
    · split <;> rfl
    · rfl
  | retireItem | restoreItem | chunkAcceptAtBucket =>
    simp only [exec, execRetireItem, execRestoreItem, execChunkAcceptAtBucket]
    split
    · split
      · split <;> rfl
      · rfl
    · rfl

/-! ## The calendar -/

/-- What a command makes of the registers leaves the calendar, but for the tick, SET DATE and NUDGE. -/
theorem registerChange_calendar {d : Control} (h : RegisterChange s c d) (hd : d.calendar ≠ s.ctl.calendar) :
    c = .secondsTick ∨ (∃ port, c = .setDate port) ∨ ∃ port, c = .nudge port := by
  cases h with
  | settings | loaded | swapped | copied | held | sourced => exact absurd rfl hd
  | ticked => exact .inl rfl
  | dated port => exact .inr (.inl ⟨port, rfl⟩)
  | nudged port => exact .inr (.inr ⟨port, rfl⟩)

theorem effect_calendar (h : Effect s c t) (ht : t.ctl.calendar ≠ s.ctl.calendar) :
    c = .coldReset ∨ c = .secondsTick ∨ (∃ port, c = .setDate port) ∨ ∃ port, c = .nudge port := by
  cases h with
  | quiet c t _ hr => exact absurd hr.calendar ht
  | index c t _ hr => exact absurd hr.calendar ht
  | arrives c t r _ _ hr => exact absurd hr.calendar ht
  | registers c t hr => exact .inr (registerChange_calendar hr ht)
  | cold => exact .inl rfl

/-- Settles O8: the mode by what every command leaves of it, the calendar by what every command does to the registers. -/
theorem modeAndCalendarChangeOnlyByTheirCommands : Obligations.ModeAndCalendarChangeOnlyByTheirCommands := by
  intro c s t h
  refine ⟨fun hm => ?_, effect_calendar (exec_effect h)⟩
  by_contra hc
  obtain ⟨hcold, hset⟩ := not_or.1 hc
  have hkept := modeAfter_exec (s := s) hcold (not_exists.1 hset)
  rw [h] at hkept
  exact hm (Option.some.inj hkept)

end Sys2Proof.Machine.RetentionCalendar
end

section
/-! PROOFS. What a rollover, a tick, a SET DATE and a NUDGE make of the calendar (O36, O37, O38). -/

namespace Sys2Proof.Machine.RetentionCalendar

open Sys2Proof
open Sys2Proof.Machine.FingerprintIndex (calendar_legal_iff rollover_legal dateBad_iff)
open Sys2Proof.Machine.ParcelOrder (lostDrained_of_link)
open Sys2Proof.Machine.HoldsAndExpiry (startSweep_idle startSweep_running sweepOn_link_state)

/-! ## Rollovers (R129 to R131) -/

section rollovers

variable {c : Calendar}

theorem seconds_le (h : c.legal = true) : c.seconds ≤ 86399 := by
  obtain ⟨-, -, -, -, -, hs, -⟩ := calendar_legal_iff.1 h
  exact hs

theorem monthLength_eq (year month : Nat) : monthLength year month =
    if month = 2 then (if year % 4 = 0 then 29 else 28) else if month ∈ [4, 6, 9, 11] then 30 else 31 := by
  simp only [monthLength, List.mem_cons, List.not_mem_nil, or_false]

theorem rollover_within_month (h : c.day < monthLength c.year c.month) :
    c.rollover = { c with day := c.day + 1, dayNumber := min 65535 (c.dayNumber + 1) } := if_pos h

theorem rollover_next_month (h : monthLength c.year c.month ≤ c.day) (hm : c.month < 12) :
    c.rollover = { c with day := 1, month := c.month + 1, dayNumber := min 65535 (c.dayNumber + 1) } :=
  (if_neg h.not_gt).trans (if_pos hm)

theorem rollover_next_year (h : monthLength c.year c.month ≤ c.day) (hm : 12 ≤ c.month) : c.rollover =
    { c with day := 1, month := 1, year := (c.year + 1) % 100, dayNumber := min 65535 (c.dayNumber + 1) } :=
  (if_neg h.not_gt).trans (if_neg hm.not_gt)

/-- A rollover moves the day number, and neither the seconds nor whether the calendar is SET. -/
theorem rollover_frame (c : Calendar) :
    c.rollover.dayNumber = min 65535 (c.dayNumber + 1) ∧ c.rollover.seconds = c.seconds ∧ c.rollover.isSet = c.isSet := by
  unfold Calendar.rollover
  dsimp only
  split
  · exact ⟨rfl, rfl, rfl⟩
  · split <;> exact ⟨rfl, rfl, rfl⟩

/-- Settles O38: the date within its month, at the end of a month, and at the end of a year. -/
theorem rolloverAdvancesTheDate : Obligations.RolloverAdvancesTheDate := by
  intro c hc
  dsimp only
  rw [← monthLength_eq c.year c.month]
  obtain ⟨hday, hsec, hset⟩ := rollover_frame c
  refine ⟨hday, hsec, hset, rollover_legal hc (seconds_le hc), fun h => ?_, fun h => ⟨?_, fun hm => ?_, fun hm => ?_⟩⟩
  · simp only [rollover_within_month h, and_self]
  · rcases Nat.lt_or_ge c.month 12 with hm | hm
    · rw [rollover_next_month h hm]
    · rw [rollover_next_year h hm]
  · simp only [rollover_next_month h hm, and_self]
  · simp only [rollover_next_year h hm.ge, and_self]

end rollovers

/-! ## Ticks (R127, R128) -/

section ticks

variable {c : Calendar}

theorem tick_unset (h : c.isSet = false) : c.tick = (c, false) := by simp [Calendar.tick, h]

theorem tick_within_day (h : c.isSet = true) (hs : c.seconds ≠ 86399) :
    c.tick = ({ c with seconds := c.seconds + 1 }, false) := by
  have : c.seconds + 1 ≠ 86400 := by omega
  simp [Calendar.tick, h, this]

theorem tick_end_of_day (h : c.isSet = true) (hs : c.seconds = 86399) :
    c.tick = (Calendar.rollover { c with seconds := 0 }, true) := by simp [Calendar.tick, h, hs]

end ticks

/-- A sweep start leaves the link's state, so on a link that is not LOST no request is left to fail. -/
theorem startSweep_lostDrained {p : Path} (x : Index) (h : p.link.state ≠ .lost) : (p.startSweep x).lostDrained := by
  refine fun hlost => absurd hlost ?_
  by_cases hi : p.sweeper.pass = .idle
  · rwa [startSweep_idle hi, sweepOn_link_state]
  · rwa [startSweep_running hi]

theorem exec_secondsTick {s : State} {cal : Calendar} {rolled : Bool} (h : s.ctl.calendar.tick = (cal, rolled)) :
    exec .secondsTick s = .next (State.finish { s with
      ctl := { s.ctl with now := max s.ctl.now s.ctl.divider, divider := s.ctl.divider + 25000000, calendar := cal }
      path := s.path.startIf s.idx rolled }) := by
  show execSecondsTick s = _
  simp only [execSecondsTick, h]
  rfl

/-- Settles O37: an UNSET calendar, a tick within the day, and the tick at the day's end. -/
theorem theCalendarTicks : Obligations.TheCalendarTicks := by
  intro s cal later
  refine ⟨fun hset hl => ?_, fun hset hl hs => ?_, fun hset hlost hs => ?_⟩
  · have hex := exec_secondsTick (tick_unset hset)
    exact completes_finish hex rfl hl
  · have hex := exec_secondsTick (tick_within_day hset hs)
    exact completes_finish hex rfl hl
  · have hex := exec_secondsTick (tick_end_of_day hset hs)
    exact completes_finish hex rfl (startSweep_lostDrained s.idx hlost)

/-! ## SET DATE (R132, R133) -/

section requests

variable {s : State} {port : Port} {n : Nat} {src : Mac}

theorem exec_setDate {year month day seconds dayNumber : Nat}
    (h : s.headRequest port = some ⟨n, src, .setDate year month day seconds dayNumber⟩) :
    exec (.setDate port) s = .next (if dateBad year month day seconds
      then (s.answer port ⟨n, src, .setDate year month day seconds dayNumber⟩ (.refuse .badValue)).finish
      else (State.answer { s with
        ctl := { s.ctl with calendar := ⟨year, month, day, seconds, dayNumber, true⟩, divider := s.ctl.now + 25000000 }
        path := { s.path with flags := s.path.flags &&& ~~~0x0080 } } port
        ⟨n, src, .setDate year month day seconds dayNumber⟩
        (.done (.calendar ⟨year, month, day, seconds, dayNumber, true⟩))).finish) := by
  show execSetDate port s = _
  simp only [execSetDate, h]
  rfl

/-! ## NUDGE (R134, R135) -/

theorem exec_nudge {amount : Int} (h : s.headRequest port = some ⟨n, src, .nudge amount⟩) :
    exec (.nudge port) s = .next (if s.ctl.calendar.isSet
      then (State.answer { s with
          ctl := { s.ctl with calendar := (s.ctl.calendar.nudge (nudgeAmount amount)).1 }
          path := s.path.startIf s.idx (s.ctl.calendar.nudge (nudgeAmount amount)).2 } port
        ⟨n, src, .nudge amount⟩
        { status := if nudgeAmount amount = amount then .done else .doneAdjusted
          result := .nudged (nudgeAmount amount) (s.ctl.calendar.nudge (nudgeAmount amount)).1 }).finish
      else (s.answer port ⟨n, src, .nudge amount⟩ (.refuseWith .wrongMode (.nudged 0 s.ctl.calendar))).finish) := by
  show execNudge port s = _
  simp only [execNudge, h]

/-- Within the day, or down to its first second, a NUDGE moves the seconds alone: the conversion stops at 0. -/
theorem nudge_within_day {c : Calendar} {a : Int} (h : c.seconds + a < 86400) :
    c.nudge a = ({ c with seconds := (c.seconds + a).toNat }, false) := by
  unfold Calendar.nudge
  dsimp only
  split
  · have hsum : (c.seconds + a).toNat = c.seconds + a.toNat := by omega
    rw [if_neg (by omega), hsum]
  · have hdiff : (c.seconds + a).toNat = c.seconds - (-a).toNat := by omega
    rw [hdiff]

/-- Past the day's end a NUDGE rolls the date over; only an amount upwards comes there. -/
theorem nudge_past_day {c : Calendar} {a : Int} (hs : c.seconds ≤ 86399) (h : 86400 ≤ c.seconds + a) :
    c.nudge a = (Calendar.rollover { c with seconds := (c.seconds + a).toNat - 86400 }, true) := by
  have hsum : (c.seconds + a).toNat = c.seconds + a.toNat := by omega
  unfold Calendar.nudge
  rw [if_pos (by omega), hsum]
  exact if_pos (by omega)

/-- Settles O36: SET DATE by the check of its values, NUDGE by whether the calendar is SET and whether the seconds pass the
day's end. -/
theorem theCalendarIsSetAndNudged : Obligations.TheCalendarIsSetAndNudged := by
  intro s port n src cal
  refine ⟨?_, ?_⟩
  · intro year month day seconds dayNumber r good given hr hl
    have hex := exec_setDate hr
    refine ⟨fun hgood => ?_, fun hbad => ?_⟩
    · rw [if_neg (Bool.eq_false_iff.1 (dateBad_iff.2 hgood))] at hex
      exact replies_finish hex rfl (lostDrained_of_link hl rfl)
    · rw [if_pos (eq_true_of_ne_false (mt dateBad_iff.1 hbad))] at hex
      exact replies_finish hex rfl hl
  · intro amount clamped r answer moved rolled hr hlegal hclamped
    obtain rfl : clamped = nudgeAmount amount := hclamped
    have hex := exec_nudge hr
    refine ⟨fun hunset hl => ?_, fun hset hl hday => ?_, fun hset hlost hday => ?_⟩
    · rw [if_neg (Bool.eq_false_iff.1 hunset)] at hex
      exact replies_finish hex rfl hl
    · rw [if_pos hset, nudge_within_day hday] at hex
      exact replies_finish hex rfl hl
    · rw [if_pos hset, nudge_past_day (seconds_le hlegal) hday] at hex
      exact replies_finish hex rfl (startSweep_lostDrained s.idx hlost)

end requests

end Sys2Proof.Machine.RetentionCalendar
end

section
/-! PROOFS. Requests for tags on a LOST link after a step, and the state after a cold reset (O2, O11). -/

namespace Sys2Proof.Machine.StoreLinkLoss

open Sys2Proof

/-! ## Steps (R161) -/

/-- A cold reset leaves the link UP or DOWN. -/
theorem coldReset_lostDrained (s : State) : s.coldReset.path.lostDrained := by
  unfold Path.lostDrained State.coldReset coldLink
  cases s.path.sPort.carrier <;> exact nofun

/-- No command leaves a request for a tag waiting on a LOST link: one that changes anything is a cold reset, or ends as every
command does. -/
theorem exec_lostDrained {c : Instr} {s t : State} (hs : s.path.lostDrained) (h : exec c s = .next t) :
    t.path.lostDrained := by
  have shape := exec_shape c s
  rw [h] at shape
  cases shape with
  | same => exact hs
  | cold => exact coldReset_lostDrained s
  | finish u _ => exact finish_lostDrained u.path u.ctl u.idx

/-- Settles O2: the front command keeps it by `exec_lostDrained`, and an idle period leaves the data path alone. -/
theorem lostLinkHoldsNoRequest : Obligations.LostLinkHoldsNoRequest := by
  intro s t hs h
  unfold step at h
  cases hp : s.pending with
  | nil =>
    rw [hp] at h
    cases h
    exact hs
  | cons c rest =>
    rw [hp] at h
    exact exec_lostDrained (s := { s with pending := rest }) hs h

/-! ## The cold reset (R161, R192) -/

/-- Settles O11: the state of a cold reset, its link by the carrier. -/
theorem coldResetClearsThePart : Obligations.ColdResetClearsThePart := by
  intro s
  refine ⟨s.coldReset, rfl, rfl, rfl, rfl, rfl, rfl, rfl, rfl, rfl, rfl, fun hup => ?_, fun hdown => ?_⟩
  · exact if_pos hup
  · exact if_neg (Bool.eq_false_iff.1 hdown)

end Sys2Proof.Machine.StoreLinkLoss
end

section
/-! PROOFS. SET CONTAINER BASE and SEAL CONTAINERS (O45). -/

namespace Sys2Proof.Machine.StoreLinkLoss

open Sys2Proof
open Sys2Proof.Machine.ParcelOrder (lostDrained_of_link)

variable {s : State} {port : Port} {n : Nat} {src : Mac}

/-! ## The base (R139) -/

theorem exec_setContainerBase {base : Nat} (h : s.headRequest port = some ⟨n, src, .setContainerBase base⟩) :
    exec (.setContainerBase port) s =
      .next (((s.withPath { s.path with alloc := (setBaseAnswer s.path.alloc base).1 }).answer port
        ⟨n, src, .setContainerBase base⟩ (setBaseAnswer s.path.alloc base).2).finish) := by
  show execSetContainerBase port s = _
  simp only [execSetContainerBase, h]

theorem setBaseAnswer_held {a : Alloc} (base : Nat) (h : a.slots ≠ [] ∨ a.sealing ≠ []) :
    setBaseAnswer a base = (a, .refuseWith .inUse (.nextId a.nextId)) := if_pos h

theorem setBaseAnswer_empty {a : Alloc} (base : Nat) (hs : a.slots = []) (hl : a.sealing = []) :
    setBaseAnswer a base = ({ a with nextId := .id base }, .done (.nextId (.id base))) :=
  if_neg fun h => h.elim (fun h => h hs) fun h => h hl

/-! ## The SEALs (R145, R146) -/

theorem exec_sealContainers (h : s.headRequest port = some ⟨n, src, .sealContainers⟩) :
    exec (.sealContainers port) s =
      .next (((s.withPath (Path.askSeals { s.path with alloc := s.path.alloc.sealAll.1 } s.path.alloc.sealAll.2.1)).answer
        port ⟨n, src, .sealContainers⟩ (.done (.containers s.path.alloc.sealAll.2.2))).finish) := by
  show execSealContainers port s = _
  simp only [execSealContainers, h]

/-- A container can make its SEAL: no placement is pending, and none has been made (R145). -/
def sealReady (b : Container) : Bool := decide (b.pending = 0) && !b.sealIssued

/-- A container that can make its SEAL makes it, and any other stays as it is. -/
theorem trySeal_eq (b : Container) : b.trySeal =
    ({ b with sealIssued := b.sealIssued || sealReady b }, if sealReady b then some b.sealRec else none) := by
  unfold Container.trySeal sealReady
  by_cases h : b.pending = 0 ∧ b.sealIssued = false
  · simp [h]
  · rw [if_neg h]
    have hr : (decide (b.pending = 0) && !b.sealIssued) = false := by simpa using h
    rw [hr]
    simp

/-- A slot after SEAL CONTAINERS: one that was OPEN is SEALING, and has made its SEAL if it can. -/
def slotSealed (sl : Slot) : Slot :=
  if sl.sealing then sl
  else { sl with sealing := true, box := { sl.box with sealIssued := sl.box.sealIssued || sealReady sl.box } }

/-- The containers that SEAL CONTAINERS finds OPEN. -/
def openSlots (a : Alloc) : Tab Slot := a.slots.filter fun cs => !cs.2.sealing

theorem sealAll_slots (a : Alloc) :
    a.sealAll.1 = { a with slots := a.slots.map fun cs => (cs.1, slotSealed cs.2) } := by
  simp only [Alloc.sealAll, List.map_map, Alloc.mk.injEq, and_true]
  refine List.map_congr_left fun cs _ => ?_
  simp only [Function.comp, slotSealed, trySeal_eq]
  split <;> rfl

theorem sealAll_made (a : Alloc) :
    a.sealAll.2.1 = ((openSlots a).filter fun cs => sealReady cs.2.box).map fun cs => cs.2.box.sealRec := by
  simp only [Alloc.sealAll, openSlots]
  induction a.slots with
  | nil => rfl
  | cons cs rest ih =>
    by_cases hs : cs.2.sealing = true
    · simpa [hs] using ih
    · by_cases hr : sealReady cs.2.box = true
      · simpa [hs, hr, trySeal_eq] using ih
      · simpa [hs, hr, trySeal_eq] using ih

theorem sealAll_ids (a : Alloc) : a.sealAll.2.2 = (openSlots a).map fun cs => cs.2.box.id := by
  simp only [Alloc.sealAll, openSlots, Bool.decide_eq_false]

/-- Settles O45: the base by whether a container is held, the SEALs by what becomes of each slot. -/
theorem containersAreBasedAndSealed : Obligations.ContainersAreBasedAndSealed := by
  intro s port n src a ready slots opened made
  refine ⟨fun base hr hl => ⟨fun hheld => ?_, fun hs hseal => ?_⟩, fun hr hlost => ?_⟩
  · have hex := exec_setContainerBase hr
    rw [setBaseAnswer_held base hheld] at hex
    exact replies_finish hex rfl hl
  · have hex := exec_setContainerBase hr
    rw [setBaseAnswer_empty base hs hseal] at hex
    exact replies_finish hex rfl (lostDrained_of_link hl rfl)
  · have hex := exec_sealContainers hr
    rw [askSeals_eq, sealAll_slots, sealAll_made, sealAll_ids, List.map_map] at hex
    exact replies_finish hex rfl fun h => absurd h hlost

end Sys2Proof.Machine.StoreLinkLoss
end

section
/-! PROOFS. The S-port carrier going down (O13). -/

namespace Sys2Proof.Machine.StoreLinkLoss

open Sys2Proof
open Sys2Proof.Machine.HoldsAndExpiry (ApartFromSide)
open Sys2Proof.Machine.ParcelOrder (frames_of_sending)

variable {s : State} {x : SItem} {tag serial : Nat} {made : List (List Byte)}

/-! ## The item being sent (R163, R169) -/

/-- The frames of an item that is sending no store message are its own alone. -/
theorem frames_of_not_sending (h : x.sending = none) (p q : Path) (g : Settings) : x.frames q g = x.frames p g := by
  cases x with
  | message tag serial => cases h
  | frame bytes => rfl
  | reply r => rfl
  | part made sent =>
    cases sent with
    | none => rfl
    | some sent => cases h

theorem fixed_of_not_sending (p : Path) (c : Control) (goesOn : Bool) (h : x.sending = none) : x.fixed p c goesOn = x := by
  unfold SItem.fixed
  rw [h]

theorem fixed_of_sending (p : Path) (c : Control) (h : x.sending = some (tag, serial, made)) :
    x.fixed p c false = .part (p.begun c tag serial made) none := by
  unfold SItem.fixed
  rw [h]
  rfl

/-- An item that goes no further sends no store message. -/
theorem fixed_sending (p : Path) (c : Control) (x : SItem) : (x.fixed p c false).sending = none := by
  rcases h : x.sending with _ | ⟨tag, serial, made⟩
  · rw [fixed_of_not_sending p c false h, h]
  · rw [fixed_of_sending p c h]
    rfl

/-- The first of the frames of a message being sent has begun. -/
theorem begun_head? (p : Path) (c : Control) (tag serial : Nat) (made : List (List Byte)) :
    (p.begun c tag serial made).head? =
      (made ++ (p.messageFrames c.tables.settings tag serial).drop made.length).head? := by
  cases made with
  | cons b rest => rfl
  | nil =>
    unfold Path.begun
    cases p.messageFrames c.tables.settings tag serial with
    | nil => simp
    | cons b rest => simp [Nat.add_comm 1]

/-- What goes no further of an item being sent is the first of its frames, with the very first among them. -/
theorem frames_fixed (p q : Path) (c : Control) (x : SItem) :
    (x.fixed p c false).frames q c.tables.settings <+: x.frames p c.tables.settings ∧
      ((x.fixed p c false).frames q c.tables.settings).head? = (x.frames p c.tables.settings).head? := by
  rcases h : x.sending with _ | ⟨tag, serial, made⟩
  · rw [fixed_of_not_sending p c false h, frames_of_not_sending h p q]
    exact ⟨List.prefix_rfl, rfl⟩
  · refine ⟨frames_fixed_prefix p q c _ x h, ?_⟩
    rw [fixed_of_sending p c h, frames_of_sending h]
    exact begun_head? p c tag serial made

/-! ## The loss of the carrier (R159, R169) -/

/-- The data path as the carrier goes down, before held items take the places that messages leave in SIDE: the link is DOWN
with its loss timer running, every message SUSPENDED and out of its queue, and the item being sent goes no further than its
frame in progress. -/
def carrierLost (p : Path) (c : Control) : Path :=
  Path.bump { p with
    link := { p.link with
      inflight := p.link.inflight.map fun m => { m with phase := .suspended }
      state := .down, lossTimer := some (c.now + 125000000) }
    sPort := { p.sPort with
      carrier := false, tx := p.sPort.tx.map fun x => x.fixed p c false
      resend := [], chunkQ := [], refQ := []
      fifo := p.sPort.fifo.filter fun x => !x.2.isMessage
      hold := p.sPort.hold.filter fun x => !x.isMessage } } .linkLosses 1

/-- The loss is counted before or after held items take their places. -/
theorem sCarrierDown_eq (p : Path) (c : Control) : p.sCarrierDown c = Path.refillS c.now 64 (carrierLost p c) := by
  have counted : ApartFromSide fun p => p.bump .linkLosses 1 := fun _ _ => rfl
  exact counted.refillS c.now 64 _

theorem exec_sPortCarrierDown (h : s.path.sPort.carrier = true) :
    exec .sPortCarrierDown s =
      .next (s.withPath (Path.refillS s.ctl.now 64 (carrierLost s.path s.ctl))).finish := by
  show execSPortCarrierDown s = _
  unfold execSPortCarrierDown
  rw [if_pos h, sCarrierDown_eq]

/-- A link whose carrier is down is not LOST, and no request for a tag has failed. -/
theorem carrierLost_lostDrained (p : Path) (c : Control) : (carrierLost p c).lostDrained := fun hlost => by cases hlost

/-- Without its carrier the S-port goes on sending the item that goes no further than its frame in progress. -/
theorem carrierDown_tx (h : s.path.sPort.tx = some x) :
    (s.withPath (Path.refillS s.ctl.now 64 (carrierLost s.path s.ctl))).finish.path.sPort.tx =
      some (x.fixed s.path s.ctl false) := by
  have places := keeps_refillS s.ctl.now 64 (carrierLost s.path s.ctl)
  have ends := places.trans (keeps_finish s.ctl s.idx (places.lostDrained (carrierLost_lostDrained s.path s.ctl)))
  calc _ = (carrierLost s.path s.ctl).sPort.tx := ends.sTx (.inr rfl)
    _ = some (x.fixed s.path s.ctl false) := congrArg (Option.map _) h

/-- Settles O13: held items take the places that the messages leave, and the item being sent is what goes no further. -/
theorem sCarrierDown : Obligations.SCarrierDown := by
  intro s hup l port
  have hex := exec_sPortCarrierDown hup
  refine ⟨?_, fun x hx => ⟨_, _, hex, carrierDown_tx hx, fixed_sending .., fixed_of_not_sending _ _ _, ?_⟩⟩
  · exact completes_passes hex rfl rfl rfl
      ((keeps_refillS _ 64 _).lostDrained (carrierLost_lostDrained s.path s.ctl)) (passes_refillS _ _ 64 _)
  · unfold State.sLanes
    rw [carrierDown_tx hx, hx]
    exact frames_fixed ..

end Sys2Proof.Machine.StoreLinkLoss
end

section
/-! PROOFS. What the failure of a store message changes: requests for tags join those that wait, flags are set, outcomes are
added, no container comes, and each context it names is told STORE_LOST. -/

namespace Sys2Proof.Machine.StoreLinkLoss

open Sys2Proof

variable {p q r : Path} {c : Control}

/-! ## Flags (R194) -/

theorem flagSet_iff (f : Flag) : p.flagSet f = true ↔ p.flags &&& f.bit ≠ 0 := decide_eq_true_iff

theorem setFlag_keeps (f : Flag) {g : Flag} (h : p.flagSet g = true) : (p.setFlag f).flagSet g = true := by
  rw [flagSet_iff] at h ⊢
  intro h0
  have hor : (p.flags &&& g.bit) ||| (f.bit &&& g.bit) = 0 := by rw [← BitVec.and_or_distrib_right]; exact h0
  exact h (BitVec.or_eq_zero_iff.1 hor).1

theorem setFlag_sets (f : Flag) : (p.setFlag f).flagSet f = true := by
  rw [flagSet_iff]
  intro h0
  have hor : (p.flags &&& f.bit) ||| (f.bit &&& f.bit) = 0 := by rw [← BitVec.and_or_distrib_right]; exact h0
  have hbit := (BitVec.or_eq_zero_iff.1 hor).2
  cases f <;> exact absurd hbit (by decide)

/-! ## What a failure adds -/

/-- From one data path to another no flag is cleared, no outcome on its way is lost, and no container comes. -/
structure Grows (p q : Path) : Prop where
  flags : ∀ f, p.flagSet f = true → q.flagSet f = true
  chunkOps : p.chunkOps ⊆ q.chunkOps
  releaseOps : p.releaseOps ⊆ q.releaseOps
  ids : q.alloc.ids ⊆ p.alloc.ids

/-- Besides, all that changes at the store link is that requests for tags join those that wait. -/
structure Losing (p q : Path) : Prop extends Grows p q where
  link : ∃ more, q.link = { p.link with waiting := p.link.waiting ++ more }

theorem Grows.refl (p : Path) : Grows p p := ⟨fun _ h => h, fun _ h => h, fun _ h => h, fun _ h => h⟩

theorem Grows.trans (a : Grows p q) (b : Grows q r) : Grows p r :=
  ⟨fun f h => b.flags f (a.flags f h), fun _ h => b.chunkOps (a.chunkOps h), fun _ h => b.releaseOps (a.releaseOps h),
    fun _ h => a.ids (b.ids h)⟩

/-- Data paths with the same flags, outcomes and containers. -/
theorem Grows.of_eq (hf : q.flags = p.flags) (hc : q.chunkOps = p.chunkOps) (hr : q.releaseOps = p.releaseOps)
    (ha : q.alloc = p.alloc) : Grows p q := by
  refine ⟨fun f h => ?_, ?_, ?_, ?_⟩
  · rw [flagSet_iff] at h ⊢
    rwa [hf]
  all_goals simp only [hc, hr, ha, List.Subset.refl]

theorem Losing.refl (p : Path) : Losing p p := ⟨.refl p, [], by rw [List.append_nil]⟩

theorem Losing.trans (a : Losing p q) (b : Losing q r) : Losing p r := by
  obtain ⟨first, ha⟩ := a.link
  obtain ⟨more, hb⟩ := b.link
  exact ⟨a.toGrows.trans b.toGrows, first ++ more, by rw [hb, ha, List.append_assoc]⟩

/-- An operation that leaves flags, outcomes, containers and the link alone. -/
theorem Losing.of_eq (hl : q.link = p.link := by rfl) (hf : q.flags = p.flags := by rfl)
    (hc : q.chunkOps = p.chunkOps := by rfl) (hr : q.releaseOps = p.releaseOps := by rfl)
    (ha : q.alloc = p.alloc := by rfl) : Losing p q :=
  ⟨.of_eq hf hc hr ha, [], by rw [hl, List.append_nil]⟩

theorem Losing.foldl {α : Type} {f : Path → α → Path} (h : ∀ p a, Losing p (f p a)) (l : List α) (p : Path) :
    Losing p (l.foldl f p) := by
  induction l generalizing p with
  | nil => exact .refl p
  | cons a l ih => exact (h p a).trans (ih _)

theorem setFlag_losing (p : Path) (f : Flag) : Losing p (p.setFlag f) :=
  ⟨⟨fun _ h => setFlag_keeps f h, fun _ h => h, fun _ h => h, fun _ h => h⟩, [], by rw [List.append_nil]; rfl⟩

theorem batchClosed_losing (p : Path) : Losing p p.batchClosed := ⟨.of_eq rfl rfl rfl rfl, _, rfl⟩

theorem sendNotice_losing (p : Path) (n : Notice) : Losing p (p.sendNotice n) := by
  unfold Path.sendNotice
  split
  · exact .of_eq
  · split <;> exact .of_eq

theorem endStream_losing (p : Path) (c : Control) (slot : Nat) (x : Context) (cls : EndClass) (cause : Option Cause) :
    Losing p (p.endStream c slot x cls cause) := by
  rw [endStream_eq_ends p c slot x (cls, cause)]
  exact (sendNotice_losing p _).trans .of_eq

theorem closeBatch_losing (p : Path) : Losing p p.closeBatch := by
  by_cases h : p.batch.items = []
  · unfold Path.closeBatch
    rw [h]
    exact .refl p
  · rw [closeBatch_eq_batchClosed h]
    exact batchClosed_losing p

theorem endRecords_losing (p : Path) (slot : Nat) : Losing p (p.endRecords slot) := by
  have marked : Losing p { p with eor := slot :: p.eor } := .of_eq
  unfold Path.endRecords
  split
  · split
    · dsimp only
      split
      exacts [marked.trans (closeBatch_losing _), marked]
    · exact .refl p
  · exact .refl p

theorem endsIfDone_losing (p : Path) (c : Control) (slot : Nat) : Losing p (p.endsIfDone c slot) := by
  rw [← check_eq_endsIfDone]
  unfold Path.check Path.endWork
  refine (endRecords_losing p slot).trans ?_
  split
  · split
    · exact endStream_losing ..
    · split
      exacts [endStream_losing .., .refl _]
  · exact .refl _

theorem chunkSettled_losing (p : Path) (slot ordinal : Nat) : Losing p (p.chunkSettled slot ordinal) := by
  unfold Path.chunkSettled
  cases tabGet p.contexts slot with
  | none => exact .refl p
  | some x =>
    dsimp only
    split <;> exact .of_eq

theorem storeLost_losing (p : Path) (slot offset ordinal : Nat) : Losing p (p.storeLost slot offset ordinal) := by
  unfold Path.storeLost Path.quiesce
  cases tabGet p.contexts slot with
  | none => exact .refl p
  | some x =>
    dsimp only
    split
    exacts [.of_eq, .refl p]

theorem recordAnswered_losing (p : Path) (slot : Nat) : Losing p (p.recordAnswered slot) := by
  unfold Path.recordAnswered
  cases tabGet p.contexts slot with
  | none => exact .refl p
  | some x => exact .of_eq

@[simp] theorem seals_id (b : Container) : b.seals.1.id = b.id := by
  unfold Container.seals
  split <;> rfl

theorem mem_ids {a : Alloc} {id : Nat} :
    id ∈ a.ids ↔ (∃ cs ∈ a.slots, cs.2.box.id = id) ∨ ∃ b ∈ a.sealing, b.id = id := by
  simp only [Alloc.ids, List.mem_append, List.mem_map]

/-- The answer to a CHUNK message leaves every container its id. -/
theorem placementAnswered_losing (p : Path) (m : ChunkRec) (failed : Bool) : Losing p (p.placementAnswered m failed) := by
  refine ⟨⟨fun _ h => h, fun _ h => h, fun _ h => h, ?_⟩, _, rfl⟩
  have hids : (p.placementAnswered m failed).alloc.ids = p.alloc.ids := by
    unfold Path.placementAnswered Alloc.ids
    simp only [List.map_map]
    congr 1
    · refine List.map_congr_left fun cs _ => ?_
      simp only [Function.comp]
      split
      · rfl
      · split
        exacts [seals_id _, rfl]
    · refine List.map_congr_left fun b _ => ?_
      simp only [Function.comp]
      split
      exacts [rfl, seals_id _]
  rw [hids]
  exact List.Subset.refl _

theorem outcomeSent_losing (p : Path) (m : ChunkRec) (accepted : Bool) : Losing p (p.outcomeSent m accepted) :=
  ⟨⟨fun _ h => h, fun _ h => List.mem_append_left _ h, fun _ h => h, fun _ h => h⟩, [], by rw [List.append_nil]; rfl⟩

theorem containerGone_losing (p : Path) (id : Nat) : Losing p (p.containerGone id) := by
  refine ⟨⟨fun _ h => h, fun _ h => h, fun _ h => h, fun k hk => ?_⟩, [], by rw [List.append_nil]; rfl⟩
  rw [mem_ids] at hk ⊢
  exact hk.imp (fun ⟨cs, hcs, h⟩ => ⟨cs, List.mem_of_mem_filter hcs, h⟩) fun ⟨b, hb, h⟩ => ⟨b, List.mem_of_mem_filter hb, h⟩

/-- The failure of a store message asks for tags, sets flags and adds outcomes, and does no more to the link (R155 to
R158). -/
theorem afterFail_losing (p : Path) (c : Control) (m : Content) : Losing p (p.afterFail c m) := by
  rcases m with r | items | r | items
  · have settled := (placementAnswered_losing p r true).trans (chunkSettled_losing _ r.slot r.ordinal)
    have told := (settled.trans (storeLost_losing _ r.slot r.streamOffset r.ordinal)).trans (outcomeSent_losing _ r false)
    have counted {q : Path} : Losing q (q.bump .chunksFailed 1) := .of_eq
    exact (told.trans counted).trans (endsIfDone_losing ..)
  · have answered : Losing p (items.foldl (fun q i => q.recordAnswered i.slot) p) :=
      .foldl (fun q i => recordAnswered_losing q i.slot) items p
    have told (q : Path) : Losing q ((refSlots items).foldl (fun q n => match lowestRef items n with
        | some i => q.storeLost n i.streamOffset i.ordinal
        | none => q) q) := by
      refine .foldl (fun q n => ?_) _ q
      cases lowestRef items n with
      | none => exact .refl q
      | some i => exact storeLost_losing ..
    have counted {q : Path} : Losing q (q.bump .refBatchesFailed 1) := .of_eq
    exact ((answered.trans (told _)).trans counted).trans (.foldl (fun q n => endsIfDone_losing q c n) _ _)
  · have counted {q : Path} : Losing q (q.bump .sealsFailed 1) := .of_eq
    exact ((containerGone_losing p r.container).trans counted).trans (setFlag_losing _ _)
  · exact ⟨⟨fun _ h => h, fun _ h => h, fun _ h => List.mem_append_left _ h, fun _ h => h⟩, [],
      by rw [List.append_nil]; rfl⟩

end Sys2Proof.Machine.StoreLinkLoss
end

section
/-! PROOFS. The S-port carrier coming up: messages issued again or given up (O14). -/

namespace Sys2Proof.Machine.StoreLinkLoss

open Sys2Proof
open Sys2Proof.Machine.HoldsAndExpiry (resendDue_of_lt resendDue_persist resendDue_giveUp givenUp afterFail_apart
  lostDrained_of_up)

variable {s : State} {p q r : Path} {c : Control} {m : Message}

/-! ## One message of the list (R153, R154) -/

/-- A message is issued again: it is below the limit, or the limit is no end for it (R154). -/
def goesOn (c : Control) (m : Message) : Bool :=
  decide (m.attempts < c.tables.settings.retryLimit) || decide (c.tables.settings.retryAction = .persist)

/-- A message issued again under the next serial of its tag (R153). -/
def reissued (serials : Tab Nat) (m : Message) : Message :=
  { m with
    serial := (tabGetD serials m.tag 0 + 1) % 256, phase := .sending, attempts := min 65535 (m.attempts + 1) }

/-- The flag that a message at the limit sets (R154). -/
def limitFlag (c : Control) : Flag := if c.tables.settings.retryAction = .persist then .storeRetry else .storeGiveUp

/-- A message that goes on is issued again, with STORE_RETRY where it is at the limit. -/
theorem resendDue_goesOn (p : Path) (h : goesOn c m = true) :
    m.attempts < c.tables.settings.retryLimit ∧ p.resendDue c m = p.resend m.tag ∨
      limitFlag c = .storeRetry ∧ p.resendDue c m = (p.resend m.tag).setFlag .storeRetry := by
  by_cases hlim : m.attempts < c.tables.settings.retryLimit
  · exact .inl ⟨hlim, resendDue_of_lt hlim⟩
  · have hact : c.tables.settings.retryAction = .persist := by simpa [goesOn, hlim] using h
    exact .inr ⟨if_pos hact, resendDue_persist (Nat.le_of_not_lt hlim) hact⟩

/-- A message that does not go on is given up. -/
theorem resendDue_stops (p : Path) (h : goesOn c m = false) : limitFlag c = .storeGiveUp ∧
    p.resendDue c m = Path.refillS c.now 64 ((givenUp p m.tag).afterFail c m.content) := by
  simp only [goesOn, Bool.or_eq_false_iff, decide_eq_false_iff_not, Nat.not_lt] at h
  obtain ⟨hlim, hact⟩ := h
  refine ⟨if_neg hact, resendDue_giveUp hlim ?_⟩
  cases ha : c.tables.settings.retryAction with
  | persist => exact absurd ha hact
  | giveUp => rfl

/-- What becomes of the link, the flags and DATA when one message is due: it is issued again under the next serial of its
tag, or leaves the list; the others stay as they are. -/
structure TakesUp (c : Control) (m : Message) (p q : Path) : Prop where
  carrier : q.sPort.carrier = p.sPort.carrier
  state : q.link.state = p.link.state
  lossTimer : q.link.lossTimer = p.link.lossTimer
  inflight : q.link.inflight =
    if goesOn c m then p.link.inflight.map fun o => if o.tag = m.tag then reissued p.link.serials o else o
    else p.link.inflight.filter fun o => o.tag ≠ m.tag
  serials : ∀ tag, tag ≠ m.tag → tabGetD q.link.serials tag 0 = tabGetD p.link.serials tag 0
  flags : ∀ f, p.flagSet f = true → q.flagSet f = true
  dataKept : ∀ tag, tag ≠ m.tag → p.dataHas tag → q.dataHas tag
  dataNew : goesOn c m = true → q.dataHas m.tag

theorem resend_inflight (p : Path) (tag : Nat) : (p.resend tag).link.inflight =
    p.link.inflight.map fun o => if o.tag = tag then reissued p.link.serials o else o := by
  refine List.map_congr_left fun o _ => ?_
  split
  · rename_i h
    subst h
    rfl
  · rfl

theorem resend_dataHas (p : Path) {tag t : Nat} (h : p.dataHas t ∨ t = tag) : (p.resend tag).dataHas t := by
  rcases h with (htx | hre | hq) | rfl
  · exact .inl htx
  · exact .inr (.inl (List.mem_append_left _ hre))
  · exact .inr (.inr hq)
  · exact .inr (.inl (List.mem_append_right _ List.mem_cons_self))

theorem resend_takes (p : Path) (h : goesOn c m = true) : TakesUp c m p (p.resend m.tag) where
  carrier := rfl
  state := rfl
  lossTimer := rfl
  inflight := by rw [if_pos h, resend_inflight]
  serials _ ht := tabGetD_tabPut_other _ 0 ht _
  flags _ hf := hf
  dataKept _ _ hd := resend_dataHas p (.inl hd)
  dataNew _ := resend_dataHas p (.inr rfl)

/-- A message given up leaves DATA, and no other does. -/
theorem givenUp_dataHas (p : Path) {tag t : Nat} (ht : t ≠ tag) (h : p.dataHas t) : (givenUp p tag).dataHas t := by
  have stays {l : List Nat} (hm : t ∈ l) : t ∈ l.filter (fun u => u ≠ tag) := List.mem_filter.2 ⟨hm, decide_eq_true ht⟩
  exact h.imp_right (Or.imp stays (Or.imp stays stays))

/-- The failure of a message given up leaves the S-port alone (R155 to R157). -/
theorem afterFail_sPort (p : Path) (c : Control) (m : Content) : (p.afterFail c m).sPort = p.sPort := by
  have apart : p.afterFail c m = HoldsAndExpiry.withSideOf (p.afterFail c m) p := afterFail_apart c m p p
  rw [apart]
  rfl

/-- Held items that take their places leave every flag alone. -/
theorem refillS_flagSet (now n : Nat) (p : Path) (f : Flag) : (Path.refillS now n p).flagSet f = p.flagSet f := by
  have hflags : (Path.refillS now n p).flags = p.flags := by
    show (Path.refillS now n p).core.flags = p.core.flags
    rw [(keeps_refillS now n p).core]
  unfold Path.flagSet
  rw [hflags]

/-- What a message given up comes to: no other message of the list or of DATA is touched, no flag is cleared, and
STORE_GIVEUP is set. -/
theorem giveUp_takes (p : Path) (h : goesOn c m = false) :
    let q := Path.refillS c.now 64 ((givenUp p m.tag).afterFail c m.content)
    TakesUp c m p q ∧ q.flagSet .storeGiveUp = true := by
  intro q
  have places : Keeps ((givenUp p m.tag).afterFail c m.content) q := keeps_refillS ..
  have failed := afterFail_losing (givenUp p m.tag) c m.content
  have hport := afterFail_sPort (givenUp p m.tag) c m.content
  obtain ⟨more, hlink⟩ := failed.link
  rw [← places.link] at hlink
  have kept {f : Flag} (hg : (givenUp p m.tag).flagSet f = true) : q.flagSet f = true :=
    (refillS_flagSet ..).trans (failed.flags f hg)
  refine ⟨⟨?_, ?_, ?_, ?_, fun tag _ => ?_, fun f hg => kept (setFlag_keeps (p := p) .storeGiveUp hg),
    fun tag ht hd => ?_, fun hon => ?_⟩, kept (setFlag_sets (p := p) _)⟩
  · rw [places.sCarrier, hport]
    rfl
  · rw [hlink]
    rfl
  · rw [hlink]
    rfl
  · rw [hlink, h]
    rfl
  · rw [hlink]
    rfl
  · have hgone := givenUp_dataHas p ht hd
    refine places.dataHas tag ?_
    unfold Path.dataHas at hgone ⊢
    rwa [hport]
  · cases h.symm.trans hon

theorem resendDue_takes (c : Control) (m : Message) (p : Path) : TakesUp c m p (p.resendDue c m) := by
  cases h : goesOn c m with
  | true =>
    rcases resendDue_goesOn p h with ⟨-, he⟩ | ⟨-, he⟩
    · rw [he]
      exact resend_takes p h
    · rw [he]
      exact { resend_takes p h with flags := fun f hf => setFlag_keeps _ hf }
  | false =>
    rw [(resendDue_stops p h).2]
    exact (giveUp_takes p h).1

/-- A message at the limit sets its flag. -/
theorem resendDue_raises (p : Path) (h : c.tables.settings.retryLimit ≤ m.attempts) :
    (p.resendDue c m).flagSet (limitFlag c) = true := by
  cases hon : goesOn c m with
  | true =>
    obtain ⟨hlt, -⟩ | ⟨hf, he⟩ := resendDue_goesOn p hon
    · exact absurd hlt (Nat.not_lt.2 h)
    · rw [he, hf]
      exact setFlag_sets _
  | false =>
    obtain ⟨hf, he⟩ := resendDue_stops p hon
    rw [he, hf]
    exact (giveUp_takes p hon).2

/-! ## The in-flight list (R160) -/

/-- In a list with different tags the messages about one of them have other tags. -/
theorem tags_differ {done rest : List Message} (hn : ((done ++ m :: rest).map (·.tag)).Nodup) :
    (∀ o ∈ done, o.tag ≠ m.tag) ∧ ∀ o ∈ rest, o.tag ≠ m.tag := by
  rw [List.map_append, List.map_cons] at hn
  obtain ⟨-, hmid, hapart⟩ := List.nodup_append.1 hn
  refine ⟨fun o ho => hapart _ (List.mem_map_of_mem ho) _ List.mem_cons_self, fun o ho he => ?_⟩
  exact (List.nodup_cons.1 hmid).1 (he ▸ List.mem_map_of_mem ho)

theorem map_at_tag {done rest : List Message} (f : Message → Message) (hn : ((done ++ m :: rest).map (·.tag)).Nodup) :
    ((done ++ m :: rest).map fun o => if o.tag = m.tag then f o else o) = done ++ f m :: rest := by
  obtain ⟨hdone, hrest⟩ := tags_differ hn
  have stays {l : List Message} (h : ∀ o ∈ l, o.tag ≠ m.tag) : (l.map fun o => if o.tag = m.tag then f o else o) = l :=
    (List.map_congr_left fun o ho => if_neg (h o ho)).trans (List.map_id' l)
  rw [List.map_append, List.map_cons, stays hdone, stays hrest, if_pos rfl]

theorem filter_at_tag {done rest : List Message} (hn : ((done ++ m :: rest).map (·.tag)).Nodup) :
    ((done ++ m :: rest).filter fun o => o.tag ≠ m.tag) = done ++ rest := by
  obtain ⟨hdone, hrest⟩ := tags_differ hn
  have stays {l : List Message} (h : ∀ o ∈ l, o.tag ≠ m.tag) : (l.filter fun o => o.tag ≠ m.tag) = l :=
    List.filter_eq_self.2 fun o ho => decide_eq_true (h o ho)
  rw [List.filter_append, List.filter_cons_of_neg (by simp), stays hdone, stays hrest]

/-- What the whole list comes to, whatever its tags: the carrier, the link's state and its timer stay, no flag is cleared,
and a message at the limit sets its flag. -/
theorem resendAll_keeps (p : Path) (c : Control) (l : List Message) :
    let q := p.resendAll c l
    q.sPort.carrier = p.sPort.carrier ∧ q.link.state = p.link.state ∧ q.link.lossTimer = p.link.lossTimer ∧
      (∀ f, p.flagSet f = true → q.flagSet f = true) ∧
      ∀ m ∈ l, c.tables.settings.retryLimit ≤ m.attempts → q.flagSet (limitFlag c) = true := by
  induction l generalizing p with
  | nil => exact ⟨rfl, rfl, rfl, fun _ h => h, nofun⟩
  | cons m rest ih =>
    have first := resendDue_takes c m p
    obtain ⟨hcarrier, hstate, htimer, hflags, hraised⟩ := ih (p.resendDue c m)
    refine ⟨hcarrier.trans first.carrier, hstate.trans first.state, htimer.trans first.lossTimer,
      fun f h => hflags f (first.flags f h), fun o ho hlim => ?_⟩
    rcases List.mem_cons.1 ho with rfl | ho
    · exact hflags _ (resendDue_raises p hlim)
    · exact hraised o ho hlim

/-- The messages that go on are the list that is left, in its order, each under the serial after that of its tag. -/
theorem resendAll_inflight {p : Path} {done l : List Message} {serials : Tab Nat}
    (hl : p.link.inflight = done ++ l) (hn : ((done ++ l).map (·.tag)).Nodup)
    (hs : ∀ m ∈ l, tabGetD p.link.serials m.tag 0 = tabGetD serials m.tag 0) :
    (p.resendAll c l).link.inflight = done ++ (l.filter (goesOn c)).map (reissued serials) := by
  induction l generalizing p done with
  | nil => simpa [Path.resendAll] using hl
  | cons m rest ih =>
    have first := resendDue_takes c m p
    have hm : reissued p.link.serials m = reissued serials m := by
      unfold reissued
      rw [hs m List.mem_cons_self]
    have hrest (o : Message) (ho : o ∈ rest) :
        tabGetD (p.resendDue c m).link.serials o.tag 0 = tabGetD serials o.tag 0 := by
      rw [first.serials _ ((tags_differ hn).2 o ho), hs o (List.mem_cons_of_mem _ ho)]
    have hinflight := first.inflight
    cases h : goesOn c m with
    | true =>
      rw [if_pos h, hl, map_at_tag _ hn, hm] at hinflight
      have hlist := ih (done := done ++ [reissued serials m]) (by simpa using hinflight)
        (by simpa [reissued] using hn) hrest
      simpa [Path.resendAll, h] using hlist
    | false =>
      rw [if_neg (Bool.eq_false_iff.1 h), hl, filter_at_tag hn] at hinflight
      have hleft : ((done ++ rest).map (·.tag)).Nodup :=
        hn.sublist ((List.Sublist.append_left (List.sublist_cons_self m rest) done).map _)
      have hlist := ih (done := done) hinflight hleft hrest
      simpa [Path.resendAll, h] using hlist

/-- Each message that goes on stands in DATA, where the tags differ. -/
theorem resendAll_dataHas {p : Path} {l : List Message} (hn : (l.map (·.tag)).Nodup) :
    (∀ m ∈ l, goesOn c m = true → (p.resendAll c l).dataHas m.tag) ∧
      ∀ tag ∉ l.map (·.tag), p.dataHas tag → (p.resendAll c l).dataHas tag := by
  induction l generalizing p with
  | nil => exact ⟨nofun, fun _ _ h => h⟩
  | cons m rest ih =>
    have first := resendDue_takes c m p
    obtain ⟨hm, hrest⟩ := List.nodup_cons.1 hn
    obtain ⟨hnew, hkept⟩ := ih (p := p.resendDue c m) hrest
    refine ⟨fun o ho hon => ?_, fun tag ht hd => ?_⟩
    · rcases List.mem_cons.1 ho with rfl | ho
      · exact hkept _ hm (first.dataNew hon)
      · exact hnew o ho hon
    · obtain ⟨hne, ht⟩ := not_or.1 (mt List.mem_cons.2 ht)
      exact hkept tag ht (first.dataKept tag hne hd)

/-! ## A list of which none is given up -/

/-- What messages issued again leave alone: all but the in-flight list, the serials, the resend set, the two counters of an
issue, and STORE_RETRY. -/
structure Reissues (p q : Path) : Prop where
  core : q.core = { p.core with link := q.link, flags := q.flags }
  waiting : q.link.waiting = p.link.waiting
  flags : q.flags &&& ~~~0x0008 = p.flags &&& ~~~0x0008
  counters : p.countersKept q [.resends, .messagesIssued]
  sPort : q.sPort = { p.sPort with resend := q.sPort.resend }
  iPort : q.iPort = p.iPort

theorem Reissues.refl (p : Path) : Reissues p p := ⟨rfl, rfl, rfl, fun _ _ => rfl, rfl, rfl⟩

theorem Reissues.trans (a : Reissues p q) (b : Reissues q r) : Reissues p r where
  core := by rw [b.core, a.core]
  waiting := b.waiting.trans a.waiting
  flags := b.flags.trans a.flags
  counters k hk := (b.counters k hk).trans (a.counters k hk)
  sPort := by rw [b.sPort, a.sPort]
  iPort := b.iPort.trans a.iPort

theorem resend_reissues (p : Path) (tag : Nat) : Reissues p (p.resend tag) where
  core := rfl
  waiting := rfl
  flags := rfl
  counters k hk := by
    simp only [List.mem_cons, List.not_mem_nil, or_false, not_or] at hk
    exact (counter_bump_other _ 1 hk.1).trans (counter_bump_other _ 1 hk.2)
  sPort := rfl
  iPort := rfl

theorem setFlag_storeRetry_reissues (p : Path) : Reissues p (p.setFlag .storeRetry) where
  core := rfl
  waiting := rfl
  flags := by
    show (p.flags ||| 0x0008) &&& ~~~0x0008 = p.flags &&& ~~~0x0008
    rw [BitVec.and_or_distrib_right]
    exact BitVec.or_zero
  counters _ _ := rfl
  sPort := rfl
  iPort := rfl

theorem resendDue_reissues (p : Path) (h : goesOn c m = true) : Reissues p (p.resendDue c m) := by
  rcases resendDue_goesOn p h with ⟨-, he⟩ | ⟨-, he⟩
  · rw [he]
    exact resend_reissues p m.tag
  · rw [he]
    exact (resend_reissues p m.tag).trans (setFlag_storeRetry_reissues _)

theorem resendAll_reissues (p : Path) {l : List Message} (h : ∀ m ∈ l, goesOn c m = true) :
    Reissues p (p.resendAll c l) := by
  induction l generalizing p with
  | nil => exact .refl p
  | cons m rest ih =>
    exact (resendDue_reissues p (h m List.mem_cons_self)).trans (ih _ fun o ho => h o (List.mem_cons_of_mem _ ho))

/-- Messages below the limit set no flag. -/
theorem resendAll_flags (p : Path) {l : List Message} (h : ∀ m ∈ l, m.attempts < c.tables.settings.retryLimit) :
    (p.resendAll c l).flags = p.flags := by
  induction l generalizing p with
  | nil => rfl
  | cons m rest ih =>
    have hfirst : (p.resendDue c m).flags = p.flags := by
      rw [resendDue_of_lt (h m List.mem_cons_self)]
      rfl
    exact (ih (p.resendDue c m) fun o ho => h o (List.mem_cons_of_mem _ ho)).trans hfirst

theorem Reissues.sHas (h : Reissues p q) {x : SItem} (hx : p.sHas x) : q.sHas x := by
  unfold Path.sHas
  rw [h.sPort]
  exact hx

theorem Reissues.iHas (h : Reissues p q) {x : IItem} (hx : p.iHas x) : q.iHas x := by
  unfold Path.iHas
  rw [h.iPort]
  exact hx

/-! ## The carrier (R160, R161) -/

/-- The carrier is up again on a link that was DOWN, before its messages are taken. -/
def carrierBack (p : Path) : Path := { p with
  sPort := { p.sPort with carrier := true }
  link := { p.link with state := .up, lossTimer := none } }

theorem exec_sPortCarrierUp_lost (hc : s.path.sPort.carrier = false) (hl : s.path.link.state = .lost) :
    exec .sPortCarrierUp s = .next (s.withPath { s.path with
      link := { s.path.link with state := .up }, sPort := { s.path.sPort with carrier := true } }).finish := by
  show execSPortCarrierUp s = _
  simp only [execSPortCarrierUp, hc, Path.sCarrierUp, hl]
  rfl

theorem exec_sPortCarrierUp_down (hc : s.path.sPort.carrier = false) (hl : s.path.link.state = .down) :
    exec .sPortCarrierUp s =
      .next (s.withPath ((carrierBack s.path).resendAll s.ctl s.path.link.inflight)).finish := by
  show execSPortCarrierUp s = _
  simp only [execSPortCarrierUp, hc, Path.sCarrierUp, hl]
  rfl

/-- Settles O14: the messages are taken one after another, each as its own resend (`TakesUp`, and `Reissues` where it is not
given up). -/
theorem sCarrierUp : Obligations.SCarrierUp := by
  refine ⟨fun s hc hl => completes_finish (exec_sPortCarrierUp_lost hc hl) rfl (lostDrained_of_up rfl), ?_⟩
  intro s hc hl g on up again due after next
  have hdue : due = fun q m => q.resendDue s.ctl m := by
    funext q m
    simp only [due, Path.resendDue]
    split
    · rfl
    · cases s.ctl.tables.settings.retryAction <;> rfl
  have hafter : after = (carrierBack s.path).resendAll s.ctl s.path.link.inflight := by
    simp only [after, hdue]
    rfl
  obtain ⟨hcarrier, hstate, htimer, -, hraised⟩ := resendAll_keeps (carrierBack s.path) s.ctl s.path.link.inflight
  rw [← hafter] at hcarrier hstate htimer hraised
  refine ⟨?_, hcarrier, hstate, htimer, fun ⟨m, hm, hlim⟩ => hraised m hm hlim, fun hn => ⟨?_, ?_, fun hall => ?_⟩⟩
  · exact completes_finish (hafter ▸ exec_sPortCarrierUp_down hc hl) rfl (lostDrained_of_up hstate)
  · rw [hafter]
    exact resendAll_inflight (done := []) rfl hn fun _ _ => rfl
  · rw [hafter]
    exact (resendAll_dataHas hn).1
  · have back := resendAll_reissues (carrierBack s.path) hall
    have hflags := resendAll_flags (c := s.ctl) (l := s.path.link.inflight) (carrierBack s.path)
    rw [← hafter] at back hflags
    exact ⟨back.core, back.waiting, back.flags, hflags, back.counters, fun _ => back.sHas, fun _ => back.iHas⟩

end Sys2Proof.Machine.StoreLinkLoss
end

section
/-! PROOFS. What the failure of a store message does to the contexts it names: each that takes parcels is told STORE_LOST,
and is ending for it from then on. -/

namespace Sys2Proof.Machine.StoreLinkLoss

open Sys2Proof

variable {p q r : Path} {c : Control} {slot n : Nat}

/-! ## Contexts that are ending for STORE_LOST -/

/-- The context in a slot has been told STORE_LOST: it is ending, or has ended, ABNORMAL with that cause (R13, R14). -/
def told (p : Path) (slot : Nat) : Prop :=
  ∃ y, tabGet p.contexts slot = some y ∧ (y.state = .quiescing ∨ y.state = .linger) ∧
    y.endClass = some .abnormal ∧ y.cause = some .storeLost

/-- The context in a slot takes parcels, or has been told STORE_LOST. -/
def takesOrTold (p : Path) (slot : Nat) : Prop :=
  (∃ x, tabGet p.contexts slot = some x ∧ x.state.taking = true) ∨ told p slot

/-- The state of the context in a slot, with the class and the cause it ends with. -/
def endOf (p : Path) (slot : Nat) : Option (CtxState × Option EndClass × Option Cause) :=
  (tabGet p.contexts slot).map fun x => (x.state, x.endClass, x.cause)

theorem told_iff : told p slot ↔
    ∃ st, endOf p slot = some (st, some .abnormal, some .storeLost) ∧ (st = .quiescing ∨ st = .linger) := by
  unfold told endOf
  cases tabGet p.contexts slot with
  | none => simp
  | some y =>
    simp only [Option.some.injEq, exists_eq_left', Option.map_some, Prod.mk.injEq]
    exact ⟨fun ⟨hs, hc⟩ => ⟨_, ⟨rfl, hc⟩, hs⟩, fun ⟨_, ⟨rfl, hc⟩, hs⟩ => ⟨hs, hc⟩⟩

theorem takesOrTold_iff : takesOrTold p slot ↔ (∃ e, endOf p slot = some e ∧ e.1.taking = true) ∨ told p slot := by
  unfold takesOrTold endOf
  cases tabGet p.contexts slot <;> simp

theorem told_congr (h : endOf q slot = endOf p slot) : told q slot ↔ told p slot := by
  rw [told_iff, told_iff, h]

theorem takesOrTold_congr (h : endOf q slot = endOf p slot) : takesOrTold q slot ↔ takesOrTold p slot := by
  rw [takesOrTold_iff, takesOrTold_iff, h, told_congr h]

theorem endOf_contexts (h : q.contexts = p.contexts) (slot : Nat) : endOf q slot = endOf p slot := by
  unfold endOf
  rw [h]

/-- A context that takes its slot leaves the others alone. -/
theorem endOf_withCtx_ne (p : Path) (x : Context) (h : n ≠ slot) : endOf (p.withCtx slot x) n = endOf p n := by
  simp [endOf, Path.withCtx, h]

/-- A context changed in other fields ends, if it does, as before. -/
theorem endOf_withCtx {x y : Context} (hx : tabGet p.contexts slot = some x)
    (he : (y.state, y.endClass, y.cause) = (x.state, x.endClass, x.cause)) (n : Nat) :
    endOf (p.withCtx slot y) n = endOf p n := by
  by_cases h : n = slot
  · subst h
    simp only [endOf, withCtx_get, hx, Option.map_some, he]
  · exact endOf_withCtx_ne p y h

/-- Operations that each leave the ends alone leave them alone together. -/
theorem foldl_endOf {α : Type} {f : Path → α → Path} {l : List α} (h : ∀ p, ∀ a ∈ l, endOf (f p a) n = endOf p n)
    (p : Path) : endOf (l.foldl f p) n = endOf p n := by
  induction l generalizing p with
  | nil => rfl
  | cons a l ih =>
    exact (ih (fun q b hb => h q b (List.mem_cons_of_mem _ hb)) _).trans (h p a List.mem_cons_self)

/-! ## Operations on contexts -/

theorem chunkSettled_endOf (p : Path) (slot ordinal n : Nat) : endOf (p.chunkSettled slot ordinal) n = endOf p n := by
  unfold Path.chunkSettled
  cases hx : tabGet p.contexts slot with
  | none => rfl
  | some x =>
    dsimp only
    split
    · refine (endOf_contexts (p := p.withCtx slot _) rfl n).trans (endOf_withCtx hx ?_ n)
      rfl
    · refine endOf_withCtx hx ?_ n
      rfl

theorem recordAnswered_endOf (p : Path) (slot n : Nat) : endOf (p.recordAnswered slot) n = endOf p n := by
  unfold Path.recordAnswered
  cases hx : tabGet p.contexts slot with
  | none => rfl
  | some x =>
    refine endOf_withCtx hx ?_ n
    rfl

theorem storeLost_endOf_ne (p : Path) (offset ordinal : Nat) (h : n ≠ slot) :
    endOf (p.storeLost slot offset ordinal) n = endOf p n := by
  unfold Path.storeLost Path.quiesce
  cases tabGet p.contexts slot with
  | none => rfl
  | some x =>
    dsimp only
    split
    · exact endOf_withCtx_ne p _ h
    · rfl

/-- STORE_LOST reported to a context that takes parcels, or has been told it before (R13, R156). -/
theorem storeLost_told (offset ordinal : Nat) (h : takesOrTold p slot) : told (p.storeLost slot offset ordinal) slot := by
  unfold Path.storeLost Path.quiesce
  rcases h with ⟨x, hx, ht⟩ | ⟨y, hy, hs, hc⟩
  · rw [hx]
    dsimp only
    rw [if_pos ht]
    exact ⟨_, withCtx_get p slot _, .inl rfl, rfl, rfl⟩
  · have hnot : ¬ y.state.taking = true := by rcases hs with hs | hs <;> rw [hs] <;> decide
    rw [hy]
    dsimp only
    rw [if_neg hnot]
    exact ⟨y, hy, hs, hc⟩

theorem storeLost_keeps_told (slot offset ordinal : Nat) (h : told p n) : told (p.storeLost slot offset ordinal) n := by
  by_cases hn : n = slot
  · subst hn
    exact storeLost_told offset ordinal (.inr h)
  · exact (told_congr (storeLost_endOf_ne p offset ordinal hn)).2 h

theorem sendNotice_contexts (p : Path) (m : Notice) : (p.sendNotice m).contexts = p.contexts := by
  unfold Path.sendNotice
  split
  · rfl
  · split <;> rfl

theorem endRecords_contexts (p : Path) (slot : Nat) : (p.endRecords slot).contexts = p.contexts := by
  have closed (q : Path) : q.closeBatch.contexts = q.contexts := by
    unfold Path.closeBatch
    split <;> rfl
  unfold Path.endRecords
  split
  · split
    · dsimp only
      split
      exacts [closed _, rfl]
    · rfl
  · rfl

/-- The end of a stream is that of its context (R22). -/
theorem endStream_contexts (p : Path) (c : Control) (slot : Nat) (x : Context) (cls : EndClass) (cause : Option Cause) :
    (p.endStream c slot x cls cause).contexts = tabSet p.contexts slot (x.enterLinger cls cause c.now) := by
  have kept : (p.endStream c slot x cls cause).contexts =
      tabSet (p.sendNotice (.summary x.source (x.closeSummary slot cls cause c.calendar))).contexts slot
        (x.enterLinger cls cause c.now) := by
    unfold Path.endStream Path.askRewrite
    dsimp only
    split <;> rfl
  rw [kept, sendNotice_contexts]

/-- The test for the end of a context leaves the others alone, and one that has been told STORE_LOST ends for it (R15). -/
theorem endWork_told (p : Path) (c : Control) (slot : Nat) :
    (∀ n, n ≠ slot → endOf (p.endWork c slot) n = endOf p n) ∧ ∀ n, told p n → told (p.endWork c slot) n := by
  have ended (x : Context) (cls : EndClass) (cause : Option Cause) (n : Nat) (hn : n ≠ slot) :
      endOf (p.endStream c slot x cls cause) n = endOf p n := by
    simp [endOf, endStream_contexts, hn]
  have other (n : Nat) (hn : n ≠ slot) : endOf (p.endWork c slot) n = endOf p n := by
    unfold Path.endWork
    split
    · split
      · exact ended _ _ _ n hn
      · split
        exacts [ended _ _ _ n hn, rfl]
    · rfl
  refine ⟨other, fun n h => ?_⟩
  by_cases hn : n = slot
  · subst hn
    obtain ⟨y, hy, hs, hcls, hcause⟩ := h
    have hdrain : ¬ (y.state = .draining ∧ y.drained = true) := by
      rintro ⟨hd, -⟩
      rcases hs with hs | hs <;> cases hs.symm.trans hd
    unfold Path.endWork
    rw [hy]
    dsimp only
    rw [if_neg hdrain]
    split
    · refine ⟨y.enterLinger (y.endClass.getD .abnormal) y.cause c.now, ?_, .inr rfl, ?_, hcause⟩
      · rw [endStream_contexts, tabGet_tabSet, if_pos rfl]
      · show some (y.endClass.getD .abnormal) = _
        rw [hcls]
        rfl
    · exact ⟨y, hy, hs, hcls, hcause⟩
  · exact (told_congr (other n hn)).2 h

theorem endsIfDone_endOf_ne (p : Path) (c : Control) (h : n ≠ slot) : endOf (p.endsIfDone c slot) n = endOf p n := by
  rw [← check_eq_endsIfDone]
  exact ((endWork_told _ c slot).1 n h).trans (endOf_contexts (endRecords_contexts p slot) n)

theorem endsIfDone_keeps_told (c : Control) (slot : Nat) (h : told p n) : told (p.endsIfDone c slot) n := by
  rw [← check_eq_endsIfDone]
  exact (endWork_told _ c slot).2 n ((told_congr (endOf_contexts (endRecords_contexts p slot) n)).2 h)

/-! ## The contexts a REF batch names (R156) -/

theorem mem_refSlots {items : List RefItem} : n ∈ refSlots items ↔ ∃ i ∈ items, i.slot = n := by
  induction items with
  | nil => simp [refSlots]
  | cons i is ih =>
    by_cases h : i.slot = n
    · simp [refSlots, h]
    · simp [refSlots, ih, h, Ne.symm h]

/-- The REF with the lower ordinal, of two the one met first. -/
def lowerRef (a : Option RefItem) (i : RefItem) : Option RefItem :=
  match a with
  | none => some i
  | some b => if i.ordinal < b.ordinal then some i else some b

theorem lowerRef_isSome (a : Option RefItem) (i : RefItem) : (lowerRef a i).isSome = true := by
  unfold lowerRef
  split
  · rfl
  · split <;> rfl

theorem lowestRef_eq (items : List RefItem) (slot : Nat) :
    lowestRef items slot = (items.filter fun i => i.slot = slot).foldl lowerRef none := rfl

/-- A slot that a batch names has a REF of the lowest ordinal. -/
theorem lowestRef_of_mem {items : List RefItem} (h : n ∈ refSlots items) : ∃ i, lowestRef items n = some i := by
  obtain ⟨i, hi, hs⟩ := mem_refSlots.1 h
  have hmem : i ∈ items.filter fun i => i.slot = n := List.mem_filter.2 ⟨hi, decide_eq_true hs⟩
  rw [lowestRef_eq]
  rcases List.eq_nil_or_concat (items.filter fun i => i.slot = n) with h0 | ⟨first, last, h0⟩
  · rw [h0] at hmem
    cases hmem
  · rw [h0, List.concat_eq_append, List.foldl_append]
    exact Option.isSome_iff_exists.1 (lowerRef_isSome _ last)

/-- The contexts of a failed batch are told STORE_LOST one after another (R156). -/
def refsTold (items : List RefItem) (p : Path) (slot : Nat) : Path :=
  match lowestRef items slot with
  | some i => p.storeLost slot i.streamOffset i.ordinal
  | none => p

theorem refsTold_endOf_ne (items : List RefItem) (p : Path) (h : n ≠ slot) :
    endOf (refsTold items p slot) n = endOf p n := by
  unfold refsTold
  split
  exacts [storeLost_endOf_ne p _ _ h, rfl]

theorem refsTold_keeps_told (items : List RefItem) (slot : Nat) (h : told p n) : told (refsTold items p slot) n := by
  unfold refsTold
  split
  exacts [storeLost_keeps_told slot _ _ h, h]

theorem refsTold_told {items : List RefItem} (hn : n ∈ refSlots items) (h : takesOrTold p n) :
    told (refsTold items p n) n := by
  obtain ⟨i, hi⟩ := lowestRef_of_mem hn
  unfold refsTold
  rw [hi]
  exact storeLost_told _ _ h

theorem foldl_keeps_told {α : Type} {f : Path → α → Path} (h : ∀ p a, told p n → told (f p a) n) (l : List α)
    (hp : told p n) : told (l.foldl f p) n := List.foldlRecOn l f hp fun q hq a _ => h q a hq

/-- Every slot of the batch is reached, the others having left its context alone. -/
theorem foldl_refsTold {items : List RefItem} (hn : n ∈ refSlots items) (h : takesOrTold p n) :
    told ((refSlots items).foldl (refsTold items) p) n := by
  obtain ⟨before, after, hl, hb⟩ := List.eq_append_cons_of_mem hn
  have untouched : endOf (before.foldl (refsTold items) p) n = endOf p n :=
    foldl_endOf (fun q a ha => refsTold_endOf_ne items q (ne_of_mem_of_not_mem ha hb).symm) p
  have reached := refsTold_told hn ((takesOrTold_congr untouched).2 h)
  rw [hl, List.foldl_append]
  exact foldl_keeps_told (fun q a => refsTold_keeps_told items a) after reached

/-! ## Failures (R155, R156) -/

/-- The slots of the contexts that a store message names. -/
def namedSlots : Content → List Nat
  | .chunk r => [r.slot]
  | .refs items => refSlots items
  | _ => []

/-- A failure leaves alone the contexts that the message does not name. -/
theorem afterFail_endOf_ne (p : Path) (c : Control) {m : Content} (h : n ∉ namedSlots m) :
    endOf (p.afterFail c m) n = endOf p n := by
  rcases m with r | items | r | items
  · have hn : n ≠ r.slot := fun he => h (he ▸ List.mem_cons_self)
    exact (endsIfDone_endOf_ne _ c hn).trans
      ((storeLost_endOf_ne _ r.streamOffset r.ordinal hn).trans (chunkSettled_endOf _ r.slot r.ordinal n))
  · have hn {k : Nat} (hk : k ∈ refSlots items) : n ≠ k := fun he => h (he ▸ hk)
    calc endOf (p.afterFail c (.refs items)) n
        = endOf ((refSlots items).foldl (refsTold items) (items.foldl (fun q i => q.recordAnswered i.slot) p)) n :=
          foldl_endOf (fun q k hk => endsIfDone_endOf_ne q c (hn hk)) _
      _ = endOf (items.foldl (fun q i => q.recordAnswered i.slot) p) n :=
          foldl_endOf (fun q k hk => refsTold_endOf_ne items q (hn hk)) _
      _ = endOf p n := foldl_endOf (fun q i _ => recordAnswered_endOf q i.slot n) p
  · rfl
  · rfl

/-- A failure tells STORE_LOST to each context that the message names and that takes parcels. -/
theorem afterFail_told (c : Control) {m : Content} (hn : n ∈ namedSlots m) (h : takesOrTold p n) :
    told (p.afterFail c m) n := by
  rcases m with r | items | r | items
  · obtain rfl := List.mem_singleton.1 hn
    have settled := (takesOrTold_congr (chunkSettled_endOf (p.placementAnswered r true) r.slot r.ordinal r.slot)).2 h
    exact endsIfDone_keeps_told (p := Path.bump (Path.outcomeSent _ r false) .chunksFailed 1) c r.slot
      (storeLost_told r.streamOffset r.ordinal settled)
  · have answered : endOf (items.foldl (fun q i => q.recordAnswered i.slot) p) n = endOf p n :=
      foldl_endOf (fun q i _ => recordAnswered_endOf q i.slot n) p
    have lost := foldl_refsTold hn ((takesOrTold_congr answered).2 h)
    exact foldl_keeps_told (p := Path.bump _ .refBatchesFailed 1) (fun q k => endsIfDone_keeps_told c k) _ lost
  · cases hn
  · cases hn

end Sys2Proof.Machine.StoreLinkLoss
end

section
/-! PROOFS. The loss timer running out: every message fails, and every request for a tag that waits (O15). -/

namespace Sys2Proof.Machine.StoreLinkLoss

open Sys2Proof
open Sys2Proof.Machine.HoldsAndExpiry (withdraw_eq)

variable {s : State} {p q r : Path} {c : Control} {x : Index} {m : Content}

/-! ## One failure after another -/

/-- From one data path to another only failures have happened: beside what `Grows` says, the link keeps its state and its
timer, no message comes, and a context that was told STORE_LOST, or takes parcels, is still so or has been told. -/
structure Fails (p q : Path) : Prop extends Grows p q where
  state : q.link.state = p.link.state
  lossTimer : q.link.lossTimer = p.link.lossTimer
  inflight : q.link.inflight.Sublist p.link.inflight
  told : ∀ n, told p n → told q n
  takesOrTold : ∀ n, takesOrTold p n → takesOrTold q n

theorem Fails.refl (p : Path) : Fails p p := ⟨.refl p, rfl, rfl, List.Sublist.refl _, fun _ h => h, fun _ h => h⟩

theorem Fails.trans (a : Fails p q) (b : Fails q r) : Fails p r :=
  ⟨a.toGrows.trans b.toGrows, b.state.trans a.state, b.lossTimer.trans a.lossTimer, b.inflight.trans a.inflight,
    fun n h => b.told n (a.told n h), fun n h => b.takesOrTold n (a.takesOrTold n h)⟩

/-- An operation that leaves contexts, flags, outcomes and containers alone, and of the link all but what waits and messages
that it takes out. -/
theorem Fails.of_eq (hg : Grows p q) (hc : q.contexts = p.contexts) (hs : q.link.state = p.link.state)
    (ht : q.link.lossTimer = p.link.lossTimer) (hi : q.link.inflight.Sublist p.link.inflight) : Fails p q :=
  ⟨hg, hs, ht, hi, fun n => (told_congr (endOf_contexts hc n)).2, fun n => (takesOrTold_congr (endOf_contexts hc n)).2⟩

/-- The core alone says what has failed. -/
theorem Fails.of_core (h : q.core = p.core) : Fails p q := by
  have field {α : Type} (f : Path → α) : f q.core = f p.core := congrArg f h
  have hlink : q.link = p.link := field (·.link)
  have hgrows : Grows p q := .of_eq (field (·.flags)) (field (·.chunkOps)) (field (·.releaseOps)) (field (·.alloc))
  exact .of_eq hgrows (field (·.contexts)) (by rw [hlink]) (by rw [hlink]) (by rw [hlink])

/-- What asks for tags alone, contexts being left alone, takes no message out. -/
theorem Losing.fails (h : Losing p q) (hc : q.contexts = p.contexts) : Fails p q := by
  obtain ⟨more, hlink⟩ := h.link
  exact .of_eq h.toGrows hc (by rw [hlink]) (by rw [hlink]) (by rw [hlink])

/-- A failure takes no message out, and tells STORE_LOST where it tells anything (R155 to R158). -/
theorem afterFail_fails (p : Path) (c : Control) (m : Content) : Fails p (p.afterFail c m) := by
  have losing := afterFail_losing p c m
  obtain ⟨more, hlink⟩ := losing.link
  refine ⟨losing.toGrows, by rw [hlink], by rw [hlink], by rw [hlink], fun n h => ?_, fun n h => ?_⟩
  · by_cases hn : n ∈ namedSlots m
    · exact afterFail_told c hn (.inr h)
    · exact (told_congr (afterFail_endOf_ne p c hn)).2 h
  · by_cases hn : n ∈ namedSlots m
    · exact .inr (afterFail_told c hn h)
    · exact (takesOrTold_congr (afterFail_endOf_ne p c hn)).2 h

/-! ## What a failed message leaves -/

/-- A message has failed between two data paths: the contexts it names that took parcels have been told, its outcomes are on
their way, and its container is gone (R155 to R158). -/
def hasFailed (p q : Path) (m : Content) : Prop :=
  (∀ n ∈ namedSlots m, takesOrTold p n → told q n) ∧
    match m with
    | .chunk r => ∀ address pet, r.entry = some (address, pet) → (⟨false, pet, address, r.fp⟩ : ChunkOp) ∈ q.chunkOps
    | .refs _ => True
    | .seal r => r.container ∉ q.alloc.ids
    | .release items => ∀ i ∈ items, (⟨false, i⟩ : ReleaseOp) ∈ q.releaseOps

theorem hasFailed.failedIn (h : hasFailed p q m) : p.failedIn q m := by
  obtain ⟨htold, hdone⟩ := h
  have lost {n : Nat} (hn : n ∈ namedSlots m) : p.toldLost q n := fun y hy ht => htold n hn (.inl ⟨y, hy, ht⟩)
  rcases m with r | items | r | items
  · exact ⟨lost List.mem_cons_self, hdone⟩
  · exact fun i hi => lost (mem_refSlots.2 ⟨i, hi, rfl⟩)
  · exact ⟨fun cs hcs he => hdone (mem_ids.2 (.inl ⟨cs, hcs, he⟩)), fun b hb he => hdone (mem_ids.2 (.inr ⟨b, hb, he⟩))⟩
  · exact hdone

/-- What has failed has failed since any earlier moment, and stays so through other failures. -/
theorem hasFailed.between {u v : Path} (h : hasFailed q r m) (a : Fails u q) (b : Fails r v) : hasFailed u v m := by
  obtain ⟨htold, hdone⟩ := h
  refine ⟨fun n hn ht => b.told n (htold n hn (a.takesOrTold n ht)), ?_⟩
  rcases m with r | items | r | items
  · exact fun address pet he => b.chunkOps (hdone address pet he)
  · trivial
  · exact fun hid => hdone (b.ids hid)
  · exact fun i hi => b.releaseOps (hdone i hi)

theorem afterFail_hasFailed (p : Path) (c : Control) (m : Content) : hasFailed p (p.afterFail c m) m := by
  refine ⟨fun n hn => afterFail_told c hn, ?_⟩
  rcases m with r | items | r | items
  · intro address pet he
    refine (endsIfDone_losing _ c r.slot).chunkOps ?_
    show _ ∈ _ ++ (r.entry.map _).toList
    rw [he]
    exact List.mem_append_right _ List.mem_cons_self
  · trivial
  · show r.container ∉ (p.containerGone r.container).alloc.ids
    rw [mem_ids]
    rintro (⟨cs, hcs, he⟩ | ⟨b, hb, he⟩)
    · exact of_decide_eq_true (List.mem_filter.1 hcs).2 he
    · exact of_decide_eq_true (List.mem_filter.1 hb).2 he
  · exact fun i hi => List.mem_append_right _ (List.mem_map_of_mem hi)

/-! ## The messages in flight (R161) -/

/-- A message that leaves the list and its queue is no failure yet. -/
theorem removed_fails (p : Path) (now tag : Nat) : Fails p ((p.removeMessage tag).withdraw now tag) := by
  have listed : Fails p (p.removeMessage tag) := .of_eq (.of_eq rfl rfl rfl rfl) rfl rfl rfl List.filter_sublist
  have hcore : ((p.removeMessage tag).withdraw now tag).core = (p.removeMessage tag).core := by
    rw [withdraw_eq, (keeps_refillS now 64 _).core]
    rfl
  exact listed.trans (.of_core hcore)

theorem failMessage_eq (p : Path) (c : Control) (m : Message) :
    p.failMessage c m = ((p.removeMessage m.tag).withdraw c.now m.tag).afterFail c m.content := fail_eq_afterFail ..

/-- A message that fails leaves the list; requests for tags that wait go on waiting. -/
theorem failMessage_fails (p : Path) (c : Control) (m : Message) :
    let q := (p.failMessage c m).bump .messagesLinkLost 1
    Fails p q ∧ hasFailed p q m.content ∧ p.link.waiting ⊆ q.link.waiting ∧ ∀ o ∈ q.link.inflight, o.tag ≠ m.tag := by
  intro q
  have removed := removed_fails p c.now m.tag
  have hlink : ((p.removeMessage m.tag).withdraw c.now m.tag).link = (p.removeMessage m.tag).link := by
    rw [withdraw_eq, (keeps_refillS c.now 64 _).link]
  have counted : Fails (p.failMessage c m) q := .of_core rfl
  obtain ⟨more, hmore⟩ := (afterFail_losing ((p.removeMessage m.tag).withdraw c.now m.tag) c m.content).link
  rw [← failMessage_eq, hlink] at hmore
  have hq : q.link = { (p.removeMessage m.tag).link with waiting := p.link.waiting ++ more } := hmore
  refine ⟨?_, ?_, ?_, fun o ho => ?_⟩
  · refine (removed.trans ?_).trans counted
    rw [failMessage_eq]
    exact afterFail_fails ..
  · refine hasFailed.between ?_ removed counted
    rw [failMessage_eq]
    exact afterFail_hasFailed ..
  · rw [hq]
    exact List.subset_append_left _ _
  · rw [hq] at ho
    exact of_decide_eq_true (List.mem_filter.1 ho).2

/-- Every message of a list fails, and none with the tag of one of them is left (R161). -/
theorem failAll_fails (p : Path) (c : Control) (l : List Message) :
    let q := p.failAll c l
    Fails p q ∧ p.link.waiting ⊆ q.link.waiting ∧
      ∀ m ∈ l, hasFailed p q m.content ∧ ∀ o ∈ q.link.inflight, o.tag ≠ m.tag := by
  induction l generalizing p with
  | nil => exact ⟨.refl p, fun _ h => h, nofun⟩
  | cons m rest ih =>
    obtain ⟨hfirst, hfailed, hwaits, hgone⟩ := failMessage_fails p c m
    obtain ⟨hrest, hstill, hall⟩ := ih ((p.failMessage c m).bump .messagesLinkLost 1)
    refine ⟨hfirst.trans hrest, fun _ h => hstill (hwaits h), fun o ho => ?_⟩
    rcases List.mem_cons.1 ho with rfl | ho
    · exact ⟨hfailed.between (.refl p) hrest, fun u hu => hgone u (hrest.inflight.subset hu)⟩
    · obtain ⟨hdone, hleft⟩ := hall o ho
      exact ⟨hdone.between hfirst (.refl _), hleft⟩

/-! ## The requests for tags that wait (R161) -/

theorem restBatched_losing (p : Path) : Losing p p.restBatched ∧ p.restBatched.contexts = p.contexts := by
  unfold Path.restBatched
  split
  · exact ⟨.refl p, rfl⟩
  · exact ⟨⟨.of_eq rfl rfl rfl rfl, _, rfl⟩, rfl⟩

/-- A pass of the sweeper that goes on asks for tags, and leaves contexts alone (R122). -/
theorem sweepFrom_losing (x : Index) (n : Nat) (pos : SweepPos) (p : Path) :
    Losing p (Path.sweepFrom x n pos p) ∧ (Path.sweepFrom x n pos p).contexts = p.contexts := by
  induction n generalizing pos p with
  | zero => exact ⟨.refl p, rfl⟩
  | succ n ih =>
    obtain ⟨hbatch, hcontexts⟩ := restBatched_losing p
    have counted {w : Sweeper} : Losing p.restBatched { p.restBatched.bump .sweepPasses 1 with sweeper := w } := .of_eq
    unfold Path.sweepFrom
    split
    · exact ⟨.of_eq, rfl⟩
    · dsimp only
      rw [makeBatch_eq_restBatched]
      split
      · obtain ⟨hnext, hkept⟩ := ih (.buckets 0 0) { p.restBatched.bump .sweepPasses 1 with sweeper := _ }
        exact ⟨(hbatch.trans counted).trans hnext, hkept.trans hcontexts⟩
      · exact ⟨hbatch.trans counted, hcontexts⟩

theorem takeBatch_losing (p : Path) (x : Index) : Losing p (p.takeBatch x) ∧ (p.takeBatch x).contexts = p.contexts := by
  have taken {w : Sweeper} : Losing p { p with sweeper := w } := .of_eq
  unfold Path.takeBatch Path.resumeSweep
  split
  · obtain ⟨hnext, hkept⟩ := sweepFrom_losing x 2 p.sweeper.pos { p with sweeper := _ }
    exact ⟨taken.trans hnext, hkept⟩
  · exact ⟨taken, rfl⟩

/-- A RELEASE request that fails takes the oldest batch with it (R158, R161). -/
theorem failRelease_fails (p : Path) (c : Control) (x : Index) :
    Losing p (p.failRequest c x .oldestRelease) ∧ Fails p (p.failRequest c x .oldestRelease) := by
  unfold Path.failRequest
  dsimp only
  split
  · rename_i b rest hb
    rw [fail_eq_afterFail]
    obtain ⟨hlosing, hcontexts⟩ := takeBatch_losing (p.afterFail c (.release b)) x
    exact ⟨(afterFail_losing p c _).trans hlosing, (afterFail_fails p c _).trans (hlosing.fails hcontexts)⟩
  · exact ⟨.refl p, .refl p⟩

/-- A request for a tag that fails, and is counted (R161). -/
theorem failRequest_fails (p : Path) (c : Control) (x : Index) (r : TagRequest) :
    let q := (p.failRequest c x r).bump .messagesLinkLost 1
    Losing p q ∧ Fails p q ∧ ∀ m, r = .message m → hasFailed p q m := by
  intro q
  have losing : Losing (p.failRequest c x r) q := .of_eq
  have counted : Fails (p.failRequest c x r) q := .of_core rfl
  cases r with
  | message m =>
    have hfail : p.failRequest c x (.message m) = p.afterFail c m := fail_eq_afterFail ..
    rw [hfail] at losing counted
    refine ⟨(afterFail_losing p c m).trans losing, (afterFail_fails p c m).trans counted, fun o ho => ?_⟩
    cases ho
    exact (afterFail_hasFailed p c m).between (.refl p) counted
  | oldestRelease =>
    obtain ⟨hlosing, hfails⟩ := failRelease_fails p c x
    exact ⟨hlosing.trans losing, hfails.trans counted, nofun⟩

/-- The data path with other requests waiting for tags. -/
def withWaiting (p : Path) (rest : List TagRequest) : Path := { p with link := { p.link with waiting := rest } }

theorem withWaiting_fails (p : Path) (rest : List TagRequest) : Fails p (withWaiting p rest) :=
  .of_eq (.of_eq rfl rfl rfl rfl) rfl rfl rfl (List.Sublist.refl _)

theorem withWaiting_tagWork {first : TagRequest} {rest : List TagRequest} (h : p.link.waiting = first :: rest) :
    (withWaiting p rest).tagWork + 1 = p.tagWork := by
  show Path.tagWork { p with link := { p.link with waiting := rest } } + 1 = p.tagWork
  simp only [Path.tagWork, h, List.length_cons]
  omega

/-- On a LOST link the oldest request fails, and then the others. -/
theorem drainLost_cons {first : TagRequest} {rest : List TagRequest} (c : Control) (x : Index) (n : Nat)
    (hl : p.link.state = .lost) (hw : p.link.waiting = first :: rest) : Path.drainLost c x (n + 1) p =
      Path.drainLost c x n (((withWaiting p rest).failRequest c x first).bump .messagesLinkLost 1) := by
  rw [Path.drainLost, if_pos hl, hw]
  rfl

/-- While the link is LOST every request that waits fails, with whatever it asks for. -/
theorem drainLost_fails (c : Control) (x : Index) (n : Nat) (p : Path) (hl : p.link.state = .lost) (hn : p.tagWork ≤ n) :
    let q := Path.drainLost c x n p
    Fails p q ∧ ∀ m, .message m ∈ p.link.waiting → hasFailed p q m := by
  induction n generalizing p with
  | zero =>
    have hnone : p.link.waiting = [] := drainLost_lostDrained c x 0 p hn hl
    refine ⟨.refl p, fun m hm => ?_⟩
    rw [hnone] at hm
    cases hm
  | succ n ih =>
    cases hw : p.link.waiting with
    | nil =>
      rw [drainLost_of_drained c x (n + 1) fun _ => hw]
      exact ⟨.refl p, nofun⟩
    | cons first rest =>
      obtain ⟨hlosing, hfails, hdone⟩ := failRequest_fails (withWaiting p rest) c x first
      have hwork := withWaiting_tagWork hw
      have hfall : (((withWaiting p rest).failRequest c x first).bump .messagesLinkLost 1).tagWork ≤
          (withWaiting p rest).tagWork := (tagsFall_failRequest (withWaiting p rest) c x first).work
      obtain ⟨hnext, hall⟩ := ih _ (hfails.state.trans hl) (by omega)
      obtain ⟨more, hmore⟩ := hlosing.link
      have popped := withWaiting_fails p rest
      rw [drainLost_cons c x n hl hw]
      refine ⟨(popped.trans hfails).trans hnext, fun m hm => ?_⟩
      rcases List.mem_cons.1 hm with he | hm
      · exact (hdone m he.symm).between popped hnext
      · refine (hall m ?_).between (popped.trans hfails) (.refl _)
        rw [hmore]
        exact List.mem_append_left _ hm

/-! ## The loss timer (R161) -/

/-- The link is LOST and its timer has stopped, before its messages fail. -/
def linkLost (p : Path) : Path := { p with link := { p.link with state := .lost, lossTimer := none } }

/-- Every message of the in-flight list has failed, and STORE_GIVEUP is set. -/
def allFailed (p : Path) (c : Control) : Path := ((linkLost p).failAll c p.link.inflight).setFlag .storeGiveUp

theorem exec_lossTimerExpiry {time : Nat} (h : s.path.link.lossTimer = some time) : exec .lossTimerExpiry s =
    .next (State.finish { s with ctl := s.ctl.reach time, path := allFailed s.path (s.ctl.reach time) }) := by
  show execLossTimerExpiry s = _
  simp only [execLossTimerExpiry, h]
  rfl

/-- The in-flight list is empty; what it held has failed, and what waited still waits. -/
theorem allFailed_fails (p : Path) (c : Control) : Fails (linkLost p) (allFailed p c) ∧
    p.link.waiting ⊆ (allFailed p c).link.waiting ∧ (allFailed p c).link.inflight = [] ∧
    ∀ m ∈ p.link.inflight, hasFailed (linkLost p) (allFailed p c) m.content := by
  obtain ⟨hfails, hwaits, hall⟩ := failAll_fails (linkLost p) c p.link.inflight
  have flagged := (setFlag_losing ((linkLost p).failAll c p.link.inflight) .storeGiveUp).fails rfl
  refine ⟨hfails.trans flagged, hwaits, List.eq_nil_iff_forall_not_mem.2 fun o ho => ?_,
    fun m hm => (hall m hm).1.between (.refl _) flagged⟩
  exact (hall o (hfails.inflight.subset ho)).2 o ho rfl

/-- What the end of the command makes of it: the requests that wait have failed too. -/
theorem lossTimerExpiry_end (p : Path) (c : Control) (x : Index) :
    let q := (allFailed p c).finish c x
    Fails (linkLost p) q ∧ q.link.inflight = [] ∧ q.flagSet .storeGiveUp = true ∧
      ∀ m, ((∃ o ∈ p.link.inflight, o.content = m) ∨ .message m ∈ p.link.waiting) → hasFailed (linkLost p) q m := by
  intro q
  obtain ⟨hfails, hwaits, hnone, hall⟩ := allFailed_fails p c
  obtain ⟨hdrain, hrequests⟩ := drainLost_fails c x (allFailed p c).tagWork (allFailed p c) hfails.state (Nat.le_refl _)
  have ends : Fails _ q := .of_core (keeps_finish_tail (Path.drainLost c x (allFailed p c).tagWork (allFailed p c)) c x).core
  have later := hdrain.trans ends
  refine ⟨hfails.trans later, List.sublist_nil.1 (hnone ▸ later.inflight), later.flags _ (setFlag_sets _), ?_⟩
  rintro m (⟨o, ho, rfl⟩ | hm)
  · exact (hall o ho).between (.refl _) later
  · exact (hrequests m (hwaits hm)).between hfails ends

/-- Settles O15: the messages fail one after another, then the requests that wait; through all later failures what has failed
stays so. -/
theorem lossTimerFailsEverything : Obligations.LossTimerFailsEverything := by
  intro s time ht c failed flagged
  obtain ⟨hfails, hnone, hflag, hall⟩ := lossTimerExpiry_end s.path c s.idx
  have hdrained := finish_lostDrained (allFailed s.path c) c s.idx
  refine ⟨_, exec_lossTimerExpiry ht, rfl, rfl, rfl, passes_finish_tail _ _ _, hfails.state, hfails.lossTimer, hnone,
    hdrained hfails.state, hflag, fun m hm => ?_⟩
  exact (hall m hm).failedIn

end Sys2Proof.Machine.StoreLinkLoss
end

section
/-! PROOFS. No transmitter with a carrier is idle while an item waits for it: every command ends with a grant of each
transmitter, and a grant leaves nothing that an idle one could take. -/

namespace Sys2Proof.Machine.EgressScheduling

open Sys2Proof

/-! ## The end of a command (R163, R173) -/

/-- After both transmitters were offered a grant none with a carrier is idle while an item waits: the grant of the I-port
leaves what the S-port has taken. -/
theorem grants_working (p : Path) (c : Control) : (p.grants c).working := by
  refine ⟨?_, ParcelOrder.grantI_settles _⟩
  unfold Path.grants
  rw [grantI_sPort]
  exact ParcelOrder.grantS_settles c p

theorem finish_working (p : Path) (c : Control) (x : Index) : (p.finish c x).working := grants_working _ c

/-! ## Steps -/

/-- After a cold reset nothing waits for a transmitter. -/
theorem coldReset_working (s : State) : s.coldReset.path.working :=
  ⟨fun _ _ => ⟨rfl, rfl⟩, fun _ _ => ⟨rfl, rfl⟩⟩

/-- No command leaves an idle transmitter with something to take: one that changes anything is a cold reset, or ends as every
command does. -/
theorem exec_working {c : Instr} {s t : State} (hs : s.path.working) (h : exec c s = .next t) : t.path.working := by
  have shape := exec_shape c s
  rw [h] at shape
  cases shape with
  | same => exact hs
  | cold => exact coldReset_working s
  | finish u _ => exact finish_working u.path u.ctl u.idx

/-- Settles O3: the front command keeps it by `exec_working`, and an idle period leaves the data path alone. -/
theorem noIdleTransmitterWaits : Obligations.NoIdleTransmitterWaits := by
  intro s t hs h
  rcases FingerprintIndex.step_cases h with rfl | ⟨c, rest, -, h⟩
  · exact hs
  · exact exec_working (s := { s with pending := rest }) hs h

end Sys2Proof.Machine.EgressScheduling
end

section
/-! PROOFS. Frames that arrive: one of the EtherType in force is taken as the command it holds, any other is forwarded or
dropped, and the bad ones are counted. -/

namespace Sys2Proof.Machine.EgressScheduling

open Sys2Proof

/-! ## Frames of the EtherType in force (R175, R202, R207) -/

/-- The commands that a frame of the EtherType in force can hold. -/
def heldByFrame : Instr → Bool
  | .openParcel .. | .dataParcel .. | .closeParcel .. | .abortParcel .. | .mgmtParcel .. | .storeAnswer ..
  | .malformedFrame .. | .wrongDirectionFrame .. => true
  | _ => false

/-- The meaning of such a command is what the frame's arrival makes of the data path, and the end of every command. -/
theorem exec_of_heldByFrame {i : Instr} (h : heldByFrame i = true) (s : State) :
    exec i s = .next (State.finish (s.withPath (s.path.frameArrives s.ctl i))) := by
  unfold heldByFrame at h
  split at h
  case h_8 port => cases port <;> rfl
  case h_9 => cases h
  all_goals rfl

theorem classifyAnswer_held (port : Port) (b : List Byte) : heldByFrame (Wire.classifyAnswer port b) = true := by
  unfold Wire.classifyAnswer
  dsimp only
  split <;> rfl

theorem classifyPiece_held (port : Port) (kind : Nat) (b : List Byte) :
    heldByFrame (Wire.classifyPiece port kind b) = true := by
  unfold Wire.classifyPiece
  dsimp only
  generalize (if b.getD 4 0 = 0 then _ else _) = descriptor
  split <;> rfl

theorem classifyBody_held (port : Port) (source : Mac) (kind branch stream : Nat) (body : List Byte) :
    heldByFrame (Wire.classifyBody port source kind branch stream body) = true := by
  unfold Wire.classifyBody
  split
  case h_5 =>
    split
    · split <;> rfl
    · rfl
  all_goals split <;> rfl

theorem classifyLavrow_held (port : Port) (source : Mac) (b : List Byte) :
    heldByFrame (Wire.classifyLavrow port source b) = true := by
  unfold Wire.classifyLavrow
  dsimp only
  repeat' split
  exacts [rfl, rfl, classifyAnswer_held _ _, classifyPiece_held _ _ _, rfl, classifyBody_held _ _ _ _ _ _, rfl]

/-! ## How a frame is read -/

theorem exec_passThroughFrame (port : Port) (frame : List Byte) (s : State) :
    exec (.passThroughFrame port frame) s = .next (State.finish (s.withPath
      (s.path.frameArrives s.ctl (Wire.classifyFrame s.ctl.tables.settings.etherType port frame)))) := rfl

/-- A frame is read as a command that a frame of the EtherType in force can hold, or passes through. -/
theorem classifyFrame_cases (etherType : Nat) (port : Port) (frame : List Byte) :
    heldByFrame (Wire.classifyFrame etherType port frame) = true ∨
      Wire.classifyFrame etherType port frame = .passThroughFrame port frame := by
  unfold Wire.classifyFrame
  repeat' split
  exacts [.inl rfl, .inl rfl, .inl (classifyLavrow_held _ _ _), .inr rfl]

/-- A frame that arrives is taken as the command it is read as (R175). -/
theorem exec_classifyFrame (port : Port) (frame : List Byte) (s : State) :
    exec (.passThroughFrame port frame) s =
      exec (Wire.classifyFrame s.ctl.tables.settings.etherType port frame) s := by
  rcases classifyFrame_cases s.ctl.tables.settings.etherType port frame with h | h
  · rw [exec_of_heldByFrame h, exec_passThroughFrame]
  · rw [h]

/-- The type field is the 2 bytes after both addresses, the first being the more significant (R202). -/
theorem value_typeField {frame : List Byte} (h : 14 ≤ frame.length) :
    Wire.value ((frame.drop 12).take 2) = 256 * (frame.getD 12 0).toNat + (frame.getD 13 0).toNat := by
  have h12 : 12 < frame.length := by omega
  have h13 : 13 < frame.length := by omega
  have bytes : (frame.drop 12).take 2 = [frame[12], frame[13]] := by
    rw [List.drop_eq_getElem_cons h12, List.drop_eq_getElem_cons h13]
    rfl
  simp [bytes, Wire.value, h12, h13]

/-- A frame of another EtherType, of a length that the ports take, passes through (R175). -/
theorem classifyFrame_other {etherType : Nat} {frame : List Byte} (hmin : 14 ≤ frame.length)
    (hmax : frame.length ≤ Wire.longest) (hother : 256 * (frame.getD 12 0).toNat + (frame.getD 13 0).toNat ≠ etherType)
    (port : Port) : Wire.classifyFrame etherType port frame = .passThroughFrame port frame := by
  unfold Wire.classifyFrame
  rw [if_neg (Nat.not_lt.2 hmax), if_neg (Nat.not_lt.2 hmin), value_typeField hmin, if_neg hother]

/-! ## Frames forwarded or dropped (R166, R174) -/

section forwarded

variable {p : Path} (c : Control) (frame : List Byte)

theorem forward_i_room (h : p.sPort.room = true) : p.forward c .i frame = Path.bump { p with
    sPort := { p.sPort with fifo := p.sPort.fifo ++ [(c.now, .frame frame)] } } .forwardedIToS 1 := if_pos h

theorem forward_i_full (h : p.sPort.room = false) : p.forward c .i frame = p.bump .dropsSTransmit 1 :=
  if_neg (Bool.eq_false_iff.1 h)

theorem forward_s_room (h : p.iPort.room = true) : p.forward c .s frame = Path.bump { p with
    iPort := { p.iPort with fifo := p.iPort.fifo ++ [.frame frame] } } .forwardedSToI 1 := if_pos h

theorem forward_s_full (h : p.iPort.room = false) : p.forward c .s frame = p.bump .dropsITransmit 1 :=
  if_neg (Bool.eq_false_iff.1 h)

end forwarded

/-- A frame of another EtherType completes as what its forwarding makes of the data path, where that leaves the store link
alone. -/
theorem completes_forward {s : State} {port : Port} {frame : List Byte} {q : Path}
    (hclass : Wire.classifyFrame s.ctl.tables.settings.etherType port frame = .passThroughFrame port frame)
    (hdrained : s.path.lostDrained) (hq : s.path.forward s.ctl port frame = q) (hlink : q.link = s.path.link) :
    Completes (.passThroughFrame port frame) s (s.withPath q) := by
  refine completes_finish ?_ rfl (ParcelOrder.lostDrained_of_link hdrained hlink)
  rw [exec_passThroughFrame, hclass, ← hq]
  rfl

/-- Settles O29: a frame by how it is read, one of another EtherType by the place its FIFO has, and a bad one by its
counter. -/
theorem framesPassOrAreCounted : Obligations.FramesPassOrAreCounted := by
  intro s port frame
  refine ⟨exec_classifyFrame port frame s, fun hl => ⟨fun hmin hmax hother => ?_, ?_⟩⟩
  · have other := classifyFrame_other hmin hmax hother
    exact ⟨fun h => completes_forward (other .i) hl (forward_i_room _ _ h) rfl,
      fun h => completes_forward (other .i) hl (forward_i_full _ _ h) rfl,
      fun h => completes_forward (other .s) hl (forward_s_room _ _ h) rfl,
      fun h => completes_forward (other .s) hl (forward_s_full _ _ h) rfl⟩
  · refine ⟨completes_finish rfl rfl hl, completes_finish rfl rfl hl, completes_finish rfl rfl hl,
      completes_finish rfl rfl hl, ?_⟩
    cases port <;> exact completes_finish rfl rfl hl

end Sys2Proof.Machine.EgressScheduling
end

section
/-! PROOFS. What the requests at the Table Banks reply, SWAP BANKS and the end of a copy (O35). -/

namespace Sys2Proof.Machine.LoadedTables

open Sys2Proof

variable {s : State} {port : Port} {n : Nat} {src : Mac}

/-! ## Requests at the Table Banks -/

theorem exec_loadTable {l : TableLoad} (h : s.headRequest port = some ⟨n, src, .loadTable l⟩) :
    exec (.loadTable port) s =
      .next (((s.withTables (loadAnswer s.ctl.tables s.path l).1).withPath
        (s.path.countIf (loadAnswer s.ctl.tables s.path l).2.taken .tableLoads)).answer port ⟨n, src, .loadTable l⟩
          (loadAnswer s.ctl.tables s.path l).2).finish := by
  show execLoadTable port s = _
  simp only [execLoadTable, h]

theorem exec_swapBanks (h : s.headRequest port = some ⟨n, src, .swapBanks⟩) :
    exec (.swapBanks port) s =
      .next (((s.withTables (swapAnswer s.ctl.tables).1).withPath
        (s.path.countIf (swapAnswer s.ctl.tables).2.taken .bankSwaps)).answer port ⟨n, src, .swapBanks⟩
          (swapAnswer s.ctl.tables).2).finish := by
  show execSwapBanks port s = _
  simp only [execSwapBanks, h]

section replies

variable {c : Instr} {r : Req} {z : TablesAnswer} {k : Counter} {t : Tables} {a : Answer}

/-- A request at the Table Banks that is not taken changes nothing, and is not counted. -/
theorem replies_kept (hl : s.path.lostDrained)
    (h : exec c s = .next (((s.withTables z.1).withPath (s.path.countIf z.2.taken k)).answer port r z.2).finish)
    (hz : z = (s.ctl.tables, a)) (ha : a.taken = false) : Replies c s s port r a := by
  subst hz
  simp only [ha, Path.countIf, Bool.false_eq_true, if_false] at h
  exact replies_finish h rfl hl

/-- A request at the Table Banks that is taken writes the tables, and is counted. -/
theorem replies_written (hl : s.path.lostDrained)
    (h : exec c s = .next (((s.withTables z.1).withPath (s.path.countIf z.2.taken k)).answer port r z.2).finish)
    (hz : z = (t, a)) (ha : a.taken = true) :
    Replies c s ((s.withTables t).withPath (s.path.bump k 1)) port r a := by
  subst hz
  simp only [ha, Path.countIf, if_true] at h
  exact replies_finish h rfl (ParcelOrder.lostDrained_of_link hl rfl)

end replies

/-! ## Swaps and copies (R183) -/

theorem other_eq (id : BankId) : id.other = if id = .a then .b else .a := by cases id <;> rfl

theorem swapAnswer_copying {t : Tables} (h : t.copying = true) : swapAnswer t = (t, { status := .notTaken }) := if_pos h

theorem swapAnswer_idle {t : Tables} (h : t.copying = false) :
    swapAnswer t = ({ t with active := t.active.other, copying := true }, .done (.bank t.active.other)) :=
  if_neg (Bool.eq_false_iff.1 h)

theorem activeBank_eq (t : Tables) : t.activeBank = if t.active = .a then t.bankA else t.bankB := by
  unfold Tables.activeBank
  cases t.active <;> rfl

/-- The standby bank takes what the active bank holds, whichever is active. -/
theorem copied_eq (t : Tables) :
    t.copied = { t with bankA := t.activeBank, bankB := t.activeBank, copying := false } := by
  obtain ⟨_, _, active, _, _, _⟩ := t
  cases active <;> rfl

/-- Settles O35: both answers of SWAP BANKS, and the tables that the end of a copy leaves. -/
theorem banksAreSwappedAndCopied : Obligations.BanksAreSwappedAndCopied := by
  intro s port n src t other held hl
  have hother : other = t.active.other := (other_eq t.active).symm
  have hheld : held = t.activeBank := (activeBank_eq t).symm
  refine ⟨fun hr => ⟨fun hc => ?_, fun hc => ?_⟩, fun hc => ?_⟩
  · exact replies_kept hl (exec_swapBanks hr) (swapAnswer_copying hc) rfl
  · rw [hother]
    exact replies_written hl (exec_swapBanks hr) (swapAnswer_idle hc) rfl
  · rw [hheld, ← copied_eq]
    refine completes_finish ?_ rfl hl
    show execBankCopyComplete s = _
    rw [execBankCopyComplete, if_pos hc]

end Sys2Proof.Machine.LoadedTables
end

section
/-! PROOFS. LOAD TABLE of policies, branches and gear tables (O33, O34). -/

namespace Sys2Proof.Machine.LoadedTables

open Sys2Proof
open Sys2Proof.Machine.FingerprintIndex (control_legal_iff bank_legal_iff)

/-! ## Reads of what a load has written -/

section reads

variable {α : Type} [DecidableEq α]

/-- A number in the range written reads as its row, and any other as before. -/
theorem tabGetD_putRows (d : α) (rows : List α) {t : Tab α} (h : tabWf t = true) (first i : Nat) :
    tabGetD (putRows d t first rows) i d =
      if first ≤ i ∧ i < first + rows.length then rows.getD (i - first) d else tabGetD t i d := by
  induction rows generalizing t first with
  | nil => rw [if_neg (by simp)]; rfl
  | cons a rows ih =>
    rw [putRows, ih (tabPut_wf h d first a), List.length_cons]
    rcases Nat.lt_trichotomy i first with hlt | rfl | hgt
    · rw [if_neg (by omega), if_neg (by omega), tabGetD_tabPut_other t d (by omega)]
    · rw [if_neg (by omega), if_pos (by omega), tabGetD_tabPut_same h, Nat.sub_self]
      rfl
    · rw [tabGetD_tabPut_other t d (by omega), show i - first = i - (first + 1) + 1 by omega, List.getD_cons_succ]
      congr 1
      exact propext (by omega)

end reads

/-- No bank of a legal state lists a policy or a branch twice. -/
theorem standby_wf {s : State} (h : s.ctl.legal = true) :
    tabWf s.ctl.tables.standbyBank.policies = true ∧ tabWf s.ctl.tables.standbyBank.branches = true := by
  obtain ⟨-, ht, -, -⟩ := control_legal_iff.1 h
  obtain ⟨-, -, hp, hb⟩ := bank_legal_iff.1 (ht.bank s.ctl.tables.active.other)
  exact ⟨hp, hb⟩

theorem gear_wf {s : State} (h : s.ctl.legal = true) : tabWf s.ctl.tables.gear = true := by
  obtain ⟨-, ht, -, -⟩ := control_legal_iff.1 h
  exact ht.gear

/-! ## Ranges and values (R180) -/

theorem badRange_iff {α : Type} {first size : Nat} {rows : List α} :
    badRange first rows.length size = true ↔ rows = [] ∨ size < first + rows.length := by
  simp only [badRange, Bool.or_eq_true, decide_eq_true_eq, List.length_eq_zero_iff]

theorem badCode_iff {code : Nat} : badCode code = true ↔ code ≠ 1 ∧ code ≠ 2 := by
  simp only [badCode, Bool.not_eq_true', Bool.or_eq_false_iff, beq_eq_false_iff_ne]

theorem policy_bad_iff {e : PolicyRow} : PolicyRow.bad e = true ↔
    3 < e.gear ∨ 7 < e.cls ∨ 15 < e.warmUp ∨ 15 < e.linger ∨ e.confirm ≠ 1 ∧ e.confirm ≠ 2 := by
  simp only [PolicyRow.bad, Bool.or_eq_true, decide_eq_true_eq, badCode_iff, or_assoc]

theorem branch_bad_iff {e : BranchRow} : BranchRow.bad e = true ↔
    31 < e.policy ∨ 15 < e.holdTag ∨ e.enabled ≠ 1 ∧ e.enabled ≠ 2 ∨ e.impliedOpen ≠ 1 ∧ e.impliedOpen ≠ 2 ∨
      e.verifyAllowed ≠ 1 ∧ e.verifyAllowed ≠ 2 := by
  simp only [BranchRow.bad, Bool.or_eq_true, decide_eq_true_eq, badCode_iff, or_assoc]

/-- Retention days that fit their field are stored as given: only clamping changes the entry. -/
theorem stored_of_retention {e : PolicyEntry} (h : e.retention ≤ 65535) : PolicyEntry.stored e = PolicyEntry.clamped e := by
  have hn : narrow16 Config.wideRetention e.retention = e.retention := if_pos h
  rw [PolicyEntry.stored, hn]
  rfl

theorem stored_map_of_retention {rows : List PolicyRow} (h : ∀ e ∈ rows, e.retention ≤ 65535) :
    (rows.map PolicyRow.entry).map PolicyEntry.stored = (rows.map PolicyRow.entry).map PolicyEntry.clamped := by
  refine List.map_congr_left fun e he => ?_
  obtain ⟨row, hrow, rfl⟩ := List.mem_map.1 he
  exact stored_of_retention (h row hrow)

theorem gearInUse_iff {p : Path} {table : Nat} : p.gearInUse table = true ↔
    ∃ sc ∈ p.contexts, sc.2.state ≠ .linger ∧ sc.2.policy.gear = table := by
  have hopen (x : CtxState) : x.open? = true ↔ x ≠ .linger := by cases x <;> decide
  simp only [Path.gearInUse, List.any_eq_true, Bool.and_eq_true, beq_iff_eq, hopen]

theorem loaded_eq (P : Prop) [Decidable P] (rows : TableRows) :
    loaded (decide ¬ P) rows = { status := if P then .done else .doneAdjusted, result := .rows rows } := by
  by_cases h : P <;> simp [loaded, h]

theorem loaded_taken (adjusted : Bool) (rows : TableRows) : (loaded adjusted rows).taken = true := by
  cases adjusted <;> rfl

/-! ## The cases of a load of policies (R180) -/

section policies

variable {t : Tables} {first : Nat} {rows : List PolicyRow}

theorem loadPolicies_range (h : rows = [] ∨ 32 < first + rows.length) :
    loadPolicies t first rows = (t, .refuse .badValue) := if_pos (badRange_iff.2 h)

theorem policies_inRange (hne : rows ≠ []) (hle : first + rows.length ≤ 32) : ¬ badRange first rows.length 32 = true := by
  rw [badRange_iff, not_or, Nat.not_lt]
  exact ⟨hne, hle⟩

theorem loadPolicies_busy (hne : rows ≠ []) (hle : first + rows.length ≤ 32) (hc : t.copying = true) :
    loadPolicies t first rows = (t, .refuse .busy) := by
  rw [loadPolicies, if_neg (policies_inRange hne hle), if_neg (by omega), if_pos hc]

theorem loadPolicies_bad (hne : rows ≠ []) (hle : first + rows.length ≤ 32) (hc : t.copying = false)
    (hb : ∃ e ∈ rows, PolicyRow.bad e = true) : loadPolicies t first rows = (t, .refuse .badValue) := by
  rw [loadPolicies, if_neg (policies_inRange hne hle), if_neg (by omega), if_neg (Bool.eq_false_iff.1 hc),
    if_pos (List.any_eq_true.2 hb)]

theorem loadPolicies_taken (hne : rows ≠ []) (hle : first + rows.length ≤ 32) (hc : t.copying = false)
    (hb : ¬ ∃ e ∈ rows, PolicyRow.bad e = true) (hret : ∀ e ∈ rows, e.retention ≤ 65535) :
    let given := rows.map PolicyRow.entry
    let stored := given.map PolicyEntry.clamped
    loadPolicies t first rows =
      (t.setBank t.active.other { t.standbyBank with policies := putRows {} t.standbyBank.policies first stored },
        loaded (decide ¬ stored = given) (.policies stored)) := by
  intro given stored
  rw [loadPolicies, if_neg (policies_inRange hne hle), if_neg (by omega), if_neg (Bool.eq_false_iff.1 hc),
    if_neg (mt List.any_eq_true.1 hb)]
  dsimp only
  rw [stored_map_of_retention hret]
  rfl

end policies

/-! ## The cases of a load of branches (R180) -/

section branches

variable {t : Tables} {first : Nat} {rows : List BranchRow}

theorem loadBranches_range_iff : (badRange first rows.length 4096 || decide (first = 0)) = true ↔
    rows = [] ∨ 4096 < first + rows.length ∨ first = 0 := by
  rw [Bool.or_eq_true, badRange_iff, decide_eq_true_eq, or_assoc]

theorem loadBranches_range (h : rows = [] ∨ 4096 < first + rows.length ∨ first = 0) :
    loadBranches t first rows = (t, .refuse .badValue) := if_pos (loadBranches_range_iff.2 h)

theorem loadBranches_tooMany (h : ¬ (rows = [] ∨ 4096 < first + rows.length ∨ first = 0)) (hm : 64 < rows.length) :
    loadBranches t first rows = (t, .refuse .tooMany) := by
  rw [loadBranches, if_neg (mt loadBranches_range_iff.1 h), if_pos hm]

theorem loadBranches_busy (h : ¬ (rows = [] ∨ 4096 < first + rows.length ∨ first = 0)) (hm : rows.length ≤ 64)
    (hc : t.copying = true) : loadBranches t first rows = (t, .refuse .busy) := by
  rw [loadBranches, if_neg (mt loadBranches_range_iff.1 h), if_neg (by omega), if_pos hc]

theorem loadBranches_bad (h : ¬ (rows = [] ∨ 4096 < first + rows.length ∨ first = 0)) (hm : rows.length ≤ 64)
    (hc : t.copying = false) (hb : ∃ e ∈ rows, BranchRow.bad e = true) :
    loadBranches t first rows = (t, .refuse .badValue) := by
  rw [loadBranches, if_neg (mt loadBranches_range_iff.1 h), if_neg (by omega), if_neg (Bool.eq_false_iff.1 hc),
    if_pos (List.any_eq_true.2 hb)]

theorem loadBranches_taken (h : ¬ (rows = [] ∨ 4096 < first + rows.length ∨ first = 0)) (hm : rows.length ≤ 64)
    (hc : t.copying = false) (hb : ¬ ∃ e ∈ rows, BranchRow.bad e = true) :
    let given := rows.map BranchRow.entry
    let stored := given.map BranchEntry.clamped
    loadBranches t first rows =
      (t.setBank t.active.other { t.standbyBank with branches := putRows {} t.standbyBank.branches first stored },
        loaded (decide ¬ stored = given) (.branches stored)) := by
  rw [loadBranches, if_neg (mt loadBranches_range_iff.1 h), if_neg (by omega), if_neg (Bool.eq_false_iff.1 hc),
    if_neg (mt List.any_eq_true.1 hb)]
  rfl

end branches

/-! ## The cases of a load of a gear table (R180, R185) -/

section gears

variable {t : Tables} {inUse : Bool} {table first : Nat} {values : List Word32}

theorem loadGears_range_iff : (badRange first values.length 256 || decide (3 < table)) = true ↔
    values = [] ∨ 256 < first + values.length ∨ 3 < table := by
  rw [Bool.or_eq_true, badRange_iff, decide_eq_true_eq, or_assoc]

theorem loadGears_range (h : values = [] ∨ 256 < first + values.length ∨ 3 < table) :
    loadGears t inUse table first values = (t, .refuse .badValue) := if_pos (loadGears_range_iff.2 h)

theorem loadGears_tooMany (h : ¬ (values = [] ∨ 256 < first + values.length ∨ 3 < table)) (hm : 64 < values.length) :
    loadGears t inUse table first values = (t, .refuse .tooMany) := by
  rw [loadGears, if_neg (mt loadGears_range_iff.1 h), if_pos hm]

theorem loadGears_inUse (h : ¬ (values = [] ∨ 256 < first + values.length ∨ 3 < table)) (hm : values.length ≤ 64) :
    loadGears t true table first values = (t, .refuse .inUse) := by
  rw [loadGears, if_neg (mt loadGears_range_iff.1 h), if_neg (by omega), if_pos rfl]

theorem loadGears_taken (h : ¬ (values = [] ∨ 256 < first + values.length ∨ 3 < table)) (hm : values.length ≤ 64) :
    loadGears t false table first values =
      ({ t with gear := putRows 0 t.gear (256 * table + first) values }, loaded false (.gears values)) := by
  rw [loadGears, if_neg (mt loadGears_range_iff.1 h), if_neg (by omega), if_neg Bool.false_ne_true]

end gears

/-! ## Replies -/

section replies

variable {s : State} {port : Port} {n : Nat} {src : Mac} {load : TableLoad} {t : Tables}

theorem replies_loadRefused {why : Reason} (hl : s.path.lostDrained)
    (hr : s.headRequest port = some ⟨n, src, .loadTable load⟩)
    (h : loadAnswer s.ctl.tables s.path load = (s.ctl.tables, .refuse why)) :
    Replies (.loadTable port) s s port ⟨n, src, .loadTable load⟩ (.refuse why) :=
  replies_kept hl (exec_loadTable hr) h rfl

theorem replies_loaded {adjusted : Bool} {rows : TableRows} (hl : s.path.lostDrained)
    (hr : s.headRequest port = some ⟨n, src, .loadTable load⟩)
    (h : loadAnswer s.ctl.tables s.path load = (t, loaded adjusted rows)) :
    Replies (.loadTable port) s ((s.withTables t).withPath (s.path.bump .tableLoads 1)) port
      ⟨n, src, .loadTable load⟩ (loaded adjusted rows) :=
  replies_written hl (exec_loadTable hr) h (loaded_taken _ _)

end replies

/-- Settles O33: a bad row refuses the load; else the standby bank with the clamped rows put in it is the bank asked for. -/
theorem policiesAreLoaded : Obligations.PoliciesAreLoaded := by
  intro s port n first src rows stored t given hl hlegal hr hc hne hle
  refine ⟨fun ⟨e, he, hbad⟩ => ?_, fun hgood hstored => ?_⟩
  · exact replies_loadRefused hl hr (loadPolicies_bad hne hle hc ⟨e, he, policy_bad_iff.2 hbad⟩)
  · have hb : ¬ ∃ e ∈ rows, PolicyRow.bad e = true := by
      rintro ⟨e, he, hbad⟩
      have hvals := hgood e he
      have hout := policy_bad_iff.1 hbad
      omega
    have hclamped : stored = given.map PolicyEntry.clamped := hstored
    have hlen : stored.length = rows.length := by simp [hclamped, given]
    have hload := loadPolicies_taken hne hle hc hb fun e he => (hgood e he).2.2.2.2.1
    refine ⟨{ t.standbyBank with policies := putRows {} t.standbyBank.policies first stored }, ?_, rfl, fun i => ?_⟩
    · rw [← loaded_eq, hclamped]
      exact replies_loaded hl hr hload
    · rw [← hlen]
      exact tabGetD_putRows _ _ (standby_wf hlegal).1 first i

/-- Settles O34: each kind of load by the cases of R180 in their order; what is taken reads back by `tabGetD_putRows`. -/
theorem branchesAndGearsAreLoaded : Obligations.BranchesAndGearsAreLoaded := by
  intro s port n first src t hl hlegal
  refine ⟨fun load hr => ?_, fun rows stored hr hfirst hpos hm hle => ?_, fun table values hr htable hpos hm hle => ?_⟩
  · cases load with
    | policy first rows =>
      exact ⟨fun h => replies_loadRefused hl hr (loadPolicies_range h),
        fun hne hle hc => replies_loadRefused hl hr (loadPolicies_busy hne hle hc)⟩
    | branch first rows =>
      exact ⟨fun h => replies_loadRefused hl hr (loadBranches_range h),
        fun h hm => replies_loadRefused hl hr (loadBranches_tooMany h hm),
        fun h hm hc => replies_loadRefused hl hr (loadBranches_busy h hm hc)⟩
    | gear table first values =>
      exact ⟨fun h => replies_loadRefused hl hr (loadGears_range h),
        fun h hm => replies_loadRefused hl hr (loadGears_tooMany h hm)⟩
    | unknown kind => exact replies_loadRefused hl hr rfl
  · have hin : ¬ (rows = [] ∨ 4096 < first + rows.length ∨ first = 0) := by
      rw [← List.length_eq_zero_iff]
      omega
    refine ⟨fun hc ⟨e, he, hbad⟩ => ?_, ?_⟩
    · exact replies_loadRefused hl hr (loadBranches_bad hin hm hc ⟨e, he, branch_bad_iff.2 hbad⟩)
    · intro hc hgood given hstored
      have hb : ¬ ∃ e ∈ rows, BranchRow.bad e = true := by
        rintro ⟨e, he, hbad⟩
        have hvals := hgood e he
        have hout := branch_bad_iff.1 hbad
        omega
      have hclamped : stored = given.map BranchEntry.clamped := hstored
      have hlen : stored.length = rows.length := by simp [hclamped, given]
      refine ⟨{ t.standbyBank with branches := putRows {} t.standbyBank.branches first stored }, ?_, rfl, fun i => ?_⟩
      · rw [← loaded_eq, hclamped]
        exact replies_loaded hl hr (loadBranches_taken hin hm hc hb)
      · rw [← hlen]
        exact tabGetD_putRows _ _ (standby_wf hlegal).2 first i
  · have hin : ¬ (values = [] ∨ 256 < first + values.length ∨ 3 < table) := by
      rw [← List.length_eq_zero_iff]
      omega
    refine ⟨fun huse => ?_, fun hfree => ⟨putRows 0 t.gear (256 * table + first) values, ?_, fun i => ?_⟩⟩
    · refine replies_loadRefused hl hr ?_
      rw [loadAnswer, gearInUse_iff.2 huse]
      exact loadGears_inUse hin hm
    · have huse : s.path.gearInUse table = false := by
        rw [Bool.eq_false_iff, Ne, gearInUse_iff]
        rintro ⟨sc, hsc, hlinger, hgear⟩
        exact (hfree sc hsc).elim hlinger (absurd hgear)
      refine replies_loaded (adjusted := false) hl hr ?_
      rw [loadAnswer, huse]
      exact loadGears_taken hin hm
    · exact tabGetD_putRows _ _ (gear_wf hlegal) _ i

end Sys2Proof.Machine.LoadedTables
end

section
/-! PROOFS. Management requests on the wire: what each reader finds in what was written, and the frame of a request (O60). -/

namespace Sys2Proof.Wire

/-! ## Numbers (R202) -/

@[simp] theorem num_length (n v : Nat) : (num n v).length = n := by
  induction n generalizing v with
  | zero => rfl
  | succ n ih => simp [num, ih]

theorem value_append_byte (l : List Byte) (b : Byte) : value (l ++ [b]) = 256 * value l + b.toNat := by
  simp [value, List.foldl_append]

theorem value_num {n v : Nat} (h : fits n v = true) : value (num n v) = v := by
  induction n generalizing v with
  | zero =>
    have : v = 0 := by simpa [fits] using h
    subst this
    rfl
  | succ n ih =>
    have hv : fits n (v / 256) = true := by
      simp only [fits, decide_eq_true_eq, pow_succ] at h ⊢
      omega
    rw [num, value_append_byte, ih hv, BitVec.toNat_ofNat]
    omega

/-- A word of 8 n bits is a number of n bytes. -/
theorem fits_toNat {w n : Nat} (hw : w = 8 * n) (v : BitVec w) : fits n v.toNat = true := by
  have h := v.isLt
  subst hw
  simpa [fits, pow_mul] using h

/-- A number of one byte is that byte's. -/
theorem byte_toNat {v : Nat} (h : fits 1 v = true) : (BitVec.ofNat 8 (v % 256)).toNat = v := by
  simp only [fits, decide_eq_true_eq] at h
  rw [BitVec.toNat_ofNat]
  omega

theorem take_num (n v : Nat) (rest : List Byte) : (num n v ++ rest).take n = num n v :=
  List.take_left' (num_length n v)

theorem drop_num (n v : Nat) (rest : List Byte) : (num n v ++ rest).drop n = rest :=
  List.drop_left' (num_length n v)

/-! ## Readers -/

/-- A reader finds a value at the front of any bytes that begin with the given ones, and leaves the rest. -/
def Reads {α : Type} (read : List Byte → Option (α × List Byte)) (bytes : List Byte) (a : α) : Prop :=
  ∀ rest, read (bytes ++ rest) = some (a, rest)

section readers

variable {α β : Type} {read : List Byte → Option (α × List Byte)} {write : α → List Byte} {bytes : List Byte} {a : α}

theorem readNum_num {n v : Nat} (h : fits n v = true) : Reads (readNum n) (num n v) v := by
  intro rest
  rw [readNum, if_pos (by simp), take_num, drop_num, value_num h]

theorem readFlag_flag (b : Bool) : Reads readFlag (flag b) b := by
  intro rest
  cases b <;> rfl

theorem Reads.map (h : Reads read bytes a) (f : α → β) :
    Reads (fun l => (read l).map fun r => (f r.1, r.2)) bytes (f a) := by
  intro rest
  simp only [h rest, Option.map_some]

/-- What a reader finds at the end of the arguments is the request. -/
theorem Reads.whole (h : Reads read bytes a) (f : α → β) :
    Wire.whole ((read bytes).map fun r => (f r.1, r.2)) = some (f a) := by
  have := h []
  rw [List.append_nil] at this
  rw [this]
  rfl

theorem readMany_flatMap {l : List α} (h : ∀ a ∈ l, Reads read (write a) a) :
    Reads (readMany read l.length) (l.flatMap write) l := by
  intro rest
  induction l with
  | nil => rfl
  | cons a l ih =>
    have ha := h a List.mem_cons_self
    rw [List.flatMap_cons, List.append_assoc, List.length_cons, readMany, ha]
    simp only [ih fun b hb => h b (List.mem_cons_of_mem a hb)]

theorem readList_list {l : List α} (hl : fits 1 l.length = true) (h : ∀ a ∈ l, Reads read (write a) a) :
    Reads (readList read) (list write l) l := by
  intro rest
  show readMany read (BitVec.ofNat 8 (l.length % 256)).toNat (l.flatMap write ++ rest) = _
  rw [byte_toNat hl]
  exact readMany_flatMap h rest

/-- No value is written in fewer than one byte, so a list has no more values than bytes. -/
theorem length_le_flatMap (l : List α) (h : ∀ a, 1 ≤ (write a).length) : l.length ≤ (l.flatMap write).length := by
  induction l with
  | nil => simp
  | cons a l ih =>
    have := h a
    rw [List.flatMap_cons, List.length_append, List.length_cons]
    omega

end readers

/-! ## Arguments of the requests (R202, R203) -/

/-- A word of 8 n bits is read from n bytes. -/
theorem readNum_toNat {w n : Nat} (hw : w = 8 * n) (v : BitVec w) :
    Reads (fun l => (readNum n l).map fun r => (BitVec.ofNat w r.1, r.2)) (num n v.toNat) v := by
  have h := (readNum_num (fits_toNat hw v)).map (BitVec.ofNat w)
  rwa [BitVec.ofNat_toNat, BitVec.setWidth_eq] at h

theorem readFp_num (f : Fingerprint) : Reads readFp (num 16 f.toNat) f := readNum_toNat (n := 16) rfl f

theorem readWord_num (w : Word32) : Reads readWord (num 4 w.toNat) w := readNum_toNat (n := 4) rfl w

theorem readMask_num (m : Mask16) : Reads readMask (num 2 m.toNat) m := readNum_toNat (n := 2) rfl m

theorem readMac_num (a : Mac) : Reads readMac (num 6 a.toNat) a := readNum_toNat (n := 6) rfl a

/-- `readNum_num` with what follows written out, for the readers of several numbers. -/
theorem readNum_append {n v : Nat} (h : fits n v = true) (rest : List Byte) :
    readNum n (num n v ++ rest) = some (v, rest) := readNum_num h rest

theorem readNum_last {n v : Nat} (h : fits n v = true) : readNum n (num n v) = some (v, []) := by
  simpa using readNum_num h []

theorem readRetire_item {i : Fingerprint × Nat} (h : retireWf i = true) : Reads readRetire (retireItem i) i := by
  intro rest
  simp only [retireWf] at h
  simp [readRetire, retireItem, readFp_num _ _, readNum_append, h]

theorem readRestore_item {i : RestoreEntry} (h : i.wf = true) : Reads readRestore (restoreItem i) i := by
  intro rest
  simp only [RestoreEntry.wf, Bool.and_eq_true] at h
  simp [readRestore, restoreItem, readFp_num _ _, readWord_num _ _, readMask_num _ _, readNum_append, h]

theorem readPolicy_row {e : PolicyRow} (h : e.wf = true) : Reads readPolicy (policyRow e) e := by
  intro rest
  simp only [PolicyRow.wf, Bool.and_eq_true] at h
  simp [readPolicy, policyRow, readNum_append, h]

theorem readBranch_row {e : BranchRow} (h : e.wf = true) : Reads readBranch (branchRow e) e := by
  intro rest
  simp only [BranchRow.wf, Bool.and_eq_true] at h
  simp [readBranch, branchRow, readNum_append, h]

/-! ## LOAD TABLE, READ TABLE and SET SETTINGS (R180, R182, R187)

What follows a kind or a name that the part does not know is left, so that these read their arguments up to the end. -/

/-- The rows of a LOAD TABLE are read: the check of their count against the bytes there are lets them pass. -/
theorem readRows {α β : Type} {read : List Byte → Option (α × List Byte)} {write : α → List Byte} {l : List α}
    (hone : ∀ a, 1 ≤ (write a).length) (h : ∀ a ∈ l, Reads read (write a) a) (f : List α → β) :
    (if (l.flatMap write).length < l.length then none
      else (readMany read l.length (l.flatMap write)).bind fun r => some (f r.1, r.2)) = some (f l, []) := by
  have hm := readMany_flatMap h []
  rw [List.append_nil] at hm
  rw [if_neg (Nat.not_lt.2 (length_le_flatMap l hone)), hm]
  rfl

theorem readLoad_args {l : TableLoad} (h : l.wf = true) : readLoad (loadArgs l) = some (l, []) := by
  cases l with
  | policy first rows =>
    simp only [TableLoad.wf, Bool.and_eq_true, List.all_eq_true] at h
    have hrows := readRows (write := policyRow) (fun e => by simp [policyRow]) (fun e he => readPolicy_row (h.2 e he))
      (TableLoad.policy first)
    have hk : fits 1 1 = true := rfl
    simpa [readLoad, loadArgs, readNum_append, h, hk] using hrows
  | branch first rows =>
    simp only [TableLoad.wf, Bool.and_eq_true, List.all_eq_true] at h
    have hrows := readRows (write := branchRow) (fun e => by simp [branchRow]) (fun e he => readBranch_row (h.2 e he))
      (TableLoad.branch first)
    have hk : fits 1 2 = true := rfl
    simpa [readLoad, loadArgs, readNum_append, h, hk] using hrows
  | gear table first values =>
    simp only [TableLoad.wf, Bool.and_eq_true] at h
    have hrows := readRows (write := fun v : Word32 => num 4 v.toNat) (l := values) (fun v => by simp)
      (fun v _ => readWord_num v) (TableLoad.gear table first)
    have hk : fits 1 3 = true := rfl
    simpa [readLoad, loadArgs, readNum_append, h, hk] using hrows
  | unknown kind =>
    simp only [TableLoad.wf, Bool.and_eq_true, Bool.or_eq_true, decide_eq_true_eq] at h
    have hk : kind ≠ 1 ∧ kind ≠ 2 ∧ kind ≠ 3 := by omega
    simp [readLoad, loadArgs, readNum_last, h.1, hk]

theorem readRead_args {q : TableRead} (h : q.wf = true) : readRead (readArgs q) = some (q, []) := by
  have kinds : fits 1 1 = true ∧ fits 1 2 = true ∧ fits 1 3 = true := by decide
  cases q with
  | policy bank first count =>
    simp only [TableRead.wf, Bool.and_eq_true] at h
    simp [readRead, readArgs, readNum_append, readNum_last, h, kinds]
  | branch bank first count =>
    simp only [TableRead.wf, Bool.and_eq_true] at h
    simp [readRead, readArgs, readNum_append, readNum_last, h, kinds]
  | gear table first count =>
    simp only [TableRead.wf, Bool.and_eq_true] at h
    simp [readRead, readArgs, readNum_append, readNum_last, h, kinds]
  | unknown kind =>
    simp only [TableRead.wf, Bool.and_eq_true, Bool.or_eq_true, decide_eq_true_eq] at h
    have hk : kind ≠ 1 ∧ kind ≠ 2 ∧ kind ≠ 3 := by omega
    simp [readRead, readArgs, readNum_last, h.1, hk]

theorem readSetting_args {w : SettingWrite} (h : w.wf = true) : Reads readSetting (settingArgs w) w := by
  intro rest
  have hn (n : Nat) (hn : n < 256) (l : List Byte) : readNum 1 (num 1 n ++ l) = some (n, l) :=
    readNum_append (by simpa [fits] using hn) l
  cases w with
  | unknown name => cases h
  | storeAddr a => simp [readSetting, settingArgs, hn, readMac_num _ _]
  | alertMask m => simp [readSetting, settingArgs, hn, readMask_num _ _]
  | _ =>
    simp only [SettingWrite.wf] at h
    simp [readSetting, settingArgs, hn, readNum_append, h]

/-- A known field begins with its name, a number from 1 to 10. -/
theorem settingArgs_known {w : SettingWrite} (h : w.wf = true) :
    ∃ name tail, settingArgs w = name :: tail ∧ ¬ (name = 0 ∨ 10 < name.toNat) := by
  cases w with
  | unknown name => cases h
  | _ => exact ⟨_, _, rfl, by decide⟩

theorem readSettings_args {writes : List SettingWrite} (h : settingsWf writes = true) :
    readSettings writes.length (writes.flatMap settingArgs) = some (writes, []) := by
  induction writes using settingsWf.induct with
  | case1 => rfl
  | case2 name =>
    simp only [settingsWf, Bool.and_eq_true, Bool.or_eq_true, decide_eq_true_eq] at h
    have hn := byte_toNat h.1
    have hk : BitVec.ofNat 8 (name % 256) = 0 ∨ 10 < (BitVec.ofNat 8 (name % 256)).toNat :=
      h.2.imp (fun h0 => by rw [h0]; rfl) fun h10 => by rwa [hn]
    show readSettings 1 [BitVec.ofNat 8 (name % 256)] = _
    rw [readSettings, if_pos hk, hn]
  | case3 w l hw ih =>
    rw [settingsWf.eq_3 w l hw, Bool.and_eq_true] at h
    obtain ⟨name, tail, hargs, hname⟩ := settingArgs_known h.1
    have hread := readSetting_args h.1 (l.flatMap settingArgs)
    rw [hargs, List.cons_append] at hread
    rw [List.flatMap_cons, hargs, List.cons_append, List.length_cons, readSettings, if_neg hname, hread]
    simp only [ih h.2]

theorem readSettingList_args {writes : List SettingWrite} (hl : fits 1 writes.length = true)
    (h : settingsWf writes = true) : readSettingList (list settingArgs writes) = some (writes, []) := by
  show readSettings (BitVec.ofNat 8 (writes.length % 256)).toNat (writes.flatMap settingArgs) = _
  rw [byte_toNat hl]
  exact readSettings_args h

/-! ## The arguments of every request (R202) -/

theorem signedValue_signed {v : Int} (hlo : -2147483648 ≤ v) (hhi : v < 2147483648) :
    signedValue (v % 4294967296).toNat = v := by
  unfold signedValue
  split <;> omega

theorem readRequest_unknown {code : Nat} (h : knownCode code = false) (args : List Byte) :
    readRequest code args = some (.unknown code) := by
  unfold readRequest
  split
  case h_27 => rfl
  all_goals cases h

/-- The request that a code and arguments were written for is read from them. -/
theorem readRequest_args {r : Request} (h : r.wf = true) : readRequest (requestArgs r).1 (requestArgs r).2 = some r := by
  have lastFlag (b : Bool) : readFlag (flag b) = some (b, []) := by
    simpa using readFlag_flag b []
  cases r with
  | unknown code =>
    simp only [Request.wf, Bool.and_eq_true, Bool.not_eq_true'] at h
    exact readRequest_unknown h.2 _
  | clearFlags mask => exact (readMask_num mask).whole Request.clearFlags
  | setSettings writes =>
    simp only [Request.wf, Bool.and_eq_true] at h
    simp [requestArgs, readRequest, readSettingList_args, h, whole]
  | loadTable l =>
    show whole ((readLoad (loadArgs l)).map fun r => (Request.loadTable r.1, r.2)) = _
    rw [readLoad_args h]
    rfl
  | readTable q =>
    show whole ((readRead (readArgs q)).map fun r => (Request.readTable r.1, r.2)) = _
    rw [readRead_args h]
    rfl
  | nudge amount =>
    simp only [Request.wf, Bool.and_eq_true, decide_eq_true_eq] at h
    have hv : fits 4 (amount % 4294967296).toNat = true := by
      simp only [fits, decide_eq_true_eq]
      omega
    simp [requestArgs, readRequest, signed, readNum_last hv, signedValue_signed h.1 h.2, whole]
  | retire items =>
    simp only [Request.wf, Bool.and_eq_true, List.all_eq_true] at h
    exact (readList_list h.1 fun i hi => readRetire_item (h.2 i hi)).whole Request.retire
  | restoreEntries items =>
    simp only [Request.wf, Bool.and_eq_true, List.all_eq_true] at h
    exact (readList_list h.1 fun i hi => readRestore_item (h.2 i hi)).whole Request.restoreEntries
  | readEntry f => exact (readFp_num f).whole Request.readEntry
  | setManagementSources l =>
    exact (readList_list (write := fun a : Mac => num 6 a.toNat) h fun a _ => readMac_num a).whole
      Request.setManagementSources
  | setExclusion range first last active =>
    simp only [Request.wf, Bool.and_eq_true] at h
    simp [requestArgs, readRequest, readNum_append, lastFlag, h, whole]
  | setHold tag active =>
    simp only [Request.wf] at h
    simp [requestArgs, readRequest, readNum_append, lastFlag, h, whole]
  | _ =>
    simp only [Request.wf, Bool.and_eq_true] at h
    simp [requestArgs, readRequest, readNum_append, readNum_last, h, whole]

theorem requestArgs_code {r : Request} (h : r.wf = true) : fits 1 (requestArgs r).1 = true := by
  cases r with
  | unknown code =>
    simp only [Request.wf, Bool.and_eq_true] at h
    exact h.1
  | _ => rfl

/-! ## Frames (R202) -/

/-- A frame of the EtherType in force is read by what follows its type field. -/
theorem classifyFrame_inForce {etherType : Nat} {dest source : Mac} {f rest : List Byte} (ht : fits 2 etherType = true)
    (hf : f = num 6 dest.toNat ++ (num 6 source.toNat ++ (num 2 etherType ++ rest))) (hl : f.length ≤ longest)
    (port : Port) : classifyFrame etherType port f = classifyLavrow port source rest := by
  have h6 : f.drop 6 = num 6 source.toNat ++ (num 2 etherType ++ rest) := by rw [hf, drop_num]
  have h12 : f.drop 12 = num 2 etherType ++ rest := by rw [show 12 = 6 + 6 from rfl, ← List.drop_drop, h6, drop_num]
  have h14 : f.drop 14 = rest := by rw [show 14 = 12 + 2 from rfl, ← List.drop_drop, h12, drop_num]
  have hmin : ¬ f.length < 14 := by
    rw [hf]
    simp only [List.length_append, num_length]
    omega
  have hsource : BitVec.ofNat 48 (value (num 6 source.toNat)) = source := by
    rw [value_num (fits_toNat (n := 6) rfl source), BitVec.ofNat_toNat, BitVec.setWidth_eq]
  rw [classifyFrame, if_neg (Nat.not_lt.2 hl), if_neg hmin, h12, take_num, value_num ht, if_pos rfl, h6, take_num, hsource,
    h14]

/-- A parcel with whatever follows it is read by its kind, its header fields and its body (R202, R204). -/
theorem classifyLavrow_parcel {kind branch stream : Nat} {body : List Byte} (hk : 1 ≤ kind ∧ kind ≤ 5)
    (hb : branch < 4096) (hs : fits 1 stream = true) (hl : body.length < 65536) (port : Port) (source : Mac)
    (pad : List Byte) :
    classifyLavrow port source (parcel kind branch stream body ++ pad) =
      classifyBody port source kind branch stream body := by
  have hkind : (BitVec.ofNat 8 kind).toNat = kind := by
    rw [BitVec.toNat_ofNat]
    omega
  have hbranch : value (num 2 branch) % 4096 = branch := by
    rw [value_num (by simp only [fits, decide_eq_true_eq]; omega)]
    omega
  have hlength : value (num 2 body.length) = body.length := value_num (by simpa [fits] using hl)
  generalize hB : parcel kind branch stream body ++ pad = b
  replace hB : b = BitVec.ofNat 8 kind :: 1 :: (num 2 branch ++ BitVec.ofNat 8 (stream % 256) :: 0 ::
      (num 2 body.length ++ (body ++ pad))) := by rw [← hB]; rfl
  have hlen : b.length = 8 + (body.length + pad.length) := by
    rw [hB]
    simp only [List.length_cons, List.length_append, num_length]
    omega
  have hbody : (b.drop 8).take body.length = body := by
    rw [hB]
    exact List.take_left
  have hver : b.getD 1 0 = 1 := by rw [hB]; rfl
  have hk0 : (b.getD 0 0).toNat = kind := by rw [hB]; exact hkind
  have hst : (b.getD 4 0).toNat = stream := by rw [hB]; exact byte_toNat hs
  have hbr : (b.drop 2).take 2 = num 2 branch := by rw [hB]; rfl
  have hle : (b.drop 6).take 2 = num 2 body.length := by rw [hB]; rfl
  unfold classifyLavrow
  simp only [hk0, hst, hbr, hle, hver, hbranch, hlength, hbody]
  rw [if_neg (by omega), if_neg (by simp), if_neg (by omega), if_neg (by omega), if_pos (.inl hk), if_neg (by omega)]

/-- The body of a request's parcel is read as the request. -/
theorem classifyBody_request {number : Nat} {r : Request} (hn : fits 2 number = true) (hr : r.wf = true) (port : Port)
    (source : Mac) :
    classifyBody port source 0x05 0 0 (num 2 number ++ (num 1 (requestArgs r).1 ++ ([0] ++ (requestArgs r).2))) =
      .mgmtParcel port source number r := by
  generalize hB : num 2 number ++ (num 1 (requestArgs r).1 ++ ([0] ++ (requestArgs r).2)) = b
  have hnumber : value (b.take 2) = number := by rw [← hB, take_num, value_num hn]
  have hcode : value ((b.drop 2).take 1) = (requestArgs r).1 := by
    rw [← hB, drop_num, take_num, value_num (requestArgs_code hr)]
  have hargs : b.drop 4 = (requestArgs r).2 := by rw [← hB]; rfl
  have hlen : 4 ≤ b.length := by
    rw [← hB]
    simp only [List.length_append, num_length, List.length_singleton]
    omega
  unfold classifyBody
  simp only [hnumber, hcode, hargs, hlen, readRequest_args hr, and_self, if_true]

/-- Settles O60: the frame is read by its type field, its parcel header and its body, and the arguments in the body are read
back by `readRequest_args`. -/
theorem managementFramesAreReadBack : Obligations.ManagementFramesAreReadBack := by
  intro port source dest number etherType r f hnumber hr htype hlong hf
  have ht : fits 2 etherType = true := by simpa [fits] using htype
  have hn : fits 2 number = true := by simpa [fits] using hnumber
  simp only [wireFrame, content, Option.map_some, Option.some.injEq, frame, List.append_assoc] at hf
  rw [classifyFrame_inForce ht hf.symm hlong, classifyLavrow_parcel (by decide) (by decide) rfl ?_,
    classifyBody_request hn hr]
  rw [← hf] at hlong
  simp only [parcel, List.length_append] at hlong
  simp only [List.length_append]
  omega

end Sys2Proof.Wire
end

section
/-! PROOFS. The requests that read the part and clear its flags (O30). -/

namespace Sys2Proof.Machine.DeviceModes

open Sys2Proof
open Sys2Proof.Machine.ParcelOrder (lostDrained_of_link allKnown allKnown_of_keeps sSettled iSettled finish_eq_grantI
  finish_eq_grantS grantI_of_iSettled grantS_of_sSettled grantS_side)

/-! ## A reply at a port (R189, R191)

Where its FIFO has room the reply takes a place and the request leaves its queue; else the reply waits in the hold list and
the request stays at the head. -/

section replies

variable {p : Path} {now : Nat} {r : Req} {a : Answer}

theorem respond_i_room (h : p.replyRoom .i = true) :
    p.respond now .i r a = { p.bump .requestsHandled 1 with
      iPort := { p.iPort with fifo := p.iPort.fifo ++ [.reply (r.reply (some .i) a)] }
      iQueue := ⟨p.iQueue.reqs.tail, .waiting⟩ } := if_pos h

theorem respond_i_full (h : p.replyRoom .i = false) :
    p.respond now .i r a = { p.bump .requestsHandled 1 with
      iPort := { p.iPort with hold := p.iPort.hold ++ [.reply (r.reply (some .i) a)] }
      iQueue := { p.iQueue with head := .replying } } := if_neg (Bool.eq_false_iff.1 h)

theorem respond_s_room (h : p.replyRoom .s = true) :
    p.respond now .s r a = { p.bump .requestsHandled 1 with
      sPort := { p.sPort with fifo := p.sPort.fifo ++ [(now, .reply (r.reply (some .s) a))] }
      sQueue := ⟨p.sQueue.reqs.tail, .waiting⟩ } := if_pos h

theorem respond_s_full (h : p.replyRoom .s = false) :
    p.respond now .s r a = { p.bump .requestsHandled 1 with
      sPort := { p.sPort with hold := p.sPort.hold ++ [.reply (r.reply (some .s) a)] }
      sQueue := { p.sQueue with head := .replying } } := if_neg (Bool.eq_false_iff.1 h)

theorem respond_queue (port : Port) : (p.respond now port r a).queue port =
    if p.replyRoom port then ⟨(p.queue port).reqs.tail, .waiting⟩ else { p.queue port with head := .replying } := by
  cases h : p.replyRoom port <;> cases port
  · rw [respond_i_full h]; rfl
  · rw [respond_s_full h]; rfl
  · rw [respond_i_room h]; rfl
  · rw [respond_s_room h]; rfl

theorem respond_counters (port : Port) :
    (p.respond now port r a).counters = (p.bump .requestsHandled 1).counters := by
  cases h : p.replyRoom port <;> cases port
  · rw [respond_i_full h]
  · rw [respond_s_full h]
  · rw [respond_i_room h]
  · rw [respond_s_room h]

end replies

/-! ## Grants where nothing is held (R163, R173) -/

theorem hold_nil_of_iRoom {p : Path} (h : p.replyRoom .i = true) : p.iPort.hold = [] := by
  simp only [Path.replyRoom, IPort.room, Bool.and_eq_true, List.isEmpty_iff] at h
  exact h.1

theorem hold_nil_of_sRoom {p : Path} (h : p.replyRoom .s = true) : p.sPort.hold = [] := by
  simp only [Path.replyRoom, SPort.room, Bool.and_eq_true, List.isEmpty_iff] at h
  exact h.1

theorem refillI_of_hold_nil {p : Path} (h : p.iPort.hold = []) (n : Nat) : Path.refillI n p = p := by
  cases n with
  | zero => rfl
  | succ n => simp only [Path.refillI, h]

theorem refillS_of_hold_nil {p : Path} (h : p.sPort.hold = []) (now n : Nat) : Path.refillS now n p = p := by
  cases n with
  | zero => rfl
  | succ n => simp only [Path.refillS, h]

/-- A grant of the I-port whose FIFO no item waits for changes the I-port alone. -/
theorem grantI_alone {p : Path} (h : p.iPort.hold = []) : ∃ q, p.grantI = { p with iPort := q } := by
  unfold Path.grantI
  split
  · split
    · exact ⟨_, rfl⟩
    · split
      · exact ⟨_, refillI_of_hold_nil (by exact h) 64⟩
      · exact ⟨p.iPort, rfl⟩
  · exact ⟨p.iPort, rfl⟩

/-- A grant of the S-port whose SIDE no item waits for changes the S-port alone, where DATA is empty as it falls idle. -/
theorem grantS_alone {p : Path} (c : Control) (h : p.sPort.hold = [])
    (hd : p.sPort.carrier = true → p.sPort.tx = none → p.sPort.noData) : ∃ q, p.grantS c = { p with sPort := q } := by
  by_cases hi : p.sPort.carrier = true ∧ p.sPort.tx = none
  · have hn := hd hi.1 hi.2
    cases hf : p.sPort.fifo with
    | nil => exact ⟨p.sPort, grantS_of_sSettled (fun _ _ => ⟨hf, (dataEmpty_iff _).2 hn⟩) c⟩
    | cons e rest =>
      obtain ⟨-, hnot, -⟩ | ⟨-, hg⟩ := grantS_side hi.1 hi.2 hf (.inr (.inl hn) : c.promotes e.1 ∨ _)
      · exact absurd hn hnot
      · rw [hg, Path.grantSide, hf]
        exact ⟨_, refillS_of_hold_nil (by exact h) c.now 64⟩
  · refine ⟨p.sPort, ?_⟩
    rw [grantS_of_sSettled (fun hc ht => absurd ⟨hc, ht⟩ hi)]

/-- Where no transmitter is idle with something to take and every waiting request is known, a command that answers a request
ends with a grant of that port alone, which leaves the request queues and the counters. -/
theorem finish_respond {p : Path} (hl : p.lostDrained) (hw : p.working) (hk : allKnown p) (now : Nat) (port : Port)
    (r : Req) (a : Answer) (c : Control) (x : Index) :
    (((p.respond now port r a).finish c x).queue port = (p.respond now port r a).queue port) ∧
      ((p.respond now port r a).finish c x).counters = (p.respond now port r a).counters := by
  have keeps := keeps_respond p now port r a
  have hl' := keeps.lostDrained hl
  have hk' := allKnown_of_keeps keeps hk
  cases port with
  | i =>
    suffices h : sSettled (p.respond now .i r a) ∧
        ∃ q, (p.respond now .i r a).grantI = { p.respond now .i r a with iPort := q } by
      obtain ⟨hs, q, hq⟩ := h
      rw [finish_eq_grantI hl' hk' hs, hq]
      exact ⟨rfl, rfl⟩
    cases h : p.replyRoom .i with
    | true =>
      have hold := hold_nil_of_iRoom h
      rw [respond_i_room h]
      exact ⟨hw.1, grantI_alone hold⟩
    | false =>
      rw [respond_i_full h]
      exact ⟨hw.1, _, grantI_of_iSettled hw.2⟩
  | s =>
    suffices h : iSettled (p.respond now .s r a) ∧
        ∃ q, (p.respond now .s r a).grantS c = { p.respond now .s r a with sPort := q } by
      obtain ⟨hi, q, hq⟩ := h
      rw [finish_eq_grantS hl' hk' hi, hq]
      exact ⟨rfl, rfl⟩
    cases h : p.replyRoom .s with
    | true =>
      have hold := hold_nil_of_sRoom h
      rw [respond_s_room h]
      exact ⟨hw.2, grantS_alone c hold fun hc ht => (dataEmpty_iff _).1 (hw.1 hc ht).2⟩
    | false =>
      rw [respond_s_full h]
      exact ⟨hw.2, _, grantS_of_sSettled (by exact hw.1) c⟩

/-! ## The requests (R194, R196, R197, R198) -/

section requests

variable {s : State} {port : Port} {n : Nat} {src : Mac}

theorem exec_identify (h : s.headRequest port = some ⟨n, src, .identify⟩) :
    exec (.identify port) s = .next (s.answer port ⟨n, src, .identify⟩ (.done .identity)).finish := by
  show execIdentify port s = _
  simp only [execIdentify, h]

theorem exec_readStatus (h : s.headRequest port = some ⟨n, src, .readStatus⟩) :
    exec (.readStatus port) s = .next (s.answer port ⟨n, src, .readStatus⟩ (.done (.status s.statusReport))).finish := by
  show execReadStatus port s = _
  simp only [execReadStatus, h]

theorem exec_clearFlags {mask : Mask16} (h : s.headRequest port = some ⟨n, src, .clearFlags mask⟩) :
    exec (.clearFlags port) s = .next ((s.withPath (clearFlagsAnswer s.path mask).1).answer port
      ⟨n, src, .clearFlags mask⟩ (clearFlagsAnswer s.path mask).2).finish := by
  show execClearFlags port s = _
  simp only [execClearFlags, h]

theorem exec_readCounters {option : Nat} (h : s.headRequest port = some ⟨n, src, .readCounters option⟩) :
    exec (.readCounters port) s = .next ((s.withPath (readCountersAnswer s.path option).1).answer port
      ⟨n, src, .readCounters option⟩ (readCountersAnswer s.path option).2).finish := by
  show execReadCounters port s = _
  simp only [execReadCounters, h]

end requests

/-- Every context is in one of the five states of R2 that are not FREE. -/
theorem length_by_state (l : Tab Context) :
    ([CtxState.opening, .active, .draining, .quiescing, .linger].map fun st =>
      (l.filter fun x => x.2.state = st).length).sum = l.length := by
  induction l with
  | nil => rfl
  | cons x l ih =>
    simp only [List.map_cons, List.map_nil, List.sum_cons, List.sum_nil] at ih
    cases h : x.2.state <;> simp [h] <;> omega

/-- Every place in the order of READ COUNTERS is a counter's. -/
theorem exists_counter_at {i : Nat} (h : i < counterCount) : ∃ c : Counter, c.place = i :=
  ⟨Counter.ofNat i, by revert i; decide⟩

/-- A list of all counters in their order is what READ COUNTERS answers (R196). -/
theorem counterValues_eq {p : Path} {values : List Nat} (hn : values.length = 65)
    (h : ∀ c : Counter, values[c.place]? = some (p.counter c)) : values = p.counterValues := by
  refine List.ext_getElem? fun i => ?_
  rcases Nat.lt_or_ge i counterCount with hi | hi
  · obtain ⟨c, rfl⟩ := exists_counter_at hi
    rw [h c, Path.counterValues, List.getElem?_map, List.getElem?_range hi]
    rfl
  · rw [List.getElem?_eq_none (hn.trans_le hi), List.getElem?_eq_none (by simpa [Path.counterValues] using hi)]

/-- Settles O30: each answer is its request's case, and what a handled IDENTIFY leaves of the queues and counters is what its
reply leaves. -/
theorem thePartIsRead : Obligations.ThePartIsRead := by
  intro s port n src hl
  refine ⟨fun hr => ⟨replies_finish (exec_identify hr) rfl hl, fun hw hk => ?_⟩,
    fun hr => ⟨replies_finish (exec_readStatus hr) rfl hl, fun hc => ?_⟩, fun option values hr hn h => ?_,
    fun mask hr => ?_⟩
  · obtain ⟨hqueue, hcounters⟩ := finish_respond hl hw hk s.ctl.now port ⟨n, src, .identify⟩ (.done .identity) s.ctl s.idx
    refine ⟨_, exec_identify hr, ?_, hqueue.trans (respond_queue port)⟩
    have hcount := counter_congr (hcounters.trans (respond_counters port)) .requestsHandled
    exact hcount.trans (counter_bump_one s.path .requestsHandled)
  · have hsum := length_by_state s.path.contexts
    show (384 - s.path.contexts.length) + List.sum _ = 384
    rw [hsum]
    omega
  · have hex := exec_readCounters hr
    obtain rfl := counterValues_eq hn h
    refine ⟨?_, ?_, fun h1 h2 => ?_⟩
    · rintro rfl
      exact replies_finish hex rfl (lostDrained_of_link hl rfl)
    · rintro rfl
      exact replies_finish hex rfl hl
    · rw [readCountersAnswer, if_neg h1, if_neg h2] at hex
      exact replies_finish hex rfl hl
  · have hex := exec_clearFlags hr
    refine ⟨fun hm => ?_, fun hm => ?_⟩
    · rw [clearFlagsAnswer, noFlag, if_pos hm] at hex
      exact replies_finish hex rfl (lostDrained_of_link hl rfl)
    · rw [clearFlagsAnswer, noFlag, if_neg hm] at hex
      exact replies_finish hex rfl hl

end Sys2Proof.Machine.DeviceModes
end

section
/-! PROOFS. Requests that arrive (O27), and SET MODE (O46). -/

namespace Sys2Proof.Machine.DeviceModes

open Sys2Proof
open Sys2Proof.Machine.ParcelOrder (lostDrained_of_link queue_setQueue_same)

/-! ## The source check and the queue of 8 (R190, R191) -/

section arrivals

variable {p : Path} {c : Control} {port : Port} {r : Req}

theorem passesSources_iff {sources : List Mac} {source : Mac} :
    passesSources sources source = true ↔ sources = [] ∨ source ∈ sources := by
  simp only [passesSources, Bool.or_eq_true, List.isEmpty_iff, List.contains_iff_mem]

theorem arrive_stranger (hs : c.sources ≠ []) (hr : r.source ∉ c.sources) :
    p.arrive c port r = (p.bump .requestsDropped 1).setFlag .mgmtDrop :=
  if_neg fun h => (passesSources_iff.1 h).elim hs hr

theorem arrive_joins (hs : c.sources = [] ∨ r.source ∈ c.sources) (hq : (p.queue port).reqs.length < 8) :
    p.arrive c port r = p.setQueue port { p.queue port with reqs := (p.queue port).reqs ++ [r] } := by
  rw [Path.arrive, if_pos (passesSources_iff.2 hs), if_neg (Nat.not_le.2 hq)]

theorem arrive_full (hs : c.sources = [] ∨ r.source ∈ c.sources) (hq : 8 ≤ (p.queue port).reqs.length) :
    p.arrive c port r = p.refuseFull c.now port r := by
  rw [Path.arrive, if_pos (passesSources_iff.2 hs), if_pos hq]

theorem replyRoom_bump (p : Path) (k : Counter) (n : Nat) (port : Port) :
    (p.bump k n).replyRoom port = p.replyRoom port := by cases port <;> rfl

theorem refuseFull_answered {now : Nat} (h : p.replyRoom port = true) :
    p.refuseFull now port r = (p.bump .requestsQueueFull 1).handed now port (r.reply none (.refuse .busy)) := by
  rw [← sendReply_eq_handed]
  exact if_pos ((replyRoom_bump ..).trans h)

theorem refuseFull_dropped {now : Nat} (h : p.replyRoom port = false) :
    p.refuseFull now port r =
      ((p.bump .requestsQueueFull 1).bump .repliesDropped 1).setFlag .mgmtDrop :=
  if_neg (by rw [replyRoom_bump, h]; exact Bool.false_ne_true)

/-- A request of a known kind at the tail of a steady queue leaves it steady: it can be the head of an empty one alone. -/
theorem steady_append (hr : Request.known r.request = true) (h : p.steady port) :
    (p.setQueue port { p.queue port with reqs := (p.queue port).reqs ++ [r] }).steady port := by
  refine ⟨fun r' hw hhead => ?_, fun x hx => h.2 x (by simpa using hx)⟩
  rw [queue_setQueue_same] at hw hhead
  cases hreqs : (p.queue port).reqs with
  | nil =>
    obtain rfl : r = r' := by simpa [hreqs] using hhead
    exact hr
  | cons first rest => exact h.1 r' hw (by simpa [hreqs] using hhead)

end arrivals

theorem completes_mgmt {s : State} {port : Port} {source : Mac} {number : Nat} {request : Request} {q : Path}
    (hl : s.path.lostDrained) (h : s.path.arrive s.ctl port ⟨number, source, request⟩ = q)
    (hq : q.link = s.path.link) : Completes (.mgmtParcel port source number request) s (s.withPath q) := by
  subst h
  exact completes_finish (s := s) (u := s.withPath _) rfl rfl (lostDrained_of_link hl hq)

/-- Settles O27: the source check, the room in the queue, and the room for the answer that says BUSY. -/
theorem requestsArrive : Obligations.RequestsArrive := by
  intro s port source number request hl
  refine ⟨fun hs hsource => ?_, fun hs => ⟨fun hq => ?_, fun hq hroom => ?_, fun hq hroom => ?_⟩⟩
  · exact completes_mgmt hl (arrive_stranger hs hsource) rfl
  · have joins := completes_mgmt hl (arrive_joins (r := ⟨number, source, request⟩) hs hq) (setQueue_link ..)
    exact ⟨joins, fun hk => joins.atQueue (steady_append hk)⟩
  · have busy := (arrive_full hs hq).trans (refuseFull_answered (r := ⟨number, source, request⟩) (now := s.ctl.now) hroom)
    refine completes_mgmt hl busy ?_
    rw [← sendReply_eq_handed]
    exact (keeps_sendReply ..).link
  · exact completes_mgmt hl ((arrive_full hs hq).trans (refuseFull_dropped hroom)) rfl

/-! ## SET MODE (R192, R193) -/

section mode

variable {s : State}

theorem exec_setMode {port : Port} {n code : Nat} {src : Mac}
    (h : s.headRequest port = some ⟨n, src, .setMode code⟩) :
    exec (.setMode port) s = .next (State.finish (State.answer
      { s with
        ctl := { s.ctl with mode := (s.setModeAnswer code).1 }
        path := s.path.countMode (decide ((s.setModeAnswer code).1 ≠ s.ctl.mode)) }
      port ⟨n, src, .setMode code⟩ (s.setModeAnswer code).2)) := by
  show execSetMode port s = _
  simp only [execSetMode, h]

theorem groupsIn_eq_zero {x : Index} {st : GroupState} : x.groupsIn st = 0 ↔ ∀ g ∈ x.groups, g.2.state ≠ st := by
  simp only [Index.groupsIn, List.length_eq_zero_iff, List.filter_eq_nil_iff, decide_eq_true_eq]

theorem holdsValue_iff {a : NextId} : a.holdsValue = true ↔ ¬ (a = .unset ∨ a = .exhausted) := by
  cases a <;> simp [NextId.holdsValue]

theorem unmet_eq (s : State) : s.unmet = ((if s.ctl.calendar.isSet then 0 else 2) |||
    (if s.path.alloc.nextId = .unset ∨ s.path.alloc.nextId = .exhausted then 4 else 0) |||
    (if s.ctl.tables.settings.storeAddr = none then 8 else 0) : Mask16) := by
  have hid : (if s.path.alloc.nextId.holdsValue then 0 else 4 : Mask16) =
      if s.path.alloc.nextId = .unset ∨ s.path.alloc.nextId = .exhausted then 4 else 0 := by
    rw [if_congr holdsValue_iff rfl rfl, ite_not]
  have haddr : (if s.ctl.tables.settings.storeAddr.isSome then 0 else 8 : Mask16) =
      if s.ctl.tables.settings.storeAddr = none then 8 else 0 := by
    cases s.ctl.tables.settings.storeAddr <;> rfl
  rw [State.unmet, hid, haddr]

theorem setModeAnswer_restoring (s : State) : s.setModeAnswer 2 =
    if s.ctl.mode = .restoring then (s.ctl.mode, .done (.mode s.ctl.mode))
    else if s.ctl.mode = .serving ∧ s.path.contexts ≠ [] then (s.ctl.mode, .refuseWith .inUse (.mode s.ctl.mode))
    else if s.idx.groupsIn .ready = 0 then (s.ctl.mode, .refuseWith .notFound (.missing 1 s.ctl.mode))
    else (.restoring, .done (.mode .restoring)) := rfl

theorem setModeAnswer_serving (s : State) : s.setModeAnswer 3 =
    if s.ctl.mode = .serving then (s.ctl.mode, .done (.mode s.ctl.mode))
    else if s.ctl.mode = .cold then (s.ctl.mode, .refuseWith .wrongMode (.mode s.ctl.mode))
    else if s.unmet ≠ 0 then (s.ctl.mode, .refuseWith .notFound (.missing s.unmet s.ctl.mode))
    else (.serving, .done (.mode .serving)) := rfl

/-- No other code names a target: 1 is COLD, which is entered by a cold reset alone (R193). -/
theorem setModeAnswer_bad {code : Nat} (h2 : code ≠ 2) (h3 : code ≠ 3) :
    s.setModeAnswer code = (s.ctl.mode, .refuseWith .badValue (.mode s.ctl.mode)) := by
  unfold State.setModeAnswer modeOfCode
  rw [if_neg h2, if_neg h3]
  split_ifs <;> rfl

/-- A change of mode is counted, and no change is not (R192). -/
theorem countMode_eq (p : Path) (mode old : Mode) :
    p.countMode (decide (mode ≠ old)) = if mode = old then p else p.bump .modeChanges 1 := by
  by_cases h : mode = old <;> simp [Path.countMode, h]

end mode

/-- Settles O46: the statement's cases are those of R193, one code after another. -/
theorem theModeIsSet : Obligations.TheModeIsSet := by
  intro s port n code src mode a hl old unmet hr h
  have hanswer : s.setModeAnswer code = (mode, a) := by
    have hunmet : s.unmet = unmet := unmet_eq s
    split at h
    next h2 =>
      subst h2
      rw [setModeAnswer_restoring]
      simp only [groupsIn_eq_zero]
      split_ifs at h ⊢ <;> obtain ⟨rfl, rfl⟩ := h <;> rfl
    next h2 =>
      split at h
      next h3 =>
        subst h3
        rw [setModeAnswer_serving, hunmet]
        split_ifs at h ⊢ <;> obtain ⟨rfl, rfl⟩ := h <;> rfl
      next h3 =>
        rw [setModeAnswer_bad h2 h3, h.1, h.2]
  have hex := exec_setMode hr
  rw [hanswer, countMode_eq] at hex
  refine replies_finish hex rfl (lostDrained_of_link hl ?_)
  dsimp only
  split <;> rfl

end Sys2Proof.Machine.DeviceModes
end

section
/-! PROOFS. A step runs the front command, and every command completes (O1). -/

namespace Sys2Proof.Machine

open Sys2Proof

/-- Whatever a command comes to is a next state with the same queue of commands. -/
theorem Shape.completes {s : State} {o : Step} (h : Shape s o) : ∃ t, o = .next t ∧ t.pending = s.pending := by
  cases h with
  | same => exact ⟨s, rfl, rfl⟩
  | cold => exact ⟨s.coldReset, rfl, rfl⟩
  | finish u hu => exact ⟨u.finish, rfl, hu⟩

theorem step_cons {c : Instr} {rest : List Instr} {s : State} (h : s.pending = c :: rest) :
    step s = exec c { s with pending := rest } := by
  rw [step, h]

theorem step_nil {s : State} (h : s.pending = []) : step s = .next s.idle := by
  rw [step, h]

/-- Settles O1: the step's two cases, and what every command comes to (`exec_shape`). -/
theorem stepRunsTheFrontCommand : Obligations.StepRunsTheFrontCommand :=
  ⟨fun _ _ _ => step_cons, fun _ => step_nil, fun c s => (exec_shape c s).completes⟩

end Sys2Proof.Machine
end

section
/-! PROOFS. Stream parcels and store answers on the wire: what is read from the body of each, and from its frame (O59). -/

namespace Sys2Proof.Wire

/-! ## A frame as it was written (R202) -/

section written

variable (dest source : Mac) (c : List Byte)

/-- What was written, and then the padding. -/
theorem frame_padded (etherType : Nat) : ∃ pad, frame dest source etherType c =
    num 6 dest.toNat ++ (num 6 source.toNat ++ (num 2 etherType ++ (c ++ pad))) := by
  simp only [frame, List.append_assoc]
  exact ⟨_, rfl⟩

theorem frame_length (etherType : Nat) :
    (frame dest source etherType c).length = max 60 (14 + c.length) := by
  simp only [frame, List.length_append, num_length, List.length_replicate]
  omega

theorem frame_typeField {etherType : Nat} (ht : fits 2 etherType = true) :
    value (((frame dest source etherType c).drop 12).take 2) = etherType := by
  obtain ⟨pad, hf⟩ := frame_padded dest source c etherType
  rw [hf, show 12 = 6 + 6 from rfl, ← List.drop_drop, drop_num, drop_num, take_num, value_num ht]

end written

/-! ## What reads back -/

/-- The command has a frame, whose content fits the longest one and is read as that command, with any padding. -/
def ReadsBack (port : Port) (i : Instr) : Prop :=
  ∃ source c, content i = some (source, c) ∧ 14 + c.length ≤ longest ∧ ∀ pad, classifyLavrow port source (c ++ pad) = i

/-- The frame of a command that reads back: under the EtherType it was written for it is that command, under any other it
passes through (R175). -/
theorem ReadsBack.frame_read {port : Port} {i : Instr} (h : ReadsBack port i) {dest : Mac} {etherType : Nat}
    {f : List Byte} (ht : fits 2 etherType = true) (hf : wireFrame dest etherType i = some f) :
    classifyFrame etherType port f = i ∧
      ∀ other, other ≠ etherType → classifyFrame other port f = .passThroughFrame port f := by
  obtain ⟨source, c, hc, hlong, hread⟩ := h
  obtain rfl : frame dest source etherType c = f := by simpa [wireFrame, hc] using hf
  have hlength := frame_length dest source c etherType
  have hmin : 14 ≤ (frame dest source etherType c).length := by omega
  have hmax : (frame dest source etherType c).length ≤ longest := by
    rw [hlength]
    exact max_le (by decide) hlong
  obtain ⟨pad, hpad⟩ := frame_padded dest source c etherType
  refine ⟨(classifyFrame_inForce ht hpad hmax port).trans (hread pad), fun other hother => ?_⟩
  refine Machine.EgressScheduling.classifyFrame_other hmin hmax ?_ port
  rw [← Machine.EgressScheduling.value_typeField hmin, frame_typeField dest source c ht]
  exact hother.symm

/-! ## Stream parcels (R204) -/

section parcels

variable {port : Port} {source : Mac} {branch stream : Nat}

/-- A parcel reads back where its body is read as its command; 8196 bytes are the longest body, a DATA parcel's. -/
theorem readsBack_parcel {i : Instr} {kind : Nat} {body : List Byte} (hk : 1 ≤ kind ∧ kind ≤ 5)
    (hw : headerWf branch stream = true) (hl : body.length ≤ 8196)
    (hc : content i = some (source, parcel kind branch stream body))
    (hi : classifyBody port source kind branch stream body = i) : ReadsBack port i := by
  simp only [headerWf, Bool.and_eq_true, decide_eq_true_eq] at hw
  refine ⟨source, _, hc, ?_, fun pad => ?_⟩
  · simp only [parcel, List.length_append, num_length, List.length_cons, List.length_nil, longest]
    omega
  · rw [classifyLavrow_parcel hk hw.1 hw.2 (by omega), hi]

theorem readsBack_open {mode endMode expected : Nat}
    (h : (Instr.openParcel port source branch stream mode endMode expected).wf = true) :
    ReadsBack port (.openParcel port source branch stream mode endMode expected) := by
  simp only [Instr.wf, Bool.and_eq_true] at h
  obtain ⟨⟨⟨hw, hmode⟩, hend⟩, hexpected⟩ := h
  refine readsBack_parcel (by decide) hw (by simp) rfl ?_
  generalize hB : num 1 mode ++ (num 1 endMode ++ (num 3 expected ++ [0, 0, 0])) = b
  have hlen : b.length = 8 := by rw [← hB]; simp
  have h0 : value (b.take 1) = mode := by rw [← hB, take_num, value_num hmode]
  have h1 : value ((b.drop 1).take 1) = endMode := by rw [← hB, drop_num, take_num, value_num hend]
  have h2 : value ((b.drop 2).take 3) = expected := by
    rw [← hB, show 2 = 1 + 1 from rfl, ← List.drop_drop, drop_num, drop_num, take_num, value_num hexpected]
  simp only [classifyBody, hlen, h0, h1, h2, if_true]

theorem readsBack_data {seq : Nat} {payload : List Byte}
    (h : (Instr.dataParcel port source branch stream seq payload).wf = true) :
    ReadsBack port (.dataParcel port source branch stream seq payload) := by
  simp only [Instr.wf, Bool.and_eq_true, decide_eq_true_eq] at h
  obtain ⟨⟨⟨hw, hseq⟩, hsome⟩, hmost⟩ := h
  have hlen : (num 4 seq ++ payload).length = 4 + payload.length := by simp
  refine readsBack_parcel (by decide) hw (by omega) rfl ?_
  simp only [classifyBody, hlen, take_num, drop_num, value_num hseq]
  exact if_pos (by omega)

theorem readsBack_close {final total : Nat} (h : (Instr.closeParcel port source branch stream final total).wf = true) :
    ReadsBack port (.closeParcel port source branch stream final total) := by
  simp only [Instr.wf, Bool.and_eq_true] at h
  obtain ⟨⟨hw, hfinal⟩, htotal⟩ := h
  have hlen : (num 4 final ++ num 6 total).length = 10 := by simp
  refine readsBack_parcel (by decide) hw (by omega) rfl ?_
  simp only [classifyBody, hlen, take_num, drop_num, value_num hfinal, value_num htotal, if_true]

theorem readsBack_abort (h : (Instr.abortParcel port source branch stream).wf = true) :
    ReadsBack port (.abortParcel port source branch stream) :=
  readsBack_parcel (by decide) h (Nat.zero_le _) rfl rfl

end parcels

/-! ## Store answers (R205) -/

/-- A STORE ANSWER with whatever follows it is read by its tag, its serial number and its code. -/
theorem classifyAnswer_bytes {tag serial : Nat} (ht : fits 1 tag = true) (hs : fits 1 serial = true) (port : Port)
    (kind version : Byte) (verdict : Verdict) (rest : List Byte) :
    classifyAnswer port (kind :: version :: (num 1 tag ++ (num 1 serial ++ (num 1 (verdictCode verdict) ++ rest)))) =
      .storeAnswer port tag serial verdict := by
  generalize hB : kind :: version :: (num 1 tag ++ (num 1 serial ++ (num 1 (verdictCode verdict) ++ rest))) = b
  have htag : (b.getD 2 0).toNat = tag := by rw [← hB]; exact byte_toNat ht
  have hserial : (b.getD 3 0).toNat = serial := by rw [← hB]; exact byte_toNat hs
  have hcode : (b.getD 4 0).toNat = verdictCode verdict := by rw [← hB]; cases verdict <;> rfl
  simp only [classifyAnswer, htag, hserial, hcode]
  cases verdict <;> rfl

theorem readsBack_answer {port : Port} {tag serial : Nat} {verdict : Verdict}
    (h : (Instr.storeAnswer port tag serial verdict).wf = true) :
    ReadsBack port (.storeAnswer port tag serial verdict) := by
  simp only [Instr.wf, Bool.and_eq_true] at h
  refine ⟨0, _, rfl, by simp [longest], fun pad => ?_⟩
  rw [← classifyAnswer_bytes h.1 h.2 port 0x88 1 verdict ([0, 0, 0] ++ pad)]
  simp only [List.append_assoc, List.cons_append, List.nil_append]
  rw [classifyLavrow, if_neg (by simp; omega), if_neg (by simp)]
  exact if_pos rfl

/-- Settles O59: each of the five commands reads back from the content of its frame, and so from the frame. -/
theorem streamFramesAreReadBack : Obligations.StreamFramesAreReadBack := by
  intro i port dest etherType f hi htype hkind hf
  have ht : fits 2 etherType = true := by simpa [fits] using htype
  suffices h : ReadsBack port i from h.frame_read ht hf
  obtain ⟨_, _, _, _, _, _, rfl⟩ | ⟨_, _, _, _, _, rfl⟩ | ⟨_, _, _, _, _, rfl⟩ | ⟨_, _, _, rfl⟩ | ⟨_, _, _, rfl⟩ := hkind
  · exact readsBack_open hi
  · exact readsBack_data hi
  · exact readsBack_close hi
  · exact readsBack_abort hi
  · exact readsBack_answer hi

end Sys2Proof.Wire
end

section
/-! PROOFS. Every operation of the data path keeps the canonical form of the Stream Context Table. -/

namespace Sys2Proof.Machine.StreamContexts

open Sys2Proof

/-! ## The canonical form through the operations

Each rule says of one operation that no slot is listed twice after it if none was before. There is no rule for an operation
that leaves the table alone by its definition: of it the hypothesis itself says so. -/

/-- No context slot is listed twice. -/
def SlotsCanonical (p : Path) : Prop := tabWf p.contexts = true

variable {p q : Path} {c : Control} {x : Index} {slot ordinal before : Nat}

namespace SlotsCanonical

/-- A data path with the same table. -/
theorem same (h : SlotsCanonical p) (e : q.contexts = p.contexts := by rfl) : SlotsCanonical q := by
  unfold SlotsCanonical
  rw [e]
  exact h

theorem keeps (h : SlotsCanonical p) (k : Keeps p q) : SlotsCanonical q :=
  h.same (show q.core.contexts = p.core.contexts by rw [k.core])

theorem foldl {α : Type} {f : Path → α → Path} (hf : ∀ p a, SlotsCanonical p → SlotsCanonical (f p a))
    {l : List α} (h : SlotsCanonical p) : SlotsCanonical (l.foldl f p) := List.foldlRecOn l f h fun q hq a _ => hf q a hq

/-! ## One slot is written, or none -/

/-- A context takes its slot, whatever else changes. -/
theorem written (h : SlotsCanonical p) {y : Context} (e : q.contexts = tabSet p.contexts slot y) : SlotsCanonical q := by
  unfold SlotsCanonical
  rw [e]
  exact tabSet_wf h slot y

theorem bump (h : SlotsCanonical p) {k : Counter} {n : Nat} : SlotsCanonical (p.bump k n) := h

theorem setFlag (h : SlotsCanonical p) {f : Flag} : SlotsCanonical (p.setFlag f) := h

theorem withCtx (h : SlotsCanonical p) {y : Context} : SlotsCanonical (p.withCtx slot y) := h.written rfl

theorem modCtx (h : SlotsCanonical p) {f : Context → Context} : SlotsCanonical (p.modCtx slot f) :=
  tabUpdate_wf h slot f

theorem freeCtx (h : SlotsCanonical p) : SlotsCanonical (p.freeCtx slot) := tabErase_wf h slot

theorem paced (h : SlotsCanonical p) {y : Context} : SlotsCanonical (p.paced slot y) := h.written rfl

/-! ## Notices, messages and batches -/

theorem sendNotice (h : SlotsCanonical p) {n : Notice} : SlotsCanonical (p.sendNotice n) :=
  h.same (StoreLinkLoss.sendNotice_contexts p n)

theorem offerS (h : SlotsCanonical p) {now : Nat} {y : SItem} : SlotsCanonical (p.offerS now y) := by
  unfold Path.offerS
  split
  · exact keeps h.same (keeps_joinS p now y)
  · exact keeps h.same (keeps_holdS p y)

theorem withdraw (h : SlotsCanonical p) {now tag : Nat} : SlotsCanonical (p.withdraw now tag) :=
  keeps h.same (keeps_refillS now 64 _)

theorem withdrawAll (h : SlotsCanonical p) {now : Nat} : SlotsCanonical (p.withdrawAll now) :=
  keeps h.same (keeps_refillS now 64 _)

theorem sendReply (h : SlotsCanonical p) {now : Nat} {port : Port} {r : Reply} :
    SlotsCanonical (p.sendReply now port r) := h.keeps (keeps_sendReply p now port r)

theorem respond (h : SlotsCanonical p) {now : Nat} {port : Port} {r : Req} {a : Answer} :
    SlotsCanonical (p.respond now port r a) := h.keeps (keeps_respond p now port r a)

theorem setHead (h : SlotsCanonical p) {port : Port} {st : HeadState} : SlotsCanonical (p.setHead port st) :=
  h.same (setHead_contexts p port st)

theorem askSeals (h : SlotsCanonical p) {l : List SealRec} : SlotsCanonical (p.askSeals l) := by
  rw [askSeals_eq]
  exact h

theorem closeBatch (h : SlotsCanonical p) : SlotsCanonical p.closeBatch := by
  unfold Path.closeBatch
  split <;> exact h

theorem joinBatch (h : SlotsCanonical p) {y : RefItem} : SlotsCanonical (p.joinBatch c y) :=
  h.same (by rw [← refJoins_eq_joinBatch, refJoins_contexts])

/-! ## Streams -/

theorem testStop (h : SlotsCanonical p) : SlotsCanonical (p.testStop c slot before) := by
  unfold Path.testStop
  repeat' split
  exacts [paced h, h, h]

theorem testGo (h : SlotsCanonical p) : SlotsCanonical (p.testGo slot before) := by
  unfold Path.testGo
  repeat' split
  exacts [paced h, h, h]

theorem repeatStop (h : SlotsCanonical p) : SlotsCanonical (p.repeatStop c slot) := by
  unfold Path.repeatStop
  repeat' split
  exacts [paced h, h, h]

theorem quotaStop (h : SlotsCanonical p) : SlotsCanonical (p.quotaStop c slot) := by
  unfold Path.quotaStop
  repeat' split
  exacts [paced h, repeatStop h, h]

theorem settle (h : SlotsCanonical p) : SlotsCanonical (p.settle slot ordinal) := by
  unfold Path.settle
  split
  exacts [testGo (withCtx h), h]

theorem endWork (h : SlotsCanonical p) : SlotsCanonical (p.endWork c slot) := by
  unfold Path.endWork
  repeat' split
  exacts [h.written (StoreLinkLoss.endStream_contexts ..), h.written (StoreLinkLoss.endStream_contexts ..), h, h]

theorem check (h : SlotsCanonical p) : SlotsCanonical (p.check c slot) :=
  endWork (h.same (StoreLinkLoss.endRecords_contexts p slot))

theorem checkAll (h : SlotsCanonical p) {l : List Nat} : SlotsCanonical (p.checkAll c l) :=
  foldl (fun _ _ h => check h) h

theorem quiesce (h : SlotsCanonical p) {cls : EndClass} {cause : Option Cause} {fp : Option (Nat × Nat)} :
    SlotsCanonical (p.quiesce slot cls cause fp) := by
  unfold Path.quiesce
  repeat' split
  exacts [h.written rfl, h, h]

theorem testOverlength (h : SlotsCanonical p) : SlotsCanonical (p.testOverlength slot) := by
  unfold Path.testOverlength
  repeat' split
  exacts [quiesce h, h, h]

theorem runChunker (h : SlotsCanonical p) : SlotsCanonical (p.runChunker c slot) := check (testOverlength (modCtx h))

theorem endOpening (h : SlotsCanonical p) : SlotsCanonical (p.endOpening c slot) := by
  unfold Path.endOpening
  repeat' split
  exacts [runChunker (withCtx h), runChunker (withCtx h), h, h]

theorem refuseOpen (h : SlotsCanonical p) {o : OpenAsk} {reason : OpenReason} :
    SlotsCanonical (p.refuseOpen o reason slot) := sendNotice (p := p.bump .opensRefused 1) h

theorem acceptOpen (h : SlotsCanonical p) {o : OpenAsk} : SlotsCanonical (p.acceptOpen c o slot) :=
  h.written (StoreLinkLoss.sendNotice_contexts ..)

theorem openLast (h : SlotsCanonical p) {o : OpenAsk} : SlotsCanonical (p.openLast c o).1 := by
  unfold Path.openLast
  repeat' split
  exacts [refuseOpen h, refuseOpen h, acceptOpen h]

theorem openChecks (h : SlotsCanonical p) {o : OpenAsk} : SlotsCanonical (p.openChecks c o).1 := by
  unfold Path.openChecks
  dsimp only
  repeat' split
  exacts [refuseOpen h, refuseOpen h, refuseOpen h, refuseOpen h, openLast (freeCtx h), refuseOpen h, openLast h]

/-! ## Staging -/

theorem overrun (h : SlotsCanonical p) {why : PlaceCheck} : SlotsCanonical (p.overrun c slot why) := by
  have counted := h.modCtx (slot := slot) (f := fun y => { y with overrunCount := add48 y.overrunCount 1 })
  cases why with
  | quota => exact quotaStop (p := Path.bump _ .quotaOverruns 1) counted
  | pool => exact counted
  | fits => exact counted

theorem joinReorder (n : Nat) (h : SlotsCanonical p) : SlotsCanonical (Path.joinReorder c slot n p) := by
  induction n generalizing p with
  | zero => exact h
  | succ n ih =>
    unfold Path.joinReorder
    dsimp only
    repeat' split
    · exact h
    · exact h
    · exact h
    · exact ih (testGo (testStop (withCtx h)))
    · exact testGo (overrun (withCtx h))

theorem takeInOrder (h : SlotsCanonical p) {y : Context} {payload : List Byte} :
    SlotsCanonical (p.takeInOrder c slot y payload) := by
  unfold Path.takeInOrder
  dsimp only
  repeat' split
  · exact modCtx (joinReorder 8 (repeatStop (withCtx h)))
  · exact modCtx (joinReorder 8 (testStop (withCtx h)))
  · exact overrun h

theorem takeEarly (h : SlotsCanonical p) {y : Context} {seq : Nat} {payload : List Byte} :
    SlotsCanonical (p.takeEarly c slot y seq payload) := by
  unfold Path.takeEarly
  dsimp only
  repeat' split
  · exact modCtx h
  · exact repeatStop (withCtx h)
  · exact testStop (withCtx h)
  · exact overrun h

theorem takeData (h : SlotsCanonical p) {y : Context} {seq : Nat} {payload : List Byte} :
    SlotsCanonical (p.takeData c slot y seq payload) := by
  unfold Path.takeData
  split
  exacts [modCtx h, runChunker (takeInOrder h), takeEarly h]

theorem takeClose (h : SlotsCanonical p) {y : Context} {final total : Nat} :
    SlotsCanonical (p.takeClose c slot y final total) := by
  unfold Path.takeClose
  split
  exacts [check (quiesce (withCtx h)), runChunker (testGo (withCtx h))]

theorem gapTick (h : SlotsCanonical p) : SlotsCanonical (p.gapTick c slot) := by
  unfold Path.gapTick
  dsimp only
  repeat' split
  exacts [check (quiesce (withCtx h)), withCtx h, h, h]

/-! ## The sweeper -/

theorem takeBatch (h : SlotsCanonical p) : SlotsCanonical (p.takeBatch x) :=
  h.same (StoreLinkLoss.takeBatch_losing p x).2

theorem makeBatch (h : SlotsCanonical p) {n : Nat} : SlotsCanonical (p.makeBatch n) := by
  unfold Path.makeBatch
  split <;> exact h

theorem sweepFrom (n : Nat) {pos : SweepPos} (h : SlotsCanonical p) : SlotsCanonical (Path.sweepFrom x n pos p) := by
  induction n generalizing pos p with
  | zero => exact h
  | succ n ih =>
    have hb : SlotsCanonical (p.makeBatch p.sweeper.unbatched.length) := makeBatch h
    unfold Path.sweepFrom
    dsimp only
    repeat' split
    · exact h
    · exact ih hb.same
    · exact hb

theorem startSweep (h : SlotsCanonical p) : SlotsCanonical (p.startSweep x) := by
  unfold Path.startSweep
  split
  exacts [sweepFrom 2 h, h]

theorem startIf (h : SlotsCanonical p) {rolled : Bool} : SlotsCanonical (p.startIf x rolled) := by
  unfold Path.startIf
  split
  exacts [startSweep h, h]

theorem joinRelease (h : SlotsCanonical p) {items : List RelItem} : SlotsCanonical (p.joinRelease items) := by
  unfold Path.joinRelease
  dsimp only
  repeat' split
  exacts [makeBatch h.same, h, makeBatch h.same, h]

theorem waitSweep (h : SlotsCanonical p) {pos : SweepPos} : SlotsCanonical (p.waitSweep x pos) := by
  have hb : SlotsCanonical (p.makeBatch p.sweeper.unbatched.length) := makeBatch h
  unfold Path.waitSweep Path.resumeSweep
  dsimp only
  split
  exacts [sweepFrom 2 hb.same, hb]

/-! ## The store link -/

theorem containerAnswer (h : SlotsCanonical p) {id length : Nat} {failed : Bool} :
    SlotsCanonical (p.containerAnswer id length failed) := askSeals h.same

theorem chunkOutcome (h : SlotsCanonical p) {r : ChunkRec} {accepted : Bool} :
    SlotsCanonical (p.chunkOutcome r accepted) := by
  unfold Path.chunkOutcome
  split <;> exact h

theorem refsAnswered (h : SlotsCanonical p) {items : List RefItem} : SlotsCanonical (p.refsAnswered items) :=
  foldl (fun _ _ h => modCtx h) h

theorem refsLost (h : SlotsCanonical p) {items : List RefItem} : SlotsCanonical (p.refsLost items) := by
  refine foldl (fun _ _ h => ?_) h
  split
  exacts [quiesce h, h]

theorem accept (h : SlotsCanonical p) {m : Content} : SlotsCanonical (p.accept c m) := by
  unfold Path.accept
  split
  exacts [check (chunkOutcome (modCtx (settle (containerAnswer h)))), checkAll (refsAnswered h), h, h]

theorem fail (h : SlotsCanonical p) {m : Content} : SlotsCanonical (p.fail c m) := by
  unfold Path.fail
  split
  · exact check (chunkOutcome (quiesce (modCtx (settle (containerAnswer h))))).same
  · exact checkAll (refsLost (refsAnswered h)).same
  · exact h
  · exact h

theorem issue (h : SlotsCanonical p) {tag : Nat} {content : Content} : SlotsCanonical (p.issue c tag content) := by
  unfold Path.issue Path.handFirst
  dsimp only
  split
  exacts [h, h, offerS h.same]

theorem failMessage (h : SlotsCanonical p) {m : Message} : SlotsCanonical (p.failMessage c m) :=
  fail (withdraw h.same)

theorem resendDue (h : SlotsCanonical p) {m : Message} : SlotsCanonical (p.resendDue c m) := by
  unfold Path.resendDue
  repeat' split
  exacts [h, h, failMessage h.same]

theorem failRequest (h : SlotsCanonical p) {r : TagRequest} : SlotsCanonical (p.failRequest c x r) := by
  unfold Path.failRequest
  repeat' split
  exacts [fail h, takeBatch (fail h), h]

theorem drainLost (n : Nat) (h : SlotsCanonical p) : SlotsCanonical (Path.drainLost c x n p) := by
  induction n generalizing p with
  | zero => exact h
  | succ n ih =>
    unfold Path.drainLost
    repeat' split
    · exact h
    · exact ih (bump (failRequest h.same))
    · exact h

theorem finish (h : SlotsCanonical p) : SlotsCanonical (p.finish c x) :=
  (drainLost p.tagWork h).keeps (keeps_finish_tail _ c x)

theorem sCarrierUp (h : SlotsCanonical p) : SlotsCanonical (p.sCarrierUp c) := by
  unfold Path.sCarrierUp
  dsimp only
  split
  exacts [foldl (fun _ _ h => resendDue h) h.same, h]

theorem failAll (h : SlotsCanonical p) {l : List Message} : SlotsCanonical (p.failAll c l) :=
  foldl (fun _ _ h => bump (failMessage h)) h

theorem grantTag (h : SlotsCanonical p) {tag : Nat} : SlotsCanonical (p.grantTag c x tag) := by
  unfold Path.grantTag
  dsimp only
  repeat' split
  exacts [h, issue h.same, takeBatch (issue h.same), h]

theorem countPace (h : SlotsCanonical p) {y : IItem} : SlotsCanonical (p.countPace y) := by
  unfold Path.countPace
  split <;> exact h

theorem takeAnswer (h : SlotsCanonical p) {m : Message} {v : Verdict} : SlotsCanonical (p.takeAnswer c m v) := by
  cases v with
  | accept => exact accept (bump (withdraw h.same))
  | busy => exact withdraw h.same
  | fail => exact failMessage h.same

/-! ## Lookups, placements and results -/

theorem installAll (h : SlotsCanonical p) {l : List (Fingerprint × Nat)} : SlotsCanonical (p.installAll l) :=
  foldl (fun _ _ h => h.same) h

theorem issueLookup (h : SlotsCanonical p) {y : Context} {i : Item} {f : Fingerprint} {k : Word32} :
    SlotsCanonical (p.issueLookup slot y i f k) := by
  have touched : (p.touch f).contexts = p.contexts := by
    unfold Path.touch
    split <;> rfl
  unfold Path.issueLookup
  dsimp only
  split
  exacts [h.written (congrArg (tabSet · slot _) touched), h.written rfl]

theorem issueNext (h : SlotsCanonical p) : SlotsCanonical (p.issueNext slot) := by
  unfold Path.issueNext
  repeat' split
  exacts [issueLookup h, h, h, h, h]

theorem countPinned (h : SlotsCanonical p) : SlotsCanonical (p.countPinned before) := by
  unfold Path.countPinned
  split <;> exact h

theorem judgeHeld (h : SlotsCanonical p) {o : LookupOp} {a : Nat} {e : Entry} :
    SlotsCanonical (judgeHeld c x p o a e).path := by
  unfold Machine.judgeHeld
  dsimp only
  repeat' split
  exacts [h, h, modCtx (countPinned h).same, countPinned h]

theorem place (h : SlotsCanonical p) {cls length : Nat} : SlotsCanonical (p.place slot cls length).1 := by
  have asked {l : List SealRec} {a : Alloc} {b : Bool} :
      SlotsCanonical (if b then (Path.askSeals { p with alloc := a } l).bump .containersOpened 1
        else Path.askSeals { p with alloc := a } l) := by
    split
    exacts [bump (askSeals h.same), askSeals h.same]
  unfold Path.place
  dsimp only
  split
  exacts [asked, quiesce (bump asked)]

theorem judgeMiss (h : SlotsCanonical p) {o : LookupOp} {page : Nat} :
    SlotsCanonical (judgeMiss c x p o page).path := by
  have hp : SlotsCanonical (p.place o.slot o.cls o.length).1 := place h
  unfold Machine.judgeMiss
  repeat' split
  · exact h
  · exact h
  · rename_i he
    rw [he] at hp
    exact hp
  · rename_i he
    rw [he] at hp
    exact hp

theorem judge (h : SlotsCanonical p) {o : LookupOp} : SlotsCanonical (judge c x p o).path := by
  unfold Machine.judge judgeVerify
  repeat' split
  exacts [h, h, h, h, h, judgeHeld h, judgeMiss h]

theorem handOn (h : SlotsCanonical p) {y : Context} {i : Item} {o : ChunkOutcome} :
    SlotsCanonical (p.handOn c slot y i o) := by
  unfold Path.handOn
  repeat' split
  exacts [modCtx h, modCtx h, settle h, settle (modCtx h).same, settle (joinBatch (modCtx h)), settle h]

theorem retireHeads (n : Nat) (h : SlotsCanonical p) : SlotsCanonical (Path.retireHeads c slot n p) := by
  induction n generalizing p with
  | zero => exact h
  | succ n ih =>
    unfold Path.retireHeads
    repeat' split
    exacts [ih (modCtx (handOn (withCtx h))), h, h, h]

theorem resolve (h : SlotsCanonical p) : SlotsCanonical (p.resolve c slot) := check (retireHeads 32 h)

theorem cacheResult (h : SlotsCanonical p) {r : LookupResult} : SlotsCanonical (p.cacheResult r) := by
  unfold Path.cacheResult
  dsimp only
  repeat' split
  all_goals exact h

theorem askPlacement (h : SlotsCanonical p) : SlotsCanonical (p.askPlacement slot ordinal) := by
  unfold Path.askPlacement
  repeat' split
  all_goals exact h

theorem takeResult (h : SlotsCanonical p) {r : LookupResult} : SlotsCanonical (p.takeResult c r) := by
  unfold Path.takeResult
  dsimp only
  split
  exacts [askPlacement (modCtx (cacheResult h)), resolve (modCtx (modCtx (cacheResult h)))]

theorem takePlacement (h : SlotsCanonical p) {r : PlaceReq} : SlotsCanonical (p.takePlacement c r) := by
  have hp : SlotsCanonical (p.place r.slot r.cls r.length).1 := place h
  unfold Path.takePlacement
  split <;> rename_i he <;> rw [he] at hp <;> exact resolve (modCtx hp)

theorem waiterLive (h : SlotsCanonical p) {e : Entry} {w : Waiter} : SlotsCanonical (p.waiterLive c e w) := by
  unfold Path.waiterLive
  split
  exacts [joinBatch h, modCtx h]

theorem waiterLost (h : SlotsCanonical p) {w : Waiter} : SlotsCanonical (p.waiterLost w) := by
  unfold Path.waiterLost
  split <;> exact modCtx h

theorem waitersTold (h : SlotsCanonical p) {l : List Waiter} : SlotsCanonical (p.waitersTold l) := by
  refine foldl (fun _ _ h => ?_) h
  split
  exacts [quiesce h, h]

theorem takeRelease (h : SlotsCanonical p) {o : ReleaseOp} : SlotsCanonical (takeRelease x p o).2 := by
  unfold Machine.takeRelease Path.countRelease
  dsimp only
  split <;> exact h

/-! ## Frames that arrive -/

variable {port : Port} {source : Mac} {branch stream : Nat}

theorem late (h : SlotsCanonical p) {y : Context} {kind : LateKind} : SlotsCanonical (p.late source y kind) :=
  sendNotice (bump h)

theorem openArrives (h : SlotsCanonical p) {mode endMode expected : Nat} :
    SlotsCanonical (p.openArrives c port source branch stream mode endMode expected) := by
  unfold Path.openArrives
  split
  exacts [h, openChecks h]

theorem dataWithoutContext (h : SlotsCanonical p) {seq : Nat} {payload : List Byte} :
    SlotsCanonical (p.dataWithoutContext c source branch stream seq payload) := by
  have ho : SlotsCanonical (p.openChecks c ⟨source, branch, stream, 1, 0, 0, true⟩).1 := openChecks h
  unfold Path.dataWithoutContext
  split
  · split <;> rename_i he <;> rw [he] at ho
    · split
      exacts [takeData ho, ho]
    · exact ho
  · exact h

theorem dataArrives (h : SlotsCanonical p) {seq : Nat} {payload : List Byte} :
    SlotsCanonical (p.dataArrives c port source branch stream seq payload) := by
  unfold Path.dataArrives
  repeat' split
  exacts [h, takeData h, late h, dataWithoutContext h]

theorem closeArrives (h : SlotsCanonical p) {final total : Nat} :
    SlotsCanonical (p.closeArrives c port source branch stream final total) := by
  unfold Path.closeArrives
  repeat' split
  exacts [h, takeClose h, takeClose h, modCtx h, late h, late h, h]

theorem abortArrives (h : SlotsCanonical p) : SlotsCanonical (p.abortArrives c port source branch stream) := by
  unfold Path.abortArrives
  repeat' split
  exacts [h, check (quiesce h), late h, h]

theorem answerArrives (h : SlotsCanonical p) {tag serial : Nat} {verdict : Verdict} :
    SlotsCanonical (p.answerArrives c port tag serial verdict) := by
  unfold Path.answerArrives
  split
  exacts [takeAnswer h, h]

theorem arrive (h : SlotsCanonical p) {r : Req} : SlotsCanonical (p.arrive c port r) := by
  unfold Path.arrive Path.refuseFull
  dsimp only
  repeat' split
  exacts [sendReply (bump h), h, h.same (setQueue_contexts p port _), h]

theorem badFrame (h : SlotsCanonical p) : SlotsCanonical (p.fcsError port) ∧ SlotsCanonical (p.malformed port) := by
  cases port <;> exact ⟨h, h⟩

theorem forward (h : SlotsCanonical p) {frame : List Byte} : SlotsCanonical (p.forward c port frame) := by
  unfold Path.forward
  repeat' split
  all_goals exact h

theorem frameArrives (h : SlotsCanonical p) {i : Instr} : SlotsCanonical (p.frameArrives c i) := by
  unfold Path.frameArrives
  split
  exacts [forward h, openArrives h, dataArrives h, closeArrives h, abortArrives h, arrive h, answerArrives h,
    (badFrame h).2, h, h]

/-! ## Requests and resets -/

theorem forceEndAnswer (h : SlotsCanonical p) : SlotsCanonical (forceEndAnswer c p slot).1 := by
  unfold Machine.forceEndAnswer
  repeat' split
  exacts [check (quiesce h), h, h, h, h]

theorem withSettings (h : SlotsCanonical p) {g : Settings} : SlotsCanonical (p.withSettings c g) := by
  have kept : (p.keepFrames c g).contexts = p.contexts :=
    show (p.keepFrames c g).core.contexts = p.core.contexts by rw [keepFrames_core]
  unfold Path.withSettings Path.refence
  split
  exacts [closeBatch (h.same kept), h.same kept]

theorem countMode (h : SlotsCanonical p) {changed : Bool} : SlotsCanonical (p.countMode changed) := by
  unfold Path.countMode
  split <;> exact h

theorem countIf (h : SlotsCanonical p) {taken : Bool} {k : Counter} : SlotsCanonical (p.countIf taken k) := by
  unfold Path.countIf
  split <;> exact h

theorem clearFlagsAnswer (h : SlotsCanonical p) {mask : Mask16} : SlotsCanonical (clearFlagsAnswer p mask).1 := by
  unfold Machine.clearFlagsAnswer
  split <;> exact h

theorem readCountersAnswer (h : SlotsCanonical p) {option : Nat} : SlotsCanonical (readCountersAnswer p option).1 := by
  unfold Machine.readCountersAnswer
  repeat' split
  all_goals exact h

/-- An item of a RETIRE is answered, and the whole request with the last. -/
theorem retireProgress (h : SlotsCanonical p) {retired : Retired} {now : Nat} {r : Req}
    {answers : List (Option (RetireAnswer × Option Nat))} :
    SlotsCanonical ((p.countRetired retired).retireProgress now port r answers) := by
  have counted : SlotsCanonical (p.countRetired retired) := by
    unfold Path.countRetired
    split <;> exact h
  unfold Path.retireProgress
  split
  exacts [respond counted, setHead counted]

/-- An item of a RESTORE ENTRIES is answered, and the whole request with the last. -/
theorem restoreProgress (h : SlotsCanonical p) {i : RestoreEntry} {a : RestoreAnswer} {now : Nat} {r : Req}
    {answers : List (Option RestoreAnswer)} :
    SlotsCanonical ((p.restorePinned i a).restoreProgress now port r answers) := by
  have counted : SlotsCanonical (p.restorePinned i a) := by
    unfold Path.restorePinned
    split <;> exact h
  unfold Path.restoreProgress
  split
  exacts [respond (bump counted), setHead counted]

/-- After a warm reset every slot is FREE (R200). -/
theorem warmChanges (port : Port) : SlotsCanonical (warmChanges c x p port).2 := by
  have swept (q : Path) : SlotsCanonical (q.swept c) := rfl
  exact setHead (setHead (swept _))

theorem warmComplete (h : SlotsCanonical p) {now : Nat} {w : WarmReset} : SlotsCanonical (p.warmComplete now w) := by
  have popped : SlotsCanonical ((Path.bump { p with warm := none } .warmResets 1).popDiscarded (Port.other w.port)) := by
    unfold Path.popDiscarded
    split
    exacts [h.same (popQueue_contexts _ _), h]
  unfold Path.warmComplete Path.answerWarm
  split
  exacts [respond popped, popped]

end SlotsCanonical

/-! ## Every command -/

/-- What a command answers is a next state whose slots are listed once each. -/
inductive Lists : Step → Prop where
  | next (t : State) : SlotsCanonical t.path → Lists (.next t)

variable {s u : State}

theorem lists_finish (h : SlotsCanonical u.path) : SlotsCanonical u.finish.path := h.finish

theorem lists_answer {port : Port} {r : Req} {a : Answer} (h : SlotsCanonical u.path) :
    SlotsCanonical (u.answer port r a).finish.path := lists_finish h.respond

/-! ### Carriers, completions, timers, tags and transmissions -/

theorem reservedPageClearingComplete_lists (h : SlotsCanonical s.path) :
    Lists (execReservedPageClearingComplete s) := by
  refine .next _ ?_
  split
  exacts [lists_finish h, h]

theorem sPortCarrierDown_lists (h : SlotsCanonical s.path) :
    Lists (execSPortCarrierDown s) := by
  refine .next _ ?_
  split
  exacts [lists_finish (.bump (.withdrawAll h.same)), h]

theorem sPortCarrierUp_lists (h : SlotsCanonical s.path) :
    Lists (execSPortCarrierUp s) := by
  refine .next _ ?_
  split
  exacts [h, lists_finish h.sCarrierUp]

theorem lossTimerExpiry_lists (h : SlotsCanonical s.path) :
    Lists (execLossTimerExpiry s) := by
  refine .next _ ?_
  split
  exacts [lists_finish (.setFlag (.failAll h.same)), h]

theorem iPortCarrierDown_lists (h : SlotsCanonical s.path) :
    Lists (execIPortCarrierDown s) := by
  refine .next _ ?_
  split
  exacts [lists_finish h, h]

theorem iPortCarrierUp_lists (h : SlotsCanonical s.path) :
    Lists (execIPortCarrierUp s) := by
  refine .next _ ?_
  split
  exacts [h, lists_finish h]

theorem refBatchTimerExpiry_lists (h : SlotsCanonical s.path) :
    Lists (execRefBatchTimerExpiry s) := by
  refine .next _ ?_
  split
  exacts [lists_finish h.closeBatch, h]

theorem tagGrant_lists (h : SlotsCanonical s.path) :
    Lists (execTagGrant s) := by
  refine .next _ ?_
  repeat' split
  exacts [lists_finish h.grantTag, h, h]

theorem sPortTransmitDone_lists (h : SlotsCanonical s.path) :
    Lists (execSPortTransmitDone s) := by
  refine .next _ ?_
  split
  · refine lists_finish ?_
    dsimp only [State.withPath]
    split <;> exact h
  · exact h

theorem iPortTransmitDone_lists (h : SlotsCanonical s.path) :
    Lists (execIPortTransmitDone s) := by
  refine .next _ ?_
  split
  exacts [lists_finish (.countPace h.same), h]

theorem answerTimerExpiry_lists (h : SlotsCanonical s.path) (tag : Nat) :
    Lists (execAnswerTimerExpiry tag s) := by
  refine .next _ ?_
  repeat' split
  exacts [lists_finish (.withdraw h.same), h, h]

theorem resendDue_lists (h : SlotsCanonical s.path) (tag : Nat) :
    Lists (execResendDue tag s) := by
  refine .next _ ?_
  repeat' split
  exacts [lists_finish h.resendDue, h, h]

/-! ### Streams, lookups and outcomes -/

theorem warmUpExpiry_lists (h : SlotsCanonical s.path) (slot : Nat) :
    Lists (execWarmUpExpiry slot s) := by
  refine .next _ ?_
  split
  exacts [lists_finish h.endOpening, h]

theorem lingerExpiry_lists (h : SlotsCanonical s.path) (slot : Nat) :
    Lists (execLingerExpiry slot s) := by
  refine .next _ ?_
  split
  exacts [lists_finish h.freeCtx, h]

theorem takeByte_lists (h : SlotsCanonical s.path) (slot : Nat) :
    Lists (execTakeByte slot s) := by
  refine .next _ ?_
  repeat' split
  exacts [lists_finish (.check (.testOverlength h.withCtx)), h, h]

theorem digestComplete_lists (h : SlotsCanonical s.path) (slot : Nat) :
    Lists (execDigestComplete slot s) := by
  refine .next _ ?_
  repeat' split
  exacts [lists_finish (.issueNext h.withCtx), h, h]

theorem hotListLoadComplete_lists (h : SlotsCanonical s.path) (branch : Nat) :
    Lists (execHotListLoadComplete branch s) := by
  have loaded : SlotsCanonical ((s.path.hotDone branch).installAll (s.idx.hotList branch)) := .installAll h.same
  refine .next _ ?_
  split
  · refine lists_finish ?_
    dsimp only [State.withPath]
    split
    exacts [loaded.endOpening, loaded]
  · exact h

theorem hotListRewriteComplete_lists (h : SlotsCanonical s.path) (branch : Nat) :
    Lists (execHotListRewriteComplete branch s) := by
  refine .next _ ?_
  split
  exacts [lists_finish h.same, h]

theorem lookup_lists (h : SlotsCanonical s.path) (slot : Nat) (ordinal : Nat) :
    Lists (execLookup slot ordinal s) := by
  have judged {p : Path} {o : LookupOp} (hp : SlotsCanonical p) :
      SlotsCanonical (judge s.ctl s.idx p o).path := .judge hp
  refine .next _ ?_
  dsimp only
  repeat' split
  exacts [lists_finish (judged h.same), h, h]

theorem placementRequest_lists (h : SlotsCanonical s.path) (slot : Nat) (ordinal : Nat) :
    Lists (execPlacementRequest slot ordinal s) := by
  refine .next _ ?_
  split
  · refine lists_finish ?_
    dsimp only [State.withPath]
    split
    exacts [.takePlacement h.same, h]
  · exact h

theorem lookupResult_lists (h : SlotsCanonical s.path) (slot : Nat) (ordinal : Nat) :
    Lists (execLookupResult slot ordinal s) := by
  refine .next _ ?_
  split
  · refine lists_finish ?_
    dsimp only [State.withPath]
    split
    exacts [.takeResult h.same, h]
  · exact h

theorem chunkAcceptAtBucket_lists (h : SlotsCanonical s.path) (slot : Nat) :
    Lists (execChunkAcceptAtBucket slot s) := by
  have live {l : List Waiter} {e : Entry} :
      SlotsCanonical (l.foldl (Path.waiterLive s.ctl e) (s.path.chunkOpDone true slot)) :=
    .foldl (fun _ _ h => .waiterLive h) h.same
  refine .next _ ?_
  dsimp only
  repeat' split
  exacts [lists_finish live, lists_finish h.same, lists_finish h.same, h]

theorem chunkFailAtBucket_lists (h : SlotsCanonical s.path) (slot : Nat) :
    Lists (execChunkFailAtBucket slot s) := by
  have lost {l m : List Waiter} :
      SlotsCanonical ((l.foldl Path.waiterLost (s.path.chunkOpDone false slot)).waitersTold m) :=
    .waitersTold (.foldl (fun _ _ h => .waiterLost h) h.same)
  refine .next _ ?_
  dsimp only
  split
  exacts [lists_finish (.checkAll lost.same), h]

theorem releaseOutcomeAtBucket_lists (h : SlotsCanonical s.path) (address : Nat) :
    Lists (execReleaseOutcomeAtBucket address s) := by
  refine .next _ ?_
  split
  exacts [lists_finish (.takeRelease (x := s.idx) h.same), h]

theorem sweeperVisit_lists (h : SlotsCanonical s.path) :
    Lists (execSweeperVisit s) := by
  refine .next _ ?_
  dsimp only
  repeat' split
  exacts [lists_finish (.waitSweep h.joinRelease), lists_finish (.sweepFrom 2 h.joinRelease), h]

theorem groupInitialisationComplete_lists (h : SlotsCanonical s.path) (group : Nat) :
    Lists (execGroupInitialisationComplete group s) := by
  refine .next _ ?_
  repeat' split
  exacts [lists_finish h, h, h]

theorem bankCopyComplete_lists (h : SlotsCanonical s.path) :
    Lists (execBankCopyComplete s) := by
  refine .next _ ?_
  split
  exacts [lists_finish h, h]

theorem warmReset_lists (h : SlotsCanonical s.path) (port : Port) :
    Lists (execWarmReset port s) := by
  refine .next _ ?_
  split
  exacts [lists_finish (.warmChanges _), h]

theorem warmResetComplete_lists (h : SlotsCanonical s.path) :
    Lists (execWarmResetComplete s) := by
  refine .next _ ?_
  split
  exacts [lists_finish h.warmComplete, h]

/-! ### Requests -/

theorem forceEnd_lists (h : SlotsCanonical s.path) (port : Port) :
    Lists (execForceEnd port s) := by
  refine .next _ ?_
  split
  exacts [lists_finish (.respond h.forceEndAnswer), h]

theorem setSettings_lists (h : SlotsCanonical s.path) (port : Port) :
    Lists (execSetSettings port s) := by
  refine .next _ ?_
  dsimp only
  repeat' split
  exacts [lists_answer (.withSettings h), lists_answer (.same h), h]

theorem sweepNow_lists (h : SlotsCanonical s.path) (port : Port) :
    Lists (execSweepNow port s) := by
  refine .next _ ?_
  repeat' split
  exacts [lists_answer (.startSweep h), lists_answer (.same h), h]

theorem sealContainers_lists (h : SlotsCanonical s.path) (port : Port) :
    Lists (execSealContainers port s) := by
  refine .next _ ?_
  split
  exacts [lists_answer (.askSeals h.same), h]

theorem nudge_lists (h : SlotsCanonical s.path) (port : Port) :
    Lists (execNudge port s) := by
  refine .next _ ?_
  split
  · split
    exacts [lists_answer (.startIf h), lists_answer (.same h)]
  · exact h

theorem retire_lists (h : SlotsCanonical s.path) (port : Port) :
    Lists (execRetire port s) := by
  refine .next _ ?_
  repeat' split
  exacts [lists_answer (.same h), lists_finish h.setHead, h]

theorem restoreEntries_lists (h : SlotsCanonical s.path) (port : Port) :
    Lists (execRestoreEntries port s) := by
  refine .next _ ?_
  repeat' split
  exacts [lists_answer (.same h), lists_finish h.setHead, h]

theorem retireItem_lists (h : SlotsCanonical s.path) (port : Port) (index : Nat) :
    Lists (execRetireItem port index s) := by
  refine .next _ ?_
  dsimp only
  repeat' split
  exacts [lists_finish h.retireProgress, h, h, h]

theorem restoreItem_lists (h : SlotsCanonical s.path) (port : Port) (index : Nat) :
    Lists (execRestoreItem port index s) := by
  refine .next _ ?_
  dsimp only
  repeat' split
  exacts [lists_finish h.restoreProgress, h, h, h]

theorem setDate_lists (h : SlotsCanonical s.path) (port : Port) :
    Lists (execSetDate port s) := by
  refine .next _ ?_
  dsimp only
  repeat' split
  exacts [lists_answer (.same h), lists_answer (.same h), h]

theorem setMode_lists (h : SlotsCanonical s.path) (port : Port) :
    Lists (execSetMode port s) := by
  refine .next _ ?_
  split
  exacts [lists_answer (.countMode h), h]

theorem loadTable_lists (h : SlotsCanonical s.path) (port : Port) :
    Lists (execLoadTable port s) := by
  refine .next _ ?_
  split
  exacts [lists_answer (.countIf h), h]

theorem swapBanks_lists (h : SlotsCanonical s.path) (port : Port) :
    Lists (execSwapBanks port s) := by
  refine .next _ ?_
  split
  exacts [lists_answer (.countIf h), h]

theorem clearFlags_lists (h : SlotsCanonical s.path) (port : Port) :
    Lists (execClearFlags port s) := by
  refine .next _ ?_
  split
  exacts [lists_answer (.clearFlagsAnswer h), h]

theorem readCounters_lists (h : SlotsCanonical s.path) (port : Port) :
    Lists (execReadCounters port s) := by
  refine .next _ ?_
  split
  exacts [lists_answer (.readCountersAnswer h), h]

/-! ### All of them -/

/-- No command lists a slot twice. -/
theorem exec_lists (c : Instr) (h : SlotsCanonical s.path) : Lists (exec c s) := by
  cases c with
  | coldReset => exact .next _ rfl
  | openParcel => exact .next _ (lists_finish h.openArrives)
  | dataParcel => exact .next _ (lists_finish h.dataArrives)
  | closeParcel => exact .next _ (lists_finish h.closeArrives)
  | abortParcel => exact .next _ (lists_finish h.abortArrives)
  | mgmtParcel => exact .next _ (lists_finish h.arrive)
  | storeAnswer => exact .next _ (lists_finish h.answerArrives)
  | passThroughFrame => exact .next _ (lists_finish h.frameArrives)
  | fcsErrorFrame => exact .next _ (lists_finish h.badFrame.1)
  | malformedFrame => exact .next _ (lists_finish h.badFrame.2)
  | wrongDirectionFrame port => cases port <;> exact .next _ (lists_finish h.bump)
  | gapTick => exact .next _ (lists_finish (.foldl (fun _ _ h => .gapTick h) h))
  | secondsTick => exact .next _ (lists_finish h.startIf)
  | reservedPageClearingComplete => exact reservedPageClearingComplete_lists h
  | sPortCarrierDown => exact sPortCarrierDown_lists h
  | sPortCarrierUp => exact sPortCarrierUp_lists h
  | lossTimerExpiry => exact lossTimerExpiry_lists h
  | iPortCarrierDown => exact iPortCarrierDown_lists h
  | iPortCarrierUp => exact iPortCarrierUp_lists h
  | refBatchTimerExpiry => exact refBatchTimerExpiry_lists h
  | tagGrant => exact tagGrant_lists h
  | sPortTransmitDone => exact sPortTransmitDone_lists h
  | iPortTransmitDone => exact iPortTransmitDone_lists h
  | answerTimerExpiry tag => exact answerTimerExpiry_lists h tag
  | resendDue tag => exact resendDue_lists h tag
  | warmUpExpiry slot => exact warmUpExpiry_lists h slot
  | lingerExpiry slot => exact lingerExpiry_lists h slot
  | takeByte slot => exact takeByte_lists h slot
  | digestComplete slot => exact digestComplete_lists h slot
  | hotListLoadComplete branch => exact hotListLoadComplete_lists h branch
  | hotListRewriteComplete branch => exact hotListRewriteComplete_lists h branch
  | lookup slot ordinal => exact lookup_lists h slot ordinal
  | placementRequest slot ordinal => exact placementRequest_lists h slot ordinal
  | lookupResult slot ordinal => exact lookupResult_lists h slot ordinal
  | chunkAcceptAtBucket slot => exact chunkAcceptAtBucket_lists h slot
  | chunkFailAtBucket slot => exact chunkFailAtBucket_lists h slot
  | releaseOutcomeAtBucket address => exact releaseOutcomeAtBucket_lists h address
  | sweeperVisit => exact sweeperVisit_lists h
  | groupInitialisationComplete group => exact groupInitialisationComplete_lists h group
  | bankCopyComplete => exact bankCopyComplete_lists h
  | warmReset port => exact warmReset_lists h port
  | warmResetComplete => exact warmResetComplete_lists h
  | forceEnd port => exact forceEnd_lists h port
  | setSettings port => exact setSettings_lists h port
  | sweepNow port => exact sweepNow_lists h port
  | sealContainers port => exact sealContainers_lists h port
  | nudge port => exact nudge_lists h port
  | retire port => exact retire_lists h port
  | restoreEntries port => exact restoreEntries_lists h port
  | retireItem port index => exact retireItem_lists h port index
  | restoreItem port index => exact restoreItem_lists h port index
  | setDate port => exact setDate_lists h port
  | setMode port => exact setMode_lists h port
  | loadTable port => exact loadTable_lists h port
  | swapBanks port => exact swapBanks_lists h port
  | clearFlags port => exact clearFlags_lists h port
  | readCounters port => exact readCounters_lists h port
  | identify | readStatus | setGeometry | mapGroup | unmapGroup | setExclusion | readTable | setHold | setContainerBase |
      readEntry | readStream | setManagementSources =>
    refine .next _ ?_
    split
    exacts [lists_answer (.same h), h]

/-- Settles O5: the front command keeps the form by `exec_lists`, and an idle period leaves the data path alone. -/
theorem contextSlotsStayCanonical : Obligations.ContextSlotsStayCanonical := by
  intro s t hs h
  rcases FingerprintIndex.step_cases h with rfl | ⟨c, rest, -, h⟩
  · exact hs
  · have lists := exec_lists c (s := { s with pending := rest }) hs
    rw [h] at lists
    cases lists
    assumption

end Sys2Proof.Machine.StreamContexts
end

section
/-! PROOFS. Parcels that reach no context or come late, and the opening of streams (O17 to O20). -/

namespace Sys2Proof.Machine.StreamContexts

open Sys2Proof
open Sys2Proof.Machine.ParcelOrder

variable {s : State} {p q : Path} {c : Control} {port : Port} {source : Mac}
  {branch stream slot seq final total mode endMode expected : Nat} {payload : List Byte} {x y : Context}

/-! ## A stream parcel completes as the data path it arrives at -/

theorem completes_open (hp : s.path.openArrives s.ctl port source branch stream mode endMode expected = p)
    (hl : s.path.lostDrained) (hk : p.link = s.path.link) :
    Completes (.openParcel port source branch stream mode endMode expected) s (s.withPath p) := by
  subst hp
  exact completes_finish (s := s) (u := s.withPath _) rfl rfl (lostDrained_of_link hl hk)

theorem completes_dataArrives (hp : s.path.dataArrives s.ctl port source branch stream seq payload = p)
    (hl : s.path.lostDrained) (hk : p.link = s.path.link) :
    Completes (.dataParcel port source branch stream seq payload) s (s.withPath p) := by
  subst hp
  exact completes_finish (s := s) (u := s.withPath _) rfl rfl (lostDrained_of_link hl hk)

theorem completes_close (hp : s.path.closeArrives s.ctl port source branch stream final total = p)
    (hl : p.lostDrained) : Completes (.closeParcel port source branch stream final total) s (s.withPath p) := by
  subst hp
  exact completes_finish (s := s) (u := s.withPath _) rfl rfl hl

theorem completes_abort (hp : s.path.abortArrives s.ctl port source branch stream = p)
    (hl : p.lostDrained) : Completes (.abortParcel port source branch stream) s (s.withPath p) := by
  subst hp
  exact completes_finish (s := s) (u := s.withPath _) rfl rfl hl

@[simp] theorem sendNotice_link (p : Path) (n : Notice) : (p.sendNotice n).link = p.link := (sameTags_sendNotice p n).link

/-! ## Parcels that reach no context (R1, R200) -/

theorem dropsStreams_iff : p.dropsStreams port = true ↔ port = .s ∨ p.warm ≠ none := by
  simp [Path.dropsStreams, Option.isSome_iff_ne_none]

theorem dropsStreams_working (hw : p.warm = none) : p.dropsStreams .i = false := by simp [Path.dropsStreams, hw]

theorem openArrives_dropped (h : p.dropsStreams port = true) :
    p.openArrives c port source branch stream mode endMode expected = p.withoutStream := if_pos h

theorem dataArrives_dropped (h : p.dropsStreams port = true) :
    p.dataArrives c port source branch stream seq payload = p.withoutStream := if_pos h

theorem closeArrives_dropped (h : p.dropsStreams port = true) :
    p.closeArrives c port source branch stream final total = p.withoutStream := if_pos h

theorem abortArrives_dropped (h : p.dropsStreams port = true) :
    p.abortArrives c port source branch stream = p.withoutStream := if_pos h

/-- Where no context has the identity, only DATA number 0 may be more than a parcel without a stream. -/
theorem dataArrives_unknown (hf : p.findCtx branch stream = none) (h0 : seq ≠ 0) :
    p.dataArrives c port source branch stream seq payload = p.withoutStream := by
  unfold Path.dataArrives Path.dataWithoutContext
  rw [hf]
  dsimp only
  rw [if_neg h0, ite_self]

theorem closeArrives_unknown (hf : p.findCtx branch stream = none) :
    p.closeArrives c port source branch stream final total = p.withoutStream := by
  unfold Path.closeArrives
  rw [hf]
  exact ite_self _

theorem abortArrives_unknown (hf : p.findCtx branch stream = none) :
    p.abortArrives c port source branch stream = p.withoutStream := by
  unfold Path.abortArrives
  rw [hf]
  exact ite_self _

/-- Settles O19: the parcel is dropped at its port, or no context has its identity. -/
theorem parcelsWithoutStream : Obligations.ParcelsWithoutStream := by
  intro s port source branch stream seq mode endMode expected final total payload hl
  have hlost : (s.path.bump .parcelsWithoutStream 1).lostDrained := lostDrained_of_link hl rfl
  refine ⟨fun h => ?_, fun h => ?_, fun h => ⟨?_, ?_⟩⟩
  · exact completes_open (openArrives_dropped (dropsStreams_iff.2 h)) hl rfl
  · rw [← or_assoc] at h
    obtain h | ⟨hf, h0⟩ := h
    · exact completes_dataArrives (dataArrives_dropped (dropsStreams_iff.2 h)) hl rfl
    · exact completes_dataArrives (dataArrives_unknown hf h0) hl rfl
  · rw [← or_assoc] at h
    obtain h | hf := h
    · exact completes_close (closeArrives_dropped (dropsStreams_iff.2 h)) hlost
    · exact completes_close (closeArrives_unknown hf) hlost
  · rw [← or_assoc] at h
    obtain h | hf := h
    · exact completes_abort (abortArrives_dropped (dropsStreams_iff.2 h)) hlost
    · exact completes_abort (abortArrives_unknown hf) hlost

/-! ## Late parcels (R15, R23) -/

/-- The context found for an identity has that identity. -/
theorem findCtx_identity (h : p.findCtx branch stream = some (slot, x)) : x.branch = branch ∧ x.stream = stream := by
  simpa using List.find?_some h

theorem late_eq (h : p.findCtx branch stream = some (slot, x)) (source : Mac) (kind : LateKind) :
    p.late source x kind = (p.bump .lateParcels 1).sendNotice (.late source branch stream kind) := by
  obtain ⟨rfl, rfl⟩ := findCtx_identity h
  rfl

theorem dataArrives_late (hw : p.warm = none) (hf : p.findCtx branch stream = some (slot, x))
    (hs : x.state.taking = false) : p.dataArrives c .i source branch stream seq payload = p.late source x .data := by
  unfold Path.dataArrives
  simp [dropsStreams_working hw, hf, hs]

theorem abortArrives_late (hw : p.warm = none) (hf : p.findCtx branch stream = some (slot, x))
    (hs : x.state.taking = false) : p.abortArrives c .i source branch stream = p.late source x .abort := by
  unfold Path.abortArrives
  simp [dropsStreams_working hw, hf, hs]

theorem closeArrives_late (hw : p.warm = none) (hf : p.findCtx branch stream = some (slot, x))
    (hs : x.state = .quiescing ∨ x.state = .linger) :
    p.closeArrives c .i source branch stream final total = p.late source x .close := by
  unfold Path.closeArrives
  obtain h | h := hs <;> simp [dropsStreams_working hw, hf, h]

/-- Settles O20: a context in QUIESCING or LINGER takes no parcel of the three kinds. -/
theorem lateParcels : Obligations.LateParcels := by
  intro s source branch stream seq final total slot payload x hl hw hf hs
  have hnot : x.state.taking = false := by obtain h | h := hs <;> rw [h] <;> rfl
  have hlost {n : Notice} : ((s.path.bump .lateParcels 1).sendNotice n).lostDrained :=
    lostDrained_of_link hl (sendNotice_link _ _)
  exact ⟨completes_dataArrives ((dataArrives_late hw hf hnot).trans (late_eq hf _ _)) hl (sendNotice_link _ _),
    completes_close ((closeArrives_late hw hf hs).trans (late_eq hf _ _)) hlost,
    completes_abort ((abortArrives_late hw hf hnot).trans (late_eq hf _ _)) hlost⟩

/-! ## The lowest FREE slot -/

section lowest

variable {α : Type} {t : Tab α} {lo n k : Nat}

theorem tabLowestFree_none : tabLowestFree t lo n = none ↔ ∀ k, lo ≤ k → k < lo + n → (tabGet t k).isSome = true := by
  induction n generalizing lo with
  | zero => exact ⟨fun _ k h1 h2 => absurd h2 (by omega), fun _ => rfl⟩
  | succ n ih =>
    unfold tabLowestFree
    cases h : tabGet t lo with
    | none => exact ⟨fun hn => by simp at hn, fun hall => by simpa [h] using hall lo (by omega) (by omega)⟩
    | some a =>
      simp only [Option.isNone_some, Bool.false_eq_true, if_false, ih]
      refine ⟨fun hall k h1 h2 => ?_, fun hall k h1 h2 => hall k (by omega) (by omega)⟩
      rcases Nat.eq_or_lt_of_le h1 with rfl | hlt
      · rw [h]; rfl
      · exact hall k hlt (by omega)

theorem tabLowestFree_some (hlo : lo ≤ k) (hk : k < lo + n) (hfree : tabGet t k = none)
    (hbelow : ∀ m, lo ≤ m → m < k → (tabGet t m).isSome = true) : tabLowestFree t lo n = some k := by
  induction n generalizing lo with
  | zero => omega
  | succ n ih =>
    unfold tabLowestFree
    rcases Nat.eq_or_lt_of_le hlo with rfl | hlt
    · rw [if_pos (by rw [hfree]; rfl)]
    · have hsome := hbelow lo (Nat.le_refl _) hlt
      rw [if_neg (by rw [Option.isNone_iff_eq_none]; exact Option.isSome_iff_ne_none.1 hsome)]
      exact ih hlt (by omega) fun m h1 h2 => hbelow m (by omega) h2

end lowest

/-! ## The checks of an open (R3, R4) -/

section checks

variable {o : OpenAsk} {reason : OpenReason}

/-- A field of the parcel is bad, as R4 gives it. -/
theorem bad_iff : o.bad = true ↔ o.branch = 0 ∨ 15 < o.stream ∨ (o.mode ≠ 1 ∧ o.mode ≠ 2) ∨
    (o.mode = 2 ∧ o.endMode ≠ 1 ∧ o.endMode ≠ 2) := by
  simp [OpenAsk.bad, or_assoc]

theorem openChecks_wrongMode (h : c.mode ≠ .serving) : p.openChecks c o = (p.refuseOpen o .wrongMode 0, none) := if_pos h

theorem openChecks_badValue (hm : c.mode = .serving) (h : o.bad = true) :
    p.openChecks c o = (p.refuseOpen o .badValue 0, none) := (if_neg (not_not.2 hm)).trans (if_pos h)

/-- The branch does not allow the open (R3, R6). -/
abbrev branchClosed (c : Control) (o : OpenAsk) : Prop :=
  ¬ (c.tables.activeBank.branch o.branch).enabled = true ∨
    o.implied = true ∧ ¬ (c.tables.activeBank.branch o.branch).impliedOpen = true

/-- The open asks for VERIFY, which the branch does not allow (R3). -/
abbrev verifyClosed (c : Control) (o : OpenAsk) : Prop :=
  o.mode = 2 ∧ ¬ (c.tables.activeBank.branch o.branch).verifyAllowed = true

theorem openChecks_branchDisabled (hm : c.mode = .serving) (hb : ¬ o.bad = true) (h : branchClosed c o) :
    p.openChecks c o = (p.refuseOpen o .branchDisabled 0, none) :=
  (if_neg (not_not.2 hm)).trans ((if_neg hb).trans (if_pos h))

theorem openChecks_verifyNotAllowed (hm : c.mode = .serving) (hb : ¬ o.bad = true) (he : ¬ branchClosed c o)
    (h : verifyClosed c o) : p.openChecks c o = (p.refuseOpen o .verifyNotAllowed 0, none) :=
  (if_neg (not_not.2 hm)).trans ((if_neg hb).trans ((if_neg he).trans (if_pos h)))

/-- The first four checks pass. -/
structure PassesFields (c : Control) (o : OpenAsk) : Prop where
  serving : c.mode = .serving
  good : ¬ o.bad = true
  branch : ¬ branchClosed c o
  verify : ¬ verifyClosed c o

theorem openChecks_passes (h : PassesFields c o) : p.openChecks c o =
    match p.findCtx o.branch o.stream with
    | some (slot, x) =>
      if x.state = .linger then (p.freeCtx slot).openLast c o else (p.refuseOpen o .duplicateStream slot, none)
    | none => p.openLast c o :=
  (if_neg (not_not.2 h.serving)).trans ((if_neg h.good).trans ((if_neg h.branch).trans (if_neg h.verify)))

theorem openLast_branchLimit (h : (c.tables.activeBank.branch o.branch).streamLimit ≤ p.openCount o.branch) :
    p.openLast c o = (p.refuseOpen o .branchLimit 0, none) := if_pos h

theorem openLast_tableFull (h : p.openCount o.branch < (c.tables.activeBank.branch o.branch).streamLimit)
    (hfull : ∀ n, 1 ≤ n → n ≤ 384 → (tabGet p.contexts n).isSome = true) :
    p.openLast c o = (p.refuseOpen o .tableFull 0, none) := by
  unfold Path.openLast
  rw [if_neg (Nat.not_le.2 h), tabLowestFree_none.2 fun k h1 h2 => hfull k h1 (by omega)]

/-- A slot is the lowest-numbered that is FREE. -/
def LowestFree (t : Tab Context) (slot : Nat) : Prop :=
  1 ≤ slot ∧ slot ≤ 384 ∧ tabGet t slot = none ∧ ∀ n, 1 ≤ n → n < slot → (tabGet t n).isSome = true

theorem openLast_accepted (h : p.openCount o.branch < (c.tables.activeBank.branch o.branch).streamLimit)
    (hslot : LowestFree p.contexts slot) : p.openLast c o = (p.acceptOpen c o slot, some slot) := by
  obtain ⟨h1, h384, hfree, hbelow⟩ := hslot
  unfold Path.openLast
  rw [if_neg (Nat.not_le.2 h), tabLowestFree_some h1 (by omega) hfree hbelow]

/-- What the last checks come to, told of a data path and a reason. -/
theorem openLast_refused (h : if (c.tables.activeBank.branch o.branch).streamLimit ≤ p.openCount o.branch then
      reason = .branchLimit ∧ slot = 0
    else (∀ n, 1 ≤ n → n ≤ 384 → (tabGet p.contexts n).isSome = true) ∧ reason = .tableFull ∧ slot = 0) :
    p.openLast c o = (p.refuseOpen o reason slot, none) := by
  split at h
  next hlim =>
    obtain ⟨rfl, rfl⟩ := h
    exact openLast_branchLimit hlim
  next hlim =>
    obtain ⟨hfull, rfl, rfl⟩ := h
    exact openLast_tableFull (Nat.not_le.1 hlim) hfull

/-- An open fails at one of the checks of R3, with a reason and a slot to answer, from a data path. -/
def OpenFails (p : Path) (c : Control) (o : OpenAsk) (reason : OpenReason) (slot : Nat) (base : Path) : Prop :=
  let last : Prop :=
    if (c.tables.activeBank.branch o.branch).streamLimit ≤ base.openCount o.branch then reason = .branchLimit ∧ slot = 0
    else (∀ n, 1 ≤ n → n ≤ 384 → (tabGet base.contexts n).isSome = true) ∧ reason = .tableFull ∧ slot = 0
  if c.mode ≠ .serving then base = p ∧ reason = .wrongMode ∧ slot = 0
  else if o.bad then base = p ∧ reason = .badValue ∧ slot = 0
  else if branchClosed c o then base = p ∧ reason = .branchDisabled ∧ slot = 0
  else if verifyClosed c o then base = p ∧ reason = .verifyNotAllowed ∧ slot = 0
  else match p.findCtx o.branch o.stream with
    | some (n, x) =>
      if x.state = .linger then base = p.freeCtx n ∧ last
      else base = p ∧ reason = .duplicateStream ∧ slot = n
    | none => base = p ∧ last

theorem openChecks_fails {base : Path} (h : OpenFails p c o reason slot base) :
    p.openChecks c o = (base.refuseOpen o reason slot, none) ∧ base.link = p.link := by
  unfold OpenFails at h
  extract_lets last at h
  split at h
  next hm =>
    obtain ⟨rfl, rfl, rfl⟩ := h
    exact ⟨openChecks_wrongMode hm, rfl⟩
  next hm =>
  split at h
  next hb =>
    obtain ⟨rfl, rfl, rfl⟩ := h
    exact ⟨openChecks_badValue (not_not.1 hm) hb, rfl⟩
  next hb =>
  split at h
  next he =>
    obtain ⟨rfl, rfl, rfl⟩ := h
    exact ⟨openChecks_branchDisabled (not_not.1 hm) hb he, rfl⟩
  next he =>
  split at h
  next hv =>
    obtain ⟨rfl, rfl, rfl⟩ := h
    exact ⟨openChecks_verifyNotAllowed (not_not.1 hm) hb he hv, rfl⟩
  next hv =>
  rw [openChecks_passes ⟨not_not.1 hm, hb, he, hv⟩]
  split at h
  next n x hfind =>
    split at h
    next hlinger =>
      obtain ⟨rfl, hlast⟩ := h
      exact ⟨(if_pos hlinger).trans (openLast_refused hlast), rfl⟩
    next hlinger =>
      obtain ⟨rfl, rfl, rfl⟩ := h
      exact ⟨if_neg hlinger, rfl⟩
  next hfind =>
    obtain ⟨rfl, hlast⟩ := h
    exact ⟨openLast_refused hlast, rfl⟩

end checks

theorem openArrives_eq (hw : p.warm = none) : p.openArrives c .i source branch stream mode endMode expected =
    (p.openChecks c ⟨source, branch, stream, mode, endMode, expected, false⟩).1 :=
  if_neg (by rw [dropsStreams_working hw]; exact Bool.false_ne_true)

/-- DATA number 0 of an identity without a context is an implied open (R6). -/
theorem dataArrives_implied (hw : p.warm = none) (hf : p.findCtx branch stream = none) :
    p.dataArrives c .i source branch stream 0 payload =
      match p.openChecks c ⟨source, branch, stream, 1, 0, 0, true⟩ with
      | (q, some slot) =>
        match tabGet q.contexts slot with
        | some x => q.takeData c slot x 0 payload
        | none => q
      | (q, none) => q.withoutStream := by
  unfold Path.dataArrives
  rw [if_neg (by rw [dropsStreams_working hw]; exact Bool.false_ne_true), hf]
  rfl

/-- Settles O18: the checks of R3 one after another, of an OPEN and of DATA number 0. -/
theorem openRefused : Obligations.OpenRefused := by
  constructor
  · intro s source branch stream mode endMode expected slot reason base b lastChecks hl hw h
    let o : OpenAsk := ⟨source, branch, stream, mode, endMode, expected, false⟩
    have fails : OpenFails s.path s.ctl o reason slot base := by
      simp [OpenFails, bad_iff, branchClosed, verifyClosed, o, b, lastChecks] at h ⊢
      exact h
    obtain ⟨hchecks, hlink⟩ := openChecks_fails fails
    exact completes_open ((openArrives_eq hw).trans (congrArg Prod.fst hchecks)) hl ((sendNotice_link _ _).trans hlink)
  · intro s source branch stream payload reason b hl hw hf h
    let o : OpenAsk := ⟨source, branch, stream, 1, 0, 0, true⟩
    have fails : OpenFails s.path s.ctl o reason 0 s.path := by
      simpa [OpenFails, bad_iff, branchClosed, verifyClosed, o, b, hf] using h
    refine completes_dataArrives ((dataArrives_implied hw hf).trans ?_) hl (sendNotice_link _ _)
    rw [(openChecks_fails fails).1]
    rfl

/-! ## Contexts written after notices and PACE notices -/

theorem sendNotice_withCtx (p : Path) (slot : Nat) (x : Context) (n : Notice) :
    (p.withCtx slot x).sendNotice n = (p.sendNotice n).withCtx slot x := by
  have hroom : (p.withCtx slot x).iPort = p.iPort := rfl
  unfold Path.sendNotice
  rw [hroom]
  split_ifs <;> rfl

theorem withPaced_withCtx (p : Path) (slot : Nat) (x y : Context) :
    (p.withPaced slot x).withCtx slot y = (p.withCtx slot y).makePace ⟨slot, x.branch, x.stream, x.source, x.pace, none⟩ :=
  congrArg (fun q => Path.makePace q _) (withCtx_twice p slot x y)

theorem withPaced_get (p : Path) (slot : Nat) (x : Context) : tabGet (p.withPaced slot x).contexts slot = some x :=
  withCtx_get p slot x

/-! ## A Chunker in OPENING -/

/-- A stream in OPENING does not end, and its records do not. -/
theorem endsIfDone_opening (hx : tabGet p.contexts slot = some x) (ho : x.state = .opening) : p.endsIfDone c slot = p := by
  unfold Path.endsIfDone
  simp [hx, ho]

/-- A context whose Chunker cannot be beyond its end is told nothing of OVERLENGTH. -/
theorem testOverlength_quiet (hx : tabGet p.contexts slot = some x) (h : x.overlong = false) :
    p.testOverlength slot = p := by
  unfold Path.testOverlength
  simp [hx, h]

/-- In OPENING the Chunker has not begun. -/
theorem runChunker_opening (hx : tabGet p.contexts slot = some x) (ho : x.state = .opening) :
    p.runChunker c slot = p.withCtx slot x := by
  have hread : x.state.reading = false := by rw [ho]; rfl
  unfold Path.runChunker
  rw [modCtx_get hx, hread, if_neg Bool.false_ne_true,
    testOverlength_quiet (withCtx_get _ _ _) (by simp [Context.overlong, hread]), check_eq_endsIfDone,
    endsIfDone_opening (withCtx_get _ _ _) ho]

/-! ## An open that is accepted (R2, R5, R6) -/

section accepted

variable {o : OpenAsk}

/-- An OPEN answered ACCEPTED with its slot, the branch's hot list asked for, before the context is written. -/
def openTold (p : Path) (o : OpenAsk) (slot : Nat) : Path :=
  let told := (Path.bump { p with eor := p.eor.filter fun n => n ≠ slot } .opensAccepted 1).sendNotice
    (.openReply o.source o.branch o.stream .accepted slot)
  { told with hotOps := told.hotOps ++ [.load o.branch (some slot)] }

theorem openTold_withCtx (p : Path) (o : OpenAsk) (slot : Nat) (y : Context) :
    (let opened := { p.withCtx slot y with eor := p.eor.filter fun n => n ≠ slot }
     let told := (opened.bump .opensAccepted 1).sendNotice (.openReply o.source o.branch o.stream .accepted slot)
     ({ told with hotOps := told.hotOps ++ [.load o.branch (some slot)] } : Path)) = (openTold p o slot).withCtx slot y :=
  congrArg (fun q : Path => { q with hotOps := q.hotOps ++ [HotOp.load o.branch (some slot)] })
    (sendNotice_withCtx (Path.bump { p with eor := p.eor.filter fun n => n ≠ slot } .opensAccepted 1) slot y
      (.openReply o.source o.branch o.stream .accepted slot))

theorem acceptOpen_eq (p : Path) (c : Control) (o : OpenAsk) (slot : Nat) :
    p.acceptOpen c o slot = (openTold p o slot).withCtx slot (o.context c) :=
  openTold_withCtx p o slot (o.context c)

/-- The context an accepted open fills, with the codes of R204 and the period of R5 written out. -/
theorem context_eq (o : OpenAsk) (c : Control) :
    o.context c =
      (let b := c.tables.activeBank.branch o.branch
       let pol := c.tables.activeBank.policy b.policy
       { branch := o.branch, stream := o.stream, source := o.source
         mode := if o.mode = 2 then .verify else .store
         endMode := if o.mode = 2 then some (if o.endMode = 1 then .count else .marker) else none
         expected := if o.mode = 2 ∧ o.endMode = 1 then some (if o.expected = 0 then 16777216 else o.expected) else none
         policy := pol, holdTag := b.holdTag, quota := b.quota
         warmUp := some (c.now + 25000 * if pol.warmUp = 0 then 16 else pol.warmUp) }) := by
  have hperiod (n : Nat) : warmUpPeriod n = 25000 * if n = 0 then 16 else n := by
    unfold warmUpPeriod msec
    split <;> omega
  simp [OpenAsk.context, hperiod]

theorem openTold_contexts (p : Path) (o : OpenAsk) (slot : Nat) : (openTold p o slot).contexts = p.contexts :=
  StoreLinkLoss.sendNotice_contexts _ _

theorem heldBlocks_tabSet_free {t : Tab Context} (h : tabGet t slot = none) (y : Context) :
    heldBlocks (tabSet t slot y) = heldBlocks t + y.held := by
  induction t with
  | nil => simp [tabSet, heldBlocks]
  | cons kv t ih =>
    obtain ⟨k, v⟩ := kv
    simp only [tabGet] at h
    split at h
    · cases h
    · rename_i hne
      have := ih h
      unfold heldBlocks at this ⊢
      simp only [tabSet, if_neg hne]
      split
      · simp only [List.map_cons, List.sum_cons]
        omega
      · simp only [List.map_cons, List.sum_cons, this]
        omega

/-- A context just opened holds no block, so the pool has what it had. -/
theorem acceptOpen_freeBlocks (h : tabGet p.contexts slot = none) : (p.acceptOpen c o slot).freeBlocks = p.freeBlocks := by
  have hheld : (o.context c).held = 0 := rfl
  unfold Path.freeBlocks
  rw [acceptOpen_eq]
  show 2048 - heldBlocks (tabSet (openTold p o slot).contexts slot (o.context c)) = _
  rw [openTold_contexts, heldBlocks_tabSet_free h, hheld, Nat.add_zero]

/-- Nothing follows the first parcel of a stream in OPENING with an empty reorder list, and its Chunker has not begun. -/
theorem nothing_follows (hz : tabGet q.contexts slot = some y) (hq : q.withCtx slot y = q) (hr : y.reorder = [])
    (hf : y.final = none) (ho : y.state = .opening) :
    ((Path.joinReorder c slot 8 q).modCtx slot Context.signal).runChunker c slot = q := by
  have hsignal : y.signal = y := by simp [Context.signal, hf]
  rw [joinReorder_none c 8 hz (by simp [hr]), modCtx_get hz, hsignal, hq, runChunker_opening hz ho, hq]

/-- The first parcel of an implied open is the new context's in-order parcel, and its pace state is tested. -/
theorem takeData_first (hfree : tabGet p.contexts slot = none)
    (hq : blocksCovering 0 payload.length ≤ (o.context c).quota) (hp : blocksCovering 0 payload.length ≤ p.freeBlocks) :
    (p.acceptOpen c o slot).takeData c slot (o.context c) 0 payload =
      paceTested (openTold p o slot) c slot (parcelTaken (o.context c) payload) 0 := by
  let y := parcelTaken (o.context c) payload
  have hafter : (o.context c).heldAfter (o.context c).reorder payload.length = blocksCovering 0 payload.length := by
    show blocksCovering 0 (0 + payload.length) + 0 = _
    rw [Nat.zero_add, Nat.add_zero]
  have htaken : (p.acceptOpen c o slot).takeInOrder c slot (o.context c) payload =
      (Path.joinReorder c slot 8 (paceTested (openTold p o slot) c slot y 0)).modCtx slot Context.signal := by
    rw [takeInOrder_fits (by rw [hafter]; exact hq) (by rw [hafter, acceptOpen_freeBlocks hfree]; omega)]
    unfold firstTaken paceTested
    rw [acceptOpen_eq, withCtx_twice]
    rfl
  have hclass : (o.context c).classify 0 = .inOrder := rfl
  unfold Path.takeData
  rw [hclass]
  dsimp only
  rw [htaken]
  by_cases hs : stopsAt c y 0
  · rw [paceTested_stops hs rfl]
    exact nothing_follows (withPaced_get _ _ _) (withPaced_withCtx _ _ _ _) rfl rfl rfl
  · rw [paceTested_quiet hs]
    exact nothing_follows (withCtx_get _ _ _) (withCtx_twice _ _ _ _) rfl rfl rfl

/-- The asked open passes the checks of its fields and finds no context but one in LINGER, which it frees. -/
theorem openChecks_accepted {base : Path} (h : PassesFields c o)
    (hfind : p.findCtx o.branch o.stream = none ∧ base = p ∨
      ∃ n x, p.findCtx o.branch o.stream = some (n, x) ∧ x.state = .linger ∧ base = p.freeCtx n)
    (hlim : base.openCount o.branch < (c.tables.activeBank.branch o.branch).streamLimit)
    (hslot : LowestFree base.contexts slot) : p.openChecks c o = (base.acceptOpen c o slot, some slot) := by
  rw [openChecks_passes h]
  obtain ⟨hf, rfl⟩ | ⟨n, x, hf, hx, rfl⟩ := hfind
  · rw [hf]
    exact openLast_accepted hlim hslot
  · rw [hf]
    exact (if_pos hx).trans (openLast_accepted hlim hslot)

end accepted

/-- Settles O17: the checks of R3 pass, and of DATA number 0 the payload is the first parcel. -/
theorem openAccepted : Obligations.OpenAccepted := by
  constructor
  · intro s source branch stream mode endMode expected slot base b pol x opened told hl hw hm hb hst hmode hen hver hfind
      hlim hslot
    let o : OpenAsk := ⟨source, branch, stream, mode, endMode, expected, false⟩
    have fields : PassesFields s.ctl o := by
      refine ⟨hm, ?_, by simpa [branchClosed, o] using hen, by simpa [verifyClosed, o] using hver⟩
      rw [bad_iff]
      dsimp only [o]
      omega
    have haccepted := openChecks_accepted (slot := slot) (o := o) fields hfind hlim hslot
    have hbase : base.link = s.path.link := by obtain ⟨_, rfl⟩ | ⟨n, x, _, _, rfl⟩ := hfind <;> rfl
    refine completes_open ((openArrives_eq hw).trans ((congrArg Prod.fst haccepted).trans ?_)) hl
      ((sendNotice_link _ _).trans hbase)
    dsimp only
    rw [acceptOpen_eq, context_eq]
    exact (openTold_withCtx base o slot x).symm
  · intro s source branch stream slot payload b pol blocks x stopped told opened takes hl hw hm hb hst hen himp hf hlim
      hslot hquota hpool
    let o : OpenAsk := ⟨source, branch, stream, 1, 0, 0, true⟩
    have fields : PassesFields s.ctl o := by
      refine ⟨hm, ?_, ?_, by simp [verifyClosed, o]⟩
      · rw [bad_iff]
        dsimp only [o]
        omega
      · have : b.enabled = true ∧ b.impliedOpen = true := ⟨hen, himp⟩
        simpa [branchClosed, o] using this
    have haccepted := openChecks_accepted (slot := slot) (o := o) fields (.inl ⟨hf, rfl⟩) hlim hslot
    have hx : parcelTaken (o.context s.ctl) payload = x := by
      rw [context_eq]
      simp [parcelTaken, Context.append, o, x, pol, b]
    have hheld : x.held = blocks := by simp [Context.held, Context.stagedEnd, reorderBlocks, x, blocks]
    have htaken : s.path.dataArrives s.ctl .i source branch stream 0 payload =
        paceTested (openTold s.path o slot) s.ctl slot x 0 := by
      rw [dataArrives_implied hw hf, haccepted]
      dsimp only
      rw [acceptOpen_eq, withCtx_get, ← acceptOpen_eq, ← hx]
      exact takeData_first hslot.2.2.1 hquota hpool
    refine ⟨fun hbelow => ?_, fun hreached => ?_⟩
    · refine completes_dataArrives (htaken.trans (paceTested_quiet ?_ _ _)) hl (sendNotice_link _ _)
      rintro (⟨_, _, h⟩ | ⟨h, _⟩)
      · rw [hheld] at h
        exact absurd hbelow (Nat.not_lt.2 h)
      · cases h
    · refine completes_dataArrives (htaken.trans (paceTested_stops (.inl ⟨rfl, ?_, ?_⟩) rfl _ _)) hl (sendNotice_link _ _)
      · rw [hheld]
        omega
      · rw [hheld]
        exact hreached

end Sys2Proof.Machine.StreamContexts
end

section
/-! PROOFS. SET MANAGEMENT SOURCES, and the refusals of FORCE END (O47). -/

namespace Sys2Proof.Machine.StreamContexts

open Sys2Proof

variable {s : State} {p : Path} {c : Control} {port : Port} {n slot : Nat} {src : Mac} {x : Context} {old given : List Mac}

theorem exec_setManagementSources (h : s.headRequest port = some ⟨n, src, .setManagementSources given⟩) :
    exec (.setManagementSources port) s = .next (State.finish ((s.withCtl
      { s.ctl with sources := (setSourcesAnswer s.ctl.sources given).1 }).answer port
      ⟨n, src, .setManagementSources given⟩ (setSourcesAnswer s.ctl.sources given).2)) := by
  show execSetManagementSources port s = _
  simp only [execSetManagementSources, h]

theorem exec_forceEnd (h : s.headRequest port = some ⟨n, src, .forceEnd slot⟩) :
    exec (.forceEnd port) s = .next (State.finish ((s.withPath (forceEndAnswer s.ctl s.path slot).1).answer port
      ⟨n, src, .forceEnd slot⟩ (forceEndAnswer s.ctl s.path slot).2)) := by
  show execForceEnd port s = _
  simp only [execForceEnd, h]

/-- A list of sources names no address that can be none (R190). -/
theorem badSource_iff : (given.any fun a => a = 0 || isGroupAddress a) = true ↔ ∃ a ∈ given, a = 0 ∨ a.getLsbD 40 = true := by
  simp [isGroupAddress]

theorem setSourcesAnswer_many (h : 2 < given.length) :
    setSourcesAnswer old given = (old, .refuseWith .tooMany (.sources old)) := if_pos h

theorem setSourcesAnswer_bad (hn : given.length ≤ 2) (h : ∃ a ∈ given, a = 0 ∨ a.getLsbD 40 = true) :
    setSourcesAnswer old given = (old, .refuseWith .badValue (.sources old)) :=
  (if_neg (Nat.not_lt.2 hn)).trans (if_pos (badSource_iff.2 h))

theorem setSourcesAnswer_taken (hn : given.length ≤ 2) (h : ¬ ∃ a ∈ given, a = 0 ∨ a.getLsbD 40 = true) :
    setSourcesAnswer old given = (given.dedup, .done (.sources given.dedup)) :=
  (if_neg (Nat.not_lt.2 hn)).trans (if_neg (mt badSource_iff.1 h))

theorem slotInRange_iff : slotInRange slot = true ↔ 1 ≤ slot ∧ slot ≤ 384 := by simp [slotInRange]

theorem forceEndAnswer_noSlot (h : slot = 0 ∨ 384 < slot) : forceEndAnswer c p slot = (p, .refuse .badValue) :=
  if_neg (by rw [slotInRange_iff]; omega)

/-- FORCE END of a FREE slot or of a context in LINGER finds no stream. -/
theorem forceEndAnswer_ended (h1 : 1 ≤ slot) (h2 : slot ≤ 384)
    (h : ∀ x, tabGet p.contexts slot = some x → x.state = .linger) :
    forceEndAnswer c p slot = (p, .refuse .notFound) := by
  refine (if_pos (slotInRange_iff.2 ⟨h1, h2⟩)).trans ?_
  cases hx : tabGet p.contexts slot with
  | none => rfl
  | some x => simp [h x hx, CtxState.taking]

theorem forceEndAnswer_quiescing (h1 : 1 ≤ slot) (h2 : slot ≤ 384) (hx : tabGet p.contexts slot = some x)
    (h : x.state = .quiescing) : forceEndAnswer c p slot = (p, .done .none) := by
  refine (if_pos (slotInRange_iff.2 ⟨h1, h2⟩)).trans ?_
  simp [hx, h, CtxState.taking]

/-- FORCE END of a context that takes parcels ends it with cause FORCED. -/
theorem forceEndAnswer_taken (h1 : 1 ≤ slot) (h2 : slot ≤ 384) (hx : tabGet p.contexts slot = some x)
    (h : x.state.taking = true) :
    forceEndAnswer c p slot = ((p.abnormal slot .forced).check c slot, .done .none) := by
  refine (if_pos (slotInRange_iff.2 ⟨h1, h2⟩)).trans ?_
  simp [hx, h]

theorem replies_sources {l : List Mac} {a : Answer} (hl : s.path.lostDrained)
    (h : s.headRequest port = some ⟨n, src, .setManagementSources given⟩)
    (ha : setSourcesAnswer s.ctl.sources given = (l, a)) :
    Replies (.setManagementSources port) s (s.withCtl { s.ctl with sources := l }) port
      ⟨n, src, .setManagementSources given⟩ a := by
  have hex := exec_setManagementSources h
  rw [ha] at hex
  exact replies_finish hex rfl hl

theorem replies_forceEnd {a : Answer} (hl : s.path.lostDrained) (h : s.headRequest port = some ⟨n, src, .forceEnd slot⟩)
    (ha : forceEndAnswer s.ctl s.path slot = (s.path, a)) :
    Replies (.forceEnd port) s s port ⟨n, src, .forceEnd slot⟩ a := by
  have hex := exec_forceEnd h
  rw [ha] at hex
  exact replies_finish hex rfl hl

/-- Settles O47: the cases of each request one by one; the list taken is the one given without its repetitions. -/
theorem sourcesAreSetAndEndsForced : Obligations.SourcesAreSetAndEndsForced := by
  intro s port n src hl
  refine ⟨fun given h => ⟨fun hn => ?_, fun hn hbad => ?_, fun hn hgood => ?_⟩,
    fun slot h => ⟨fun hr => ?_, fun h1 h2 hx => ?_, fun h1 h2 hx => ?_⟩⟩
  · exact replies_sources hl h (setSourcesAnswer_many hn)
  · exact replies_sources hl h (setSourcesAnswer_bad hn hbad)
  · exact ⟨given.dedup, given.nodup_dedup, fun a => List.mem_dedup, replies_sources hl h (setSourcesAnswer_taken hn hgood)⟩
  · exact replies_forceEnd hl h (forceEndAnswer_noSlot hr)
  · exact replies_forceEnd hl h (forceEndAnswer_ended h1 h2 hx)
  · obtain ⟨x, hget, hq⟩ := hx
    exact replies_forceEnd hl h (forceEndAnswer_quiescing h1 h2 hget hq)

end Sys2Proof.Machine.StreamContexts
end

section
/-! PROOFS. Streams ended early: ABORT, a CLOSE below the expected sequence, and FORCE END (O25, O26). -/

namespace Sys2Proof.Machine.StreamContexts

open Sys2Proof

variable {s : State} {p : Path} {c : Control} {port : Port} {source src : Mac}
  {branch stream slot final total n : Nat} {x : Context} {cls : EndClass} {cause : Option Cause}

/-! ## Operations that do not look at PACE notices or at contexts -/

theorem sendNotice_dropPace (p : Path) (slot : Nat) (n : Notice) :
    (p.dropPace slot).sendNotice n = (p.sendNotice n).dropPace slot := by
  have hroom : (p.dropPace slot).iPort.room = p.iPort.room := rfl
  have hhold : (p.dropPace slot).iPort.hold = p.iPort.hold := rfl
  unfold Path.sendNotice
  rw [hroom, hhold]
  split_ifs <;> rfl

theorem dropPace_twice (p : Path) (slot : Nat) : (p.dropPace slot).dropPace slot = p.dropPace slot := by
  simp [Path.dropPace, List.filter_filter]

theorem recordsEnd_withCtx (p : Path) (slot : Nat) (x : Context) :
    (p.withCtx slot x).recordsEnd slot = (p.recordsEnd slot).withCtx slot x := by
  have heor : (p.withCtx slot x).eor = p.eor := rfl
  have hbatch : (p.withCtx slot x).batch = p.batch := rfl
  unfold Path.recordsEnd
  rw [heor, hbatch]
  split_ifs <;> rfl

theorem recordsEnd_dropPace (p : Path) (slot : Nat) :
    (p.dropPace slot).recordsEnd slot = (p.recordsEnd slot).dropPace slot := by
  have heor : (p.dropPace slot).eor = p.eor := rfl
  have hbatch : (p.dropPace slot).batch = p.batch := rfl
  unfold Path.recordsEnd
  rw [heor, hbatch]
  split_ifs <;> rfl

/-! ## What an early end comes to (R13 to R15) -/

/-- The context in a slot in QUIESCING with a class and a cause, its PACE notice discarded. -/
def parkedAt (p : Path) (slot : Nat) (x : Context) (cls : EndClass) (cause : Option Cause) : Path :=
  (p.withCtx slot (x.parked cls cause)).dropPace slot

/-- The parked context tested for its end. -/
def endedEarly (p : Path) (c : Control) (slot : Nat) (x : Context) (cls : EndClass) (cause : Option Cause) : Path :=
  (parkedAt p slot x cls cause).endsIfDone c slot

theorem parkedAt_get (p : Path) (slot : Nat) (x : Context) (cls : EndClass) (cause : Option Cause) :
    tabGet (parkedAt p slot x cls cause).contexts slot = some (x.parked cls cause) := withCtx_get p slot _

theorem quiesce_check (hx : tabGet p.contexts slot = some x) (ht : x.state.taking = true) :
    (p.quiesce slot cls cause none).check c slot = endedEarly p c slot x cls cause := by
  rw [quiesce_parked hx ht, check_eq_endsIfDone]
  rfl

theorem endedEarly_withCtx (p : Path) (c : Control) (slot : Nat) (x y : Context) (cls : EndClass) (cause : Option Cause) :
    endedEarly (p.withCtx slot x) c slot y cls cause = endedEarly p c slot y cls cause := by
  unfold endedEarly parkedAt
  rw [withCtx_twice]

/-- A stream that keeps an item or has a record unanswered goes on in QUIESCING. -/
theorem endedEarly_quiesces (h : x.unanswered ≠ 0 ∨ ∃ i ∈ x.queue, i.issued = true) :
    endedEarly p c slot x cls cause =
      if x.completed = true ∧ ∀ i ∈ x.queue, i.issued = false then (parkedAt p slot x cls cause).recordsEnd slot
      else parkedAt p slot x cls cause := by
  have hempty : (x.parked cls cause).queue = [] ↔ ∀ i ∈ x.queue, i.issued = false := by simp [Context.parked]
  have hgoes : ¬ ((x.parked cls cause).queue = [] ∧ (x.parked cls cause).unanswered = 0) := by
    rintro ⟨hq, hu⟩
    obtain h | ⟨i, hi, hissued⟩ := h
    · exact h hu
    · rw [hempty.1 hq i hi] at hissued
      cases hissued
  unfold endedEarly
  rw [endsIfDone_quiescing (parkedAt_get _ _ _ _ _) rfl]
  dsimp only
  rw [if_neg hgoes, if_congr (and_congr Iff.rfl hempty) rfl rfl]
  rfl

/-- The context of a stream that an early end finds with nothing in flight. -/
def lingering (c : Control) (x : Context) (cls : EndClass) (cause : Option Cause) : Context :=
  { x with
    state := .linger, endClass := some cls, cause := cause, failPoint := none, queue := [], chunks := [], window := []
    reorder := [], warmUp := none, chunker := { x.chunker with status := .stopped }
    linger := some (c.now + 25000 * (100 * if x.policy.linger = 0 then 16 else x.policy.linger)) }

/-- The end of a stream that an early end finds with nothing in flight, once its records are reported. -/
def endedAtOnce (p : Path) (c : Control) (slot : Nat) (x : Context) (cls : EndClass) (cause : Option Cause) : Path :=
  ((((p.sendNotice (.summary x.source
    ⟨slot, x.branch, x.stream, x.mode, cls, cause, x.inOrder, x.summary, none, c.calendar⟩)).bump (endCounter cls) 1).withCtx
      slot (lingering c x cls cause)).dropPace slot)

theorem ends_parked (hcls : cls ≠ .normal) (hi : ∀ i ∈ x.queue, i.issued = false) :
    (parkedAt p slot x cls cause).ends c slot (x.parked cls cause) (cls, cause) = endedAtOnce p c slot x cls cause := by
  have hqueue : x.queue.filter (fun i => i.issued) = [] := by simpa [List.filter_eq_nil_iff] using hi
  have hrewrite (q : Path) : q.askRewrite (x.parked cls cause) cls = q := if_neg fun h => hcls h.2.1
  have hlinger : (x.parked cls cause).enterLinger cls cause c.now = lingering c x cls cause := by
    have hperiod (k : Nat) : lingerPeriod k = 25000 * (100 * if k = 0 then 16 else k) := rfl
    simp [Context.enterLinger, Context.parked, lingering, hqueue, hperiod]
  rw [← endStream_eq_ends]
  unfold Path.endStream parkedAt
  dsimp only
  rw [hrewrite, hlinger, sendNotice_dropPace, sendNotice_withCtx]
  refine Eq.trans ?_ (dropPace_twice _ _)
  exact congrArg (fun q => Path.dropPace (Path.dropPace q slot) slot) (withCtx_twice
    (Path.bump (p.sendNotice (.summary x.source
      ⟨slot, x.branch, x.stream, x.mode, cls, cause, x.inOrder, x.summary, none, c.calendar⟩)) (endCounter cls) 1) slot
    (x.parked cls cause) (lingering c x cls cause))

/-- A stream with nothing in flight reports the end of its records, if its Chunker had become COMPLETE, and ends. -/
theorem endedEarly_ends (hcls : cls ≠ .normal) (hi : ∀ i ∈ x.queue, i.issued = false) (hu : x.unanswered = 0) :
    endedEarly p c slot x cls cause =
      endedAtOnce (if x.completed = true then p.recordsEnd slot else p) c slot x cls cause := by
  have hempty : (x.parked cls cause).queue = [] := by simpa [Context.parked] using hi
  have hreported : (if x.completed = true then (parkedAt p slot x cls cause).recordsEnd slot
      else parkedAt p slot x cls cause) =
        parkedAt (if x.completed = true then p.recordsEnd slot else p) slot x cls cause := by
    split
    · exact (recordsEnd_dropPace _ _).trans (congrArg (Path.dropPace · slot) (recordsEnd_withCtx _ _ _))
    · rfl
  unfold endedEarly
  rw [endsIfDone_quiescing (parkedAt_get _ _ _ _ _) rfl]
  dsimp only
  rw [if_pos ⟨hempty, hu⟩, if_congr (and_iff_left hempty) rfl rfl]
  exact (congrArg (Path.ends · c slot _ (cls, cause)) hreported).trans (ends_parked hcls hi)

/-! ## The three commands that end a stream early (R9, R16, R17) -/

theorem completes_aborted (hw : s.path.warm = none) (hx : tabGet s.path.contexts slot = some x)
    (ht : x.state.taking = true) (hf : s.path.findCtx branch stream = some (slot, x)) :
    CompletesDrained (.abortParcel .i source branch stream) s (s.withPath (endedEarly s.path s.ctl slot x .aborted none)) := by
  have harrives : s.path.abortArrives s.ctl .i source branch stream = endedEarly s.path s.ctl slot x .aborted none := by
    rw [← quiesce_check hx ht]
    unfold Path.abortArrives
    simp [dropsStreams_working hw, hf, ht]
  rw [← harrives]
  exact completesDrained_finish rfl rfl

/-- A CLOSE of a stream in OPENING or ACTIVE is taken (R9). -/
theorem closeArrives_taken (hw : s.path.warm = none) (hf : s.path.findCtx branch stream = some (slot, x))
    (ht : x.state.taking = true) (hd : x.state ≠ .draining) :
    s.path.closeArrives c .i source branch stream final total = s.path.takeClose c slot x final total := by
  unfold Path.closeArrives
  rw [dropsStreams_working hw, if_neg Bool.false_ne_true, hf]
  cases hs : x.state with
  | opening | active => simp [hs]
  | draining => exact absurd hs hd
  | quiescing | linger => rw [hs] at ht; cases ht

theorem completes_short (hw : s.path.warm = none) (hf : s.path.findCtx branch stream = some (slot, x))
    (ht : x.state.taking = true) (hd : x.state ≠ .draining) (hn : final < x.expectedSeq) :
    CompletesDrained (.closeParcel .i source branch stream final total) s (s.withPath
      (endedEarly s.path s.ctl slot { x with final := some final, total := some total } .abnormal
        (some .lengthMismatch))) := by
  have harrives : s.path.closeArrives s.ctl .i source branch stream final total =
      endedEarly s.path s.ctl slot { x with final := some final, total := some total } .abnormal (some .lengthMismatch) := by
    rw [closeArrives_taken hw hf ht hd]
    refine (if_pos hn).trans ?_
    let y : Context := { x with final := some final, total := some total }
    exact (quiesce_check (x := y) (withCtx_get s.path slot y) ht).trans (endedEarly_withCtx _ _ _ _ _ _ _)
  rw [← harrives]
  exact completesDrained_finish rfl rfl

theorem replies_forced (h : s.headRequest port = some ⟨n, src, .forceEnd slot⟩) (h1 : 1 ≤ slot) (h2 : slot ≤ 384)
    (hx : tabGet s.path.contexts slot = some x) (ht : x.state.taking = true) :
    RepliesDrained (.forceEnd port) s (s.withPath (endedEarly s.path s.ctl slot x .abnormal (some .forced))) port
      ⟨n, src, .forceEnd slot⟩ (.done .none) := by
  have hex := exec_forceEnd h
  rw [forceEndAnswer_taken h1 h2 hx ht] at hex
  rw [← quiesce_check hx ht]
  exact repliesDrained_finish hex rfl

/-- Settles O25: a stream with nothing in flight ends as it is parked. -/
theorem earlyEndWithNothingInFlight : Obligations.EarlyEndWithNothingInFlight := by
  intro s slot x linger reported ends hw hx ht hi hu
  refine ⟨fun source branch stream hf => ?_, fun source branch stream final total hf hd hn => ?_,
    fun port n src h h1 h2 => ?_⟩
  · have := completes_aborted (source := source) hw hx ht hf
    rwa [endedEarly_ends (by decide) hi hu] at this
  · have := completes_short (source := source) (total := total) hw hf ht hd hn
    rwa [endedEarly_ends (x := { x with final := some final, total := some total }) (by decide) hi hu] at this
  · have := replies_forced h h1 h2 hx ht
    rwa [endedEarly_ends (by decide) hi hu] at this

/-- Settles O26: a stream with an issued lookup or an unanswered record is parked, and goes on. -/
theorem abortQuiesces : Obligations.AbortQuiesces := by
  intro s slot x parks hw hx ht hfly
  refine ⟨fun source branch stream hf => ?_, fun source branch stream final total hf hd hn => ?_,
    fun port n src h h1 h2 => ?_⟩
  · have := completes_aborted (source := source) hw hx ht hf
    rwa [endedEarly_quiesces hfly] at this
  · have := completes_short (source := source) (total := total) hw hf ht hd hn
    rwa [endedEarly_quiesces (x := { x with final := some final, total := some total }) hfly] at this
  · have := replies_forced h h1 h2 hx ht
    rwa [endedEarly_quiesces hfly] at this

end Sys2Proof.Machine.StreamContexts
end

section
/-! PROOFS. What the Chunker comes to as it is told of bytes or of its stream's end, and a CLOSE that is taken (O24). -/

namespace Sys2Proof.Machine.StreamContexts

open Sys2Proof
open Sys2Proof.Machine.ParcelOrder

variable {s : State} {p : Path} {c : Control} {source : Mac}
  {branch stream slot final total before : Nat} {x y : Context}

/-! ## The Chunker settles its status (R45, R50) -/

/-- The status to which a Chunker settles that goes on. -/
def goingOn (x : Context) : ChunkerStatus :=
  if x.readOffset = x.inOrder then .starved else if x.chunker.n = 0 ∧ 32 ≤ x.queue.length then .held else .running

/-- The stream has ended and every byte of it has been read. -/
def allRead (x : Context) : Prop := x.readOffset = x.inOrder ∧ x.chunker.ended = true

theorem goingOn_ne_complete (x : Context) : goingOn x ≠ .complete := by
  unfold goingOn
  split_ifs <;> decide

theorem settleStatus_goesOn (hd : x.countDone = false) (h : ¬ allRead x) : x.settleStatus = x.setStatus (goingOn x) := by
  unfold Context.settleStatus goingOn
  rw [hd, if_neg Bool.false_ne_true]
  split
  · rename_i hr
    rw [if_neg fun he => h ⟨hr, he⟩]
  · split <;> rfl

theorem settleStatus_allRead (hd : x.countDone = false) (h : allRead x) : x.settleStatus = x.finished := by
  rw [← statusSettled_eq_settleStatus]
  unfold Context.statusSettled
  rw [hd, if_neg Bool.false_ne_true, if_pos h.1, if_pos h.2]

/-- At the end of its stream the Chunker has no byte before it. -/
theorem finished_overlong (h : x.readOffset = x.inOrder) : x.finished.overlong = false := by
  have hread : ¬ x.finished.readOffset < x.finished.inOrder := by
    unfold Context.finished Context.readOffset at *
    dsimp only
    split <;> exact Nat.not_lt.2 (Nat.le_of_eq h.symm)
  simp [Context.overlong, hread]

theorem runChunker_reads (hx : tabGet p.contexts slot = some x) (hr : x.state.reading = true)
    (ho : x.settleStatus.overlong = false) :
    p.runChunker c slot = (p.withCtx slot x.settleStatus).endsIfDone c slot := by
  unfold Path.runChunker
  rw [modCtx_get hx, hr, if_pos rfl, testOverlength_quiet (withCtx_get _ _ _) ho, check_eq_endsIfDone]

/-- A Chunker that goes on settles its status, and nothing ends. -/
theorem runChunker_goesOn (hx : tabGet p.contexts slot = some x) (hr : x.state.reading = true)
    (hc : x.completed = false) (hd : x.countDone = false) (h : ¬ allRead x) :
    p.runChunker c slot = p.withCtx slot (x.setStatus (goingOn x)) := by
  have htaking : x.state.taking = true := by
    cases hs : x.state with
    | active | draining | opening => rfl
    | quiescing | linger => rw [hs] at hr; cases hr
  have hcount : (x.setStatus (goingOn x)).countDone = false := hd
  rw [runChunker_reads hx hr (by rw [settleStatus_goesOn hd h]; simp [Context.overlong, hcount]), settleStatus_goesOn hd h]
  exact endsIfDone_unfinished c (withCtx_get _ _ _) htaking hc fun _ => goingOn_ne_complete x

/-- At the end of its stream the Chunker is COMPLETE, and the stream may be done. -/
theorem runChunker_allRead (hx : tabGet p.contexts slot = some x) (hr : x.state.reading = true)
    (hd : x.countDone = false) (h : allRead x) :
    p.runChunker c slot = (p.withCtx slot x.finished).endsIfDone c slot := by
  have hsettled := settleStatus_allRead hd h
  rw [runChunker_reads hx hr (by rw [hsettled]; exact finished_overlong h.1), hsettled]

/-! ## A fall of the held blocks, and the Chunker after it (R42) -/

/-- The context takes its slot and, where the held blocks fell, a PACE GO is made for it. -/
def pacedIf (fell : Bool) (p : Path) (slot : Nat) (y : Context) : Path :=
  if fell then p.withPaced slot { y with pace := .go } else p.withCtx slot y

/-- The held blocks of a STOP context that reads have fallen to half its quota (R42). -/
def fell (y : Context) (before : Nat) : Bool :=
  y.state.reading && decide (y.pace = .stop ∧ y.held < before ∧ y.held ≤ y.quota / 2)

theorem withFall_eq_pacedIf (p : Path) (slot : Nat) (y : Context) (before : Nat) :
    p.withFall slot y before = pacedIf (fell y before) p slot y := by
  unfold Path.withFall pacedIf fell
  simp only [Bool.and_eq_true, decide_eq_true_eq]

/-- The context in the slot after that, but for its pace state `y`. -/
def pacedCtx (fell : Bool) (y : Context) : Context := if fell then { y with pace := .go } else y

/-- Rewriting the context, its pace state as it was and its identity too, comes to writing it before the PACE GO. -/
theorem pacedIf_withCtx (f : Bool) (p : Path) (slot : Nat) (x y : Context) (hb : x.branch = y.branch)
    (hs : x.stream = y.stream) (hm : x.source = y.source) :
    (pacedIf f p slot x).withCtx slot (pacedCtx f y) = pacedIf f p slot y := by
  cases f
  · exact withCtx_twice _ _ _ _
  · refine (withPaced_withCtx _ _ _ _).trans ?_
    dsimp only
    rw [hb, hs, hm]
    rfl

theorem pacedIf_link (f : Bool) (p : Path) (slot : Nat) (y : Context) :
    (pacedIf f p slot y).link = p.link := by cases f <;> rfl

theorem runChunker_paced_goesOn (f : Bool) (hr : y.state.reading = true) (hc : y.completed = false)
    (hd : y.countDone = false) (h : ¬ allRead y) :
    (pacedIf f p slot y).runChunker c slot = pacedIf f p slot (y.setStatus (goingOn y)) := by
  rw [← pacedIf_withCtx f p slot y (y.setStatus (goingOn y)) rfl rfl rfl]
  cases f
  · exact runChunker_goesOn (withCtx_get _ _ _) hr hc hd h
  · exact runChunker_goesOn (withPaced_get _ _ _) hr hc hd h

theorem finished_identity (y : Context) : y.finished.branch = y.branch ∧ y.finished.stream = y.stream ∧
    y.finished.source = y.source := by
  unfold Context.finished
  dsimp only
  split <;> exact ⟨rfl, rfl, rfl⟩

theorem finished_pacedCtx (f : Bool) (y : Context) : (pacedCtx f y).finished = pacedCtx f y.finished := by
  cases f
  · rfl
  · unfold pacedCtx Context.finished
    simp only [if_true]
    split <;> rfl

theorem runChunker_paced_allRead (f : Bool) (hr : y.state.reading = true) (hd : y.countDone = false) (h : allRead y) :
    (pacedIf f p slot y).runChunker c slot = (pacedIf f p slot y.finished).endsIfDone c slot := by
  obtain ⟨hb, hs, hm⟩ := finished_identity y
  rw [← pacedIf_withCtx f p slot y y.finished hb.symm hs.symm hm.symm, ← finished_pacedCtx]
  cases f
  · exact runChunker_allRead (withCtx_get _ _ _) hr hd h
  · exact runChunker_allRead (withPaced_get _ _ _) hr hd h

/-! ## A CLOSE that is taken (R8 to R10) -/

/-- A CLOSE with N not below the expected sequence is recorded, the held blocks may fall, and the Chunker is told. -/
theorem takeClose_recorded (h : x.expectedSeq ≤ final) : p.takeClose c slot x final total =
    (pacedIf (fell (x.takeClose final total) x.held) p slot (x.takeClose final total)).runChunker c slot := by
  rw [← withFall_eq_pacedIf, withFall_eq_testGo]
  exact if_neg (Nat.not_lt.2 h)

/-- A second CLOSE in DRAINING is counted at the context alone (R10). -/
theorem closeArrives_second (hw : p.warm = none) (hf : p.findCtx branch stream = some (slot, x))
    (hx : tabGet p.contexts slot = some x) (hs : x.state = .draining) :
    p.closeArrives c .i source branch stream final total =
      p.withCtx slot { x with dupCount := min max48 (x.dupCount + 1) } := by
  have hsecond : p.closeArrives c .i source branch stream final total = p.secondClose slot := by
    unfold Path.closeArrives
    simp [dropsStreams_working hw, hf, hs]
  exact hsecond.trans (modCtx_get hx _)

/-- Settles O24: what CLOSE records, then the test of R42 and the Chunker. -/
theorem closeIsTaken : Obligations.CloseIsTaken := by
  intro s source branch stream final total slot x kept taken y z paced takes hl hw hf hx
  refine ⟨fun ho hn => ?_, fun ha hn hc hd => ?_, fun hs => ?_⟩
  · have hclose : x.takeClose final total = { taken with closePending := true } := by
      simp [Context.takeClose, ho, taken, kept, add48]
    have htaken := (closeArrives_taken (c := s.ctl) (source := source) (final := final) (total := total) hw hf
      (by rw [ho]; rfl) (by rw [ho]; decide)).trans (takeClose_recorded hn)
    have hstays : fell { taken with closePending := true } x.held = false := by simp [fell, taken, ho, CtxState.reading]
    rw [hclose, hstays] at htaken
    refine completes_close (htaken.trans ?_) (lostDrained_of_link hl rfl)
    exact (runChunker_opening (x := { taken with closePending := true }) (withCtx_get _ _ _) ho).trans (withCtx_twice _ _ _ _)
  · have hclose : x.takeClose final total = y := by
      simp [Context.takeClose, ha, y, taken, kept, add48]
    have htaken := (closeArrives_taken (c := s.ctl) (source := source) (final := final) (total := total) hw hf
      (by rw [ha]; rfl) (by rw [ha]; decide)).trans (takeClose_recorded hn)
    rw [hclose] at htaken
    have hpaced (w : Context) (h : w.branch = x.branch ∧ w.stream = x.stream ∧ w.source = x.source) :
        pacedIf (fell y x.held) s.path slot w = paced w := by
      obtain ⟨hb, hs, hm⟩ := h
      simp [pacedIf, fell, paced, Path.withPaced, hb, hs, hm, y, taken, CtxState.reading]
    refine ⟨fun hrest => ?_, fun he hread hlost => ?_⟩
    · have hnot : ¬ allRead y := by
        rintro ⟨hr, hended⟩
        have hended : x.expectedSeq = final := by simpa [y, taken] using hended
        exact hrest.elim (fun h => absurd hended (Nat.ne_of_lt h)) fun h => h hr
      refine completes_close (htaken.trans ((runChunker_paced_goesOn (y := y) _ rfl hc hd hnot).trans (hpaced z ⟨rfl, rfl, rfl⟩)))
        (lostDrained_of_link hl ?_)
      rw [← hpaced z ⟨rfl, rfl, rfl⟩, pacedIf_link]
    · have hall : allRead y := ⟨hread, by simp [y, taken, he]⟩
      have hsame := hpaced y.finished (finished_identity y)
      refine completes_close (htaken.trans ((runChunker_paced_allRead (y := y) _ rfl hd hall).trans
        (congrArg (Path.endsIfDone · s.ctl slot) hsame))) fun h => absurd h ?_
      rw [endsIfDone_state, ← hsame, pacedIf_link]
      exact hlost
  · exact completes_close (closeArrives_second hw hf hx hs) (lostDrained_of_link hl rfl)

end Sys2Proof.Machine.StreamContexts
end

section
/-! PROOFS. DATA that the quota or the pool cannot take (O23). -/

namespace Sys2Proof.Machine.StreamContexts

open Sys2Proof
open Sys2Proof.Machine.ParcelOrder

variable {s : State} {p : Path} {c : Control} {slot seq would quota free present : Nat} {payload : List Byte} {x y : Context}

theorem placeCheck_quota (h : quota < would) : placeCheck quota free present would = .quota := if_pos h

theorem placeCheck_pool (hq : would ≤ quota) (hp : free + present < would) :
    placeCheck quota free present would = .pool := (if_neg (Nat.not_lt.2 hq)).trans (if_pos hp)

/-! ## The three ways in which a parcel is dropped as an overrun (R35 to R37, R41) -/

/-- For the quota with a PACE STOP, for the quota with none, and for the pool. -/
inductive Overrun where
  | stops
  | quiet
  | pool

/-- Which of them applies to a parcel that would make a context's blocks so many. -/
def Overrun.applies (p : Path) (c : Control) (x : Context) (would : Nat) : Overrun → Prop
  | .stops => x.quota < would ∧ (x.pace = .go ∨ ¬ x.stopRecent c.now = true)
  | .quiet => x.quota < would ∧ x.pace = .stop ∧ x.stopRecent c.now = true
  | .pool => would ≤ x.quota ∧ p.freeBlocks + x.held < would

/-- The context, but for its pace state `y`, as the drop leaves it. -/
def Overrun.ctx (c : Control) (y : Context) : Overrun → Context
  | .stops => { y with pace := .stop, lastStop := some c.now }
  | .quiet => y
  | .pool => y

/-- The data path with the context in its slot and the drop counted. -/
def Overrun.path (p : Path) (c : Control) (slot : Nat) (y : Context) : Overrun → Path
  | .stops => (p.withPaced slot { y with pace := .stop, lastStop := some c.now }).bump .quotaOverruns 1
  | .quiet => (p.withCtx slot y).bump .quotaOverruns 1
  | .pool => ((p.withCtx slot y).bump .poolOverruns 1).setFlag .stagingExhausted

theorem Overrun.path_link (k : Overrun) (p : Path) (c : Control) (slot : Nat) (y : Context) :
    (k.path p c slot y).link = p.link := by cases k <;> rfl

/-- Settling the Chunker's status after the drop comes to settling it before. -/
theorem Overrun.path_setStatus (k : Overrun) (p : Path) (c : Control) (slot : Nat) (y : Context) (st : ChunkerStatus) :
    (k.path p c slot y).withCtx slot ((k.ctx c y).setStatus st) = k.path p c slot (y.setStatus st) := by
  cases k with
  | stops => exact congrArg (Path.bump · .quotaOverruns 1) (withPaced_withCtx _ _ _ _)
  | quiet => exact congrArg (Path.bump · .quotaOverruns 1) (withCtx_twice _ _ _ _)
  | pool => exact congrArg (fun q => Path.setFlag (Path.bump q .poolOverruns 1) .stagingExhausted) (withCtx_twice _ _ _ _)

theorem Overrun.path_same (k : Overrun) (p : Path) (c : Control) (slot : Nat) (y : Context) :
    (k.path p c slot y).withCtx slot (k.ctx c y) = k.path p c slot y := by
  have := k.path_setStatus p c slot y y.chunker.status
  cases k <;> exact this

/-- The context with one overrun more. -/
def overrunCounted (x : Context) : Context := { x with overrunCount := min max48 (x.overrunCount + 1) }

theorem overrun_eq {k : Overrun} (hx : tabGet p.contexts slot = some x) (h : k.applies p c x would) :
    placeCheck x.quota p.freeBlocks x.held would ≠ .fits ∧
      p.overrun c slot (placeCheck x.quota p.freeBlocks x.held would) = k.path p c slot (overrunCounted x) := by
  have hcount : p.modCtx slot (fun x => { x with overrunCount := add48 x.overrunCount 1 }) =
      p.withCtx slot (overrunCounted x) := modCtx_get hx _
  have hget : tabGet ((p.withCtx slot (overrunCounted x)).bump .quotaOverruns 1).contexts slot = some (overrunCounted x) :=
    withCtx_get _ _ _
  have hpaced (z : Context) : ((p.withCtx slot (overrunCounted x)).bump .quotaOverruns 1).paced slot z =
      (p.withPaced slot z).bump .quotaOverruns 1 :=
    congrArg (Path.bump · .quotaOverruns 1) (paced_eq_withPaced _ _ _ _)
  have hold : (overrunCounted x).stopOld c.now = !x.stopRecent c.now := stopOld_eq_stopRecent _ _
  unfold Path.overrun
  rw [hcount]
  cases k with
  | stops =>
    obtain ⟨hq, hs⟩ := h
    rw [placeCheck_quota hq]
    refine ⟨by decide, ?_⟩
    show Path.quotaStop _ c slot = _
    unfold Path.quotaStop Path.repeatStop
    rw [hget]
    dsimp only
    split
    · exact hpaced _
    · rename_i hgo
      have hstop : x.pace = .stop := by
        cases hp : x.pace with
        | go => exact absurd hp hgo
        | stop => rfl
      have hrecent := hs.resolve_left hgo
      rw [if_pos ⟨hstop, by rw [hold]; simpa using hrecent⟩, hpaced]
      have : ({ overrunCounted x with lastStop := some c.now } : Context) =
          { overrunCounted x with pace := .stop, lastStop := some c.now } := by
        rw [← hstop]
        rfl
      rw [this]
      rfl
  | quiet =>
    obtain ⟨hq, hstop, hrecent⟩ := h
    rw [placeCheck_quota hq]
    refine ⟨by decide, ?_⟩
    show Path.quotaStop _ c slot = _
    unfold Path.quotaStop Path.repeatStop
    rw [hget]
    dsimp only
    rw [if_neg (by show ¬ x.pace = .go; rw [hstop]; decide), if_neg (by rw [hold, hrecent]; simp)]
    rfl
  | pool =>
    obtain ⟨hq, hp⟩ := h
    rw [placeCheck_pool hq hp]
    exact ⟨by decide, rfl⟩

/-! ## The Chunker after the drop -/

theorem Overrun.runChunker_goesOn (k : Overrun) (hr : y.state.reading = true) (hc : y.completed = false)
    (hd : y.countDone = false) (h : ¬ allRead y) :
    (k.path p c slot y).runChunker c slot = k.path p c slot (y.setStatus (goingOn y)) := by
  rw [← k.path_setStatus]
  cases k <;> exact StreamContexts.runChunker_goesOn (withCtx_get _ _ _) hr hc hd h

theorem Overrun.runChunker_opening (k : Overrun) (ho : y.state = .opening) :
    (k.path p c slot y).runChunker c slot = k.path p c slot y := by
  refine Eq.trans ?_ (k.path_same p c slot y)
  cases k <;> exact StreamContexts.runChunker_opening (withCtx_get _ _ _) ho

/-- A Chunker that is COMPLETE at its E-th chunk stays so. -/
theorem runChunker_complete (hx : tabGet p.contexts slot = some x) (hr : x.state.reading = true)
    (hc : x.completed = true) (hd : x.countDone = true) (hst : x.chunker.status = .complete)
    (hread : x.readOffset = x.inOrder) : p.runChunker c slot = (p.withCtx slot x).endsIfDone c slot := by
  have hsettled : x.settleStatus = x := by
    unfold Context.settleStatus Context.complete
    rw [if_pos hd, ← hc, ← hst]
  rw [runChunker_reads hx hr (by rw [hsettled]; simp [Context.overlong, hread]), hsettled]

theorem Overrun.runChunker_complete (k : Overrun) (hr : y.state.reading = true) (hc : y.completed = true)
    (hd : y.countDone = true) (hst : y.chunker.status = .complete) (hread : y.readOffset = y.inOrder) :
    (k.path p c slot y).runChunker c slot = (k.path p c slot y).endsIfDone c slot := by
  refine Eq.trans ?_ (congrArg (Path.endsIfDone · c slot) (k.path_same p c slot y))
  cases k <;> exact StreamContexts.runChunker_complete (withCtx_get _ _ _) hr hc hd hst hread

/-! ## The parcel -/

theorem takeInOrder_overrun
    (h : placeCheck x.quota p.freeBlocks x.held (x.heldAfter x.reorder payload.length) ≠ .fits) :
    p.takeInOrder c slot x payload =
      p.overrun c slot (placeCheck x.quota p.freeBlocks x.held (x.heldAfter x.reorder payload.length)) := by
  unfold Path.takeInOrder
  cases hc : placeCheck x.quota p.freeBlocks x.held (x.heldAfter x.reorder payload.length) with
  | fits => exact absurd hc h
  | quota | pool => rfl

theorem takeEarly_overrun (h8 : x.reorder.length < 8)
    (h : placeCheck x.quota p.freeBlocks x.held (x.held + blocksOf payload.length) ≠ .fits) :
    p.takeEarly c slot x seq payload =
      p.overrun c slot (placeCheck x.quota p.freeBlocks x.held (x.held + blocksOf payload.length)) := by
  unfold Path.takeEarly
  rw [if_neg (Nat.not_le.2 h8)]
  cases hc : placeCheck x.quota p.freeBlocks x.held (x.held + blocksOf payload.length) with
  | fits => exact absurd hc h
  | quota | pool => rfl

/-- A parcel that is not dropped as a duplicate, and how many blocks its context would hold with it. -/
structure Overruns (p : Path) (c : Control) (x : Context) (seq would : Nat) (payload : List Byte) (k : Overrun) : Prop where
  notWaiting : ∀ e ∈ x.reorder, e.seq ≠ seq
  notLast : seq ≠ 0xFFFFFFFF
  belowFinal : ∀ n, x.final = some n → seq < n
  blocks : seq = x.expectedSeq ∧ would = x.heldAfter x.reorder payload.length ∨
    x.expectedSeq < seq ∧ x.reorder.length < 8 ∧ would = x.held + blocksOf payload.length
  applies : k.applies p c x would

/-- The parcel is dropped; after one in order the Chunker is told. -/
theorem takeData_overrun {k : Overrun} (hx : tabGet p.contexts slot = some x) (h : Overruns p c x seq would payload k) :
    p.takeData c slot x seq payload =
      if seq = x.expectedSeq then (k.path p c slot (overrunCounted x)).runChunker c slot
      else k.path p c slot (overrunCounted x) := by
  obtain ⟨hnot, hfit⟩ := overrun_eq hx h.applies
  unfold Path.takeData
  obtain ⟨he, rfl⟩ | ⟨hlt, h8, rfl⟩ := h.blocks
  · rw [classify_taken (Nat.le_of_eq he.symm) h.notWaiting h.notLast h.belowFinal, if_pos he, if_pos he]
    dsimp only
    rw [takeInOrder_overrun hnot, hfit]
  · rw [classify_taken (Nat.le_of_lt hlt) h.notWaiting h.notLast h.belowFinal, if_neg (by omega), if_neg (by omega)]
    exact (takeEarly_overrun h8 hnot).trans hfit

/-- Where the Chunker does not read or the parcel is early, the drop is all. -/
theorem takeData_overrun_unread {k : Overrun} (hx : tabGet p.contexts slot = some x)
    (h : Overruns p c x seq would payload k) (hn : x.state = .opening ∨ seq ≠ x.expectedSeq) :
    p.takeData c slot x seq payload = k.path p c slot (overrunCounted x) := by
  rw [takeData_overrun hx h]
  split
  · rename_i he
    exact k.runChunker_opening (hn.resolve_right fun hne => hne he)
  · rfl

/-- Settles O23: the check that fails names the drop, and the Chunker is told after a parcel in order. -/
theorem overrunDataIsDropped : Obligations.OverrunDataIsDropped := by
  intro s source branch stream seq slot would payload x counted reads recent takes dropped hl hw hf hx ht hwait hlast hfin
    hblocks
  have hrecent : recent ↔ x.stopRecent s.ctl.now = true := (stopRecent_iff x _).symm
  have overruns {k : Overrun} (h : k.applies s.path s.ctl x would) : Overruns s.path s.ctl x seq would payload k :=
    ⟨hwait, hlast, hfin, hblocks, h⟩
  have each (y : Context) (done : Path → Path) (hid : y.branch = x.branch ∧ y.stream = x.stream ∧ y.source = x.source)
      (h : ∀ k : Overrun, k.applies s.path s.ctl x would → takes (done (k.path s.path s.ctl slot y))) :
      dropped y done := by
    obtain ⟨hb, hs, hm⟩ := hid
    refine ⟨fun hq => ⟨fun hpace => ?_, fun hp hr => h .quiet ⟨hq, hp, hrecent.1 hr⟩⟩, fun hq hp => h .pool ⟨hq, hp⟩⟩
    rw [← hb, ← hs, ← hm]
    exact h .stops ⟨hq, hpace.imp_right fun hr => mt hrecent.2 hr⟩
  refine ⟨fun hn => ?_, fun hr hc hd hne => ?_, fun hr hc hd hread hended => ?_, fun hr hc hd hst hread hlost => ?_⟩
  · refine each counted id ⟨rfl, rfl, rfl⟩ fun k h => completes_data hl hw hf ht
      (takeData_overrun_unread hx (overruns h) ?_) (k.path_link _ _ _ _)
    by_contra hcontra
    exact hn ⟨fun ho => hcontra (.inl ho), by_contra fun he => hcontra (.inr he)⟩
  · refine each _ id ⟨rfl, rfl, rfl⟩ fun k h => completes_data hl hw hf ht ?_ (k.path_link _ _ _ _)
    have hnot : ¬ allRead counted := fun h => hne h.1
    rw [takeData_overrun hx (overruns h), if_pos hr.2]
    refine (k.runChunker_goesOn (y := counted) (reading_of_taking ht hr.1) hc hd hnot).trans ?_
    unfold goingOn
    rw [if_neg (show ¬ counted.readOffset = counted.inOrder from hne)]
    rfl
  · refine each _ id ⟨rfl, rfl, rfl⟩ fun k h => completes_data hl hw hf ht ?_ (k.path_link _ _ _ _)
    have hnot : ¬ allRead counted := fun h => by
      have : x.chunker.ended = true := h.2
      rw [hended] at this
      cases this
    rw [takeData_overrun hx (overruns h), if_pos hr.2]
    refine (k.runChunker_goesOn (y := counted) (reading_of_taking ht hr.1) hc hd hnot).trans ?_
    unfold goingOn
    rw [if_pos (show counted.readOffset = counted.inOrder from hread)]
    rfl
  · refine each counted (fun p => p.endsIfDone s.ctl slot) ⟨rfl, rfl, rfl⟩ fun k h => ?_
    have htaken : s.path.takeData s.ctl slot x seq payload = (k.path s.path s.ctl slot counted).endsIfDone s.ctl slot := by
      rw [takeData_overrun hx (overruns h), if_pos hr.2]
      exact k.runChunker_complete (y := counted) (reading_of_taking ht hr.1) hc hd hst hread
    refine completes_finish (s := s) (u := s.withPath _) ?_ rfl fun hlostEnd => absurd hlostEnd ?_
    · show execData .i source branch stream seq payload s = _
      unfold execData
      rw [dataArrives_eq hw hf ht, htaken]
    · show ((k.path s.path s.ctl slot counted).endsIfDone s.ctl slot).link.state ≠ .lost
      rw [endsIfDone_state, k.path_link]
      exact hlost

end Sys2Proof.Machine.StreamContexts
end

section
/-! PROOFS. The end of OPENING and of LINGER, and the branch hot lists (O50). -/

namespace Sys2Proof.Machine.StreamContexts

open Sys2Proof
open Sys2Proof.Machine.ParcelOrder

variable {s : State} {p q : Path} {c : Control} {slot branch time : Nat} {x y : Context}

/-! ## Reads of a sparse table put together of parts -/

section tables

variable {α : Type} {t : Tab α} {lo n m i : Nat} {a b : Tab α} {l : List α}

theorem tabGet_append (a b : Tab α) (i : Nat) : tabGet (a ++ b) i = (tabGet a i).or (tabGet b i) := by
  induction a with
  | nil => rfl
  | cons kv t ih =>
    simp only [List.cons_append, tabGet]
    split
    · rfl
    · exact ih

theorem tabGet_filter (t : Tab α) (f : Nat → Bool) (i : Nat) :
    tabGet (t.filter fun e => f e.1) i = if f i then tabGet t i else none := by
  induction t with
  | nil => simp [tabGet]
  | cons kv t ih =>
    obtain ⟨k, v⟩ := kv
    by_cases hk : f k = true
    · simp only [List.filter_cons, hk, if_true, tabGet, ih]
      by_cases hi : i = k
      · simp [hi, hk]
      · simp [hi]
    · rw [List.filter_cons_of_neg (by simpa using hk), ih]
      by_cases hi : i = k
      · simp [hi, hk]
      · simp [tabGet, hi]

theorem tabGet_numbered (lo : Nat) (l : List α) (i : Nat) :
    tabGet (numbered lo l) i = if lo ≤ i then l[i - lo]? else none := by
  induction l generalizing lo with
  | nil => simp [numbered, tabGet]
  | cons a l ih =>
    simp only [numbered, tabGet, ih]
    rcases Nat.lt_trichotomy i lo with h | rfl | h
    · simp [Nat.ne_of_lt h, Nat.not_le.2 h, show ¬ lo + 1 ≤ i by omega]
    · simp
    · obtain ⟨k, rfl⟩ : ∃ k, i = lo + 1 + k := ⟨i - (lo + 1), by omega⟩
      have h1 : lo + 1 + k - (lo + 1) = k := by omega
      have h2 : lo + 1 + k - lo = k + 1 := by omega
      simp [h1, h2, show ¬ lo + 1 + k = lo by omega, show lo ≤ lo + 1 + k by omega]

/-- The numbers of a canonical table up to one more than before: those before, and the one at that number. -/
theorem filter_range_succ (hw : tabWf t = true) (hlo : lo ≤ m) :
    (t.filter fun e => decide (lo ≤ e.1) && decide (e.1 < m + 1)) =
      (t.filter fun e => decide (lo ≤ e.1) && decide (e.1 < m)) ++ t.filter fun e => decide (e.1 = m) := by
  induction t with
  | nil => rfl
  | cons kv t ih =>
    obtain ⟨k, v⟩ := kv
    obtain ⟨hk, ht⟩ := tabWf_cons.1 hw
    have ih := ih ht
    simp only [Nat.lt_add_one_iff] at ih ⊢
    simp only [List.filter_cons]
    rcases Nat.lt_trichotomy k m with h | rfl | h
    · by_cases hl : lo ≤ k
      · simp [hl, h, show k ≤ m by omega, show ¬ k = m by omega, ih]
      · simp [hl, show ¬ k = m by omega, ih]
    · have hnone : (t.filter fun e => decide (lo ≤ e.1) && decide (e.1 < k)) = [] := by
        refine List.filter_eq_nil_iff.2 fun e he => ?_
        have := hk e he
        simp only [Bool.and_eq_true, decide_eq_true_eq]
        omega
      simp [hlo, ih, hnone]
    · simp [show ¬ k ≤ m by omega, show ¬ k < m by omega, show ¬ k = m by omega, ih]

theorem filter_number (hw : tabWf t = true) (m : Nat) :
    (t.filter fun e => decide (e.1 = m)).map (·.2) = (tabGet t m).toList := by
  induction t with
  | nil => rfl
  | cons kv t ih =>
    obtain ⟨k, v⟩ := kv
    obtain ⟨hk, ht⟩ := tabWf_cons.1 hw
    simp only [List.filter_cons, tabGet]
    by_cases h : m = k
    · subst h
      have hnone : (t.filter fun e => decide (e.1 = m)) = [] := by
        refine List.filter_eq_nil_iff.2 fun e he => ?_
        have := hk e he
        simp only [decide_eq_true_eq]
        omega
      simp [hnone]
    · simp [h, Ne.symm h, ih ht]

/-- The values of a canonical table under consecutive numbers, read one by one. -/
theorem filter_range_values (hw : tabWf t = true) (lo n : Nat) :
    (t.filter fun e => decide (lo ≤ e.1) && decide (e.1 < lo + n)).map (·.2) =
      (List.range n).filterMap fun i => tabGet t (lo + i) := by
  induction n with
  | zero =>
    refine List.map_eq_nil_iff.2 (List.filter_eq_nil_iff.2 fun e _ => ?_)
    simp only [Bool.and_eq_true, decide_eq_true_eq]
    omega
  | succ n ih =>
    have hsucc := filter_range_succ (m := lo + n) hw (Nat.le_add_right lo n)
    rw [← Nat.add_assoc, hsucc, List.map_append, ih, filter_number hw, List.range_succ, List.filterMap_append]
    cases hget : tabGet t (lo + n) <;> simp [hget]

end tables

/-! ## The slots of a branch's hot list (R62, R105, R107) -/

/-- The address of the first slot of a branch's hot list. -/
def firstSlot (branch : Nat) : Nat := (16 + branch / 4) * 8192 + branch % 4 * 2048

theorem hotSlot_first (branch i : Nat) : hotSlot branch i = firstSlot branch + i := by
  rw [hotSlot_eq]
  unfold firstSlot
  omega

/-- The full slots among the branch's 2,048, read one by one. -/
def slotsOf (z : Index) (branch : Nat) : List (Fingerprint × Nat) :=
  (List.range 2048).filterMap fun i => tabGet z.hot (firstSlot branch + i)

theorem hotList_eq {z : Index} (hw : tabWf z.hot = true) (branch : Nat) : z.hotList branch = slotsOf z branch := by
  have hslots : hotSlots = 2048 := rfl
  unfold Index.hotList slotsOf
  rw [hotSlot_first, hotSlot_first, hslots, Nat.add_zero, filter_range_values hw]

theorem tabGet_writeHotList (z : Index) (branch : Nat) (sights : List (Fingerprint × Nat)) (a : Nat) :
    tabGet (z.writeHotList branch sights).hot a =
      if firstSlot branch ≤ a ∧ a < firstSlot branch + 2048 then sights[a - firstSlot branch]? else tabGet z.hot a := by
  have hslots : hotSlots = 2048 := rfl
  unfold Index.writeHotList
  dsimp only
  rw [tabGet_append, tabGet_append, tabGet_numbered, hotSlot_first, hotSlot_first, hslots,
    tabGet_filter z.hot (fun k => decide (k < firstSlot branch + 0)),
    tabGet_filter z.hot (fun k => decide (firstSlot branch + 2048 ≤ k))]
  rcases Nat.lt_or_ge a (firstSlot branch) with h | h
  · simp [h, show ¬ firstSlot branch ≤ a by omega, show ¬ firstSlot branch + 2048 ≤ a by omega]
  · rcases Nat.lt_or_ge a (firstSlot branch + 2048) with h2 | h2
    · simp [h, h2, show ¬ a < firstSlot branch by omega, show ¬ firstSlot branch + 2048 ≤ a by omega,
        show a - firstSlot branch < 2048 by omega]
    · simp [h, h2, show ¬ a < firstSlot branch by omega, show ¬ a < firstSlot branch + 2048 by omega,
        show ¬ a - firstSlot branch < 2048 by omega]

/-! ## Operations at hot lists (R104, R105) -/

section underWay

variable {before after : List HotOp} {o : HotOp}

/-- The first operation of its branch is under way, and leaves the others in their order. -/
theorem hotUnderWay_eq (h : p.hotOps = before ++ o :: after) (hb : ∀ q ∈ before, q.branchOf ≠ branch)
    (ho : o.branchOf = branch) : p.hotUnderWay branch = some o := by
  unfold Path.hotUnderWay
  rw [h, List.find?_append, List.find?_eq_none.2 fun q hq => by simpa using hb q hq]
  simp [ho]

theorem hotDone_eq (h : p.hotOps = before ++ o :: after) (hb : ∀ q ∈ before, q.branchOf ≠ branch)
    (ho : o.branchOf = branch) : p.hotDone branch = { p with hotOps := before ++ after } := by
  unfold Path.hotDone
  rw [h, List.eraseP_append_right _ fun q hq => by simpa using hb q hq]
  simp [ho]

/-- Installs do not look at the operations on their way. -/
theorem installAll_hotOps (p : Path) (l : List (Fingerprint × Nat)) (ops : List HotOp) :
    Path.installAll { p with hotOps := ops } l = { p.installAll l with hotOps := ops } := by
  unfold Path.installAll
  induction l generalizing p with
  | nil => rfl
  | cons w l ih => exact ih (p.install w.1 w.2)

theorem installAll_keeps (p : Path) (l : List (Fingerprint × Nat)) :
    (p.installAll l).contexts = p.contexts ∧ (p.installAll l).link = p.link := by
  unfold Path.installAll
  induction l generalizing p with
  | nil => exact ⟨rfl, rfl⟩
  | cons w l ih => exact ih (p.install w.1 w.2)

end underWay

/-! ## The end of OPENING (R7) -/

/-- The context as its Chunker begins. -/
def begun (x : Context) : Context := { x with state := if x.closePending then .draining else .active, warmUp := none }

theorem begun_reading (x : Context) : (begun x).state.reading = true := by
  show (if x.closePending then CtxState.draining else .active).reading = true
  split <;> rfl

/-- What the context in a slot comes to as OPENING ends, the Chunker going on or having read every byte of an ended
stream. -/
def Begins (s : State) (c : Control) (slot : Nat) (x : Context) (p q : Path) : Prop :=
  x.completed = false ∧ x.countDone = false ∧
    (¬ allRead x ∧ q = p.withCtx slot ((begun x).setStatus (goingOn x)) ∨
      allRead x ∧ s.path.link.state ≠ .lost ∧ q = (p.withCtx slot (begun x).finished).endsIfDone c slot)

theorem endOpening_eq (hx : tabGet p.contexts slot = some x) (ho : x.state = .opening) :
    p.endOpening c slot = (p.withCtx slot (begun x)).runChunker c slot := by
  unfold Path.endOpening
  rw [hx]
  exact if_pos ho

theorem endOpening_other (h : ∀ x, tabGet p.contexts slot = some x → x.state ≠ .opening) : p.endOpening c slot = p := by
  unfold Path.endOpening
  cases hx : tabGet p.contexts slot with
  | none => rfl
  | some x => exact if_neg (h x hx)

theorem Begins.endOpening (h : Begins s c slot x p q) (hx : tabGet p.contexts slot = some x) (ho : x.state = .opening) :
    p.endOpening c slot = q := by
  obtain ⟨hc, hd, ⟨hn, rfl⟩ | ⟨hall, _, rfl⟩⟩ := h
  · rw [endOpening_eq hx ho]
    exact (runChunker_goesOn (x := begun x) (withCtx_get _ _ _) (begun_reading x) hc hd hn).trans (withCtx_twice _ _ _ _)
  · rw [endOpening_eq hx ho]
    exact (runChunker_allRead (x := begun x) (withCtx_get _ _ _) (begun_reading x) hd hall).trans
      (congrArg (Path.endsIfDone · c slot) (withCtx_twice _ _ _ _))

theorem Begins.lostDrained (h : Begins s c slot x p q) (hl : s.path.lostDrained) (hp : p.link = s.path.link) :
    q.lostDrained := by
  obtain ⟨_, _, ⟨_, rfl⟩ | ⟨_, hlost, rfl⟩⟩ := h
  · exact lostDrained_of_link hl hp
  · refine fun h => absurd h ?_
    rw [endsIfDone_state]
    show p.link.state ≠ .lost
    rw [hp]
    exact hlost

/-! ## The commands -/

theorem exec_warmUpExpiry (hx : tabGet s.path.contexts slot = some x) (ht : x.warmUp = some time) :
    exec (.warmUpExpiry slot) s = .next (State.finish
      { s with ctl := { s.ctl with now := max s.ctl.now time }
               path := s.path.endOpening { s.ctl with now := max s.ctl.now time } slot }) := by
  show execWarmUpExpiry slot s = _
  unfold execWarmUpExpiry
  rw [hx]
  dsimp only [Option.bind]
  rw [ht]
  rfl

theorem exec_lingerExpiry (hx : tabGet s.path.contexts slot = some x) (ht : x.linger = some time) :
    exec (.lingerExpiry slot) s = .next (State.finish
      { s with ctl := { s.ctl with now := max s.ctl.now time }, path := s.path.freeCtx slot }) := by
  show execLingerExpiry slot s = _
  unfold execLingerExpiry
  rw [hx]
  dsimp only [Option.bind]
  rw [ht]
  rfl

/-- The data path with the locators of a hot list installed, and the operations that are left. -/
def loadedWith (p : Path) (l : List (Fingerprint × Nat)) (left : List HotOp) : Path := { p.installAll l with hotOps := left }

theorem loadedWith_contexts (p : Path) (l : List (Fingerprint × Nat)) (left : List HotOp) :
    (loadedWith p l left).contexts = p.contexts := (installAll_keeps p l).1

theorem loadedWith_link (p : Path) (l : List (Fingerprint × Nat)) (left : List HotOp) :
    (loadedWith p l left).link = p.link := (installAll_keeps p l).2

/-- The context that asked for a list, if one did, ends OPENING. -/
def asked (p : Path) (c : Control) : Option Nat → Path
  | some slot => p.endOpening c slot
  | none => p

theorem exec_hotListLoadComplete {before after : List HotOp} {who : Option Nat}
    (h : s.path.hotOps = before ++ .load branch who :: after) (hb : ∀ o ∈ before, HotOp.branchOf o ≠ branch)
    (hw : tabWf s.idx.hot = true) :
    exec (.hotListLoadComplete branch) s =
      .next (State.finish (s.withPath (asked (loadedWith s.path (slotsOf s.idx branch) (before ++ after)) s.ctl who))) := by
  show execHotListLoadComplete branch s = _
  unfold execHotListLoadComplete
  rw [hotUnderWay_eq h hb rfl]
  dsimp only
  rw [hotDone_eq h hb rfl, installAll_hotOps, hotList_eq hw]
  cases who <;> rfl

theorem exec_hotListRewriteComplete {before after : List HotOp} {sights : List (Fingerprint × Nat)}
    (h : s.path.hotOps = before ++ .rewrite branch sights :: after) (hb : ∀ o ∈ before, HotOp.branchOf o ≠ branch) :
    exec (.hotListRewriteComplete branch) s = .next (State.finish
      { s with idx := s.idx.writeHotList branch sights, path := { s.path with hotOps := before ++ after } }) := by
  show execHotListRewriteComplete branch s = _
  unfold execHotListRewriteComplete
  rw [hotUnderWay_eq h hb rfl]
  dsimp only
  rw [hotDone_eq h hb rfl]

/-- Settles O50: each event at its context or at its branch's list. -/
theorem openingAndLingerEnd : Obligations.OpeningAndLingerEnd := by
  intro s hl first list loaded
  have hloaded (branch : Nat) (left : List HotOp) : loaded branch left = loadedWith s.path (slotsOf s.idx branch) left := rfl
  refine ⟨fun slot x hx => ?_, fun branch before after who h hb hw hother => ?_,
    fun branch before after sights h hb hw => ?_⟩
  · intro begun' ends y becomes forgotten
    refine ⟨?_, fun branch before after q h hb hw ho hq => ?_, fun time ht => ?_⟩
    · intro time q c ho ht hq
      have hbegins : Begins s c slot x s.path q := hq
      have hex := exec_warmUpExpiry hx ht
      rw [hbegins.endOpening hx ho] at hex
      exact completes_finish hex rfl (hbegins.lostDrained hl rfl)
    · rw [hloaded] at hq
      have hbegins : Begins s s.ctl slot x (loadedWith s.path (slotsOf s.idx branch) (before ++ after)) q := hq
      have hex := exec_hotListLoadComplete h hb hw
      rw [asked, hbegins.endOpening (by rw [loadedWith_contexts]; exact hx) ho] at hex
      exact completes_finish hex rfl (hbegins.lostDrained hl (loadedWith_link _ _ _))
    · exact completes_finish (exec_lingerExpiry hx ht) rfl (lostDrained_of_link hl rfl)
  · have hex := exec_hotListLoadComplete h hb hw
    have hcontexts := loadedWith_contexts s.path (slotsOf s.idx branch) (before ++ after)
    have hlink := loadedWith_link s.path (slotsOf s.idx branch) (before ++ after)
    rw [hloaded]
    generalize loadedWith s.path (slotsOf s.idx branch) (before ++ after) = p at hex hcontexts hlink ⊢
    have hsame : asked p s.ctl who = p := by
      cases who with
      | none => rfl
      | some slot => exact endOpening_other fun x hx => hother slot x rfl (by rwa [hcontexts] at hx)
    rw [hsame] at hex
    exact completes_finish hex rfl (lostDrained_of_link hl hlink)
  · have hread := tabGet_writeHotList s.idx branch sights
    refine ⟨_, writeHotList_wf hw branch sights, fun i hi => ?_, fun a ha => ?_,
      completes_finish (exec_hotListRewriteComplete h hb) rfl (lostDrained_of_link hl rfl)⟩
    · rw [show first branch = firstSlot branch from rfl, hread, if_pos ⟨Nat.le_add_right _ _, Nat.add_lt_add_left hi _⟩,
        Nat.add_sub_cancel_left]
    · rw [hread, if_neg]
      rintro ⟨h1, h2⟩
      exact ha.elim (fun h => absurd h1 (Nat.not_le.2 h)) fun h => absurd h2 (Nat.not_lt.2 h)

end Sys2Proof.Machine.StreamContexts
end

section
/-! PROOFS. The Chunker takes a byte (O52). -/

namespace Sys2Proof.Machine.StreamContexts

open Sys2Proof
open Sys2Proof.Machine.ParcelOrder

variable {s : State} {p : Path} {c : Control} {slot seq : Nat} {payload : List Byte} {x y : Context}

/-! ## The boundary test (R47, R48) -/

theorem roll_eq (h g : Word32) : roll h g = 2 * h + g := by
  unfold roll
  bv_omega

theorem looseMask_eq {k : Nat} (h : 2 ≤ k) : looseMask k = BitVec.ofNat 32 (2 ^ 32 - 2 ^ (34 - k)) := by
  have : 32 - (k - 2) = 34 - k := by omega
  rw [looseMask, topMask, this]

theorem strictMask_eq (k : Nat) : strictMask k = BitVec.ofNat 32 (2 ^ 32 - 2 ^ (30 - k)) := by
  have : 32 - (k + 2) = 30 - k := by omega
  rw [strictMask, topMask, this]

/-- The test of R48 with its two masks written out. -/
theorem boundary_eq {pol : PolicyEntry} (hk : 2 ≤ pol.k) (n : Nat) (h : Word32) :
    boundary pol n h =
      if n = pol.max then true
      else if n < pol.min then false
      else if n < 2 ^ pol.k then decide (h &&& BitVec.ofNat 32 (2 ^ 32 - 2 ^ (30 - pol.k)) = 0)
      else decide (h &&& BitVec.ofNat 32 (2 ^ 32 - 2 ^ (34 - pol.k)) = 0) := by
  rw [boundary, strictMask_eq, looseMask_eq hk]

/-- The context with a byte in its chunk, its rolling value `h`. -/
def byteRead (x : Context) (h : Word32) : Context := { x with chunker := { x.chunker with n := x.chunker.n + 1, h := h } }

/-- The byte at the read offset. -/
def nextByte (x : Context) : Byte := x.window.getD (x.readOffset - x.releasePoint) 0

theorem takeByte_eq (gear : Nat → Word32) (x : Context) (h : Word32) (hh : 2 * x.chunker.h + gear (nextByte x).toNat = h) :
    x.takeByte gear =
      (if boundary x.policy (x.chunker.n + 1) h then (byteRead x h).cut else byteRead x h).settleStatus := by
  subst hh
  rw [← roll_eq]
  rfl

/-! ## What follows a byte -/

/-- The context that the byte leaves is written, and OVERLENGTH, the end of its records and its end are tested. -/
theorem exec_takeByte (hx : tabGet s.path.contexts slot = some x) (hr : x.chunker.status = .running) :
    exec (.takeByte slot) s = .next (State.finish (s.withPath (((s.path.withCtx slot
      (x.takeByte (x.gearTable s.ctl.tables))).testOverlength slot).endsIfDone s.ctl slot))) := by
  show execTakeByte slot s = _
  unfold execTakeByte
  rw [hx]
  dsimp only
  rw [if_pos hr, check_eq_endsIfDone]
  rfl

/-- A stream with an item in its queue that is not QUIESCING goes on. -/
theorem endsIfDone_queued (hx : tabGet p.contexts slot = some x) (hq : x.queue ≠ []) : p.endsIfDone c slot = p := by
  unfold Path.endsIfDone
  simp [hx, hq]

/-- The byte leaves a Chunker that goes on. -/
theorem completes_goesOn (hl : s.path.lostDrained) (hx : tabGet s.path.contexts slot = some x)
    (hr : x.chunker.status = .running) (hy : x.takeByte (x.gearTable s.ctl.tables) = y)
    (ht : y.state.taking = true) (hc : y.completed = false) (hd : y.countDone = false) (hs : y.chunker.status ≠ .complete) :
    Completes (.takeByte slot) s (s.withPath (s.path.withCtx slot y)) := by
  have hex := exec_takeByte hx hr
  rw [hy, testOverlength_quiet (withCtx_get _ _ _) (by simp [Context.overlong, hd]),
    endsIfDone_unfinished _ (withCtx_get _ _ _) ht hc fun _ => hs] at hex
  exact completes_finish hex rfl (lostDrained_of_link hl rfl)

/-- The byte leaves a Chunker that has read all there is, with an item in its queue. -/
theorem completes_allRead (hl : s.path.lostDrained) (hx : tabGet s.path.contexts slot = some x)
    (hr : x.chunker.status = .running) (hy : x.takeByte (x.gearTable s.ctl.tables) = y)
    (hq : y.queue ≠ []) (hread : y.readOffset = y.inOrder) :
    Completes (.takeByte slot) s (s.withPath (s.path.withCtx slot y)) := by
  have hex := exec_takeByte hx hr
  rw [hy, testOverlength_quiet (withCtx_get _ _ _) (by simp [Context.overlong, hread]),
    endsIfDone_queued (withCtx_get _ _ _) hq] at hex
  exact completes_finish hex rfl (lostDrained_of_link hl rfl)

theorem taking_of_reading {st : CtxState} (h : st.reading = true) : st.taking = true := by
  cases st with
  | active | draining | opening => rfl
  | quiescing | linger => cases h

/-- A context found with a byte beyond its E-th chunk is parked with cause OVERLENGTH (R19, R54). -/
theorem testOverlength_ends (hx : tabGet p.contexts slot = some y) (hr : y.state.reading = true)
    (hd : y.countDone = true) (hread : y.readOffset < y.inOrder) :
    p.testOverlength slot = (p.withCtx slot (y.quiesce .abnormal (some .overlength) none)).dropPace slot := by
  have hover : y.overlong = true := by simp [Context.overlong, hr, hd, hread]
  unfold Path.testOverlength
  rw [hx]
  exact (if_pos hover).trans (quiesce_parked hx (taking_of_reading hr) _ _)

/-- The byte completes the E-th chunk of a stream that holds more. -/
theorem completes_overlong (hl : s.path.link.state ≠ .lost) (hx : tabGet s.path.contexts slot = some x)
    (hr : x.chunker.status = .running) (hy : x.takeByte (x.gearTable s.ctl.tables) = y)
    (hs : y.state.reading = true) (hd : y.countDone = true) (hread : y.readOffset < y.inOrder) :
    Completes (.takeByte slot) s (s.withPath (Path.endsIfDone ((s.path.withCtx slot
      (y.quiesce .abnormal (some .overlength) none)).dropPace slot) s.ctl slot)) := by
  have hex := exec_takeByte hx hr
  rw [hy, testOverlength_ends (withCtx_get _ _ _) hs hd hread, withCtx_twice] at hex
  exact completes_finish hex rfl fun h => absurd h (by rw [State.withPath, endsIfDone_state]; exact hl)

/-! ## The byte and the Chunker's status (R45, R49, R50) -/

section byte

variable {h : Word32}

/-- The byte is not the last of an ended stream. -/
def bytesFollow (x : Context) : Prop := x.chunker.ended = false ∨ x.chunker.start + (x.chunker.n + 1) ≠ x.inOrder

theorem not_allRead_of_follow (hf : bytesFollow x) (he : y.chunker.ended = x.chunker.ended)
    (hr : y.readOffset = x.chunker.start + (x.chunker.n + 1)) (hi : y.inOrder = x.inOrder) : ¬ allRead y := by
  rintro ⟨hread, hended⟩
  rw [he] at hended
  rw [hr, hi] at hread
  exact hf.elim (fun h => by rw [hended] at h; cases h) fun h => h hread

theorem settle_byteRead (hd : x.countDone = false) (hf : bytesFollow x) :
    (byteRead x h).settleStatus = (byteRead x h).setStatus
      (if x.chunker.start + (x.chunker.n + 1) = x.inOrder then .starved else .running) := by
  have hnot : ¬ allRead (byteRead x h) := not_allRead_of_follow hf rfl rfl rfl
  rw [settleStatus_goesOn (x := byteRead x h) hd hnot]
  have : goingOn (byteRead x h) = if x.chunker.start + (x.chunker.n + 1) = x.inOrder then .starved else .running := by
    unfold goingOn
    rw [if_neg (show ¬ ((byteRead x h).chunker.n = 0 ∧ _) from fun hn => by cases hn.1)]
    rfl
  rw [this]

theorem settle_cut (hd : (byteRead x h).cut.countDone = false)
    (hf : bytesFollow x) :
    (byteRead x h).cut.settleStatus = (byteRead x h).cut.setStatus
      (if x.chunker.start + (x.chunker.n + 1) = x.inOrder then .starved
       else if 32 ≤ x.queue.length + 1 then .held else .running) := by
  have hnot : ¬ allRead (byteRead x h).cut := not_allRead_of_follow hf rfl rfl rfl
  have hlen : (byteRead x h).cut.queue.length = x.queue.length + 1 := List.length_append
  rw [settleStatus_goesOn hd hnot]
  unfold goingOn
  rw [hlen, if_congr (and_iff_right (show (byteRead x h).cut.chunker.n = 0 from rfl)) rfl rfl]
  rfl

theorem settle_countDone (hd : x.countDone = true) : x.settleStatus = x.complete := by
  unfold Context.settleStatus
  rw [if_pos hd]

/-- The last byte of an ended stream is in the last chunk, wherever the test of R48 ends it. -/
theorem settle_last (hd : x.countDone = false) (he : x.chunker.ended = true)
    (hs : x.chunker.start + (x.chunker.n + 1) = x.inOrder) (ends : Bool) :
    (if ends then (byteRead x h).cut else byteRead x h).settleStatus = (byteRead x h).cut.complete := by
  cases ends with
  | false =>
    rw [if_neg Bool.false_ne_true, settleStatus_allRead (x := byteRead x h) hd ⟨hs, he⟩]
    rfl
  | true =>
    rw [if_pos rfl]
    by_cases hcount : (byteRead x h).cut.countDone = true
    · exact settle_countDone hcount
    · rw [settleStatus_allRead (x := (byteRead x h).cut) (by simpa using hcount) ⟨hs, he⟩]
      rfl

end byte

/-! ## A DATA parcel for a stream whose E-th chunk is cut (R19, R54) -/

/-- An in-order parcel that quota and pool take, that nothing follows and that makes no PACE notice, for a stream whose
E-th chunk has been cut: its bytes are beyond that chunk. -/
theorem takeData_overlong {length : Nat} (hlength : length = x.inOrder + payload.length)
    (hr : x.state.reading = true) (hd : x.countDone = true)
    (hlast : x.expectedSeq ≠ 0xFFFFFFFF) (hfin : ∀ n, x.final = some n → x.expectedSeq < n) (hre : x.reorder = [])
    (hq : blocksCovering x.releasePoint length ≤ x.quota)
    (hp : blocksCovering x.releasePoint length ≤ p.freeBlocks + x.held)
    (hread : x.readOffset < length) (hquiet : ¬ stopsAt c (parcelTaken x payload) x.held)
    (hy : y = (signalled (parcelTaken x payload)).complete) :
    (p.takeData c slot x x.expectedSeq payload) =
      Path.endsIfDone ((p.withCtx slot (y.quiesce .abnormal (some .overlength) none)).dropPace slot) c slot := by
  have hafter : x.heldAfter x.reorder payload.length = blocksCovering x.releasePoint length := by
    rw [Context.heldAfter, hre, hlength]
    rfl
  have htaken : p.takeInOrder c slot x payload = p.withCtx slot (signalled (parcelTaken x payload)) := by
    rw [takeInOrder_fits (by rw [hafter]; exact hq) (by rw [hafter]; exact hp), firstTaken, paceTested_quiet hquiet,
      joinReorder_none c 8 (withCtx_get _ _ _) (fun e he => by rw [show (parcelTaken x payload).reorder = [] from hre] at he; cases he),
      modCtx_get (withCtx_get _ _ _), signal_eq, withCtx_twice]
  have hcomplete : (signalled (parcelTaken x payload)).settleStatus = y := by rw [hy]; exact settle_countDone hd
  unfold Path.takeData
  rw [classify_taken (Nat.le_refl _) (by simp [hre]) hlast hfin, if_pos rfl]
  dsimp only
  rw [htaken]
  unfold Path.runChunker
  rw [modCtx_get (withCtx_get _ _ _), show (signalled (parcelTaken x payload)).state.reading = true from hr, if_pos rfl,
    hcomplete, withCtx_twice, check_eq_endsIfDone,
    testOverlength_ends (withCtx_get _ _ _) (by rw [hy]; exact hr) (by rw [hy]; exact hd)
      (by rw [hy]; exact hread.trans_eq hlength), withCtx_twice]

/-- Settles O52: the byte is read, the chunk ends or goes on, and the Chunker settles its status. -/
theorem bytesAreTaken : Obligations.BytesAreTaken := by
  constructor
  · intro s slot x k n b h ends on stop cut next takes hl hx hst hr hlegal hc hd
    have hk : 2 ≤ x.policy.k := by
      simp only [PolicyEntry.legal, Bool.and_eq_true, decide_eq_true_eq] at hlegal
      omega
    have hbyte : x.takeByte (x.gearTable s.ctl.tables) = (if ends then (byteRead x h).cut else byteRead x h).settleStatus := by
      rw [takeByte_eq (x.gearTable s.ctl.tables) x h rfl, boundary_eq hk]
    have ht := taking_of_reading hr
    refine ⟨fun hf => ⟨fun he => ?_, fun he hcut => ?_, fun he hcut hstop => ?_, fun he hcut hstop hlost => ?_⟩,
      fun he hstop => ?_⟩
    · rw [he, if_neg Bool.false_ne_true, settle_byteRead hd hf] at hbyte
      exact completes_goesOn hl hx hst hbyte ht hc hd (by show (if _ then _ else _ : ChunkerStatus) ≠ .complete; split <;> decide)
    · rw [he, if_pos rfl, settle_cut hcut hf] at hbyte
      exact completes_goesOn hl hx hst hbyte ht hc hcut (by show (if _ then _ else if _ then _ else _ : ChunkerStatus) ≠ .complete; split_ifs <;> decide)
    · rw [he, if_pos rfl, settle_countDone (x := (byteRead x h).cut) hcut] at hbyte
      exact completes_allRead hl hx hst hbyte (List.append_ne_nil_of_right_ne_nil _ (by simp)) hstop
    · rw [he, if_pos rfl, settle_countDone (x := (byteRead x h).cut) hcut] at hbyte
      exact completes_overlong hlost hx hst hbyte hr hcut hstop
    · rw [settle_last hd he hstop ends] at hbyte
      exact completes_allRead hl hx hst hbyte (List.append_ne_nil_of_right_ne_nil _ (by simp)) hstop
  · intro s source branch stream slot payload x length y hlost hw hf hx hr hd hlast hfin hre hpace hread hq hp hbelow
    have hquiet : ¬ stopsAt s.ctl (parcelTaken x payload) x.held := by
      rintro (⟨_, _, h⟩ | ⟨h, _⟩)
      · exact absurd hbelow (Nat.not_lt.2 h)
      · rw [show x.pace = .stop from h] at hpace
        cases hpace
    have hdata := takeData_overlong (c := s.ctl) (slot := slot) (y := y) rfl hr hd hlast hfin hre hq hp hread hquiet rfl
    refine completes_finish (s := s) (u := s.withPath _) ?_ rfl fun h => absurd h ?_
    · show execData .i source branch stream x.expectedSeq payload s = _
      unfold execData
      rw [dataArrives_eq hw hf (taking_of_reading hr), hdata]
    · rw [State.withPath, endsIfDone_state]
      exact hlost

end Sys2Proof.Machine.StreamContexts
end

section
/-! PROOFS. Gap ticks (O51). -/

namespace Sys2Proof.Machine.StreamContexts

open Sys2Proof
open Sys2Proof.Machine.ParcelOrder (lostDrained_of_link)

variable {s : State} {p q : Path} {c : Control} {slot n : Nat} {x y : Context}

/-! ## A tick at one context (R30) -/

/-- The context waits for a parcel and takes parcels. -/
def waits (x : Context) : Bool :=
  x.state.taking && (decide (x.reorder ≠ []) || (match x.final with | some n => decide (x.expectedSeq < n) | none => false))

theorem waits_iff : waits x = true ↔ x.state.taking = true ∧ x.waiting = true := by
  have hreorder : decide (x.reorder ≠ []) = !x.reorder.isEmpty := by cases x.reorder <;> rfl
  have hwaits : waits x = (x.state.taking && x.waiting) := congrArg (fun b => x.state.taking && (b || _)) hreorder
  rw [hwaits, Bool.and_eq_true]

/-- The context with one tick more. -/
def tickCounted (x : Context) : Context := { x with gapCount := x.gapCount + 1 }

/-- A tick at the context that a slot holds. -/
def ticked (c : Control) (p : Path) (sc : Nat × Context) : Path :=
  if waits sc.2 = false then p
  else if sc.2.gapCount = 0 then p.withCtx sc.1 (tickCounted sc.2)
  else endedEarly p c sc.1 (tickCounted sc.2) .abnormal (some .gap)

theorem ticked_not (h : waits x = false) (p : Path) : ticked c p (slot, x) = p := if_pos h

theorem ticked_first (hw : waits x = true) (h0 : x.gapCount = 0) (p : Path) :
    ticked c p (slot, x) = p.withCtx slot (tickCounted x) :=
  (if_neg (by rw [hw]; decide)).trans (if_pos h0)

theorem ticked_second (hw : waits x = true) (h1 : 1 ≤ x.gapCount) (p : Path) :
    ticked c p (slot, x) = endedEarly p c slot (tickCounted x) .abnormal (some .gap) :=
  (if_neg (by rw [hw]; decide)).trans (if_neg (Nat.ne_of_gt h1))

theorem gapTick_eq (hx : tabGet p.contexts slot = some x) : Path.gapTick c p slot = ticked c p (slot, x) := by
  unfold Path.gapTick
  rw [hx]
  dsimp only
  cases hw : waits x with
  | false =>
    rw [ticked_not hw]
    exact if_neg fun h => by rw [waits_iff.2 h] at hw; cases hw
  | true =>
    rw [if_pos (waits_iff.1 hw)]
    rcases Nat.eq_zero_or_pos x.gapCount with h0 | h1
    · rw [if_neg (by omega), ticked_first hw h0]
      rfl
    · rw [if_pos (by omega), ticked_second hw h1]
      exact (quiesce_check (x := tickCounted x) (withCtx_get p slot _) (waits_iff.1 hw).1).trans
        (endedEarly_withCtx _ _ _ _ _ _ _)

theorem endsIfDone_contexts_ne (p : Path) (c : Control) (h : n ≠ slot) :
    tabGet (p.endsIfDone c slot).contexts n = tabGet p.contexts n := by
  rw [← check_eq_endsIfDone]
  unfold Path.check Path.endWork
  rw [← StoreLinkLoss.endRecords_contexts p slot]
  cases tabGet (p.endRecords slot).contexts slot with
  | none => rfl
  | some x =>
    dsimp only
    split_ifs
    · rw [StoreLinkLoss.endStream_contexts, tabGet_tabSet, if_neg h]
    · rw [StoreLinkLoss.endStream_contexts, tabGet_tabSet, if_neg h]
    · rfl

/-- A tick at one context leaves the others alone. -/
theorem ticked_other (c : Control) (p : Path) (sc : Nat × Context) (h : n ≠ sc.1) :
    tabGet (ticked c p sc).contexts n = tabGet p.contexts n := by
  have hset (z : Context) : tabGet (tabSet p.contexts sc.1 z) n = tabGet p.contexts n := by rw [tabGet_tabSet, if_neg h]
  unfold ticked
  split_ifs
  · rfl
  · exact hset _
  · exact (endsIfDone_contexts_ne _ _ h).trans (hset _)

/-! ## One step over the table, each context as if alone -/

section fold

variable {f : Path → Nat → Path} {g : Path → Nat × Context → Path} {l : List (Nat × Context)}

/-- Steps that each read and change their own slot alone may read the contexts there were at the start. -/
theorem foldl_slots (hf : ∀ p n x, tabGet p.contexts n = some x → f p n = g p (n, x))
    (hg : ∀ p sc n, n ≠ sc.1 → tabGet (g p sc).contexts n = tabGet p.contexts n) (hl : (l.map (·.1)).Nodup) (p : Path)
    (hp : ∀ sc ∈ l, tabGet p.contexts sc.1 = some sc.2) : (l.map (·.1)).foldl f p = l.foldl g p := by
  induction l generalizing p with
  | nil => rfl
  | cons sc l ih =>
    obtain ⟨hnot, hl⟩ := List.nodup_cons.1 hl
    rw [List.map_cons, List.foldl_cons, List.foldl_cons, hf p sc.1 sc.2 (hp sc List.mem_cons_self)]
    refine ih hl _ fun d hd => ?_
    rw [hg _ _ _ fun h => hnot (List.mem_map.2 ⟨d, hd, h⟩)]
    exact hp d (List.mem_cons_of_mem _ hd)

theorem foldl_other (hg : ∀ p sc n, n ≠ sc.1 → tabGet (g p sc).contexts n = tabGet p.contexts n) (p : Path)
    (hn : ∀ sc ∈ l, n ≠ sc.1) : tabGet (l.foldl g p).contexts n = tabGet p.contexts n := by
  induction l generalizing p with
  | nil => rfl
  | cons sc l ih =>
    rw [List.foldl_cons, ih _ fun d hd => hn d (List.mem_cons_of_mem _ hd), hg _ _ _ (hn sc List.mem_cons_self)]

/-- What a slot holds after all the steps, it holds after its own. -/
theorem foldl_own (hg : ∀ p sc n, n ≠ sc.1 → tabGet (g p sc).contexts n = tabGet p.contexts n)
    (hl : (l.map (·.1)).Nodup) (p : Path) (hx : (slot, x) ∈ l) (hp : tabGet p.contexts slot = some x) :
    ∃ q, tabGet q.contexts slot = some x ∧
      tabGet (l.foldl g p).contexts slot = tabGet (g q (slot, x)).contexts slot := by
  induction l generalizing p with
  | nil => cases hx
  | cons sc l ih =>
    obtain ⟨hnot, hl⟩ := List.nodup_cons.1 hl
    obtain rfl | hx := List.mem_cons.1 hx
    · exact ⟨p, hp, foldl_other hg (g p (slot, x)) fun d hd h => hnot (List.mem_map.2 ⟨d, hd, h.symm⟩)⟩
    · refine ih hl _ hx ?_
      rw [hg _ _ _ fun h => hnot (List.mem_map.2 ⟨(slot, x), hx, h⟩)]
      exact hp

end fold

/-- A canonical table lists no number twice. -/
theorem tabWf_nodup {α : Type} {t : Tab α} (h : tabWf t = true) : (t.map (·.1)).Nodup := by
  induction t with
  | nil => exact List.nodup_nil
  | cons kv t ih =>
    obtain ⟨k, v⟩ := kv
    obtain ⟨hk, ht⟩ := tabWf_cons.1 h
    refine List.nodup_cons.2 ⟨fun hm => ?_, ih ht⟩
    obtain ⟨e, he, rfl⟩ := List.mem_map.1 hm
    exact Nat.lt_irrefl _ (hk e he)

/-- The number of one entry of a canonical table written again. -/
theorem tabSet_middle {α : Type} {a b : Tab α} {k : Nat} {v : α} (h : ∀ e ∈ a, e.1 < k) (w : α) :
    tabSet (a ++ (k, v) :: b) k w = a ++ (k, w) :: b := by
  induction a with
  | nil => simp [tabSet]
  | cons e a ih =>
    obtain ⟨j, u⟩ := e
    have hj : j < k := h (j, u) List.mem_cons_self
    simp only [List.cons_append, tabSet]
    rw [if_neg (by omega), if_neg (by omega), ih fun e he => h e (List.mem_cons_of_mem _ he)]

/-- Contexts of a canonical table rewritten one after another are the table with each of them rewritten. -/
theorem foldl_rewritten {w : Context → Bool} {f : Context → Context} {l : Tab Context} (hl : tabWf l = true) :
    ∀ (a : Tab Context) (p : Path), p.contexts = a ++ l → (∀ e ∈ a, ∀ d ∈ l, e.1 < d.1) →
      l.foldl (fun p sc => if w sc.2 then p.withCtx sc.1 (f sc.2) else p) p =
        { p with contexts := a ++ l.map fun sc => (sc.1, if w sc.2 then f sc.2 else sc.2) } := by
  induction l with
  | nil =>
    intro a p hp _
    rw [List.map_nil, ← hp]
    rfl
  | cons kv l ih =>
    intro a p hp ha
    obtain ⟨k, v⟩ := kv
    obtain ⟨hk, hl⟩ := tabWf_cons.1 hl
    have hbelow : ∀ e ∈ a, e.1 < k := fun e he => ha e he (k, v) List.mem_cons_self
    have hstep : (if w v then p.withCtx k (f v) else p) =
        { p with contexts := a ++ [(k, if w v then f v else v)] ++ l } := by
      split
      · unfold Path.withCtx
        rw [hp, tabSet_middle hbelow, List.append_assoc]
        rfl
      · rw [List.append_assoc]
        show p = { p with contexts := a ++ (k, v) :: l }
        rw [← hp]
    rw [List.foldl_cons]
    dsimp only
    rw [hstep, ih hl (a ++ [(k, if w v then f v else v)]) _ rfl fun e he d hd => ?_]
    · simp
    · rcases List.mem_append.1 he with he | he
      · exact ha e he d (List.mem_cons_of_mem _ hd)
      · obtain rfl := List.mem_singleton.1 he
        exact hk d hd

/-! ## The tick of all contexts -/

/-- The control state after a gap tick: the clock at the timer's end, where the timer runs again. -/
def afterTick (c : Control) : Control :=
  { c with now := max c.now c.gapTimer, gapTimer := c.gapTimer + 250000 * c.tables.settings.gapSteps }

theorem ticked_clock (c : Control) : ticked (c.reach c.gapTimer) = ticked (afterTick c) := rfl

theorem exec_gapTick (hw : tabWf s.path.contexts = true) : exec .gapTick s = .next (State.finish
    { s with ctl := afterTick s.ctl, path := s.path.contexts.foldl (ticked (afterTick s.ctl)) s.path }) := by
  have hgap : s.ctl.tables.settings.gapInterval = 250000 * s.ctl.tables.settings.gapSteps := by
    unfold Settings.gapInterval msec
    omega
  have hfold := foldl_slots (f := Path.gapTick (s.ctl.reach s.ctl.gapTimer)) (g := ticked (s.ctl.reach s.ctl.gapTimer))
    (fun p n x => gapTick_eq) (fun p sc n => ticked_other _ p sc) (tabWf_nodup hw) s.path
    (fun sc hsc => tabGet_of_mem hw hsc)
  show execGapTick s = _
  unfold execGapTick afterTick
  dsimp only
  rw [hfold, ticked_clock, ← hgap]
  rfl

/-- The context of a stream that comes to its second tick with nothing in flight. -/
theorem endedAtOnce_get (p : Path) (c : Control) (slot : Nat) (x : Context) (cls : EndClass) (cause : Option Cause) :
    tabGet (endedAtOnce p c slot x cls cause).contexts slot = some (lingering c x cls cause) := withCtx_get _ _ _

theorem recordsEnd_contexts (p : Path) (slot : Nat) : (p.recordsEnd slot).contexts = p.contexts := by
  unfold Path.recordsEnd
  split_ifs <;> rfl

/-- Settles O51: each context takes the tick as if alone, and a first tick only counts. -/
theorem gapTicksAreCounted : Obligations.GapTicksAreCounted := by
  intro s hwf waits' later counted ticked' after
  have hafter : after = s.path.contexts.foldl (ticked later) s.path := rfl
  refine ⟨completesDrained_finish (exec_gapTick hwf) rfl, fun hl hfirst => ?_, fun slot x hx => ?_⟩
  · have hticks : after = s.path.contexts.foldl
        (fun p sc => if waits sc.2 then p.withCtx sc.1 { sc.2 with gapCount := 1 } else p) s.path := by
      rw [hafter]
      refine List.foldl_ext _ _ _ fun p sc hsc => ?_
      unfold ticked
      cases hw : waits sc.2 with
      | false => simp
      | true => simp [hfirst sc hsc hw, tickCounted]
    have hmap := hticks.trans (foldl_rewritten (w := waits) (f := fun x => { x with gapCount := 1 }) hwf [] s.path rfl
      (by simp))
    have hex := exec_gapTick hwf
    rw [show s.path.contexts.foldl (ticked (afterTick s.ctl)) s.path = _ from hmap] at hex
    exact completes_finish hex rfl (lostDrained_of_link hl rfl)
  · obtain ⟨q, hq, hown⟩ := foldl_own (g := ticked later) (fun p sc n => ticked_other _ p sc) (tabWf_nodup hwf) s.path
      (tabGet_mem hx) hx
    rw [hafter, hown]
    refine ⟨fun hw => ?_, fun hw h0 => ?_, fun hw h1 => ?_⟩
    · rw [ticked_not hw]
      exact hq
    · rw [ticked_first hw h0, withCtx_get, tickCounted, h0]
    · rw [ticked_second hw h1]
      refine ⟨fun hfly => ?_, fun hu hi => ?_⟩
      · rw [endedEarly_quiesces (x := tickCounted x) hfly]
        split
        · rw [recordsEnd_contexts]
          exact parkedAt_get _ _ _ _ _
        · exact parkedAt_get _ _ _ _ _
      · rw [endedEarly_ends (x := tickCounted x) (by decide) hi hu]
        exact ⟨_, endedAtOnce_get _ _ _ _ _ _, rfl, rfl, rfl⟩

end Sys2Proof.Machine.StreamContexts
end

section
/-! PROOFS. Lookup results and places that are taken (O55). -/

namespace Sys2Proof.Machine.StreamContexts

open Sys2Proof
open Sys2Proof.Machine.ParcelOrder (lostDrained_of_link)

variable {s : State} {p q : Path} {c : Control} {slot ordinal : Nat} {x y : Context} {i : Item} {f g : Item → Item}

/-! ## Items by ordinal -/

/-- An item changed in other fields is found by its ordinal, changed. -/
theorem item_modItem (hf : ∀ j, (f j).ordinal = j.ordinal) (hi : x.item ordinal = some i) :
    (x.modItem ordinal f).item ordinal = some (f i) := by
  have hat : i.ordinal = ordinal := by simpa using List.find?_some hi
  have hsame : ((fun j : Item => decide (j.ordinal = ordinal)) ∘ fun j => if j.ordinal = ordinal then f j else j) =
      fun j : Item => decide (j.ordinal = ordinal) := by
    funext j
    simp only [Function.comp]
    split <;> simp [hf]
  have hi : x.queue.find? (fun j => decide (j.ordinal = ordinal)) = some i := hi
  show List.find? _ (x.queue.map _) = _
  rw [List.find?_map, hsame, hi]
  simp [hat]

theorem modItem_twice (hf : ∀ j, (f j).ordinal = j.ordinal) :
    (x.modItem ordinal f).modItem ordinal g = x.modItem ordinal fun j => g (f j) := by
  unfold Context.modItem
  simp only [List.map_map, Context.mk.injEq, and_true, true_and]
  refine List.map_congr_left fun j _ => ?_
  by_cases h : j.ordinal = ordinal <;> simp [h, hf]

theorem modItem_eq (hx : tabGet p.contexts slot = some x) (f : Item → Item) :
    p.modItem slot ordinal f = p.withCtx slot (x.modItem ordinal f) := modCtx_get hx _

/-- The item of an ordinal in the context that a slot holds. -/
def itemAt (p : Path) (slot ordinal : Nat) : Option Item := (tabGet p.contexts slot).bind fun y => y.item ordinal

theorem hasItem_eq (p : Path) (slot ordinal : Nat) : p.hasItem slot ordinal = (itemAt p slot ordinal).isSome := by
  unfold Path.hasItem itemAt
  cases tabGet p.contexts slot <;> rfl

theorem itemAt_get (h : itemAt p slot ordinal = some i) (hx : tabGet p.contexts slot = some x) : x.item ordinal = some i := by
  unfold itemAt at h
  rwa [hx] at h

/-! ## Resolved heads that retire (R100) -/

/-- The retirements written out are those of a queue of at most 32 items. -/
theorem resolve_eq (hx : tabGet p.contexts slot = some x) (hq : x.queue.length ≤ 32) (h : Path.Retires c slot p q) :
    p.resolve c slot = q.endsIfDone c slot := by
  have hresolved (z : Context) (hz : tabGet p.contexts slot = some z) : resolved z ≤ 32 := by
    rw [hx] at hz
    cases hz
    exact (List.length_filter_le _ _).trans hq
  unfold Path.resolve
  rw [retires_eq_retireHeads h 32 hresolved, check_eq_endsIfDone]

/-! ## The Locator Cache takes a result (R88, R95) -/

theorem cacheResult_keeps (p : Path) (r : LookupResult) :
    (p.cacheResult r).contexts = p.contexts ∧ (p.cacheResult r).link = p.link ∧
      (p.cacheResult r).placements = p.placements := by
  unfold Path.cacheResult
  dsimp only
  split <;> split <;> exact ⟨rfl, rfl, rfl⟩

/-- A NEW-UNINDEXED result waits for its place (R93). -/
theorem takeResult_unindexed {r : LookupResult} (hx : tabGet p.contexts r.slot = some x)
    (hi : x.item r.ordinal = some i) (ho : r.outcome = .newUnindexed) :
    p.takeResult c r =
      { (p.cacheResult r).withCtx r.slot (x.modItem r.ordinal fun j => { j with location := r.location, pet := r.pet }) with
        placements := p.placements ++ [⟨r.slot, r.ordinal, x.policy.cls, i.length⟩] } := by
  obtain ⟨hcontexts, -, hplacements⟩ := cacheResult_keeps p r
  have hitem := item_modItem (f := fun j => { j with location := r.location, pet := r.pet }) (fun _ => rfl) hi
  unfold Path.takeResult
  rw [ho]
  dsimp only
  rw [modItem_eq (x := x) (by rw [hcontexts]; exact hx)]
  unfold Path.askPlacement
  rw [withCtx_get]
  dsimp only
  rw [hitem, ← hplacements]
  rfl

/-- Any other result resolves its item (R93, R100). -/
theorem takeResult_resolved {r : LookupResult} (hx : tabGet p.contexts r.slot = some x)
    (ho : r.outcome ≠ .newUnindexed) :
    p.takeResult c r = ((p.cacheResult r).withCtx r.slot (x.modItem r.ordinal fun j => { j with
      location := r.location, pet := r.pet, outcome := some r.outcome })).resolve c r.slot := by
  obtain ⟨hcontexts, -, -⟩ := cacheResult_keeps p r
  have htaken : p.takeResult c r = Path.resolve (((p.cacheResult r).modItem r.slot r.ordinal fun j => { j with
      location := r.location, pet := r.pet }).modItem r.slot r.ordinal fun j => { j with outcome := some r.outcome })
      c r.slot := by
    unfold Path.takeResult
    cases hr : r.outcome with
    | newUnindexed => exact absurd hr ho
    | new | duplicate | found | missing | unplaced => rfl
  rw [htaken, modItem_eq (p := p.cacheResult r) (x := x) (by rw [hcontexts]; exact hx), modItem_eq (withCtx_get _ _ _), withCtx_twice,
    modItem_twice]
  exact fun _ => rfl

/-! ## Placement requests (R93, R141 to R143) -/

/-- A context told NO_CONTAINER keeps no item that it did not have. -/
theorem quiesce_queue {cls : EndClass} {cause : Option Cause} {point : Option (Nat × Nat)}
    (hx : tabGet p.contexts slot = some x) (hy : tabGet (p.quiesce slot cls cause point).contexts slot = some y) :
    y.queue.length ≤ x.queue.length := by
  unfold Path.quiesce at hy
  rw [hx] at hy
  dsimp only at hy
  split at hy
  · obtain rfl := Option.some.inj ((withCtx_get p slot _).symm.trans hy)
    exact List.length_filter_le _ _
  · rw [hx] at hy
    cases hy
    exact Nat.le_refl _

theorem placement_queue {cls length : Nat} (hx : tabGet p.contexts slot = some x)
    (hy : tabGet (p.placement slot cls length).1.contexts slot = some y) : y.queue.length ≤ x.queue.length := by
  have same (h : tabGet p.contexts slot = some y) : y.queue.length ≤ x.queue.length := by
    rw [hx] at h
    cases h
    exact Nat.le_refl _
  have told (n : Counter) (h : tabGet ((p.bump n 1).abnormal slot .noContainer).contexts slot = some y) :
      y.queue.length ≤ x.queue.length := quiesce_queue (p := p.bump n 1) hx h
  unfold Path.placement at hy
  dsimp only at hy
  split at hy
  · split at hy
    · exact same hy
    · exact told _ hy
  · split at hy
    · exact same hy
    · split at hy
      · split at hy
        · exact told _ hy
        · exact same hy
      · exact told _ hy

/-- The item as its placement request leaves it. -/
def placedItem (place : Option (Nat × Nat)) (j : Item) : Item :=
  { j with
    outcome := some (if place = none then .unplaced else .newUnindexed)
    placement := if place = none then j.placement else place }

theorem takePlacement_eq {r : PlaceReq} (hy : tabGet (p.placement r.slot r.cls r.length).1.contexts r.slot = some y) :
    p.takePlacement c r = ((p.placement r.slot r.cls r.length).1.withCtx r.slot (y.modItem r.ordinal
      (placedItem (p.placement r.slot r.cls r.length).2))).resolve c r.slot := by
  unfold Path.takePlacement
  rw [place_eq_placement]
  generalize p.placement r.slot r.cls r.length = placed at hy ⊢
  obtain ⟨q, at?⟩ := placed
  cases at? with
  | none => exact congrArg (Path.resolve · c r.slot) (modItem_eq hy _)
  | some place => exact congrArg (Path.resolve · c r.slot) (modItem_eq hy _)

/-! ## The two commands -/

/-- The data path without the result, and without the placement request, of an item. -/
def resultGone (p : Path) (slot ordinal : Nat) : Path :=
  { p with results := p.results.eraseP fun q => q.slot = slot && q.ordinal = ordinal }

def requestGone (p : Path) (slot ordinal : Nat) : Path :=
  { p with placements := p.placements.eraseP fun q => q.slot = slot && q.ordinal = ordinal }

theorem exec_lookupResult {r : LookupResult}
    (h : s.path.results.find? (fun q => q.slot = slot && q.ordinal = ordinal) = some r) :
    exec (.lookupResult slot ordinal) s = .next (State.finish (s.withPath
      (if (itemAt s.path slot ordinal).isSome then (resultGone s.path slot ordinal).takeResult s.ctl r
       else resultGone s.path slot ordinal))) := by
  show execLookupResult slot ordinal s = _
  unfold execLookupResult
  rw [h]
  simp only [hasItem_eq]
  rfl

theorem exec_placementRequest {r : PlaceReq}
    (h : s.path.placements.find? (fun q => q.slot = slot && q.ordinal = ordinal) = some r) :
    exec (.placementRequest slot ordinal) s = .next (State.finish (s.withPath
      (if (itemAt s.path slot ordinal).isSome then (requestGone s.path slot ordinal).takePlacement s.ctl r
       else requestGone s.path slot ordinal))) := by
  show execPlacementRequest slot ordinal s = _
  unfold execPlacementRequest
  rw [h]
  simp only [hasItem_eq]
  rfl

/-- A result is dropped without its item, and else taken by its outcome. -/
theorem completes_lookupResult {r : LookupResult}
    (h : s.path.results.find? (fun q => q.slot = slot && q.ordinal = ordinal) = some r)
    (hp : (if (itemAt s.path slot ordinal).isSome then (resultGone s.path slot ordinal).takeResult s.ctl r
       else resultGone s.path slot ordinal) = p) (hl : p.lostDrained) :
    Completes (.lookupResult slot ordinal) s (s.withPath p) := by
  have hex := exec_lookupResult h
  rw [hp] at hex
  exact completes_finish hex rfl hl

theorem completes_placementRequest {r : PlaceReq}
    (h : s.path.placements.find? (fun q => q.slot = slot && q.ordinal = ordinal) = some r)
    (hp : (if (itemAt s.path slot ordinal).isSome then (requestGone s.path slot ordinal).takePlacement s.ctl r
       else requestGone s.path slot ordinal) = p) (hl : p.lostDrained) :
    Completes (.placementRequest slot ordinal) s (s.withPath p) := by
  have hex := exec_placementRequest h
  rw [hp] at hex
  exact completes_finish hex rfl hl

/-- Settles O55: a result or a place is dropped without its item, and else taken by its outcome. -/
theorem resultsAreTaken : Obligations.ResultsAreTaken := by
  intro s slot ordinal x item
  have hitem : itemAt s.path slot ordinal = item := rfl
  refine ⟨fun r hr => ?_, fun r hr => ?_⟩
  · intro base fresh cached takes
    obtain ⟨rfl, rfl⟩ : r.slot = slot ∧ r.ordinal = ordinal := by simpa using List.find?_some hr
    have hcached : base.cacheResult r = cached := rfl
    have hlink : cached.link = s.path.link := by
      rw [← hcached]
      exact (cacheResult_keeps base r).2.1
    refine ⟨fun hnone hl => ?_, fun i hi hx => ⟨fun ho hl => ?_, fun ho hq => ?_⟩⟩
    · refine completes_lookupResult hr ?_ (lostDrained_of_link hl rfl)
      rw [hitem, hnone]
      rfl
    · refine completes_lookupResult hr ?_ (lostDrained_of_link hl hlink)
      rw [hitem, hi, ← hcached]
      exact takeResult_unindexed (p := base) hx (itemAt_get hi hx) ho
    · intro resolved q hretires hlost
      refine completes_lookupResult hr ?_ hlost
      rw [hitem, hi]
      refine (takeResult_resolved (p := base) hx ho).trans ?_
      rw [hcached]
      refine resolve_eq (withCtx_get _ _ _) ?_ hretires
      unfold Context.modItem
      rwa [List.length_map]
  · intro base takes
    obtain ⟨rfl, rfl⟩ : r.slot = slot ∧ r.ordinal = ordinal := by simpa using List.find?_some hr
    refine ⟨fun hnone hl => ?_, fun i hi hx hq => ?_⟩
    · refine completes_placementRequest hr ?_ (lostDrained_of_link hl rfl)
      rw [hitem, hnone]
      rfl
    · intro placed y q hy hretires hlost
      refine completes_placementRequest hr ?_ hlost
      rw [hitem, hi]
      refine (takePlacement_eq (p := base) hy).trans (resolve_eq (withCtx_get _ _ _) ?_ hretires)
      unfold Context.modItem
      rw [List.length_map]
      exact (placement_queue (p := base) hx hy).trans hq

end Sys2Proof.Machine.StreamContexts
end

section
/-! PROOFS. The STORE ANSWER: the message that takes it, what its verdict makes of the data path before held items take the
places freed, the item being sent, and the lowest REF of a stream in a batch (O28). -/

namespace Sys2Proof.Machine.StoreLinkLoss

open Sys2Proof
open Sys2Proof.Machine.HoldsAndExpiry (ApartFromSide endsIfDone_apart chunkSettled_apart recordAnswered_apart
  afterFail_apart afterFail_lostDrained withdrawn withdraw_eq retryWait_eq tag_of_message)
open Sys2Proof.Machine.ParcelOrder (lostDrained_of_link)

variable {s : State} {p : Path} {c : Control} {m : Message} {x : SItem} {v : Verdict} {port : Port} {tag serial : Nat}

/-! ## The REF of the lowest ordinal (R156) -/

theorem lowerRef_spec (a : Option RefItem) (i : RefItem) : ∃ b, lowerRef a i = some b ∧
    (a = some b ∨ i = b) ∧ b.ordinal ≤ i.ordinal ∧ ∀ j, a = some j → b.ordinal ≤ j.ordinal := by
  cases a with
  | none => exact ⟨i, rfl, .inr rfl, Nat.le_refl _, nofun⟩
  | some j =>
    by_cases h : i.ordinal < j.ordinal
    · exact ⟨i, if_pos h, .inr rfl, Nat.le_refl _, fun _ hj => Option.some.inj hj ▸ Nat.le_of_lt h⟩
    · exact ⟨j, if_neg h, .inl rfl, Nat.le_of_not_lt h, fun _ hj => Option.some.inj hj ▸ Nat.le_refl _⟩

theorem foldl_lowerRef {l : List RefItem} {a : Option RefItem} {b : RefItem} (h : l.foldl lowerRef a = some b) :
    (a = some b ∨ b ∈ l) ∧ (∀ j, a = some j → b.ordinal ≤ j.ordinal) ∧ ∀ j ∈ l, b.ordinal ≤ j.ordinal := by
  induction l generalizing a with
  | nil => exact ⟨.inl h, fun j hj => (Option.some.inj (hj.symm.trans h) ▸ Nat.le_refl _), nofun⟩
  | cons i l ih =>
    obtain ⟨first, hfirst, hfrom, hi, ha⟩ := lowerRef_spec a i
    obtain ⟨hb, hlow, hl⟩ := ih (a := lowerRef a i) h
    have hle := hlow first hfirst
    refine ⟨?_, fun j hj => hle.trans (ha j hj), List.forall_mem_cons.2 ⟨hle.trans hi, hl⟩⟩
    rcases hb with hb | hb
    · obtain rfl := Option.some.inj (hfirst.symm.trans hb)
      exact hfrom.imp_right fun h => List.mem_cons.2 (.inl h.symm)
    · exact .inr (List.mem_cons_of_mem _ hb)

theorem lowestRef_spec {items : List RefItem} {slot : Nat} {i : RefItem} (h : lowestRef items slot = some i) :
    i ∈ items ∧ i.slot = slot ∧ ∀ j ∈ items, j.slot = slot → i.ordinal ≤ j.ordinal := by
  obtain ⟨hi | hi, -, hlow⟩ := foldl_lowerRef ((lowestRef_eq items slot).symm.trans h)
  · cases hi
  · obtain ⟨hm, hs⟩ := List.mem_filter.1 hi
    exact ⟨hm, of_decide_eq_true hs, fun j hj hjs => hlow j (List.mem_filter.2 ⟨hj, decide_eq_true hjs⟩)⟩

/-! ## Acceptances (R144, R147, R152) -/

theorem afterAccept_apart (c : Control) (m : Content) : ApartFromSide fun p => p.afterAccept c m := by
  rcases m with r | items | r | items
  · have placed : ApartFromSide fun p => p.placementAnswered r false := fun _ _ => rfl
    have sent : ApartFromSide fun p => p.outcomeSent r true := fun _ _ => rfl
    exact (endsIfDone_apart c r.slot).comp (sent.comp ((chunkSettled_apart _ _).comp placed))
  · have answered : ApartFromSide fun p => items.foldl (fun q i => q.recordAnswered i.slot) p :=
      .foldl (fun i => recordAnswered_apart i.slot) items
    exact (ApartFromSide.foldl (fun n => endsIfDone_apart c n) _).comp answered
  · exact fun _ _ => rfl
  · exact fun _ _ => rfl

/-- An accepted message leaves the link in its state. -/
theorem accept_state (p : Path) (c : Control) (m : Content) : (p.accept c m).link.state = p.link.state := by
  rcases m with r | items | r | items
  · have settled := (sameTags_settle (p.containerAnswer r.container r.length false) r.slot r.ordinal).falls
    have sent := (sameTags_chunkOutcome
      (((p.containerAnswer r.container r.length false).settle r.slot r.ordinal).answer r.slot) r true).falls
    have checked := tagsFall_check
      ((((p.containerAnswer r.container r.length false).settle r.slot r.ordinal).answer r.slot).chunkOutcome r true) c r.slot
    exact checked.state.trans (sent.state.trans (settled.state.trans
      (tagsFall_containerAnswer p r.container r.length false).state))
  · have answered : SameTags p (p.refsAnswered items) :=
      sameTags_foldl (fun (q : Path) (i : RefItem) => q.answer i.slot) (fun _ _ => ⟨rfl, rfl, rfl, rfl⟩) items p
    exact (tagsFall_checkAll (p.refsAnswered items) c (refSlots items)).state.trans answered.falls.state
  · rfl
  · rfl

/-- An acceptance leaves no request for a tag waiting on a LOST link: the link is not LOST, or nothing is asked for. -/
theorem afterAccept_lostDrained {m : Content} (hl : p.lostDrained)
    (h : p.link.state ≠ .lost ∨ (∃ items, m = .release items) ∨ ∃ r, m = .seal r) : (p.afterAccept c m).lostDrained := by
  rcases h with h | ⟨items, rfl⟩ | ⟨r, rfl⟩
  · intro hlost
    rw [← accept_eq_afterAccept, accept_state] at hlost
    exact absurd hlost h
  · exact lostDrained_of_link hl rfl
  · exact lostDrained_of_link hl rfl

/-! ## The message that takes an answer (R151) -/

theorem answered_of_message (hm : p.message tag = some m) (hs : m.serial = serial) (ha : m.phase.answerable = true) :
    p.answered tag serial = some m := by
  unfold Path.answered
  rw [hm]
  exact if_pos ⟨hs, ha⟩

theorem answered_eq_none (h : ∀ o, p.message tag = some o → o.serial ≠ serial ∨ o.phase.answerable = false) :
    p.answered tag serial = none := by
  unfold Path.answered
  cases hm : p.message tag with
  | none => rfl
  | some o =>
    refine if_neg fun ⟨hs, ha⟩ => ?_
    rcases h o hm with h | h
    · exact h hs
    · cases ha.symm.trans h

theorem exec_storeAnswer_stale
    (h : port = .i ∨ ∀ o, s.path.message tag = some o → o.serial ≠ serial ∨ o.phase.answerable = false) :
    exec (.storeAnswer port tag serial v) s = .next (s.withPath (s.path.bump .staleAnswers 1)).finish := by
  have stale : s.path.answerArrives s.ctl port tag serial v = s.path.bump .staleAnswers 1 := by
    unfold Path.answerArrives
    rcases h with rfl | h
    · rfl
    · rw [answered_eq_none h]
      cases port <;> rfl
  show execStoreAnswer port tag serial v s = _
  rw [execStoreAnswer, stale]

theorem exec_storeAnswer_taken (hm : s.path.message tag = some m) (hs : m.serial = serial)
    (ha : m.phase.answerable = true) :
    exec (.storeAnswer .s tag serial v) s = .next (s.withPath (s.path.takeAnswer s.ctl m v)).finish := by
  show execStoreAnswer .s tag serial v s = _
  unfold execStoreAnswer Path.answerArrives
  rw [answered_of_message hm hs ha]

/-! ## Verdicts (R152, R153, R155 to R157, R163) -/

/-- The S-port that a message has left, the places it frees not yet taken; if it was being sent, what is being sent is its
piece begun. -/
def leftSPort (p : Path) (c : Control) (m : Message) : SPort := withdrawn (p.stopSending c m).sPort m.tag

/-- The data path whose tag of a message is free again. -/
def answeredFree (p : Path) (c : Control) (m : Message) : Path :=
  { p with sPort := leftSPort p c m, link := { p.link with inflight := p.link.inflight.filter fun o => o.tag ≠ m.tag } }

/-- The data path in which a message waits for its resend. -/
def answeredBusy (p : Path) (c : Control) (m : Message) : Path :=
  { p with
    sPort := leftSPort p c m
    link := { p.link with inflight := p.link.inflight.map fun o =>
      if o.tag = m.tag then { o with phase := .retryWait (c.now + 50000) } else o } }

/-- What the verdict on a message makes of the data path, before held items take the places it frees. -/
def judged (p : Path) (c : Control) (m : Message) : Verdict → Path
  | .accept => ((answeredFree p c m).bump .storeAccepts 1).afterAccept c m.content
  | .busy => (answeredBusy p c m).bump .busyAnswers 1
  | .fail => (answeredFree p c m).afterFail c m.content

/-- Held items take the places freed before or after the verdict has its effect. -/
theorem takeAnswer_eq (p : Path) (c : Control) (m : Message) (v : Verdict) :
    p.takeAnswer c m v = Path.refillS c.now 64 (judged p c m v) := by
  cases v with
  | accept =>
    have counted : ApartFromSide fun p => p.bump .storeAccepts 1 := fun _ _ => rfl
    calc p.takeAnswer c m .accept
        = ((Path.refillS c.now 64 (answeredFree p c m)).bump .storeAccepts 1).accept c m.content := rfl
      _ = ((Path.refillS c.now 64 (answeredFree p c m)).bump .storeAccepts 1).afterAccept c m.content :=
          accept_eq_afterAccept ..
      _ = Path.refillS c.now 64 (judged p c m .accept) :=
          ((afterAccept_apart c m.content).comp counted).refillS c.now 64 (answeredFree p c m)
  | busy => rfl
  | fail =>
    calc p.takeAnswer c m .fail = (Path.refillS c.now 64 (answeredFree p c m)).fail c m.content := rfl
      _ = (Path.refillS c.now 64 (answeredFree p c m)).afterFail c m.content := fail_eq_afterFail ..
      _ = Path.refillS c.now 64 (judged p c m .fail) :=
          (afterFail_apart c m.content).refillS c.now 64 (answeredFree p c m)

/-- An acceptance leaves the S-port alone (R152). -/
theorem afterAccept_sPort (p : Path) (c : Control) (m : Content) : (p.afterAccept c m).sPort = p.sPort := by
  have apart : p.afterAccept c m = HoldsAndExpiry.withSideOf (p.afterAccept c m) p := afterAccept_apart c m p p
  rw [apart]
  rfl

theorem judged_sPort (p : Path) (c : Control) (m : Message) (v : Verdict) : (judged p c m v).sPort = leftSPort p c m := by
  cases v with
  | accept => exact afterAccept_sPort ..
  | busy => rfl
  | fail => exact afterFail_sPort ..

/-- BUSY asks for no tag; ACCEPT and FAIL ask for none on a LOST link if the message is a SEAL or a RELEASE batch. -/
theorem judged_lostDrained (hl : p.lostDrained) (h : v = .busy ∨ p.link.state ≠ .lost ∨
    (∃ items, m.content = .release items) ∨ ∃ r, m.content = .seal r) : (judged p c m v).lostDrained := by
  cases v with
  | accept => exact afterAccept_lostDrained (p := (answeredFree p c m).bump .storeAccepts 1) hl (h.resolve_left nofun)
  | busy => exact hl
  | fail => exact afterFail_lostDrained (p := answeredFree p c m) hl (h.resolve_left nofun)

/-- A taken answer completes as what its verdict makes of the data path. -/
theorem completes_judged (hl : s.path.lostDrained) (hm : s.path.message m.tag = some m) (ha : m.phase.answerable = true)
    (h : v = .busy ∨ s.path.link.state ≠ .lost ∨ (∃ items, m.content = .release items) ∨ ∃ r, m.content = .seal r) :
    Completes (.storeAnswer .s m.tag m.serial v) s (s.withPath (judged s.path s.ctl m v)) := by
  have hex := exec_storeAnswer_taken (v := v) hm rfl ha
  rw [takeAnswer_eq] at hex
  exact completes_passes hex rfl rfl rfl ((keeps_refillS _ 64 _).lostDrained (judged_lostDrained hl h))
    (passes_refillS _ _ 64 _)

/-! ## The item being sent (R163) -/

/-- The transmitter goes on with the piece begun of the message answered. -/
theorem judged_tx (hlink : s.path.link.state ≠ .lost) (hx : s.path.sPort.tx = some x)
    (hsends : x.sends m.tag m.serial = true) :
    (s.withPath (Path.refillS s.ctl.now 64 (judged s.path s.ctl m v))).finish.path.sPort.tx =
      some (x.fixed s.path s.ctl false) := by
  have drained : (judged s.path s.ctl m v).lostDrained := judged_lostDrained (fun h => absurd h hlink) (.inr (.inl hlink))
  have places := keeps_refillS s.ctl.now 64 (judged s.path s.ctl m v)
  have ends := places.trans (keeps_finish s.ctl s.idx (places.lostDrained drained))
  have piece : (judged s.path s.ctl m v).sPort.tx = some (x.fixed s.path s.ctl false) := by
    rw [judged_sPort]
    show s.path.sPort.tx.map _ = _
    rw [hx]
    exact congrArg some (if_pos hsends)
  exact (ends.sTx (.inl (by rw [piece]; nofun))).trans piece

/-- Settles O28, by what each verdict makes of the data path before held items take the places freed. -/
theorem storeAnswersAreTaken : Obligations.StoreAnswersAreTaken := by
  refine ⟨?_, fun items slot i h => lowestRef_spec h, ?_⟩
  · intro s port tag serial verdict m port' waits freed takes hl
    refine ⟨fun h => completes_finish (exec_storeAnswer_stale h) rfl hl, fun hm hs ha => ?_⟩
    obtain rfl := tag_of_message hm
    obtain rfl := hs
    exact ⟨completes_judged hl hm ha (.inl rfl), fun h =>
      ⟨completes_judged (v := .accept) hl hm ha (.inr h), completes_judged (v := .fail) hl hm ha (.inr h)⟩⟩
  · intro s tag serial verdict m x hlink hm hs ha hx hsends
    obtain rfl := tag_of_message hm
    obtain rfl := hs
    have hex := exec_storeAnswer_taken (v := verdict) hm rfl ha
    rw [takeAnswer_eq] at hex
    have htx := judged_tx (v := verdict) hlink hx hsends
    refine ⟨_, _, hex, htx, fixed_sending .., ?_⟩
    unfold State.sLanes
    rw [htx, hx]
    obtain ⟨hprefix, hhead⟩ := frames_fixed s.path
      (s.withPath (Path.refillS s.ctl.now 64 (judged s.path s.ctl m verdict))).finish.path s.ctl x
    exact ⟨hprefix, fun _ => hhead⟩

end Sys2Proof.Machine.StoreLinkLoss
end
